-- ==== Sys2Proof/Word.lean ====
section
/-! DEFINITION. The word types of the YN8 and their plainest operations: 64-bit scalar words, tags, the closed
sets of names the instruction words draw from (scopes, orders, thread kinds), bit-field reads, and the
association lists in which the state keeps sparse data. -/

namespace Sys2Proof

abbrev Byte := BitVec 8
/-- A scalar register's 64 bits (R71). -/
abbrev Word := BitVec 64
/-- A region tag; 255 means untagged (R71). -/
abbrev Tag := BitVec 8
/-- A scalar register number x0-x31. -/
abbrev XReg := BitVec 5
/-- A vector register number v0-v63. -/
abbrev VReg := BitVec 6

/-- The tag that means "untagged" (R71). -/
def untag : Tag := 255#8

/-- Thread kinds of R41: access thread, execute thread, Puppeteer core. -/
inductive Kind where
  | A | X | F
deriving DecidableEq, Repr, Inhabited

/-- Scope codes 0-4 of R38. -/
inductive Scope where
  | pair | cluster | die | pkg | sys
deriving DecidableEq, Repr, Inhabited

/-- Order codes 0-3 of R38. -/
inductive Order where
  | rlx | acq | rel | acqrel
deriving DecidableEq, Repr, Inhabited

def Scope.code : Scope → BitVec 3
  | .pair => 0#3 | .cluster => 1#3 | .die => 2#3 | .pkg => 3#3 | .sys => 4#3

def Order.code : Order → BitVec 2
  | .rlx => 0#2 | .acq => 1#2 | .rel => 2#2 | .acqrel => 3#2

def Order.hasAcq : Order → Bool
  | .acq => true | .acqrel => true | .rlx => false | .rel => false

def Order.hasRel : Order → Bool
  | .rel => true | .acqrel => true | .rlx => false | .acq => false

/-- Kind codes ka, kb of R31 (0b11 is reserved and never decoded). -/
inductive SrcKind where
  | vreg | bscalar | queue
deriving DecidableEq, Repr, Inhabited

def SrcKind.code : SrcKind → BitVec 2
  | .vreg => 0#2 | .bscalar => 1#2 | .queue => 2#2

/-- The fields of a block word (R30) other than op and fn; ca, cb, cc are the chain bits. -/
structure BlkW where
  vd : VReg := 0#6
  sa : VReg := 0#6
  sb : VReg := 0#6
  sc : VReg := 0#6
  ca : Bool := false
  cb : Bool := false
  cc : Bool := false
  cv : Bool := false
  m : BitVec 3 := 0#3
  mn : Bool := false
  xe : Bool := false
  xm : BitVec 3 := 0#3
  fs : BitVec 3 := 0#3
  ka : SrcKind := .vreg
  kb : SrcKind := .vreg
deriving DecidableEq, Repr, Inhabited

/-- The words of an instruction: a scalar word, a block word, or none for an event. -/
inductive Enc where
  | w32 (w : Nat)
  | w64 (w : Nat)
  | none
deriving DecidableEq, Repr

/-- Why a word names no instruction: its opcode is unassigned; a family member, condition or queue number is reserved; a
field that must be zero is not; a field's value is one its row does not allow; a scope or order code is illegal; a source
kind is reserved; the bytes are too few. -/
inductive Bad where
  | opcode | member | zero | field | code | kind | short
deriving DecidableEq, Repr

/-- Bits hi..lo of a natural number, hi inclusive (R2). -/
def bits (w hi lo : Nat) : Nat := (w >>> lo) % 2 ^ (hi + 1 - lo)

/-- Bit i of a natural number. -/
def bitOf (w i : Nat) : Bool := w.testBit i

/-- The low k bits of n read in two's complement. -/
def signed (k n : Nat) : Int :=
  let m := n % 2 ^ k
  if m < 2 ^ (k - 1) then (m : Int) else (m : Int) - (2 ^ k : Nat)

/-- An integer wrapped to k bits. -/
def wrap (k : Nat) (x : Int) : Nat := (x % ((2 ^ k : Nat) : Int)).toNat

/-- Sign extension of a k-bit field to a scalar word. -/
def sextW {k : Nat} (x : BitVec k) : Word := x.signExtend 64

/-- Zero extension of a k-bit field to a scalar word. -/
def zextW {k : Nat} (x : BitVec k) : Word := x.zeroExtend 64

/-- A Boolean as the word 0 or 1. -/
def flagW (b : Bool) : Word := if b then 1#64 else 0#64

/-! Sparse tables: lists of (key, value) pairs with strictly rising keys. -/

abbrev Tab (α : Type) := List (Nat × α)

/-- The value at a key, or the default when the key is not listed. -/
def Tab.get {α : Type} (d : α) : Tab α → Nat → α
  | [], _ => d
  | (k', v) :: t, k => if k = k' then v else if k < k' then d else Tab.get d t k

/-- Put a value at a key, keeping the keys rising. -/
def Tab.set {α : Type} : Tab α → Nat → α → Tab α
  | [], k, v => [(k, v)]
  | (k', v') :: t, k, v =>
    if k = k' then (k, v) :: t
    else if k < k' then (k, v) :: (k', v') :: t
    else (k', v') :: Tab.set t k v

/-- Take a key out. -/
def Tab.del {α : Type} (t : Tab α) (k : Nat) : Tab α := t.filter (fun p => p.1 != k)

/-- Put an element into a sorted list, after those it does not precede. -/
def insertBy {α : Type} (le : α → α → Bool) (x : α) : List α → List α
  | [] => [x]
  | y :: t => if le y x then y :: insertBy le x t else x :: y :: t

/-- A stable sort. -/
def sortBy {α : Type} (le : α → α → Bool) (l : List α) : List α := l.foldl (fun acc x => insertBy le x acc) []

/-- The keys rise strictly from a bound. -/
def Tab.risingFrom {α : Type} : Nat → Tab α → Bool
  | _, [] => true
  | b, (k, _) :: t => decide (b ≤ k) && Tab.risingFrom (k + 1) t

end Sys2Proof
end

