-- ==== Sys2Proof/Syntax.lean ====
section
/-! DEFINITION. The instructions of the YN8: one constructor for each row of the opcode table. The first run are the
scalar words (R41, R42), the second the block words (R45), the third the steps of the machine that are no words
(the table's events). An event's operands name the agent, the context or the packet it concerns, and the choices
its rule leaves to the Puppeteer, to a peer or to the host. -/

namespace Sys2Proof

inductive Instr where
  -- scalar words
  /-- `add` (R73): Writes xd := xa + xb modulo 2^64, with the tag propagated by R72. -/
  | add (d : XReg) (a : XReg) (b : XReg)
  /-- `sub` (R73): Writes xd := xa − xb modulo 2^64. -/
  | sub (d : XReg) (a : XReg) (b : XReg)
  /-- `and` (R73): Writes the bitwise and of xa and xb. -/
  | and_ (d : XReg) (a : XReg) (b : XReg)
  /-- `or` (R73): Writes the bitwise or of xa and xb. -/
  | or_ (d : XReg) (a : XReg) (b : XReg)
  /-- `xor` (R73): Writes the bitwise xor of xa and xb. -/
  | xor_ (d : XReg) (a : XReg) (b : XReg)
  /-- `sll` (R73): Shifts xa left by xb[5:0]. -/
  | sll (d : XReg) (a : XReg) (b : XReg)
  /-- `srl` (R73): Shifts xa right logically by xb[5:0]. -/
  | srl (d : XReg) (a : XReg) (b : XReg)
  /-- `sra` (R73): Shifts xa right arithmetically by xb[5:0]. -/
  | sra (d : XReg) (a : XReg) (b : XReg)
  /-- `slt` (R73): Writes 1 if xa < xb signed, else 0. -/
  | slt (d : XReg) (a : XReg) (b : XReg)
  /-- `sltu` (R73): Writes 1 if xa < xb unsigned, else 0. -/
  | sltu (d : XReg) (a : XReg) (b : XReg)
  /-- `seq` (R73): Writes 1 if xa equals xb, else 0. -/
  | seq_ (d : XReg) (a : XReg) (b : XReg)
  /-- `sne` (R73): Writes 1 if xa differs from xb, else 0. -/
  | sne (d : XReg) (a : XReg) (b : XReg)
  /-- `min` (R73): Writes the signed minimum of xa and xb. -/
  | min_ (d : XReg) (a : XReg) (b : XReg)
  /-- `max` (R73): Writes the signed maximum of xa and xb. -/
  | max_ (d : XReg) (a : XReg) (b : XReg)
  /-- `minu` (R73): Writes the unsigned minimum of xa and xb. -/
  | minu (d : XReg) (a : XReg) (b : XReg)
  /-- `maxu` (R73): Writes the unsigned maximum of xa and xb. -/
  | maxu (d : XReg) (a : XReg) (b : XReg)
  /-- `andn` (R73): Writes xa & ~xb. -/
  | andn (d : XReg) (a : XReg) (b : XReg)
  /-- `orn` (R73): Writes xa | ~xb. -/
  | orn (d : XReg) (a : XReg) (b : XReg)
  /-- `clz` (R73): Writes the count of leading zero bits of xa. -/
  | clz (d : XReg) (a : XReg)
  /-- `ctz` (R73): Writes the count of trailing zero bits of xa. -/
  | ctz (d : XReg) (a : XReg)
  /-- `popc` (R73): Writes the count of one bits in xa. -/
  | popc (d : XReg) (a : XReg)
  /-- `sextb` (R73): Sign-extends xa[7:0]. -/
  | sextb (d : XReg) (a : XReg)
  /-- `sexth` (R73): Sign-extends xa[15:0]. -/
  | sexth (d : XReg) (a : XReg)
  /-- `sextw` (R73): Sign-extends xa[31:0]. -/
  | sextw (d : XReg) (a : XReg)
  /-- `zextw` (R73): Zero-extends xa[31:0]. -/
  | zextw (d : XReg) (a : XReg)
  /-- `rol` (R73): Rotates xa left by xb[5:0]. -/
  | rol (d : XReg) (a : XReg) (b : XReg)
  /-- `ror` (R73): Rotates xa right by xb[5:0]. -/
  | ror (d : XReg) (a : XReg) (b : XReg)
  /-- `mul` (R74): Writes the low 64 bits of xa × xb. -/
  | mul_ (d : XReg) (a : XReg) (b : XReg)
  /-- `mulh` (R74): Writes the high 64 bits of the signed product. -/
  | mulh (d : XReg) (a : XReg) (b : XReg)
  /-- `mulhu` (R74): Writes the high 64 bits of the unsigned product. -/
  | mulhu (d : XReg) (a : XReg) (b : XReg)
  /-- `mulhsu` (R74): Writes the high 64 bits of the signed-by-unsigned product. -/
  | mulhsu (d : XReg) (a : XReg) (b : XReg)
  /-- `div` (R74): Signed division toward zero, with the divide-by-zero and overflow fates and flags of R74. -/
  | div_ (d : XReg) (a : XReg) (b : XReg)
  /-- `divu` (R74): Unsigned division, with the divide-by-zero fate and DZ flag. -/
  | divu (d : XReg) (a : XReg) (b : XReg)
  /-- `rem` (R74): Signed remainder, with the fates of R74. -/
  | rem (d : XReg) (a : XReg) (b : XReg)
  /-- `remu` (R74): Unsigned remainder, with the fates of R74. -/
  | remu (d : XReg) (a : XReg) (b : XReg)
  /-- `addi` (R75): Writes xa + sext(imm), keeping the tag of xa. -/
  | addi (d : XReg) (a : XReg) (imm : BitVec 15)
  /-- `andi` (R75): Writes xa & sext(imm). -/
  | andi (d : XReg) (a : XReg) (imm : BitVec 15)
  /-- `ori` (R75): Writes xa | zext(imm). -/
  | ori (d : XReg) (a : XReg) (imm : BitVec 15)
  /-- `xori` (R75): Writes xa ^ sext(imm). -/
  | xori (d : XReg) (a : XReg) (imm : BitVec 15)
  /-- `slti` (R75): Writes 1 if xa < sext(imm) signed. -/
  | slti (d : XReg) (a : XReg) (imm : BitVec 15)
  /-- `sltiu` (R75): Writes 1 if xa < sext(imm) unsigned. -/
  | sltiu (d : XReg) (a : XReg) (imm : BitVec 15)
  /-- `slli` (R76): Shifts xa left by an immediate amount. -/
  | slli (d : XReg) (a : XReg) (amt : BitVec 6)
  /-- `srli` (R76): Shifts xa right logically by an immediate amount. -/
  | srli (d : XReg) (a : XReg) (amt : BitVec 6)
  /-- `srai` (R76): Shifts xa right arithmetically by an immediate amount. -/
  | srai (d : XReg) (a : XReg) (amt : BitVec 6)
  /-- `rori` (R76): Rotates xa right by an immediate amount. -/
  | rori (d : XReg) (a : XReg) (amt : BitVec 6)
  /-- `lui` (R77): Writes xd := sext(imm << 12). -/
  | lui (d : XReg) (imm : BitVec 20)
  /-- `luh` (R77): Writes imm into xd[51:32], keeps the other bits and untags xd. -/
  | luh (d : XReg) (imm : BitVec 20)
  /-- `adpc` (R77): Writes PC + sext(imm << 12), tagged with the code region of the PC. -/
  | adpc (d : XReg) (imm : BitVec 20)
  /-- `beq` (R78): Branches if xa equals xb, checking the target by R81. -/
  | beq (a : XReg) (b : XReg) (off : BitVec 12)
  /-- `bne` (R78): Branches if xa differs from xb. -/
  | bne (a : XReg) (b : XReg) (off : BitVec 12)
  /-- `blt` (R78): Branches if xa < xb signed. -/
  | blt (a : XReg) (b : XReg) (off : BitVec 12)
  /-- `bge` (R78): Branches if xa >= xb signed. -/
  | bge (a : XReg) (b : XReg) (off : BitVec 12)
  /-- `bltu` (R78): Branches if xa < xb unsigned. -/
  | bltu (a : XReg) (b : XReg) (off : BitVec 12)
  /-- `bgeu` (R78): Branches if xa >= xb unsigned. -/
  | bgeu (a : XReg) (b : XReg) (off : BitVec 12)
  /-- `jl` (R79): Writes the link tagged with the code region and jumps PC-relative. -/
  | jl (d : XReg) (off : BitVec 20)
  /-- `jlr` (R80): Jumps to xa + sext(imm) with xa's tag, writing the link, after the target checks of R81. -/
  | jlr (d : XReg) (a : XReg) (imm : BitVec 15)
  /-- `qbt` (R83): Pops bq in the X thread, stalling while it is empty, and branches if the outcome is true. -/
  | qbt (off : BitVec 12)
  /-- `qbf` (R83): Pops bq in the X thread, stalling while it is empty, and branches if the outcome is false. -/
  | qbf (off : BitVec 12)
  /-- `ldb` (R98): Loads a sign-extended byte after the access checks of R95. -/
  | ldb (d : XReg) (a : XReg) (imm : BitVec 15)
  /-- `ldh` (R98): Loads a sign-extended halfword. -/
  | ldh (d : XReg) (a : XReg) (imm : BitVec 15)
  /-- `ldw` (R98): Loads a sign-extended word. -/
  | ldw (d : XReg) (a : XReg) (imm : BitVec 15)
  /-- `ldd` (R98): Loads a doubleword. -/
  | ldd (d : XReg) (a : XReg) (imm : BitVec 15)
  /-- `ldbu` (R98): Loads a zero-extended byte. -/
  | ldbu (d : XReg) (a : XReg) (imm : BitVec 15)
  /-- `ldhu` (R98): Loads a zero-extended halfword. -/
  | ldhu (d : XReg) (a : XReg) (imm : BitVec 15)
  /-- `ldwu` (R98): Loads a zero-extended word. -/
  | ldwu (d : XReg) (a : XReg) (imm : BitVec 15)
  /-- `stb` (R98): Stores the low byte of xs. -/
  | stb (xs : XReg) (a : XReg) (imm : BitVec 15)
  /-- `sth` (R98): Stores the low halfword of xs. -/
  | sth (xs : XReg) (a : XReg) (imm : BitVec 15)
  /-- `stw` (R98): Stores the low word of xs. -/
  | stw (xs : XReg) (a : XReg) (imm : BitVec 15)
  /-- `std` (R98): Stores the doubleword xs. -/
  | std (xs : XReg) (a : XReg) (imm : BitVec 15)
  /-- `ldo` (R100): Ordered load with order and scope, with the cache write-back and invalidation of R100. -/
  | ldo (d : XReg) (a : XReg) (sc : Scope) (ord : Order) (sz : BitVec 3)
  /-- `sto` (R100): Ordered store of xb with order and scope. -/
  | sto (a : XReg) (b : XReg) (sc : Scope) (ord : Order) (sz : BitVec 3)
  /-- `amo.add` (R101): Atomic add at the home, returning the old value. -/
  | amoAdd (d : XReg) (a : XReg) (b : XReg) (sc : Scope) (ord : Order) (word : Bool)
  /-- `amo.and` (R101): Atomic and at the home, returning the old value. -/
  | amoAnd (d : XReg) (a : XReg) (b : XReg) (sc : Scope) (ord : Order) (word : Bool)
  /-- `amo.or` (R101): Atomic or at the home, returning the old value. -/
  | amoOr (d : XReg) (a : XReg) (b : XReg) (sc : Scope) (ord : Order) (word : Bool)
  /-- `amo.xor` (R101): Atomic xor at the home, returning the old value. -/
  | amoXor (d : XReg) (a : XReg) (b : XReg) (sc : Scope) (ord : Order) (word : Bool)
  /-- `amo.min` (R101): Atomic signed minimum, returning the old value. -/
  | amoMin (d : XReg) (a : XReg) (b : XReg) (sc : Scope) (ord : Order) (word : Bool)
  /-- `amo.max` (R101): Atomic signed maximum, returning the old value. -/
  | amoMax (d : XReg) (a : XReg) (b : XReg) (sc : Scope) (ord : Order) (word : Bool)
  /-- `amo.minu` (R101): Atomic unsigned minimum, returning the old value. -/
  | amoMinu (d : XReg) (a : XReg) (b : XReg) (sc : Scope) (ord : Order) (word : Bool)
  /-- `amo.maxu` (R101): Atomic unsigned maximum, returning the old value. -/
  | amoMaxu (d : XReg) (a : XReg) (b : XReg) (sc : Scope) (ord : Order) (word : Bool)
  /-- `amo.swap` (R101): Atomic swap, returning the old value. -/
  | amoSwap (d : XReg) (a : XReg) (b : XReg) (sc : Scope) (ord : Order) (word : Bool)
  /-- `amo.cas` (R101): Atomic compare-and-swap against xd, always returning the old value. -/
  | amoCas (d : XReg) (a : XReg) (b : XReg) (sc : Scope) (ord : Order) (word : Bool)
  /-- `fence` (R103): Full fence at a scope, optionally including engine work, with the cache write-back and invalidation. -/
  | fence (sc : Scope) (eng : Bool)
  /-- `fence.acq` (R103): Acquire fence at a scope. -/
  | fenceAcq (sc : Scope) (eng : Bool)
  /-- `fence.rel` (R103): Release fence at a scope. -/
  | fenceRel (sc : Scope) (eng : Bool)
  /-- `ldslot` (R107): Loads a slot word and yields a current tagged address, move-stalling on a MOVING region. -/
  | ldslot (d : XReg) (a : XReg) (imm : BitVec 15)
  /-- `stslot` (R108): Stores xs as a slot word in offset form if tagged, absolute form otherwise. -/
  | stslot (xs : XReg) (a : XReg) (imm : BitVec 15)
  /-- `tagset` (R109): Copies xa to xd and gives xd the immediate tag. -/
  | tagset (d : XReg) (a : XReg) (t : Tag)
  /-- `tagrd` (R110): Writes the tag of xa as an untagged value. -/
  | tagrd (d : XReg) (a : XReg)
  /-- `safept` (R113): A safe point that takes the due move, debugger-stop and save actions without beginning a strip. -/
  | safept
  /-- `racq` (R112): Waits until a region is RESIDENT, posting a request, then acts as an acquire at system scope. -/
  | racq (rgn : BitVec 8)
  /-- `rgnq` (R111): Reads one selected field of a region-table entry without stalling. -/
  | rgnq (d : XReg) (sel : BitVec 4) (rgn : BitVec 8)
  /-- `qpush` (R122): The A thread pushes xa onto sq, stalling while it is full. -/
  | qpushSq (a : XReg)
  /-- `qpush` (R120): The X thread pushes xa as a one-element row onto the downstream stage queue. -/
  | qpushDownstream (a : XReg)
  /-- `qpop` (R123): The X thread pops the head of sq into xd, stalling while it is empty. -/
  | qpopSq (d : XReg)
  /-- `qpop` (R123): The X thread pops the head of rq into xd. -/
  | qpopRq (d : XReg)
  /-- `qpop` (R123): The X thread pops element 0 of the upstream head row into xd. -/
  | qpopUpstream (d : XReg)
  /-- `bout` (R82): The A thread pushes the outcome xa != 0 onto bq, stalling while it is full. -/
  | bout (a : XReg)
  /-- `setvl` (R162): Takes the safe-point actions of R18, then grants VL under the partition in force and begins a strip. -/
  | setvl (d : XReg) (a : XReg) (b : XReg) (blk : BitVec 3) (lmul : BitVec 2) (sew : BitVec 3)
  /-- `setrc` (R169): Sets the X thread's row count RC. -/
  | setrc (n : BitVec 4)
  /-- `vfetch` (R170): Dispatches a block at a PC-relative target into the block queue, stalling while it is full. -/
  | vfetch (off : BitVec 20)
  /-- `vfetchr` (R170): Dispatches a block at xa + sext(imm). -/
  | vfetchr (a : XReg) (imm : BitVec 15)
  /-- `vwait` (R172): Waits until the block queue is empty. -/
  | vwait
  /-- `vld` (R126): Loads one unit-stride row into a queue q0–q3. -/
  | vld (q : BitVec 2) (a : XReg) (sc : Scope) (ord : Order) (ordd : Bool) (ew : BitVec 3)
  /-- `vlds` (R126): Loads one strided row into a queue. -/
  | vlds (q : BitVec 2) (a : XReg) (b : XReg) (sc : Scope) (ord : Order) (ordd : Bool) (ew : BitVec 3)
  /-- `vldx` (R126): Loads one indexed row into a queue, with indices from iq. -/
  | vldx (q : BitVec 2) (a : XReg) (sc : Scope) (ord : Order) (ordd : Bool) (ew : BitVec 3)
  /-- `vst` (R126): Stores the head row of s0 or s1 at unit stride. -/
  | vst (q : BitVec 1) (a : XReg) (sc : Scope) (ord : Order) (ordd : Bool) (ew : BitVec 3)
  /-- `vsti` (R129): Image store: stores a row and has the Kaleidoscope write its symmetry images. -/
  | vsti (q : BitVec 1) (a : XReg) (sc : Scope) (ord : Order) (ordd : Bool) (ew : BitVec 3)
  /-- `vsts` (R126): Stores the head row at a stride. -/
  | vsts (q : BitVec 1) (a : XReg) (b : XReg) (sc : Scope) (ord : Order) (ordd : Bool) (ew : BitVec 3)
  /-- `vstx` (R126): Scatters the head row at indices from iq. -/
  | vstx (q : BitVec 1) (a : XReg) (sc : Scope) (ord : Order) (ordd : Bool) (ew : BitVec 3)
  /-- `vsta` (R130): Scatter-add: combines equal addresses, then adds atomically at home. -/
  | vsta (q : BitVec 1) (a : XReg) (sc : Scope) (ord : Order) (fmt : BitVec 5)
  /-- `vstr` (R131): Remote scatter in trains per destination, completing when every train is acknowledged. -/
  | vstr (q : BitVec 1) (a : XReg) (sc : Scope) (ord : Order) (ordd : Bool) (ew : BitVec 3)
  /-- `sdef` (R139): Reads and checks a stream descriptor and defines the stream. -/
  | sdef (sm : BitVec 4) (a : XReg) (imm : BitVec 15)
  /-- `sbind` (R140): Binds a stream to a port and an optional channel. -/
  | sbind (sm : BitVec 4) (used : Bool) (ch : BitVec 3) (port : BitVec 4)
  /-- `sgo` (R141): Queues a stream for Dolly, or resumes a faulted one. -/
  | sgo (sm : BitVec 4)
  /-- `sbar.cfg` (R144): Later streams start only after earlier ones reach RELEASED. -/
  | sbarCfg
  /-- `sbar.phase` (R144): Later streams start only after earlier ones reach VISIBLE. -/
  | sbarPhase
  /-- `sbar.ift` (R144): The next sgo runs its stream only if the latest bout pushed true. -/
  | sbarIft
  /-- `sbar.iff` (R144): The next sgo runs its stream only if the latest bout pushed false. -/
  | sbarIff
  /-- `wmwait` (R148): Waits until the byte at xa lies below the channel's watermark. -/
  | wmwait (a : XReg) (ch : BitVec 3)
  /-- `cpwait.rel` (R149): Waits until a stream reaches RELEASED. -/
  | cpwaitRel (sm : BitVec 4)
  /-- `cpwait.vis` (R149): Waits until a stream reaches VISIBLE, then acts as an acquire at its scope. -/
  | cpwaitVis (sm : BitVec 4)
  /-- `jsub` (R154): Reads a job card and submits it to the die's job scheduler, returning the acceptance status. -/
  | jsub (d : XReg) (a : XReg) (imm : BitVec 15)
  /-- `sstat` (R150): Writes a stream's status word without stalling. -/
  | sstat (d : XReg) (sm : BitVec 4)
  /-- `wbfill` (R231): Checks a fill header and starts, or queues, a fill of a weight-buffer bank. -/
  | wbfill (n : BitVec 2) (a : XReg) (imm : BitVec 15)
  /-- `wbwait` (R233): Waits until the bank's fills end and returns its status. -/
  | wbwait (d : XReg) (n : BitVec 2)
  /-- `bar` (R250): Cohort barrier with a full fence at cluster scope. -/
  | bar
  /-- `sigadd` (R253): Adds to a signal atomically at its home, returning the old value. -/
  | sigadd (d : XReg) (a : XReg) (b : XReg) (sc : Scope) (ord : Order)
  /-- `sigset` (R253): Sets a signal at its home. -/
  | sigset (a : XReg) (b : XReg) (sc : Scope) (ord : Order)
  /-- `sigwge` (R254): Waits until a signal is at least xb, unsigned. -/
  | sigwge (d : XReg) (a : XReg) (b : XReg) (sc : Scope) (ord : Order)
  /-- `sigweq` (R254): Waits until a signal equals xb. -/
  | sigweq (d : XReg) (a : XReg) (b : XReg) (sc : Scope) (ord : Order)
  /-- `enq` (R256): Copies a packet onto a ring, publishes it with release and kicks the die. -/
  | enq (d : XReg) (a : XReg) (b : XReg)
  /-- `symq` (R286): Returns the point's symmetry information. -/
  | symq (d : XReg)
  /-- `svc` (R292): Raises a service-call trap with the service number. -/
  | svc (imm : BitVec 20)
  /-- `tret` (R294): Resumes a parked pair named by TRETSEL, or returns from the F core's own trap. -/
  | tret
  /-- `csrr` (R295): Reads a CSR. -/
  | csrr (d : XReg) (n : BitVec 12)
  /-- `csrw` (R295): Writes a CSR and returns its old value. -/
  | csrw (d : XReg) (a : XReg) (n : BitVec 12)
  /-- `csrs` (R295): Sets CSR bits and returns the old value. -/
  | csrs (d : XReg) (a : XReg) (n : BitVec 12)
  /-- `csrc` (R295): Clears CSR bits and returns the old value. -/
  | csrc (d : XReg) (a : XReg) (n : BitVec 12)
  /-- `cueret` (R321): Returns from a cue to CUEPC and restores the main bank. -/
  | cueret
  /-- `park` (R297): Takes the safept actions, then waits for a cue. -/
  | park
  /-- `exit` (R299): Ends the thread after its streams or blocks drain, with a full system fence. -/
  | exit
  /-- `yield` (R298): Takes the safept actions and may invite a soft pre-emption of the group. -/
  | yield
  /-- `trc` (R326): Offers a trc event to the triggers and records a trc Slate. -/
  | trc (a : XReg) (code : BitVec 15)
  /-- `brk` (R327): Raises a breakpoint trap. -/
  | brk (code : BitVec 20)
  /-- `fvld` (R347): F core loads 64 bytes into an fv register. -/
  | fvld (v : BitVec 4) (a : XReg) (imm : BitVec 15)
  /-- `fvst` (R347): F core stores an fv register. -/
  | fvst (v : BitVec 4) (a : XReg) (imm : BitVec 15)
  /-- `fvand` (R348): Bitwise and of fv registers. -/
  | fvand (d : BitVec 4) (a : BitVec 4) (b : BitVec 4) (ew : BitVec 2)
  /-- `fvor` (R348): Bitwise or of fv registers. -/
  | fvor (d : BitVec 4) (a : BitVec 4) (b : BitVec 4) (ew : BitVec 2)
  /-- `fvandn` (R348): Bitwise and-not of fv registers. -/
  | fvandn (d : BitVec 4) (a : BitVec 4) (b : BitVec 4) (ew : BitVec 2)
  /-- `fvxor` (R348): Bitwise xor of fv registers. -/
  | fvxor (d : BitVec 4) (a : BitVec 4) (b : BitVec 4) (ew : BitVec 2)
  /-- `fvcmpeq` (R348): Elementwise equal compare. -/
  | fvcmpeq (d : BitVec 4) (a : BitVec 4) (b : BitVec 4) (ew : BitVec 2)
  /-- `fvcmpne` (R348): Elementwise not-equal compare. -/
  | fvcmpne (d : BitVec 4) (a : BitVec 4) (b : BitVec 4) (ew : BitVec 2)
  /-- `fvcmplt` (R348): Elementwise unsigned less-than compare. -/
  | fvcmplt (d : BitVec 4) (a : BitVec 4) (b : BitVec 4) (ew : BitVec 2)
  /-- `fvcmpgt` (R348): Elementwise unsigned greater-than compare. -/
  | fvcmpgt (d : BitVec 4) (a : BitVec 4) (b : BitVec 4) (ew : BitVec 2)
  /-- `fvbcast` (R348): Broadcasts a scalar register into every element. -/
  | fvbcast (d : BitVec 4) (a : XReg) (ew : BitVec 2)
  /-- `fvff` (R349): Returns the index of the lowest set bit, or 512. -/
  | fvff (d : XReg) (a : BitVec 4)
  /-- `fvpopc` (R349): Returns the count of set bits. -/
  | fvpopc (d : XReg) (a : BitVec 4)
  /-- `vfetchw` (R46): Deprecated vfetch followed by vwait, counted in DEPCNT. -/
  | vfetchw (off : BitVec 20)
  /-- `ldslot32` (R46): Deprecated load of a 32-bit YN5 slot, yielding a tagged address. -/
  | ldslot32 (d : XReg) (a : XReg) (imm : BitVec 15)
  /-- `sync` (R46): Deprecated full fence at system scope with engines. -/
  | sync
  /-- `qpopw` (R46): Deprecated pop of sq with sign extension of the low word. -/
  | qpopw (d : XReg)
  -- block words
  /-- `stop` (R181): Ends the current fragment, popping the lowest pending fragment or retiring the block. -/
  | stop
  /-- `vnop` (R181): Block word that does nothing. -/
  | vnop
  /-- `vbr` (R179): Divergent branch over the tile that parks the taken part in the pending-fragment buffer. -/
  | vbr (mk : BitVec 3) (mn : Bool) (off : BitVec 24)
  /-- `vrejoin` (R180): Parks the current fragment at the join PC and pops the lowest entry. -/
  | vrejoin
  /-- `vret` (R184): Pushes element 0 of each row to rq. -/
  | vret (w : BlkW)
  /-- `vout` (R220): Pushes RC rows to s0, s1 or the downstream queue. -/
  | vout (w : BlkW) (dst : BitVec 2)
  /-- `vidxq` (R220): Pushes RC index rows to iq. -/
  | vidxq (w : BlkW)
  /-- `vadd` (R192): Elementwise integer add, optionally saturating. -/
  | vadd (w : BlkW) (sat : Bool)
  /-- `vsub` (R192): Elementwise integer subtract, optionally saturating. -/
  | vsub (w : BlkW) (sat : Bool)
  /-- `vmul` (R192): Elementwise integer multiply, optionally saturating. -/
  | vmul (w : BlkW) (sat : Bool)
  /-- `vmulh` (R192): Elementwise high half of the integer product. -/
  | vmulh (w : BlkW)
  /-- `vdiv` (R193): Elementwise integer division with the DZ and OF fates. -/
  | vdiv (w : BlkW)
  /-- `vrem` (R193): Elementwise integer remainder. -/
  | vrem (w : BlkW)
  /-- `vand` (R192): Elementwise bitwise and. -/
  | vand (w : BlkW)
  /-- `vor` (R192): Elementwise bitwise or. -/
  | vor (w : BlkW)
  /-- `vxor` (R192): Elementwise bitwise xor. -/
  | vxor (w : BlkW)
  /-- `vsll` (R192): Elementwise shift left. -/
  | vsll (w : BlkW)
  /-- `vsrl` (R192): Elementwise logical shift right. -/
  | vsrl (w : BlkW)
  /-- `vsra` (R192): Elementwise arithmetic shift right. -/
  | vsra (w : BlkW)
  /-- `vmin` (R192): Elementwise minimum of exact values. -/
  | vmin (w : BlkW)
  /-- `vmax` (R192): Elementwise maximum of exact values. -/
  | vmax (w : BlkW)
  /-- `vadc` (R194): Add with carry-in and carry-out masks. -/
  | vadc (w : BlkW) (ci : BitVec 3) (co : BitVec 3)
  /-- `vsbc` (R194): Subtract with borrow-in and borrow-out masks. -/
  | vsbc (w : BlkW) (ci : BitVec 3) (co : BitVec 3)
  /-- `vcmp` (R195): Integer compare into a mask. -/
  | vcmp (w : BlkW) (cond : BitVec 3)
  /-- `vfadd` (R196): Elementwise floating add, rounded once. -/
  | vfadd (w : BlkW)
  /-- `vfsub` (R196): Elementwise floating subtract. -/
  | vfsub (w : BlkW)
  /-- `vfmul` (R196): Elementwise floating multiply. -/
  | vfmul (w : BlkW)
  /-- `vfma` (R196): Elementwise fused multiply-add in four sign variants. -/
  | vfma (w : BlkW) (mem : BitVec 2)
  /-- `vfdiv` (R197): Elementwise correctly rounded division. -/
  | vfdiv (w : BlkW)
  /-- `vfsqrt` (R197): Elementwise square root. -/
  | vfsqrt (w : BlkW)
  /-- `vfmin` (R196): Elementwise floating minimum. -/
  | vfmin (w : BlkW)
  /-- `vfmax` (R196): Elementwise floating maximum. -/
  | vfmax (w : BlkW)
  /-- `vfcmp` (R198): Floating compare into a mask. -/
  | vfcmp (w : BlkW) (cond : BitVec 3)
  /-- `vfclass` (R199): Classifies each element into a one-hot integer. -/
  | vfclass (w : BlkW)
  /-- `vfsgn` (R200): Sign injection on bits. -/
  | vfsgn (w : BlkW) (mode : BitVec 2)
  /-- `vfsfn` (R197): Special function: rcp, rsqrt, exp2 or log2. -/
  | vfsfn (w : BlkW) (fn : BitVec 4)
  /-- `vcvt` (R201): Converts between formats, optionally quantising with block scales. -/
  | vcvt (w : BlkW)
  /-- `vbfly` (R202): Hadamard butterfly stage at distance 2^k, with the transient form of R203. -/
  | vbfly (w : BlkW) (k : BitVec 4) (tr : Bool)
  /-- `zld` (R205): Loads scale-register entries from a source. -/
  | zld (w : BlkW)
  /-- `zmv` (R205): Moves scale entries into a vector register. -/
  | zmv (w : BlkW)
  /-- `vrng` (R206): Fills elements with Philox random bits. -/
  | vrng (w : BlkW)
  /-- `mand` (R207): Mask and. -/
  | mand (w : BlkW)
  /-- `mor` (R207): Mask or. -/
  | mor (w : BlkW)
  /-- `mxor` (R207): Mask xor. -/
  | mxor (w : BlkW)
  /-- `mandn` (R207): Mask and-not. -/
  | mandn (w : BlkW)
  /-- `mnot` (R207): Mask not. -/
  | mnot (w : BlkW)
  /-- `mfirst` (R210): Pushes the first set index of each row to rq. -/
  | mfirst (w : BlkW)
  /-- `mpopc` (R210): Pushes the set-bit count of each row to rq. -/
  | mpopc (w : BlkW)
  /-- `mshift` (R209): Shifts mask bits within each row. -/
  | mshift (w : BlkW) (down : Bool) (n : BitVec 12)
  /-- `mset` (R208): Sets or clears mask positions. -/
  | mset (w : BlkW) (v : Bool)
  /-- `mmv` (R208): Copies a mask. -/
  | mmv (w : BlkW)
  /-- `vmv` (R216): Copies elements into vd. -/
  | vmv (w : BlkW)
  /-- `vmerge` (R216): Selects elements from a or b by a mask. -/
  | vmerge (w : BlkW)
  /-- `vid` (R216): Writes each element's index. -/
  | vid (w : BlkW)
  /-- `vslideup` (R217): Slides each row up by n. -/
  | vslideup (w : BlkW) (n : BitVec 13)
  /-- `vslidedn` (R217): Slides each row down by n. -/
  | vslidedn (w : BlkW) (n : BitVec 13)
  /-- `vrgather` (R218): Gathers elements by index within each row. -/
  | vrgather (w : BlkW)
  /-- `vcompress` (R219): Packs selected elements to the front of each row. -/
  | vcompress (w : BlkW)
  /-- `vredsum` (R221): Integer sum reduction of each row. -/
  | vredsum (w : BlkW)
  /-- `vfredsum` (R222): Floating sum reduction by tree or in sequence. -/
  | vfredsum (w : BlkW) (seq : Bool)
  /-- `vredmm` (R221): Integer min or max reduction. -/
  | vredmm (w : BlkW) (mode : BitVec 2)
  /-- `vfredmm` (R223): Floating min or max reduction. -/
  | vfredmm (w : BlkW) (max : Bool)
  /-- `mrow` (R237): Runs tile rows through the matrix array against a bank with grouped accumulation. -/
  | mrow (w : BlkW) (bank : BitVec 2) (acc : Bool)
  /-- `mrow64` (R237): f64 matrix row with sequential fused accumulation. -/
  | mrow64 (w : BlkW) (bank : BitVec 2) (acc : Bool)
  /-- `vfmacc` (R46): Deprecated vfma with c equal to vd, counted in DEPCNT. -/
  | vfmacc (w : BlkW)
  -- events
  /-- `PARTITION_CHANGE_POST` (R167): The Puppeteer posts a partition change with its effective ordinal. -/
  | partitionChangePost (p : Nat) (groups : BitVec 8)
  /-- `LANE_LEND` (R168): A swap-faulted pair's vector state is saved and its lane groups lent to a borrower. -/
  | laneLend (p : Nat) (borrower : Nat)
  /-- `LEND_RETURN_TIMEOUT` (R25): A borrower that has not reached a strip 100 µs after the owner is runnable is hard pre-empted. -/
  | lendReturnTimeout (p : Nat)
  /-- `PAIR_TRAP` (R288): A trapping thread records the trap CSRs, the other thread stops and the pair parks. -/
  | pairTrap (p : Nat) (k : Kind) (cause : BitVec 8) (val : Word) (elem : BitVec 32)
  /-- `SWAP_FAULT` (R301): A residency stall that reaches STALLMAX becomes a swap fault served by the Puppeteer. -/
  | swapFault (p : Nat) (k : Kind)
  /-- `UNCORRECTABLE_DATA_ERROR` (R240): An uncorrectable error in lane, bank or array storage traps 0x0A at the word. -/
  | uncorrectableDataError (p : Nat) (report : BitVec 20) (elem : BitVec 32)
  /-- `CORRECTED_ERROR` (R240): A corrected soft error is fixed and counted in ERRCNT. -/
  | correctedError (die : Nat) (field : BitVec 2)
  /-- `CTXCMD_RESUME` (R291): Host command that resumes a parked pair at TRAPPC. -/
  | ctxcmdResume (die : Nat) (ctx : BitVec 10) (pr : BitVec 8)
  /-- `CTXCMD_SKIP` (R291): Host command that resumes the trapping thread at TRAPPC + 4. -/
  | ctxcmdSkip (die : Nat) (ctx : BitVec 10) (pr : BitVec 8)
  /-- `CTXCMD_TERMINATE` (R291): Host command that stops every pair of a context and discards its dirty lines. -/
  | ctxcmdTerminate (ctx : BitVec 10)
  /-- `CUE_DELIVERY` (R320): A fired source delivers a cue: shadow bank, CUEPC and jump to the handler. -/
  | cueDelivery (p : Nat) (k : Kind)
  /-- `KICK` (R260): A write to KICK sets the ring's pending bit on every die in SPAN. -/
  | kick (die : Nat) (ring : BitVec 12)
  /-- `RING_FETCH` (R264): The Clapper clears a set kick bit and reads packets forward from its cursor. -/
  | ringFetch (die : Nat) (ring : BitVec 12)
  /-- `TORN_RETRY` (R264): After 200 ns the Clapper rereads a torn packet and counts it in TORNCNT. -/
  | tornRetry (die : Nat) (ring : BitVec 12)
  /-- `LAUNCH_PACKET` (R268): A launch packet is checked and each SPAN die enumerates its share of take groups. -/
  | launchPacket (die : Nat) (ring : BitVec 12) (idx : Nat)
  /-- `SIGNAL_WRITE_PACKET` (R267): HOME performs a sigadd or sigset with release on the named signal. -/
  | signalWritePacket (die : Nat) (ring : BitVec 12) (idx : Nat)
  /-- `WAIT_PACKET` (R267): Each SPAN die waits on a signal and holds back later packets until satisfied. -/
  | waitPacket (die : Nat) (ring : BitVec 12) (idx : Nat)
  /-- `LINK_PACKET` (R264): A link moves the read cursor to the next reel. -/
  | linkPacket (die : Nat) (ring : BitVec 12) (idx : Nat)
  /-- `RESIDENCY_HINT` (R282): HOME's Puppeteer posts residency requests for the listed regions. -/
  | residencyHint (die : Nat) (ring : BitVec 12) (idx : Nat)
  /-- `RING_BARRIER` (R273): Holds back later packets until every earlier packet has retired. -/
  | ringBarrier (die : Nat) (ring : BitVec 12) (idx : Nat)
  /-- `NOP_PACKET` (R267): A packet that does nothing. -/
  | nopPacket (die : Nat) (ring : BitVec 12) (idx : Nat)
  /-- `JOB_CARD_PACKET` (R267): HOME's job scheduler takes the named card as jsub does, waiting while full. -/
  | jobCardPacket (die : Nat) (ring : BitVec 12) (idx : Nat)
  /-- `ADMISSION` (R275): The Puppeteer admits a take group whole onto a cluster and posts its pairs. -/
  | admission (die : Nat)
  /-- `ADMISSION_AGING` (R274): Each full millisecond of waiting raises a launch's current priority. -/
  | admissionAging (die : Nat) (ring : BitVec 12) (idx : Nat)
  /-- `PAIR_START` (R14): The Clapper resets a pair's state, loads entry registers and releases both threads. -/
  | pairStart (p : Nat)
  /-- `SHARE_END` (R271): When a die's pairs have exited it adds to DONE in the packet. -/
  | shareEnd (die : Nat) (ring : BitVec 12) (idx : Nat)
  /-- `COMPLETION_SIGNAL_WRITE` (R271): The last die resolves SIGS and performs the completion sigadd, waiting for residency or a move. -/
  | completionSignalWrite (die : Nat) (ring : BitVec 12) (idx : Nat)
  /-- `PREEMPT_SOFT` (R278): A soft pre-emption is posted and each thread is saved at its next safe point. -/
  | preemptSoft (die : Nat) (ring : BitVec 12) (idx : Nat) (grp : Nat)
  /-- `PREEMPT_HARD_TIMEOUT` (R278): A group not SAVED 100 µs after a soft pre-emption is hard pre-empted. -/
  | preemptHardTimeout (die : Nat) (ring : BitVec 12) (idx : Nat) (grp : Nat)
  /-- `PREEMPT_HARD` (R302): Every thread is saved at its current instruction within 20 µs. -/
  | preemptHard (die : Nat) (ring : BitVec 12) (idx : Nat) (grp : Nat)
  /-- `GROUP_RESTORE` (R276): A SAVED group is restored once resources are found on its die. -/
  | groupRestore (die : Nat) (ring : BitVec 12) (idx : Nat) (grp : Nat)
  /-- `REGION_TABLE_UPDATE` (R93): The Puppeteer writes a region entry and refreshes every region cache. -/
  | regionTableUpdate (ctx : BitVec 10) (rgn : BitVec 8) (entry : BitVec 256)
  /-- `REGION_EVICT` (R280): Purge, EVICTING, drain, write back and set ABSENT. -/
  | regionEvict (ctx : BitVec 10) (rgn : BitVec 8)
  /-- `REGION_ARRIVAL` (R281): A region's copy in completes and sets RESIDENT with release. -/
  | regionArrival (ctx : BitVec 10) (rgn : BitVec 8)
  /-- `MOVE_REQUEST` (R308): A move is checked, the region purged and set MOVING, and holders marked. -/
  | moveRequest (ctx : BitVec 10) (rgn : BitVec 8) (base : BitVec 52)
  /-- `MOVE_HOLDER_TIMEOUT` (R308): A holder not parked within 100 µs has its take group hard pre-empted. -/
  | moveHolderTimeout (ctx : BitVec 10) (rgn : BitVec 8)
  /-- `MOVE_COMMIT` (R308): After the drain, the move copies, patches, rebases save areas and commits. -/
  | moveCommit (ctx : BitVec 10) (rgn : BitVec 8)
  /-- `UNLOAD_CODE` (R316): A request to unload a code region, refused BUSY while any pair holds it. -/
  | unloadCode (ctx : BitVec 10) (rgn : BitVec 8)
  /-- `FORCED_RETIRE` (R317): A code region is purged and set RETIRED, and its holders are reported. -/
  | forcedRetire (ctx : BitVec 10) (rgn : BitVec 8)
  /-- `STREAM_START` (R142): Dolly starts a queued stream once its port, channel, edges, barriers and regions allow. -/
  | streamStart (p : Nat) (sm : BitVec 4)
  /-- `STREAM_TRANSFER` (R145): Dolly transfers and checks a stream element, advancing the watermark. -/
  | streamTransfer (p : Nat) (sm : BitVec 4)
  /-- `STREAM_RELEASED` (R149): A stream reaches RELEASED after reading every source element. -/
  | streamReleased (p : Nat) (sm : BitVec 4)
  /-- `STREAM_VISIBLE` (R149): A stream reaches VISIBLE and DONE when every write is performed at its scope. -/
  | streamVisible (p : Nat) (sm : BitVec 4)
  /-- `STREAM_FAULT` (R151): A failed element makes the stream FAULTED and the fault is delivered to the A thread. -/
  | streamFault (p : Nat) (sm : BitVec 4) (err : Bool)
  /-- `STREAM_SWAP_FAULT` (R152): A stream ready except for residency for STALLMAX raises a swap fault. -/
  | streamSwapFault (p : Nat) (sm : BitVec 4)
  /-- `JOB_CARD_START` (R155): The die's scheduler starts a card once its edges and regions allow. -/
  | jobCardStart (die : Nat) (card : Nat)
  /-- `JOB_CARD_COMPLETE` (R155): A card's writes are performed, J11 written and its signal added. -/
  | jobCardComplete (die : Nat) (card : Nat)
  /-- `JOB_CARD_FAULT` (R155): A faulting card writes JST 3 and JFIRST and delivers its fault. -/
  | jobCardFault (die : Nat) (card : Nat) (err : Bool)
  /-- `WB_FILL_START` (R231): A waiting fill starts when the current fill ends. -/
  | wbFillStart (cl : Nat) (bank : BitVec 2)
  /-- `WB_FILL_END` (R232): A fill ends READY, or BAD with WBERR on bad metadata or a data error. -/
  | wbFillEnd (cl : Nat) (bank : BitVec 2) (err : Option (Nat × Nat))
  /-- `PEER_REQUEST` (R363): A peer's request to the export aperture is served or answered with a failure. -/
  | peerRequest (op : Byte) (off : BitVec 33) (size : BitVec 4) (val : Word) (cmp : Word)
  /-- `FLIT_REPLAY` (R373): A flit that fails its check is replayed from the sender's buffer. -/
  | flitReplay (link : BitVec 4)
  /-- `DBG_STOP` (R339): Stops each thread of the context at its next safe point and saves it. -/
  | dbgStop (die : Nat) (ctx : BitVec 10)
  /-- `DBG_HARD_STOP` (R339): Stops each thread at its current instruction within 20 µs. -/
  | dbgHardStop (die : Nat) (ctx : BitVec 10)
  /-- `DBG_STEP` (R339): Reloads state and runs each thread to its next safe point. -/
  | dbgStep (die : Nat) (ctx : BitVec 10)
  /-- `DBG_RUN` (R339): Reloads state from the save area and continues. -/
  | dbgRun (die : Nat) (ctx : BitVec 10)
  /-- `TRIG_WRITE` (R335): A write to TRIGk; clearing EN closes the window without a Slate. -/
  | trigWrite (die : Nat) (k : BitVec 2) (val : Word)
  /-- `TRWR_WRITE` (R331): A host write to TRWR sets the count only while EN is 0. -/
  | trwrWrite (die : Nat) (val : Word)
  /-- `SAMPLE_CYCLES` (R337): In MODE 2, a CYCLE multiple of 2^max(N,12) writes a sample Slate per X thread. -/
  | sampleCycles (die : Nat)
  /-- `F_TRAP` (R345): An F core traps to FTVEC, or a trap with IN set starts a take-over. -/
  | fTrap (die : Nat) (cause : BitVec 8) (val : Word)
  /-- `SRAM_ERROR_FOUND` (R346): An uncorrectable SRAM error found on read starts a take-over or marks the Stand-in lost. -/
  | sramErrorFound (die : Nat) (core : Bool) (data : Bool)
  /-- `SCRUB_READ` (R346): The scrubber reads every word of both cores' SRAMs within each 10 ms. -/
  | scrubRead (die : Nat) (core : Bool) (data : Bool) (off : BitVec 18)
  /-- `TAKEOVER` (R357): Hardware sets HOLD and releases the Stand-in, which replays the journal and rescans. -/
  | takeover (die : Nat) (cause : BitVec 8)
  /-- `FIRMWARE_LOST` (R358): A failure with SPARE 0 stops the core, sets LOST and keeps HOLD. -/
  | firmwareLost (die : Nat) (cause : BitVec 8)
  /-- `FWSTAT_HOLD_CLEAR` (R356): Clearing HOLD performs the held completion writes in queue order. -/
  | fwstatHoldClear (die : Nat)
  /-- `JRNL_WRITE` (R351): The host's first write to JRNL creates the journal and enables journalled operations. -/
  | jrnlWrite (die : Nat) (val : Word)
  /-- `ADMPOST_POST` (R408): A write to POSTB posts an admission, started, ignored as a repeat, or refused. -/
  | admpostPost (die : Nat) (val : Word)
  /-- `FWNOTE_WRITE` (R409): A write to FWNOTE stores the value and raises the firmware message interrupt. -/
  | fwnoteWrite (die : Nat) (val : Word)
  /-- `ERRCNT_WRITE` (R346): A write to ERRCNT stores the written counts. -/
  | errcntWrite (die : Nat) (val : Word)
  /-- `DEVICE_REGISTER_WRITE` (R3): A write to a device register with no behaviour of its own stores it, or is ignored at undefined addresses. -/
  | deviceRegisterWrite (die : Nat) (off : BitVec 25) (val : Word)
  /-- `HOST_BAR4_READ` (R361): A host read of HBM through BAR4, all ones beyond SIZE or in a locked carve-out. -/
  | hostBar4Read (addr : BitVec 41)
  /-- `HOST_BAR4_WRITE` (R361): A host write to HBM through BAR4, dropped beyond SIZE or in a locked carve-out. -/
  | hostBar4Write (addr : BitVec 41) (val : Byte)
  /-- `VF_KICK` (R364): A KICK through a VF's BAR0 accepts only the VF's rings. -/
  | vfKick (vf : BitVec 6) (val : Word)
  /-- `GET_TDISP_VERSION` (R365): TDISP request returning the version. -/
  | getTdispVersion (vf : BitVec 6)
  /-- `GET_TDISP_CAPABILITIES` (R365): TDISP request returning the capabilities. -/
  | getTdispCapabilities (vf : BitVec 6)
  /-- `LOCK_INTERFACE_REQUEST` (R365): Locks an interface's configuration and issues the nonce. -/
  | lockInterfaceRequest (vf : BitVec 6)
  /-- `GET_DEVICE_INTERFACE_REPORT` (R368): Returns the interface report with the locked VFCFG. -/
  | getDeviceInterfaceReport (vf : BitVec 6)
  /-- `GET_DEVICE_INTERFACE_STATE` (R365): Returns the interface state. -/
  | getDeviceInterfaceState (vf : BitVec 6)
  /-- `START_INTERFACE_REQUEST` (R365): Moves a locked interface to RUN. -/
  | startInterfaceRequest (vf : BitVec 6) (nonce : BitVec 256)
  /-- `STOP_INTERFACE_REQUEST` (R367): Zeroes the carve-out and state and returns the interface to CONFIG_UNLOCKED. -/
  | stopInterfaceRequest (vf : BitVec 6)
  /-- `TDISP_UNSUPPORTED` (R365): Any other TDISP request is answered UNSUPPORTED_REQUEST. -/
  | tdispUnsupported (vf : BitVec 6) (code : Byte)
  /-- `LOCKED_CONFIG_WRITE` (R366): A write to frozen configuration sends the interface to ERROR. -/
  | lockedConfigWrite (vf : BitVec 6) (what : BitVec 3) (val : Word)
  /-- `SPDM_GET_CERTIFICATE` (R369): SPDM certificate request. -/
  | spdmGetCertificate (slot : BitVec 3)
  /-- `SPDM_CHALLENGE` (R369): SPDM challenge answered with dual ECDSA and LMS signatures. -/
  | spdmChallenge (nonce : BitVec 256)
  /-- `SPDM_GET_MEASUREMENTS` (R370): Returns the measurement blocks, signed. -/
  | spdmGetMeasurements (index : Byte) (sign : Bool) (nonce : BitVec 256)
  /-- `SPDM_KEY_EXCHANGE` (R369): SPDM key exchange opening a secured session. -/
  | spdmKeyExchange (pub : BitVec 768)
  /-- `SPDM_HEARTBEAT` (R369): SPDM heartbeat in a secured session. -/
  | spdmHeartbeat (session : BitVec 32)
  /-- `FIRMWARE_DELIVERY` (R372): A write to MBCTL makes each named die copy, verify and load the image. -/
  | firmwareDelivery (dies : Byte) (okE : Bool) (okL : Bool) (okV : Bool)
  /-- `PACKAGE_RESET` (R372): Each die's ROM trains HBM, runs the capability tests and waits for a delivery. -/
  | packageReset
  /-- `GAFFER_THROTTLE` (R374): Over the power cap or at 105 °C the Gaffer lowers the die clock in 100 MHz steps. -/
  | gafferThrottle (die : Nat)
  /-- `GAFFER_RESTORE` (R374): When both conditions clear the Gaffer raises the clock again. -/
  | gafferRestore (die : Nat)
  /-- `DATA_CACHE_LINE_EVICTION` (R104): A scalar data cache line is evicted at any moment and, if dirty, written back to its home. -/
  | dataCacheLineEviction (core : Nat) (line : Nat)
  /-- `VECTOR_ACCESS_COMPLETION` (R117): The elements of an issued vector memory instruction arrive or are performed, filling its reserved row or completing the store. -/
  | vectorAccessCompletion (p : Nat) (n : Nat)
  /-- `RESIDENCY_REQUEST_SERVICE` (R24): The Puppeteer accepts a posted residency request, clears REQ, makes room and starts the copy that sets ARRIVING, or reports the context to the host. -/
  | residencyRequestService (ctx : BitVec 10) (rgn : BitVec 8) (base : BitVec 52)
  /-- `PEER_RESPONSE` (R363): A peer's acknowledgement or failure for a non-posted access arrives on a Traob link at the requester. -/
  | peerResponse (p : Nat) (k : Kind) (ok : Bool) (data : List Byte)
  /-- `HOST_SIGNAL_REREAD` (R253): A sig wait or wait packet on host memory reads the signal again after at most 1 µs. -/
  | hostSignalReread (p : Nat) (k : Kind)
  /-- `SPDM_GET_VERSION` (R369): The SPDM responder answers GET_VERSION over DOE. -/
  | spdmGetVersion
  /-- `SPDM_GET_CAPABILITIES` (R369): The SPDM responder answers GET_CAPABILITIES with its implemented capabilities. -/
  | spdmGetCapabilities
  /-- `SPDM_NEGOTIATE_ALGORITHMS` (R369): The SPDM responder settles P-384, SHA-384, AES-256-GCM and secp384r1. -/
  | spdmNegotiateAlgorithms
  /-- `SPDM_GET_DIGESTS` (R369): The SPDM responder returns the certificate chain digests that CERT capability implies. -/
  | spdmGetDigests
  /-- `SPDM_FINISH` (R369): The SPDM responder completes the KEY_EXCHANGE handshake and opens the secured session. -/
  | spdmFinish (session : BitVec 32)
  /-- `SPDM_END_SESSION` (R369): The SPDM responder closes a secured session. -/
  | spdmEndSession (session : BitVec 32)
  /-- `SPDM_KEY_UPDATE` (R369): The SPDM responder updates the keys of a secured session. -/
  | spdmKeyUpdate (session : BitVec 32)
  /-- `IDE_KM_QUERY` (R360): The device answers an IDE_KM QUERY over the secured session. -/
  | ideKmQuery (stream : BitVec 6)
  /-- `IDE_KM_KEY_PROG` (R360): The device takes IDE_KM KEY_PROG keys for an IDE stream. -/
  | ideKmKeyProg (stream : BitVec 6) (set : Bool) (key : BitVec 256)
  /-- `IDE_KM_K_SET_GO` (R360): IDE_KM K_SET_GO starts using a programmed key set on an IDE stream. -/
  | ideKmKSetGo (stream : BitVec 6) (set : Bool)
  /-- `IDE_KM_K_SET_STOP` (R360): IDE_KM K_SET_STOP stops a key set on an IDE stream. -/
  | ideKmKSetStop (stream : BitVec 6) (set : Bool)
deriving DecidableEq, Repr, Inhabited

end Sys2Proof
end

