-- ==== Sys2Proof/WellFormed.lean ====
section
/-! DEFINITION. Which instructions are well formed: the value of every field the encoding rules R29, R31, R32, R39, R42,
R43 and R45 let a word hold, and for an event the numbers that name agents of the machine (R10, R270). -/

namespace Sys2Proof

/-- What a block word's destination field may name (R45). -/
inductive DstUse where
  | none | any | mask | zreg
deriving DecidableEq, Repr

/-- What a block word's source field may name (R31, R45). -/
inductive SrcUse where
  | none | src | noScalar | mask | zreg | bscalar | optScalar
deriving DecidableEq, Repr

/-- Which execution masks a block word takes (R32, R45): none; mk alone; mk 1-7 alone; mk and mn. -/
inductive MaskUse where
  | none | plain | must | any
deriving DecidableEq, Repr

/-- A destination field (R45): all of it, a mask number, a scale-register number, or zero. -/
def DstUse.ok : DstUse → VReg → Bool
  | .none, v => v == 0#6
  | .any, _ => true
  | .mask, v => decide (v.toNat < 8)
  | .zreg, v => decide (v.toNat < 4)

/-- A source's register number, kind and chain bit (R31): a chain bit only on a vector register the opcode reads, a
block scalar below 8, a queue below 4, and all zero for a source the opcode does not read; a reduction or `mrow` takes no
block scalar (R221, R235). -/
def SrcUse.ok : SrcUse → VReg → SrcKind → Bool → Bool
  | .none, v, k, c => v == 0#6 && k == .vreg && !c
  | .mask, v, k, c => decide (v.toNat < 8) && k == .vreg && !c
  | .zreg, v, k, c => decide (v.toNat < 4) && k == .vreg && !c
  | .bscalar, v, k, c => k == .bscalar && decide (v.toNat < 8) && !c
  | .optScalar, v, k, c => !c && ((k == .vreg && v == 0#6) || (k == .bscalar && decide (v.toNat < 8)))
  | .noScalar, _, .vreg, _ => true
  | .noScalar, _, .bscalar, _ => false
  | .noScalar, v, .queue, c => decide (v.toNat < 4) && !c
  | .src, _, .vreg, _ => true
  | .src, v, .bscalar, c => decide (v.toNat < 8) && !c
  | .src, v, .queue, c => decide (v.toNat < 4) && !c

/-- The execution-mask fields (R32, R45). -/
def MaskUse.ok : MaskUse → BitVec 3 → Bool → Bool
  | .none, m, n => m == 0#3 && !n
  | .plain, _, n => !n
  | .must, m, n => m != 0#3 && !n
  | .any, m, n => !(n && m == 0#3)

/-- A block word's fields against its row of R45: destination, source a, source b, source c, mask, whether xe and fs are
listed, and whether the word may join a convoy; two sources never pop one queue (R214). -/
def BlkW.fieldsOk (w : BlkW) (d : DstUse) (a b : SrcUse) (c : Bool) (m : MaskUse) (xe fs cv : Bool) : Bool :=
  d.ok w.vd && a.ok w.sa w.ka w.ca && b.ok w.sb w.kb w.cb
    && (c || (w.sc == 0#6 && !w.cc)) && m.ok w.m w.mn
    && (if xe then w.xe || w.xm == 0#3 else !w.xe && w.xm == 0#3)
    && (fs || w.fs == 0#3) && (cv || !w.cv) && !(w.ka == .queue && w.kb == .queue && w.sa == w.sb)

/-- The legal orders of a load (R39). -/
def loadOrder (o : Order) : Bool := o == .rlx || o == .acq
/-- The legal orders of a store (R39). -/
def storeOrder (o : Order) : Bool := o == .rlx || o == .rel

/-- The format codes `vsta` may name (R43). -/
def vstaFormat (f : BitVec 5) : Bool :=
  f == 0x02#5 || f == 0x03#5 || f == 0x06#5 || f == 0x07#5 || f == 0x08#5 || f == 0x09#5 || f == 0x0A#5 || f == 0x0B#5

/-- The order code is one the access kind allows (R39, step 5 of R34). -/
def Instr.orderOk : Instr → Bool
  | .add _ _ _ => true
  | .sub _ _ _ => true
  | .and_ _ _ _ => true
  | .or_ _ _ _ => true
  | .xor_ _ _ _ => true
  | .sll _ _ _ => true
  | .srl _ _ _ => true
  | .sra _ _ _ => true
  | .slt _ _ _ => true
  | .sltu _ _ _ => true
  | .seq_ _ _ _ => true
  | .sne _ _ _ => true
  | .min_ _ _ _ => true
  | .max_ _ _ _ => true
  | .minu _ _ _ => true
  | .maxu _ _ _ => true
  | .andn _ _ _ => true
  | .orn _ _ _ => true
  | .clz _ _ => true
  | .ctz _ _ => true
  | .popc _ _ => true
  | .sextb _ _ => true
  | .sexth _ _ => true
  | .sextw _ _ => true
  | .zextw _ _ => true
  | .rol _ _ _ => true
  | .ror _ _ _ => true
  | .mul_ _ _ _ => true
  | .mulh _ _ _ => true
  | .mulhu _ _ _ => true
  | .mulhsu _ _ _ => true
  | .div_ _ _ _ => true
  | .divu _ _ _ => true
  | .rem _ _ _ => true
  | .remu _ _ _ => true
  | .addi _ _ _ => true
  | .andi _ _ _ => true
  | .ori _ _ _ => true
  | .xori _ _ _ => true
  | .slti _ _ _ => true
  | .sltiu _ _ _ => true
  | .slli _ _ _ => true
  | .srli _ _ _ => true
  | .srai _ _ _ => true
  | .rori _ _ _ => true
  | .lui _ _ => true
  | .luh _ _ => true
  | .adpc _ _ => true
  | .beq _ _ _ => true
  | .bne _ _ _ => true
  | .blt _ _ _ => true
  | .bge _ _ _ => true
  | .bltu _ _ _ => true
  | .bgeu _ _ _ => true
  | .jl _ _ => true
  | .jlr _ _ _ => true
  | .qbt _ => true
  | .qbf _ => true
  | .ldb _ _ _ => true
  | .ldh _ _ _ => true
  | .ldw _ _ _ => true
  | .ldd _ _ _ => true
  | .ldbu _ _ _ => true
  | .ldhu _ _ _ => true
  | .ldwu _ _ _ => true
  | .stb _ _ _ => true
  | .sth _ _ _ => true
  | .stw _ _ _ => true
  | .std _ _ _ => true
  | .ldo _ _ _ ord _ => loadOrder ord
  | .sto _ _ _ ord _ => storeOrder ord
  | .amoAdd _ _ _ _ _ _ => true
  | .amoAnd _ _ _ _ _ _ => true
  | .amoOr _ _ _ _ _ _ => true
  | .amoXor _ _ _ _ _ _ => true
  | .amoMin _ _ _ _ _ _ => true
  | .amoMax _ _ _ _ _ _ => true
  | .amoMinu _ _ _ _ _ _ => true
  | .amoMaxu _ _ _ _ _ _ => true
  | .amoSwap _ _ _ _ _ _ => true
  | .amoCas _ _ _ _ _ _ => true
  | .fence _ _ => true
  | .fenceAcq _ _ => true
  | .fenceRel _ _ => true
  | .ldslot _ _ _ => true
  | .stslot _ _ _ => true
  | .tagset _ _ _ => true
  | .tagrd _ _ => true
  | .safept => true
  | .racq _ => true
  | .rgnq _ _ _ => true
  | .qpushSq _ => true
  | .qpushDownstream _ => true
  | .qpopSq _ => true
  | .qpopRq _ => true
  | .qpopUpstream _ => true
  | .bout _ => true
  | .setvl _ _ _ _ _ _ => true
  | .setrc _ => true
  | .vfetch _ => true
  | .vfetchr _ _ => true
  | .vwait => true
  | .vld _ _ _ ord _ _ => loadOrder ord
  | .vlds _ _ _ _ ord _ _ => loadOrder ord
  | .vldx _ _ _ ord _ _ => loadOrder ord
  | .vst _ _ _ ord _ _ => storeOrder ord
  | .vsti _ _ _ ord _ _ => storeOrder ord
  | .vsts _ _ _ _ ord _ _ => storeOrder ord
  | .vstx _ _ _ ord _ _ => storeOrder ord
  | .vsta _ _ _ _ _ => true
  | .vstr _ _ _ ord _ _ => storeOrder ord
  | .sdef _ _ _ => true
  | .sbind _ _ _ _ => true
  | .sgo _ => true
  | .sbarCfg => true
  | .sbarPhase => true
  | .sbarIft => true
  | .sbarIff => true
  | .wmwait _ _ => true
  | .cpwaitRel _ => true
  | .cpwaitVis _ => true
  | .jsub _ _ _ => true
  | .sstat _ _ => true
  | .wbfill _ _ _ => true
  | .wbwait _ _ => true
  | .bar => true
  | .sigadd _ _ _ _ _ => true
  | .sigset _ _ _ ord => storeOrder ord
  | .sigwge _ _ _ _ ord => loadOrder ord
  | .sigweq _ _ _ _ ord => loadOrder ord
  | .enq _ _ _ => true
  | .symq _ => true
  | .svc _ => true
  | .tret => true
  | .csrr _ _ => true
  | .csrw _ _ _ => true
  | .csrs _ _ _ => true
  | .csrc _ _ _ => true
  | .cueret => true
  | .park => true
  | .exit => true
  | .yield => true
  | .trc _ _ => true
  | .brk _ => true
  | .fvld _ _ _ => true
  | .fvst _ _ _ => true
  | .fvand _ _ _ _ => true
  | .fvor _ _ _ _ => true
  | .fvandn _ _ _ _ => true
  | .fvxor _ _ _ _ => true
  | .fvcmpeq _ _ _ _ => true
  | .fvcmpne _ _ _ _ => true
  | .fvcmplt _ _ _ _ => true
  | .fvcmpgt _ _ _ _ => true
  | .fvbcast _ _ _ => true
  | .fvff _ _ => true
  | .fvpopc _ _ => true
  | .vfetchw _ => true
  | .ldslot32 _ _ _ => true
  | .sync => true
  | .qpopw _ => true
  | .stop => true
  | .vnop => true
  | .vbr _ _ _ => true
  | .vrejoin => true
  | .vret _ => true
  | .vout _ _ => true
  | .vidxq _ => true
  | .vadd _ _ => true
  | .vsub _ _ => true
  | .vmul _ _ => true
  | .vmulh _ => true
  | .vdiv _ => true
  | .vrem _ => true
  | .vand _ => true
  | .vor _ => true
  | .vxor _ => true
  | .vsll _ => true
  | .vsrl _ => true
  | .vsra _ => true
  | .vmin _ => true
  | .vmax _ => true
  | .vadc _ _ _ => true
  | .vsbc _ _ _ => true
  | .vcmp _ _ => true
  | .vfadd _ => true
  | .vfsub _ => true
  | .vfmul _ => true
  | .vfma _ _ => true
  | .vfdiv _ => true
  | .vfsqrt _ => true
  | .vfmin _ => true
  | .vfmax _ => true
  | .vfcmp _ _ => true
  | .vfclass _ => true
  | .vfsgn _ _ => true
  | .vfsfn _ _ => true
  | .vcvt _ => true
  | .vbfly _ _ _ => true
  | .zld _ => true
  | .zmv _ => true
  | .vrng _ => true
  | .mand _ => true
  | .mor _ => true
  | .mxor _ => true
  | .mandn _ => true
  | .mnot _ => true
  | .mfirst _ => true
  | .mpopc _ => true
  | .mshift _ _ _ => true
  | .mset _ _ => true
  | .mmv _ => true
  | .vmv _ => true
  | .vmerge _ => true
  | .vid _ => true
  | .vslideup _ _ => true
  | .vslidedn _ _ => true
  | .vrgather _ => true
  | .vcompress _ => true
  | .vredsum _ => true
  | .vfredsum _ _ => true
  | .vredmm _ _ => true
  | .vfredmm _ _ => true
  | .mrow _ _ _ => true
  | .mrow64 _ _ _ => true
  | .vfmacc _ => true
  | .partitionChangePost _ _ => true
  | .laneLend _ _ => true
  | .lendReturnTimeout _ => true
  | .pairTrap _ _ _ _ _ => true
  | .swapFault _ _ => true
  | .uncorrectableDataError _ _ _ => true
  | .correctedError _ _ => true
  | .ctxcmdResume _ _ _ => true
  | .ctxcmdSkip _ _ _ => true
  | .ctxcmdTerminate _ => true
  | .cueDelivery _ _ => true
  | .kick _ _ => true
  | .ringFetch _ _ => true
  | .tornRetry _ _ => true
  | .launchPacket _ _ _ => true
  | .signalWritePacket _ _ _ => true
  | .waitPacket _ _ _ => true
  | .linkPacket _ _ _ => true
  | .residencyHint _ _ _ => true
  | .ringBarrier _ _ _ => true
  | .nopPacket _ _ _ => true
  | .jobCardPacket _ _ _ => true
  | .admission _ => true
  | .admissionAging _ _ _ => true
  | .pairStart _ => true
  | .shareEnd _ _ _ => true
  | .completionSignalWrite _ _ _ => true
  | .preemptSoft _ _ _ _ => true
  | .preemptHardTimeout _ _ _ _ => true
  | .preemptHard _ _ _ _ => true
  | .groupRestore _ _ _ _ => true
  | .regionTableUpdate _ _ _ => true
  | .regionEvict _ _ => true
  | .regionArrival _ _ => true
  | .moveRequest _ _ _ => true
  | .moveHolderTimeout _ _ => true
  | .moveCommit _ _ => true
  | .unloadCode _ _ => true
  | .forcedRetire _ _ => true
  | .streamStart _ _ => true
  | .streamTransfer _ _ => true
  | .streamReleased _ _ => true
  | .streamVisible _ _ => true
  | .streamFault _ _ _ => true
  | .streamSwapFault _ _ => true
  | .jobCardStart _ _ => true
  | .jobCardComplete _ _ => true
  | .jobCardFault _ _ _ => true
  | .wbFillStart _ _ => true
  | .wbFillEnd _ _ _ => true
  | .peerRequest _ _ _ _ _ => true
  | .flitReplay _ => true
  | .dbgStop _ _ => true
  | .dbgHardStop _ _ => true
  | .dbgStep _ _ => true
  | .dbgRun _ _ => true
  | .trigWrite _ _ _ => true
  | .trwrWrite _ _ => true
  | .sampleCycles _ => true
  | .fTrap _ _ _ => true
  | .sramErrorFound _ _ _ => true
  | .scrubRead _ _ _ _ => true
  | .takeover _ _ => true
  | .firmwareLost _ _ => true
  | .fwstatHoldClear _ => true
  | .jrnlWrite _ _ => true
  | .admpostPost _ _ => true
  | .fwnoteWrite _ _ => true
  | .errcntWrite _ _ => true
  | .deviceRegisterWrite _ _ _ => true
  | .hostBar4Read _ => true
  | .hostBar4Write _ _ => true
  | .vfKick _ _ => true
  | .getTdispVersion _ => true
  | .getTdispCapabilities _ => true
  | .lockInterfaceRequest _ => true
  | .getDeviceInterfaceReport _ => true
  | .getDeviceInterfaceState _ => true
  | .startInterfaceRequest _ _ => true
  | .stopInterfaceRequest _ => true
  | .tdispUnsupported _ _ => true
  | .lockedConfigWrite _ _ _ => true
  | .spdmGetCertificate _ => true
  | .spdmChallenge _ => true
  | .spdmGetMeasurements _ _ _ => true
  | .spdmKeyExchange _ => true
  | .spdmHeartbeat _ => true
  | .firmwareDelivery _ _ _ _ => true
  | .packageReset => true
  | .gafferThrottle _ => true
  | .gafferRestore _ => true
  | .dataCacheLineEviction _ _ => true
  | .vectorAccessCompletion _ _ => true
  | .residencyRequestService _ _ _ => true
  | .peerResponse _ _ _ _ => true
  | .hostSignalReread _ _ => true
  | .spdmGetVersion => true
  | .spdmGetCapabilities => true
  | .spdmNegotiateAlgorithms => true
  | .spdmGetDigests => true
  | .spdmFinish _ => true
  | .spdmEndSession _ => true
  | .spdmKeyUpdate _ => true
  | .ideKmQuery _ => true
  | .ideKmKeyProg _ _ _ => true
  | .ideKmKSetGo _ _ => true
  | .ideKmKSetStop _ _ => true

/-- Every field holds a value its row allows (step 4 of R34; R31 and R32 for block words). -/
def Instr.fieldsOk : Instr → Bool
  | .add _ _ _ => true
  | .sub _ _ _ => true
  | .and_ _ _ _ => true
  | .or_ _ _ _ => true
  | .xor_ _ _ _ => true
  | .sll _ _ _ => true
  | .srl _ _ _ => true
  | .sra _ _ _ => true
  | .slt _ _ _ => true
  | .sltu _ _ _ => true
  | .seq_ _ _ _ => true
  | .sne _ _ _ => true
  | .min_ _ _ _ => true
  | .max_ _ _ _ => true
  | .minu _ _ _ => true
  | .maxu _ _ _ => true
  | .andn _ _ _ => true
  | .orn _ _ _ => true
  | .clz _ _ => true
  | .ctz _ _ => true
  | .popc _ _ => true
  | .sextb _ _ => true
  | .sexth _ _ => true
  | .sextw _ _ => true
  | .zextw _ _ => true
  | .rol _ _ _ => true
  | .ror _ _ _ => true
  | .mul_ _ _ _ => true
  | .mulh _ _ _ => true
  | .mulhu _ _ _ => true
  | .mulhsu _ _ _ => true
  | .div_ _ _ _ => true
  | .divu _ _ _ => true
  | .rem _ _ _ => true
  | .remu _ _ _ => true
  | .addi _ _ _ => true
  | .andi _ _ _ => true
  | .ori _ _ _ => true
  | .xori _ _ _ => true
  | .slti _ _ _ => true
  | .sltiu _ _ _ => true
  | .slli _ _ _ => true
  | .srli _ _ _ => true
  | .srai _ _ _ => true
  | .rori _ _ _ => true
  | .lui _ _ => true
  | .luh _ _ => true
  | .adpc _ _ => true
  | .beq _ _ _ => true
  | .bne _ _ _ => true
  | .blt _ _ _ => true
  | .bge _ _ _ => true
  | .bltu _ _ _ => true
  | .bgeu _ _ _ => true
  | .jl _ _ => true
  | .jlr _ _ _ => true
  | .qbt _ => true
  | .qbf _ => true
  | .ldb _ _ _ => true
  | .ldh _ _ _ => true
  | .ldw _ _ _ => true
  | .ldd _ _ _ => true
  | .ldbu _ _ _ => true
  | .ldhu _ _ _ => true
  | .ldwu _ _ _ => true
  | .stb _ _ _ => true
  | .sth _ _ _ => true
  | .stw _ _ _ => true
  | .std _ _ _ => true
  | .ldo _ _ _ _ sz => decide (sz.toNat ≤ 6)
  | .sto _ _ _ _ sz => decide (sz.toNat ≤ 3)
  | .amoAdd _ _ _ _ _ _ => true
  | .amoAnd _ _ _ _ _ _ => true
  | .amoOr _ _ _ _ _ _ => true
  | .amoXor _ _ _ _ _ _ => true
  | .amoMin _ _ _ _ _ _ => true
  | .amoMax _ _ _ _ _ _ => true
  | .amoMinu _ _ _ _ _ _ => true
  | .amoMaxu _ _ _ _ _ _ => true
  | .amoSwap _ _ _ _ _ _ => true
  | .amoCas _ _ _ _ _ _ => true
  | .fence _ _ => true
  | .fenceAcq _ _ => true
  | .fenceRel _ _ => true
  | .ldslot _ _ _ => true
  | .stslot _ _ _ => true
  | .tagset _ _ _ => true
  | .tagrd _ _ => true
  | .safept => true
  | .racq _ => true
  | .rgnq _ sel _ => decide (sel.toNat ≤ 5)
  | .qpushSq _ => true
  | .qpushDownstream _ => true
  | .qpopSq _ => true
  | .qpopRq _ => true
  | .qpopUpstream _ => true
  | .bout _ => true
  | .setvl _ _ _ blk _ sew => decide (sew.toNat ≤ 4) && decide (blk.toNat ≤ 6)
  | .setrc n => decide (1 ≤ n.toNat) && decide (n.toNat ≤ 8)
  | .vfetch _ => true
  | .vfetchr _ _ => true
  | .vwait => true
  | .vld _ _ _ _ _ ew => decide (ew.toNat ≤ 4)
  | .vlds _ _ _ _ _ _ ew => decide (ew.toNat ≤ 4)
  | .vldx _ _ _ _ _ ew => decide (ew.toNat ≤ 3)
  | .vst _ _ _ _ _ ew => decide (ew.toNat ≤ 3)
  | .vsti _ _ _ _ _ ew => decide (ew.toNat ≤ 3)
  | .vsts _ _ _ _ _ _ ew => decide (ew.toNat ≤ 3)
  | .vstx _ _ _ _ _ ew => decide (ew.toNat ≤ 3)
  | .vsta _ _ _ _ fmt => vstaFormat fmt
  | .vstr _ _ _ _ _ ew => decide (ew.toNat ≤ 3)
  | .sdef _ _ _ => true
  | .sbind _ used ch port => decide (port.toNat < 12) && (used || ch == 0#3)
  | .sgo _ => true
  | .sbarCfg => true
  | .sbarPhase => true
  | .sbarIft => true
  | .sbarIff => true
  | .wmwait _ _ => true
  | .cpwaitRel _ => true
  | .cpwaitVis _ => true
  | .jsub _ _ _ => true
  | .sstat _ _ => true
  | .wbfill _ _ _ => true
  | .wbwait _ _ => true
  | .bar => true
  | .sigadd _ _ _ _ _ => true
  | .sigset _ _ _ _ => true
  | .sigwge _ _ _ _ _ => true
  | .sigweq _ _ _ _ _ => true
  | .enq _ _ _ => true
  | .symq _ => true
  | .svc _ => true
  | .tret => true
  | .csrr _ _ => true
  | .csrw _ _ _ => true
  | .csrs _ _ _ => true
  | .csrc _ _ _ => true
  | .cueret => true
  | .park => true
  | .exit => true
  | .yield => true
  | .trc _ _ => true
  | .brk _ => true
  | .fvld _ _ _ => true
  | .fvst _ _ _ => true
  | .fvand _ _ _ _ => true
  | .fvor _ _ _ _ => true
  | .fvandn _ _ _ _ => true
  | .fvxor _ _ _ _ => true
  | .fvcmpeq _ _ _ _ => true
  | .fvcmpne _ _ _ _ => true
  | .fvcmplt _ _ _ _ => true
  | .fvcmpgt _ _ _ _ => true
  | .fvbcast _ _ _ => true
  | .fvff _ _ => true
  | .fvpopc _ _ => true
  | .vfetchw _ => true
  | .ldslot32 _ _ _ => true
  | .sync => true
  | .qpopw _ => true
  | .stop => true
  | .vnop => true
  | .vbr mk _ _ => mk != 0#3
  | .vrejoin => true
  | .vret w => w.fieldsOk .none .src .none false .none false false true
  | .vout w dst => w.fieldsOk .none .src .none false .any false false true && dst != 3#2
  | .vidxq w => w.fieldsOk .none .src .none false .any false false true
  | .vadd w _ => w.fieldsOk .any .src .src false .any true true true
  | .vsub w _ => w.fieldsOk .any .src .src false .any true true true
  | .vmul w _ => w.fieldsOk .any .src .src false .any true true true
  | .vmulh w => w.fieldsOk .any .src .src false .any true true true
  | .vdiv w => w.fieldsOk .any .src .src false .any true true true
  | .vrem w => w.fieldsOk .any .src .src false .any true true true
  | .vand w => w.fieldsOk .any .src .src false .any true true true
  | .vor w => w.fieldsOk .any .src .src false .any true true true
  | .vxor w => w.fieldsOk .any .src .src false .any true true true
  | .vsll w => w.fieldsOk .any .src .src false .any true true true
  | .vsrl w => w.fieldsOk .any .src .src false .any true true true
  | .vsra w => w.fieldsOk .any .src .src false .any true true true
  | .vmin w => w.fieldsOk .any .src .src false .any true true true
  | .vmax w => w.fieldsOk .any .src .src false .any true true true
  | .vadc w _ _ => w.fieldsOk .any .src .src false .any true true true
  | .vsbc w _ _ => w.fieldsOk .any .src .src false .any true true true
  | .vcmp w cond => w.fieldsOk .mask .src .src false .any false true true && decide (cond.toNat ≤ 5)
  | .vfadd w => w.fieldsOk .any .src .src false .any true true true
  | .vfsub w => w.fieldsOk .any .src .src false .any true true true
  | .vfmul w => w.fieldsOk .any .src .src false .any true true true
  | .vfma w _ => w.fieldsOk .any .src .src true .any true true true
  | .vfdiv w => w.fieldsOk .any .src .src false .any true true true
  | .vfsqrt w => w.fieldsOk .any .src .none false .any true true true
  | .vfmin w => w.fieldsOk .any .src .src false .any true true true
  | .vfmax w => w.fieldsOk .any .src .src false .any true true true
  | .vfcmp w cond => w.fieldsOk .mask .src .src false .any false true true && decide (cond.toNat ≤ 6)
  | .vfclass w => w.fieldsOk .any .src .none false .any false true true
  | .vfsgn w mode => w.fieldsOk .any .src .src false .any true true true && mode != 3#2
  | .vfsfn w fn => w.fieldsOk .any .src .none false .any true true true && decide (fn.toNat ≤ 3)
  | .vcvt w => w.fieldsOk .any .src .none false .any true true true
  | .vbfly w k _ => w.fieldsOk .any .src .none false .any true true true && decide (k.toNat ≤ 12)
  | .zld w => w.fieldsOk .zreg .src .none false .plain false false true
  | .zmv w => w.fieldsOk .any .zreg .none false .none false false true
  | .vrng w => w.fieldsOk .any .bscalar .bscalar false .any false false true
  | .mand w => w.fieldsOk .mask .mask .mask false .none false false true
  | .mor w => w.fieldsOk .mask .mask .mask false .none false false true
  | .mxor w => w.fieldsOk .mask .mask .mask false .none false false true
  | .mandn w => w.fieldsOk .mask .mask .mask false .none false false true
  | .mnot w => w.fieldsOk .mask .mask .none false .none false false true
  | .mfirst w => w.fieldsOk .none .mask .none false .none false false true
  | .mpopc w => w.fieldsOk .none .mask .none false .none false false true
  | .mshift w _ _ => w.fieldsOk .mask .mask .none false .none false false true
  | .mset w _ => w.fieldsOk .mask .none .none false .none false false true
  | .mmv w => w.fieldsOk .mask .mask .none false .none false false true
  | .vmv w => w.fieldsOk .any .src .none false .any false false true
  | .vmerge w => w.fieldsOk .any .src .src false .must false false true
  | .vid w => w.fieldsOk .any .none .none false .any false false true
  | .vslideup w n => w.fieldsOk .any .src .optScalar false .none false false true && (w.kb == .vreg || n == 0#13)
  | .vslidedn w n => w.fieldsOk .any .src .optScalar false .none false false true && (w.kb == .vreg || n == 0#13)
  | .vrgather w => w.fieldsOk .any .src .src false .any false false true
  | .vcompress w => w.fieldsOk .any .src .none false .must false false true
  | .vredsum w => w.fieldsOk .any .noScalar .none false .any true true true
  | .vfredsum w _ => w.fieldsOk .any .noScalar .none false .any true true true
  | .vredmm w _ => w.fieldsOk .any .noScalar .none false .any true true true
  | .vfredmm w _ => w.fieldsOk .any .noScalar .none false .any true true true
  | .mrow w _ _ => w.fieldsOk .any .noScalar .none false .any false true false
  | .mrow64 w _ _ => w.fieldsOk .any .noScalar .none false .any false true false
  | .vfmacc w => w.fieldsOk .any .src .src false .any true true true
  | .partitionChangePost p _ => decide (p < 1280)
  | .laneLend p borrower => decide (p < 1280) && decide (borrower < 1280)
  | .lendReturnTimeout p => decide (p < 1280)
  | .pairTrap p k _ _ _ => decide (p < 1280) && k != .F
  | .swapFault p k => decide (p < 1280) && k != .F
  | .uncorrectableDataError p _ _ => decide (p < 1280)
  | .correctedError die _ => decide (die < 8)
  | .ctxcmdResume die _ _ => decide (die < 8)
  | .ctxcmdSkip die _ _ => decide (die < 8)
  | .ctxcmdTerminate _ => true
  | .cueDelivery p k => decide (p < 1280) && k != .F
  | .kick die _ => decide (die < 8)
  | .ringFetch die _ => decide (die < 8)
  | .tornRetry die _ => decide (die < 8)
  | .launchPacket die _ _ => decide (die < 8)
  | .signalWritePacket die _ _ => decide (die < 8)
  | .waitPacket die _ _ => decide (die < 8)
  | .linkPacket die _ _ => decide (die < 8)
  | .residencyHint die _ _ => decide (die < 8)
  | .ringBarrier die _ _ => decide (die < 8)
  | .nopPacket die _ _ => decide (die < 8)
  | .jobCardPacket die _ _ => decide (die < 8)
  | .admission die => decide (die < 8)
  | .admissionAging die _ _ => decide (die < 8)
  | .pairStart p => decide (p < 1280)
  | .shareEnd die _ _ => decide (die < 8)
  | .completionSignalWrite die _ _ => decide (die < 8)
  | .preemptSoft die _ _ _ => decide (die < 8)
  | .preemptHardTimeout die _ _ _ => decide (die < 8)
  | .preemptHard die _ _ _ => decide (die < 8)
  | .groupRestore die _ _ _ => decide (die < 8)
  | .regionTableUpdate _ _ _ => true
  | .regionEvict _ _ => true
  | .regionArrival _ _ => true
  | .moveRequest _ _ _ => true
  | .moveHolderTimeout _ _ => true
  | .moveCommit _ _ => true
  | .unloadCode _ _ => true
  | .forcedRetire _ _ => true
  | .streamStart p _ => decide (p < 1280)
  | .streamTransfer p _ => decide (p < 1280)
  | .streamReleased p _ => decide (p < 1280)
  | .streamVisible p _ => decide (p < 1280)
  | .streamFault p _ _ => decide (p < 1280)
  | .streamSwapFault p _ => decide (p < 1280)
  | .jobCardStart die _ => decide (die < 8)
  | .jobCardComplete die _ => decide (die < 8)
  | .jobCardFault die _ _ => decide (die < 8)
  | .wbFillStart cl _ => decide (cl < 320)
  | .wbFillEnd cl _ _ => decide (cl < 320)
  | .peerRequest _ _ _ _ _ => true
  | .flitReplay _ => true
  | .dbgStop die _ => decide (die < 8)
  | .dbgHardStop die _ => decide (die < 8)
  | .dbgStep die _ => decide (die < 8)
  | .dbgRun die _ => decide (die < 8)
  | .trigWrite die _ _ => decide (die < 8)
  | .trwrWrite die _ => decide (die < 8)
  | .sampleCycles die => decide (die < 8)
  | .fTrap die _ _ => decide (die < 8)
  | .sramErrorFound die _ _ => decide (die < 8)
  | .scrubRead die _ _ _ => decide (die < 8)
  | .takeover die _ => decide (die < 8)
  | .firmwareLost die _ => decide (die < 8)
  | .fwstatHoldClear die => decide (die < 8)
  | .jrnlWrite die _ => decide (die < 8)
  | .admpostPost die _ => decide (die < 8)
  | .fwnoteWrite die _ => decide (die < 8)
  | .errcntWrite die _ => decide (die < 8)
  | .deviceRegisterWrite die _ _ => decide (die < 9) || (decide (64 < die) && decide (die < 128))
  | .hostBar4Read _ => true
  | .hostBar4Write _ _ => true
  | .vfKick _ _ => true
  | .getTdispVersion _ => true
  | .getTdispCapabilities _ => true
  | .lockInterfaceRequest _ => true
  | .getDeviceInterfaceReport _ => true
  | .getDeviceInterfaceState _ => true
  | .startInterfaceRequest _ _ => true
  | .stopInterfaceRequest _ => true
  | .tdispUnsupported _ _ => true
  | .lockedConfigWrite _ _ _ => true
  | .spdmGetCertificate _ => true
  | .spdmChallenge _ => true
  | .spdmGetMeasurements _ _ _ => true
  | .spdmKeyExchange _ => true
  | .spdmHeartbeat _ => true
  | .firmwareDelivery _ _ _ _ => true
  | .packageReset => true
  | .gafferThrottle die => decide (die < 8)
  | .gafferRestore die => decide (die < 8)
  | .dataCacheLineEviction core _ => decide (core < 1280)
  | .vectorAccessCompletion p _ => decide (p < 1280)
  | .residencyRequestService _ _ _ => true
  | .peerResponse p _ _ _ => decide (p < 1280)
  | .hostSignalReread p k => decide (p < 1280) && k != .F
  | .spdmGetVersion => true
  | .spdmGetCapabilities => true
  | .spdmNegotiateAlgorithms => true
  | .spdmGetDigests => true
  | .spdmFinish _ => true
  | .spdmEndSession _ => true
  | .spdmKeyUpdate _ => true
  | .ideKmQuery _ => true
  | .ideKmKeyProg _ _ _ => true
  | .ideKmKSetGo _ _ => true
  | .ideKmKSetStop _ _ => true

/-- An instruction some word encodes, or an event that names agents the machine has. -/
def Instr.wf (i : Instr) : Bool := i.fieldsOk && i.orderOk

end Sys2Proof
end

