-- ==== Sys2Proof/Decode.lean ====
section
/-! DEFINITION. Decoding and encoding: the scalar words of R27-R29 and R41-R43, the block words of R30-R33 and R45, the
thread kinds of R41 and R44, the checks of R34 in their order, and the words of a well-formed instruction written from the
same tables. Decoding is total: a word that names no instruction is refused by the name of the check it fails. -/

namespace Sys2Proof

/-! The fields of a scalar word (R27). -/

/-- Bits 24:20. -/
def fD (w : Nat) : XReg := BitVec.ofNat 5 (bits w 24 20)
/-- Bits 19:15. -/
def fA (w : Nat) : XReg := BitVec.ofNat 5 (bits w 19 15)
/-- Bits 14:10. -/
def fB (w : Nat) : XReg := BitVec.ofNat 5 (bits w 14 10)
/-- Bits 14:0, the I and S immediate. -/
def fImm (w : Nat) : BitVec 15 := BitVec.ofNat 15 (bits w 14 0)
/-- Bits 19:0, the J offset and the U immediate. -/
def fU (w : Nat) : BitVec 20 := BitVec.ofNat 20 (bits w 19 0)
/-- Bits 11:0, the B offset. -/
def fOff (w : Nat) : BitVec 12 := BitVec.ofNat 12 (bits w 11 0)

/-- A field that must be zero (R29, R31). -/
def zeroF (v : Nat) (r : Except Bad Instr) : Except Bad Instr := if v = 0 then r else .error .zero

/-- A unary member's xb must be zero (R41). -/
def ifZ (b : XReg) (i : Instr) : Except Bad Instr := if b = 0#5 then .ok i else .error .zero

/-- Scope codes (R38); 5-7 are reserved. -/
def scopeOf (c : Nat) : Option Scope :=
  match c with
  | 0 => some .pair
  | 1 => some .cluster
  | 2 => some .die
  | 3 => some .pkg
  | 4 => some .sys
  | _ => none

/-- Order codes (R38). -/
def orderOf (c : Nat) : Order :=
  match c with
  | 0 => .rlx
  | 1 => .acq
  | 2 => .rel
  | _ => .acqrel

/-- The scope and order of an access, fn[9:7] and fn[6:5] (R43). -/
def withSO (w : Nat) (f : Scope → Order → Except Bad Instr) : Except Bad Instr :=
  match scopeOf (bits w 9 7) with
  | some sc => f sc (orderOf (bits w 6 5))
  | none => .error .code

/-- A member of a family by its number (R42). -/
def decAlu (m : Nat) (d a b : XReg) : Except Bad Instr :=
  match m with
  | 0 => .ok (.add d a b)
  | 1 => .ok (.sub d a b)
  | 2 => .ok (.and_ d a b)
  | 3 => .ok (.or_ d a b)
  | 4 => .ok (.xor_ d a b)
  | 5 => .ok (.sll d a b)
  | 6 => .ok (.srl d a b)
  | 7 => .ok (.sra d a b)
  | 8 => .ok (.slt d a b)
  | 9 => .ok (.sltu d a b)
  | 10 => .ok (.seq_ d a b)
  | 11 => .ok (.sne d a b)
  | 12 => .ok (.min_ d a b)
  | 13 => .ok (.max_ d a b)
  | 14 => .ok (.minu d a b)
  | 15 => .ok (.maxu d a b)
  | 16 => .ok (.andn d a b)
  | 17 => .ok (.orn d a b)
  | 18 => ifZ b (.clz d a)
  | 19 => ifZ b (.ctz d a)
  | 20 => ifZ b (.popc d a)
  | 21 => ifZ b (.sextb d a)
  | 22 => ifZ b (.sexth d a)
  | 23 => ifZ b (.sextw d a)
  | 24 => ifZ b (.zextw d a)
  | 25 => .ok (.rol d a b)
  | 26 => .ok (.ror d a b)
  | _ => .error .member

/-- A member of a family by its number (R42). -/
def decMul (m : Nat) (d a b : XReg) : Except Bad Instr :=
  match m with
  | 0 => .ok (.mul_ d a b)
  | 1 => .ok (.mulh d a b)
  | 2 => .ok (.mulhu d a b)
  | 3 => .ok (.mulhsu d a b)
  | 4 => .ok (.div_ d a b)
  | 5 => .ok (.divu d a b)
  | 6 => .ok (.rem d a b)
  | 7 => .ok (.remu d a b)
  | _ => .error .member

/-- A member of a family by its number (R42). -/
def decShiftImm (m : Nat) (d a : XReg) (n : BitVec 6) : Except Bad Instr :=
  match m with
  | 0 => .ok (.slli d a n)
  | 1 => .ok (.srli d a n)
  | 2 => .ok (.srai d a n)
  | 3 => .ok (.rori d a n)
  | _ => .error .member

/-- A member of a family by its number (R42). -/
def decBranch (m : Nat) (a b : XReg) (off : BitVec 12) : Except Bad Instr :=
  match m with
  | 0 => .ok (.beq a b off)
  | 1 => .ok (.bne a b off)
  | 2 => .ok (.blt a b off)
  | 3 => .ok (.bge a b off)
  | 4 => .ok (.bltu a b off)
  | 5 => .ok (.bgeu a b off)
  | _ => .error .member

/-- A member of a family by its number (R42). -/
def decAmo (m : Nat) (d a b : XReg) (sc : Scope) (ord : Order) (word : Bool) : Except Bad Instr :=
  match m with
  | 0 => .ok (.amoAdd d a b sc ord word)
  | 1 => .ok (.amoAnd d a b sc ord word)
  | 2 => .ok (.amoOr d a b sc ord word)
  | 3 => .ok (.amoXor d a b sc ord word)
  | 4 => .ok (.amoMin d a b sc ord word)
  | 5 => .ok (.amoMax d a b sc ord word)
  | 6 => .ok (.amoMinu d a b sc ord word)
  | 7 => .ok (.amoMaxu d a b sc ord word)
  | 8 => .ok (.amoSwap d a b sc ord word)
  | 9 => .ok (.amoCas d a b sc ord word)
  | _ => .error .member

/-- A member of a family by its number (R42). -/
def decFvop (m : Nat) (d a b : BitVec 4) (ew : BitVec 2) : Except Bad Instr :=
  match m with
  | 0 => .ok (.fvand d a b ew)
  | 1 => .ok (.fvor d a b ew)
  | 2 => .ok (.fvandn d a b ew)
  | 3 => .ok (.fvxor d a b ew)
  | 4 => .ok (.fvcmpeq d a b ew)
  | 5 => .ok (.fvcmpne d a b ew)
  | 6 => .ok (.fvcmplt d a b ew)
  | 7 => .ok (.fvcmpgt d a b ew)
  | _ => .error .member

/-- The instruction a scalar word's opcode, member and zero fields name (R41). -/
def scalarRow (w : Nat) : Except Bad Instr :=
  match bits w 31 25 with
  | 0x01 => zeroF (bits w 9 5) (decAlu (bits w 4 0) (fD w) (fA w) (fB w))
  | 0x02 => zeroF (bits w 9 5) (decMul (bits w 4 0) (fD w) (fA w) (fB w))
  | 0x03 => .ok (.addi (fD w) (fA w) (fImm w))
  | 0x04 => .ok (.andi (fD w) (fA w) (fImm w))
  | 0x05 => .ok (.ori (fD w) (fA w) (fImm w))
  | 0x06 => .ok (.xori (fD w) (fA w) (fImm w))
  | 0x07 => .ok (.slti (fD w) (fA w) (fImm w))
  | 0x08 => .ok (.sltiu (fD w) (fA w) (fImm w))
  | 0x09 => zeroF (bits w 12 6) (decShiftImm (bits w 14 13) (fD w) (fA w) (BitVec.ofNat 6 (bits w 5 0)))
  | 0x0A => .ok (.lui (fD w) (fU w))
  | 0x0B => .ok (.luh (fD w) (fU w))
  | 0x0C => .ok (.adpc (fD w) (fU w))
  | 0x10 => decBranch (bits w 14 12) (fD w) (fA w) (fOff w)
  | 0x11 => .ok (.jl (fD w) (fU w))
  | 0x12 => .ok (.jlr (fD w) (fA w) (fImm w))
  | 0x13 => zeroF (bits w 24 15) (match bits w 14 12 with
    | 0 => .ok (.qbt (fOff w))
    | 1 => .ok (.qbf (fOff w))
    | _ => .error .member)
  | 0x18 => .ok (.ldb (fD w) (fA w) (fImm w))
  | 0x19 => .ok (.ldh (fD w) (fA w) (fImm w))
  | 0x1A => .ok (.ldw (fD w) (fA w) (fImm w))
  | 0x1B => .ok (.ldd (fD w) (fA w) (fImm w))
  | 0x1C => .ok (.ldbu (fD w) (fA w) (fImm w))
  | 0x1D => .ok (.ldhu (fD w) (fA w) (fImm w))
  | 0x1E => .ok (.ldwu (fD w) (fA w) (fImm w))
  | 0x20 => .ok (.stb (fD w) (fA w) (fImm w))
  | 0x21 => .ok (.sth (fD w) (fA w) (fImm w))
  | 0x22 => .ok (.stw (fD w) (fA w) (fImm w))
  | 0x23 => .ok (.std (fD w) (fA w) (fImm w))
  | 0x24 => zeroF (bits w 14 10) (zeroF (bits w 1 0) (withSO w fun sc ord => .ok (.ldo (fD w) (fA w) sc ord (BitVec.ofNat 3 (bits w 4 2)))))
  | 0x25 => zeroF (bits w 24 20) (zeroF (bits w 1 0) (withSO w fun sc ord => .ok (.sto (fA w) (fB w) sc ord (BitVec.ofNat 3 (bits w 4 2)))))
  | 0x26 => withSO w fun sc ord => decAmo (bits w 3 0) (fD w) (fA w) (fB w) sc ord (bitOf w 4)
  | 0x27 => zeroF (bits w 24 10) (zeroF (bits w 3 0) (withSO w fun sc _ => match bits w 6 5 with
    | 0 => .ok (.fence sc (bitOf w 4))
    | 1 => .ok (.fenceAcq sc (bitOf w 4))
    | 2 => .ok (.fenceRel sc (bitOf w 4))
    | _ => .error .member))
  | 0x28 => .ok (.ldslot (fD w) (fA w) (fImm w))
  | 0x29 => .ok (.stslot (fD w) (fA w) (fImm w))
  | 0x2A => zeroF (bits w 14 8) (.ok (.tagset (fD w) (fA w) (BitVec.ofNat 8 (bits w 7 0))))
  | 0x2B => zeroF (bits w 14 0) (.ok (.tagrd (fD w) (fA w)))
  | 0x2C => zeroF (bits w 24 0) (.ok .safept)
  | 0x2D => zeroF (bits w 24 15) (zeroF (bits w 14 8) (.ok (.racq (BitVec.ofNat 8 (bits w 7 0)))))
  | 0x2E => zeroF (bits w 19 15) (zeroF (bits w 14 12) (.ok (.rgnq (fD w) (BitVec.ofNat 4 (bits w 11 8)) (BitVec.ofNat 8 (bits w 7 0)))))
  | 0x30 => zeroF (bits w 24 20) (zeroF (bits w 14 4) (match bits w 3 0 with
    | 0 => .ok (.qpushSq (fA w))
    | 3 => .ok (.qpushDownstream (fA w))
    | _ => .error .member))
  | 0x31 => zeroF (bits w 19 15) (zeroF (bits w 14 4) (match bits w 3 0 with
    | 0 => .ok (.qpopSq (fD w))
    | 2 => .ok (.qpopRq (fD w))
    | 4 => .ok (.qpopUpstream (fD w))
    | _ => .error .member))
  | 0x32 => zeroF (bits w 24 20) (zeroF (bits w 14 0) (.ok (.bout (fA w))))
  | 0x33 => zeroF (bits w 9 8) (.ok (.setvl (fD w) (fA w) (fB w) (BitVec.ofNat 3 (bits w 7 5)) (BitVec.ofNat 2 (bits w 4 3)) (BitVec.ofNat 3 (bits w 2 0))))
  | 0x34 => zeroF (bits w 24 15) (zeroF (bits w 14 4) (.ok (.setrc (BitVec.ofNat 4 (bits w 3 0)))))
  | 0x35 => zeroF (bits w 24 20) (.ok (.vfetch (fU w)))
  | 0x36 => zeroF (bits w 24 20) (.ok (.vfetchr (fA w) (fImm w)))
  | 0x37 => zeroF (bits w 24 0) (.ok .vwait)
  | 0x38 => zeroF (bits w 24 22) (zeroF (bits w 14 10) (zeroF (bits w 3 3) (withSO w fun sc ord => .ok (.vld (BitVec.ofNat 2 (bits w 21 20)) (fA w) sc ord (bitOf w 4) (BitVec.ofNat 3 (bits w 2 0))))))
  | 0x39 => zeroF (bits w 24 22) (zeroF (bits w 3 3) (withSO w fun sc ord => .ok (.vlds (BitVec.ofNat 2 (bits w 21 20)) (fA w) (fB w) sc ord (bitOf w 4) (BitVec.ofNat 3 (bits w 2 0)))))
  | 0x3A => zeroF (bits w 24 22) (zeroF (bits w 14 10) (zeroF (bits w 3 3) (withSO w fun sc ord => .ok (.vldx (BitVec.ofNat 2 (bits w 21 20)) (fA w) sc ord (bitOf w 4) (BitVec.ofNat 3 (bits w 2 0))))))
  | 0x3B => zeroF (bits w 24 21) (zeroF (bits w 14 10) (withSO w fun sc ord => if bitOf w 3 then .ok (.vsti (BitVec.ofNat 1 (bits w 20 20)) (fA w) sc ord (bitOf w 4) (BitVec.ofNat 3 (bits w 2 0))) else .ok (.vst (BitVec.ofNat 1 (bits w 20 20)) (fA w) sc ord (bitOf w 4) (BitVec.ofNat 3 (bits w 2 0)))))
  | 0x3C => zeroF (bits w 24 21) (zeroF (bits w 3 3) (withSO w fun sc ord => .ok (.vsts (BitVec.ofNat 1 (bits w 20 20)) (fA w) (fB w) sc ord (bitOf w 4) (BitVec.ofNat 3 (bits w 2 0)))))
  | 0x3D => zeroF (bits w 24 21) (zeroF (bits w 14 10) (zeroF (bits w 3 3) (withSO w fun sc ord => .ok (.vstx (BitVec.ofNat 1 (bits w 20 20)) (fA w) sc ord (bitOf w 4) (BitVec.ofNat 3 (bits w 2 0))))))
  | 0x3E => zeroF (bits w 24 21) (zeroF (bits w 14 10) (withSO w fun sc ord => .ok (.vsta (BitVec.ofNat 1 (bits w 20 20)) (fA w) sc ord (BitVec.ofNat 5 (bits w 4 0)))))
  | 0x3F => zeroF (bits w 24 21) (zeroF (bits w 14 10) (zeroF (bits w 3 3) (withSO w fun sc ord => .ok (.vstr (BitVec.ofNat 1 (bits w 20 20)) (fA w) sc ord (bitOf w 4) (BitVec.ofNat 3 (bits w 2 0))))))
  | 0x40 => zeroF (bits w 24 24) (.ok (.sdef (BitVec.ofNat 4 (bits w 23 20)) (fA w) (fImm w)))
  | 0x41 => zeroF (bits w 24 24) (zeroF (bits w 19 15) (zeroF (bits w 14 8) (if 12 ≤ bits w 3 0 ∨ (bitOf w 7 = false ∧ bits w 6 4 ≠ 0) then .error .field else .ok (.sbind (BitVec.ofNat 4 (bits w 23 20)) (bitOf w 7) (BitVec.ofNat 3 (bits w 6 4)) (BitVec.ofNat 4 (bits w 3 0))))))
  | 0x42 => zeroF (bits w 24 24) (zeroF (bits w 19 0) (.ok (.sgo (BitVec.ofNat 4 (bits w 23 20)))))
  | 0x43 => zeroF (bits w 24 15) (zeroF (bits w 14 3) (match bits w 2 0 with
    | 0 => .ok .sbarCfg
    | 1 => .ok .sbarPhase
    | 2 => .ok .sbarIft
    | 3 => .ok .sbarIff
    | _ => .error .member))
  | 0x44 => zeroF (bits w 24 20) (zeroF (bits w 14 3) (.ok (.wmwait (fA w) (BitVec.ofNat 3 (bits w 2 0)))))
  | 0x45 => zeroF (bits w 24 24) (zeroF (bits w 19 15) (zeroF (bits w 14 1) (if bitOf w 0 then .ok (.cpwaitVis (BitVec.ofNat 4 (bits w 23 20))) else .ok (.cpwaitRel (BitVec.ofNat 4 (bits w 23 20))))))
  | 0x46 => .ok (.jsub (fD w) (fA w) (fImm w))
  | 0x47 => zeroF (bits w 19 15) (zeroF (bits w 14 4) (.ok (.sstat (fD w) (BitVec.ofNat 4 (bits w 3 0)))))
  | 0x48 => zeroF (bits w 24 22) (.ok (.wbfill (BitVec.ofNat 2 (bits w 21 20)) (fA w) (fImm w)))
  | 0x49 => zeroF (bits w 19 15) (zeroF (bits w 14 2) (.ok (.wbwait (fD w) (BitVec.ofNat 2 (bits w 1 0)))))
  | 0x4C => zeroF (bits w 24 0) (.ok .bar)
  | 0x4D => zeroF (bits w 4 2) (withSO w fun sc ord => match bits w 1 0 with
    | 0 => .ok (.sigadd (fD w) (fA w) (fB w) sc ord)
    | 1 => zeroF (bits w 24 20) (.ok (.sigset (fA w) (fB w) sc ord))
    | 2 => .ok (.sigwge (fD w) (fA w) (fB w) sc ord)
    | _ => .ok (.sigweq (fD w) (fA w) (fB w) sc ord))
  | 0x4E => zeroF (bits w 9 0) (.ok (.enq (fD w) (fA w) (fB w)))
  | 0x4F => zeroF (bits w 19 0) (.ok (.symq (fD w)))
  | 0x50 => zeroF (bits w 24 20) (.ok (.svc (fU w)))
  | 0x51 => zeroF (bits w 24 0) (.ok .tret)
  | 0x52 => zeroF (bits w 14 14) (match bits w 13 12 with
    | 0 => zeroF (bits w 19 15) (.ok (.csrr (fD w) (BitVec.ofNat 12 (bits w 11 0))))
    | 1 => .ok (.csrw (fD w) (fA w) (BitVec.ofNat 12 (bits w 11 0)))
    | 2 => .ok (.csrs (fD w) (fA w) (BitVec.ofNat 12 (bits w 11 0)))
    | _ => .ok (.csrc (fD w) (fA w) (BitVec.ofNat 12 (bits w 11 0))))
  | 0x53 => zeroF (bits w 24 0) (.ok .cueret)
  | 0x54 => zeroF (bits w 24 0) (.ok .park)
  | 0x55 => zeroF (bits w 24 0) (.ok .exit)
  | 0x56 => zeroF (bits w 24 0) (.ok .yield)
  | 0x58 => zeroF (bits w 24 20) (.ok (.trc (fA w) (fImm w)))
  | 0x59 => zeroF (bits w 24 20) (.ok (.brk (fU w)))
  | 0x5C => zeroF (bits w 24 24) (.ok (.fvld (BitVec.ofNat 4 (bits w 23 20)) (fA w) (fImm w)))
  | 0x5D => zeroF (bits w 24 24) (.ok (.fvst (BitVec.ofNat 4 (bits w 23 20)) (fA w) (fImm w)))
  | 0x5E => zeroF (bits w 24 24) (zeroF (bits w 9 8) (zeroF (bits w 7 7) (if bits w 4 0 = 8 then
      zeroF (bits w 14 10) (.ok (.fvbcast (BitVec.ofNat 4 (bits w 23 20)) (fA w) (BitVec.ofNat 2 (bits w 6 5))))
    else zeroF (bits w 19 19) (zeroF (bits w 14 14) (decFvop (bits w 4 0) (BitVec.ofNat 4 (bits w 23 20)) (BitVec.ofNat 4 (bits w 18 15)) (BitVec.ofNat 4 (bits w 13 10)) (BitVec.ofNat 2 (bits w 6 5)))))))
  | 0x5F => zeroF (bits w 19 19) (zeroF (bits w 14 10) (zeroF (bits w 9 5) (match bits w 4 0 with
    | 0 => .ok (.fvff (fD w) (BitVec.ofNat 4 (bits w 18 15)))
    | 1 => .ok (.fvpopc (fD w) (BitVec.ofNat 4 (bits w 18 15)))
    | _ => .error .member)))
  | 0x60 => zeroF (bits w 24 20) (.ok (.vfetchw (fU w)))
  | 0x61 => .ok (.ldslot32 (fD w) (fA w) (fImm w))
  | 0x62 => zeroF (bits w 24 0) (.ok .sync)
  | 0x63 => zeroF (bits w 19 0) (.ok (.qpopw (fD w)))
  | _ => .error .opcode

/-- The fields of a block word (R30), or none where ka or kb holds the reserved kind (R31). -/
def srcKindOf (c : Nat) : Option SrcKind :=
  match c with
  | 0 => some .vreg
  | 1 => some .bscalar
  | 2 => some .queue
  | _ => none

def blkFields (w : Nat) (ka kb : SrcKind) : BlkW :=
  { vd := BitVec.ofNat 6 (bits w 55 50), sa := BitVec.ofNat 6 (bits w 49 44), sb := BitVec.ofNat 6 (bits w 43 38),
    sc := BitVec.ofNat 6 (bits w 37 32), ca := bitOf w 31, cb := bitOf w 30, cc := bitOf w 29, cv := bitOf w 28,
    m := BitVec.ofNat 3 (bits w 27 25), mn := bitOf w 24, xe := bitOf w 23, xm := BitVec.ofNat 3 (bits w 22 20),
    fs := BitVec.ofNat 3 (bits w 19 17), ka := ka, kb := kb }

/-- The instruction a block word's opcode and function field name (R45), given its other fields. -/
def blockRow (w : Nat) (f : BlkW) : Except Bad Instr :=
  match bits w 63 56 with
  | 0x00 => zeroF (bits w 55 0) (.ok .stop)
  | 0x01 => zeroF (bits w 55 0) (.ok .vnop)
  | 0x02 => zeroF (bits w 31 28) (zeroF (bits w 23 0) (.ok (.vbr (BitVec.ofNat 3 (bits w 27 25)) (bitOf w 24) (BitVec.ofNat 24 (bits w 55 32)))))
  | 0x03 => zeroF (bits w 55 0) (.ok .vrejoin)
  | 0x04 => zeroF (bits w 12 0) (.ok (.vret f))
  | 0x05 => zeroF (bits w 12 2) (.ok (.vout f (BitVec.ofNat 2 (bits w 1 0))))
  | 0x06 => zeroF (bits w 12 0) (.ok (.vidxq f))
  | 0x10 => zeroF (bits w 12 1) (.ok (.vadd f (bitOf w 0)))
  | 0x11 => zeroF (bits w 12 1) (.ok (.vsub f (bitOf w 0)))
  | 0x12 => zeroF (bits w 12 1) (.ok (.vmul f (bitOf w 0)))
  | 0x13 => zeroF (bits w 12 0) (.ok (.vmulh f))
  | 0x14 => zeroF (bits w 12 0) (.ok (.vdiv f))
  | 0x15 => zeroF (bits w 12 0) (.ok (.vrem f))
  | 0x16 => zeroF (bits w 12 0) (.ok (.vand f))
  | 0x17 => zeroF (bits w 12 0) (.ok (.vor f))
  | 0x18 => zeroF (bits w 12 0) (.ok (.vxor f))
  | 0x19 => zeroF (bits w 12 0) (.ok (.vsll f))
  | 0x1A => zeroF (bits w 12 0) (.ok (.vsrl f))
  | 0x1B => zeroF (bits w 12 0) (.ok (.vsra f))
  | 0x1C => zeroF (bits w 12 0) (.ok (.vmin f))
  | 0x1D => zeroF (bits w 12 0) (.ok (.vmax f))
  | 0x1E => zeroF (bits w 12 6) (.ok (.vadc f (BitVec.ofNat 3 (bits w 2 0)) (BitVec.ofNat 3 (bits w 5 3))))
  | 0x1F => zeroF (bits w 12 6) (.ok (.vsbc f (BitVec.ofNat 3 (bits w 2 0)) (BitVec.ofNat 3 (bits w 5 3))))
  | 0x20 => zeroF (bits w 12 3) (.ok (.vcmp f (BitVec.ofNat 3 (bits w 2 0))))
  | 0x30 => zeroF (bits w 12 0) (.ok (.vfadd f))
  | 0x31 => zeroF (bits w 12 0) (.ok (.vfsub f))
  | 0x32 => zeroF (bits w 12 0) (.ok (.vfmul f))
  | 0x33 => zeroF (bits w 12 2) (.ok (.vfma f (BitVec.ofNat 2 (bits w 1 0))))
  | 0x34 => zeroF (bits w 12 0) (.ok (.vfdiv f))
  | 0x35 => zeroF (bits w 12 0) (.ok (.vfsqrt f))
  | 0x36 => zeroF (bits w 12 0) (.ok (.vfmin f))
  | 0x37 => zeroF (bits w 12 0) (.ok (.vfmax f))
  | 0x38 => zeroF (bits w 12 3) (.ok (.vfcmp f (BitVec.ofNat 3 (bits w 2 0))))
  | 0x39 => zeroF (bits w 12 0) (.ok (.vfclass f))
  | 0x3A => zeroF (bits w 12 2) (.ok (.vfsgn f (BitVec.ofNat 2 (bits w 1 0))))
  | 0x3B => zeroF (bits w 12 4) (.ok (.vfsfn f (BitVec.ofNat 4 (bits w 3 0))))
  | 0x50 => zeroF (bits w 12 0) (.ok (.vcvt f))
  | 0x51 => zeroF (bits w 12 5) (.ok (.vbfly f (BitVec.ofNat 4 (bits w 3 0)) (bitOf w 4)))
  | 0x52 => zeroF (bits w 12 0) (.ok (.zld f))
  | 0x53 => zeroF (bits w 12 0) (.ok (.zmv f))
  | 0x54 => zeroF (bits w 12 0) (.ok (.vrng f))
  | 0x60 => zeroF (bits w 12 4) (match bits w 3 0 with
    | 0 => .ok (.mand f)
    | 1 => .ok (.mor f)
    | 2 => .ok (.mxor f)
    | 3 => .ok (.mandn f)
    | 4 => .ok (.mnot f)
    | _ => .error .member)
  | 0x61 => zeroF (bits w 12 0) (.ok (.mfirst f))
  | 0x62 => zeroF (bits w 12 0) (.ok (.mpopc f))
  | 0x63 => .ok (.mshift f (bitOf w 12) (BitVec.ofNat 12 (bits w 11 0)))
  | 0x64 => zeroF (bits w 12 1) (.ok (.mset f (bitOf w 0)))
  | 0x65 => zeroF (bits w 12 0) (.ok (.mmv f))
  | 0x70 => zeroF (bits w 12 0) (.ok (.vmv f))
  | 0x71 => zeroF (bits w 12 0) (.ok (.vmerge f))
  | 0x72 => zeroF (bits w 12 0) (.ok (.vid f))
  | 0x73 => .ok (.vslideup f (BitVec.ofNat 13 (bits w 12 0)))
  | 0x74 => .ok (.vslidedn f (BitVec.ofNat 13 (bits w 12 0)))
  | 0x75 => zeroF (bits w 12 0) (.ok (.vrgather f))
  | 0x76 => zeroF (bits w 12 0) (.ok (.vcompress f))
  | 0x77 => zeroF (bits w 12 0) (.ok (.vredsum f))
  | 0x78 => zeroF (bits w 12 1) (.ok (.vfredsum f (bitOf w 0)))
  | 0x79 => zeroF (bits w 12 2) (.ok (.vredmm f (BitVec.ofNat 2 (bits w 1 0))))
  | 0x7A => zeroF (bits w 12 1) (.ok (.vfredmm f (bitOf w 0)))
  | 0x80 => zeroF (bits w 12 3) (.ok (.mrow f (BitVec.ofNat 2 (bits w 1 0)) (bitOf w 2)))
  | 0x81 => zeroF (bits w 12 3) (.ok (.mrow64 f (BitVec.ofNat 2 (bits w 1 0)) (bitOf w 2)))
  | 0xF0 => zeroF (bits w 12 0) (.ok (.vfmacc f))
  | _ => .error .opcode

/-- Steps 4 and 5 of R34 on what the row named. -/
def checked (r : Except Bad Instr) : Except Bad Instr :=
  match r with
  | .error e => .error e
  | .ok i => if !i.fieldsOk then .error .field else if !i.orderOk then .error .code else .ok i

/-- The instruction a 32-bit scalar word encodes, or why it encodes none. -/
def decodeScalar (w : Nat) : Except Bad Instr := checked (scalarRow w)

/-- The instruction a 64-bit block word encodes, or why it encodes none (R35). -/
def decodeBlock (w : Nat) : Except Bad Instr :=
  match srcKindOf (bits w 16 15), srcKindOf (bits w 14 13) with
  | some ka, some kb => checked (blockRow w (blkFields w ka kb))
  | _, _ => .error .kind

/-- The thread kinds that may execute an instruction (R41, R44); no thread executes a block word or an event. -/
def Instr.runsOn (k : Kind) : Instr → Bool
  | .add _ _ _ => true
  | .sub _ _ _ => true
  | .and_ _ _ _ => true
  | .or_ _ _ _ => true
  | .xor_ _ _ _ => true
  | .sll _ _ _ => true
  | .srl _ _ _ => true
  | .sra _ _ _ => true
  | .slt _ _ _ => true
  | .sltu _ _ _ => true
  | .seq_ _ _ _ => true
  | .sne _ _ _ => true
  | .min_ _ _ _ => true
  | .max_ _ _ _ => true
  | .minu _ _ _ => true
  | .maxu _ _ _ => true
  | .andn _ _ _ => true
  | .orn _ _ _ => true
  | .clz _ _ => true
  | .ctz _ _ => true
  | .popc _ _ => true
  | .sextb _ _ => true
  | .sexth _ _ => true
  | .sextw _ _ => true
  | .zextw _ _ => true
  | .rol _ _ _ => true
  | .ror _ _ _ => true
  | .mul_ _ _ _ => true
  | .mulh _ _ _ => true
  | .mulhu _ _ _ => true
  | .mulhsu _ _ _ => true
  | .div_ _ _ _ => true
  | .divu _ _ _ => true
  | .rem _ _ _ => true
  | .remu _ _ _ => true
  | .addi _ _ _ => true
  | .andi _ _ _ => true
  | .ori _ _ _ => true
  | .xori _ _ _ => true
  | .slti _ _ _ => true
  | .sltiu _ _ _ => true
  | .slli _ _ _ => true
  | .srli _ _ _ => true
  | .srai _ _ _ => true
  | .rori _ _ _ => true
  | .lui _ _ => true
  | .luh _ _ => true
  | .adpc _ _ => true
  | .beq _ _ _ => true
  | .bne _ _ _ => true
  | .blt _ _ _ => true
  | .bge _ _ _ => true
  | .bltu _ _ _ => true
  | .bgeu _ _ _ => true
  | .jl _ _ => true
  | .jlr _ _ _ => true
  | .qbt _ => k == .X
  | .qbf _ => k == .X
  | .ldb _ _ _ => true
  | .ldh _ _ _ => true
  | .ldw _ _ _ => true
  | .ldd _ _ _ => true
  | .ldbu _ _ _ => true
  | .ldhu _ _ _ => true
  | .ldwu _ _ _ => true
  | .stb _ _ _ => true
  | .sth _ _ _ => true
  | .stw _ _ _ => true
  | .std _ _ _ => true
  | .ldo _ _ _ _ _ => true
  | .sto _ _ _ _ _ => true
  | .amoAdd _ _ _ _ _ _ => true
  | .amoAnd _ _ _ _ _ _ => true
  | .amoOr _ _ _ _ _ _ => true
  | .amoXor _ _ _ _ _ _ => true
  | .amoMin _ _ _ _ _ _ => true
  | .amoMax _ _ _ _ _ _ => true
  | .amoMinu _ _ _ _ _ _ => true
  | .amoMaxu _ _ _ _ _ _ => true
  | .amoSwap _ _ _ _ _ _ => true
  | .amoCas _ _ _ _ _ _ => true
  | .fence _ _ => true
  | .fenceAcq _ _ => true
  | .fenceRel _ _ => true
  | .ldslot _ _ _ => k != .F
  | .stslot _ _ _ => k != .F
  | .tagset _ _ _ => k != .F
  | .tagrd _ _ => k != .F
  | .safept => k != .F
  | .racq _ => k != .F
  | .rgnq _ _ _ => k != .F
  | .qpushSq _ => k == .A
  | .qpushDownstream _ => k == .X
  | .qpopSq _ => k == .X
  | .qpopRq _ => k == .X
  | .qpopUpstream _ => k == .X
  | .bout _ => k == .A
  | .setvl _ _ _ _ _ _ => k != .F
  | .setrc _ => k == .X
  | .vfetch _ => k == .X
  | .vfetchr _ _ => k == .X
  | .vwait => k == .X
  | .vld _ _ _ _ _ _ => k == .A
  | .vlds _ _ _ _ _ _ _ => k == .A
  | .vldx _ _ _ _ _ _ => k == .A
  | .vst _ _ _ _ _ _ => k == .A
  | .vsti _ _ _ _ _ _ => k == .A
  | .vsts _ _ _ _ _ _ _ => k == .A
  | .vstx _ _ _ _ _ _ => k == .A
  | .vsta _ _ _ _ _ => k == .A
  | .vstr _ _ _ _ _ _ => k == .A
  | .sdef _ _ _ => k == .A
  | .sbind _ _ _ _ => k == .A
  | .sgo _ => k == .A
  | .sbarCfg => k == .A
  | .sbarPhase => k == .A
  | .sbarIft => k == .A
  | .sbarIff => k == .A
  | .wmwait _ _ => k == .A
  | .cpwaitRel _ => k == .A
  | .cpwaitVis _ => k == .A
  | .jsub _ _ _ => k == .A
  | .sstat _ _ => k == .A
  | .wbfill _ _ _ => k == .A
  | .wbwait _ _ => k == .A
  | .bar => k != .F
  | .sigadd _ _ _ _ _ => k != .F
  | .sigset _ _ _ _ => k != .F
  | .sigwge _ _ _ _ _ => k != .F
  | .sigweq _ _ _ _ _ => k != .F
  | .enq _ _ _ => k != .F
  | .symq _ => k != .F
  | .svc _ => k != .F
  | .tret => k == .F
  | .csrr _ _ => true
  | .csrw _ _ _ => true
  | .csrs _ _ _ => true
  | .csrc _ _ _ => true
  | .cueret => k != .F
  | .park => k != .F
  | .exit => k != .F
  | .yield => k != .F
  | .trc _ _ => k != .F
  | .brk _ => true
  | .fvld _ _ _ => k == .F
  | .fvst _ _ _ => k == .F
  | .fvand _ _ _ _ => k == .F
  | .fvor _ _ _ _ => k == .F
  | .fvandn _ _ _ _ => k == .F
  | .fvxor _ _ _ _ => k == .F
  | .fvcmpeq _ _ _ _ => k == .F
  | .fvcmpne _ _ _ _ => k == .F
  | .fvcmplt _ _ _ _ => k == .F
  | .fvcmpgt _ _ _ _ => k == .F
  | .fvbcast _ _ _ => k == .F
  | .fvff _ _ => k == .F
  | .fvpopc _ _ => k == .F
  | .vfetchw _ => k == .X
  | .ldslot32 _ _ _ => k != .F
  | .sync => true
  | .qpopw _ => k == .X
  | .stop => false
  | .vnop => false
  | .vbr _ _ _ => false
  | .vrejoin => false
  | .vret _ => false
  | .vout _ _ => false
  | .vidxq _ => false
  | .vadd _ _ => false
  | .vsub _ _ => false
  | .vmul _ _ => false
  | .vmulh _ => false
  | .vdiv _ => false
  | .vrem _ => false
  | .vand _ => false
  | .vor _ => false
  | .vxor _ => false
  | .vsll _ => false
  | .vsrl _ => false
  | .vsra _ => false
  | .vmin _ => false
  | .vmax _ => false
  | .vadc _ _ _ => false
  | .vsbc _ _ _ => false
  | .vcmp _ _ => false
  | .vfadd _ => false
  | .vfsub _ => false
  | .vfmul _ => false
  | .vfma _ _ => false
  | .vfdiv _ => false
  | .vfsqrt _ => false
  | .vfmin _ => false
  | .vfmax _ => false
  | .vfcmp _ _ => false
  | .vfclass _ => false
  | .vfsgn _ _ => false
  | .vfsfn _ _ => false
  | .vcvt _ => false
  | .vbfly _ _ _ => false
  | .zld _ => false
  | .zmv _ => false
  | .vrng _ => false
  | .mand _ => false
  | .mor _ => false
  | .mxor _ => false
  | .mandn _ => false
  | .mnot _ => false
  | .mfirst _ => false
  | .mpopc _ => false
  | .mshift _ _ _ => false
  | .mset _ _ => false
  | .mmv _ => false
  | .vmv _ => false
  | .vmerge _ => false
  | .vid _ => false
  | .vslideup _ _ => false
  | .vslidedn _ _ => false
  | .vrgather _ => false
  | .vcompress _ => false
  | .vredsum _ => false
  | .vfredsum _ _ => false
  | .vredmm _ _ => false
  | .vfredmm _ _ => false
  | .mrow _ _ _ => false
  | .mrow64 _ _ _ => false
  | .vfmacc _ => false
  | .partitionChangePost _ _ => false
  | .laneLend _ _ => false
  | .lendReturnTimeout _ => false
  | .pairTrap _ _ _ _ _ => false
  | .swapFault _ _ => false
  | .uncorrectableDataError _ _ _ => false
  | .correctedError _ _ => false
  | .ctxcmdResume _ _ _ => false
  | .ctxcmdSkip _ _ _ => false
  | .ctxcmdTerminate _ => false
  | .cueDelivery _ _ => false
  | .kick _ _ => false
  | .ringFetch _ _ => false
  | .tornRetry _ _ => false
  | .launchPacket _ _ _ => false
  | .signalWritePacket _ _ _ => false
  | .waitPacket _ _ _ => false
  | .linkPacket _ _ _ => false
  | .residencyHint _ _ _ => false
  | .ringBarrier _ _ _ => false
  | .nopPacket _ _ _ => false
  | .jobCardPacket _ _ _ => false
  | .admission _ => false
  | .admissionAging _ _ _ => false
  | .pairStart _ => false
  | .shareEnd _ _ _ => false
  | .completionSignalWrite _ _ _ => false
  | .preemptSoft _ _ _ _ => false
  | .preemptHardTimeout _ _ _ _ => false
  | .preemptHard _ _ _ _ => false
  | .groupRestore _ _ _ _ => false
  | .regionTableUpdate _ _ _ => false
  | .regionEvict _ _ => false
  | .regionArrival _ _ => false
  | .moveRequest _ _ _ => false
  | .moveHolderTimeout _ _ => false
  | .moveCommit _ _ => false
  | .unloadCode _ _ => false
  | .forcedRetire _ _ => false
  | .streamStart _ _ => false
  | .streamTransfer _ _ => false
  | .streamReleased _ _ => false
  | .streamVisible _ _ => false
  | .streamFault _ _ _ => false
  | .streamSwapFault _ _ => false
  | .jobCardStart _ _ => false
  | .jobCardComplete _ _ => false
  | .jobCardFault _ _ _ => false
  | .wbFillStart _ _ => false
  | .wbFillEnd _ _ _ => false
  | .peerRequest _ _ _ _ _ => false
  | .flitReplay _ => false
  | .dbgStop _ _ => false
  | .dbgHardStop _ _ => false
  | .dbgStep _ _ => false
  | .dbgRun _ _ => false
  | .trigWrite _ _ _ => false
  | .trwrWrite _ _ => false
  | .sampleCycles _ => false
  | .fTrap _ _ _ => false
  | .sramErrorFound _ _ _ => false
  | .scrubRead _ _ _ _ => false
  | .takeover _ _ => false
  | .firmwareLost _ _ => false
  | .fwstatHoldClear _ => false
  | .jrnlWrite _ _ => false
  | .admpostPost _ _ => false
  | .fwnoteWrite _ _ => false
  | .errcntWrite _ _ => false
  | .deviceRegisterWrite _ _ _ => false
  | .hostBar4Read _ => false
  | .hostBar4Write _ _ => false
  | .vfKick _ _ => false
  | .getTdispVersion _ => false
  | .getTdispCapabilities _ => false
  | .lockInterfaceRequest _ => false
  | .getDeviceInterfaceReport _ => false
  | .getDeviceInterfaceState _ => false
  | .startInterfaceRequest _ _ => false
  | .stopInterfaceRequest _ => false
  | .tdispUnsupported _ _ => false
  | .lockedConfigWrite _ _ _ => false
  | .spdmGetCertificate _ => false
  | .spdmChallenge _ => false
  | .spdmGetMeasurements _ _ _ => false
  | .spdmKeyExchange _ => false
  | .spdmHeartbeat _ => false
  | .firmwareDelivery _ _ _ _ => false
  | .packageReset => false
  | .gafferThrottle _ => false
  | .gafferRestore _ => false
  | .dataCacheLineEviction _ _ => false
  | .vectorAccessCompletion _ _ => false
  | .residencyRequestService _ _ _ => false
  | .peerResponse _ _ _ _ => false
  | .hostSignalReread _ _ => false
  | .spdmGetVersion => false
  | .spdmGetCapabilities => false
  | .spdmNegotiateAlgorithms => false
  | .spdmGetDigests => false
  | .spdmFinish _ => false
  | .spdmEndSession _ => false
  | .spdmKeyUpdate _ => false
  | .ideKmQuery _ => false
  | .ideKmKeyProg _ _ _ => false
  | .ideKmKSetGo _ _ => false
  | .ideKmKSetStop _ _ => false

/-- Opcodes only the F kind may execute (R44). -/
def opFOnly (op : Nat) : Bool := op == 0x51 || op == 0x5C || op == 0x5D || op == 0x5E || op == 0x5F

/-- Opcodes R41 assigns. -/
def opAssigned (w : Nat) : Bool :=
  match scalarRow w with
  | .error .opcode => false
  | _ => true

/-- The checks of R34 in their order for a thread of kind k: the instruction, or the trap cause. -/
def checkScalar (k : Kind) (w : Nat) : Except (BitVec 8) Instr :=
  if !opAssigned w then .error 0x01#8
  else if k != .F && (opFOnly (bits w 31 25) || (bits w 31 25 == 0x52 && decide (0x100 ≤ bits w 11 0))) then .error 0x0F#8
  else
    match decodeScalar w with
    | .error _ => .error 0x01#8
    | .ok i => if i.runsOn k then .ok i else .error 0x01#8

/-! The encoder. -/

/-- The scalar formats R, I, B and U as words (R27). -/
def encR (op d a b fn : Nat) : Nat := op * 2 ^ 25 + d * 2 ^ 20 + a * 2 ^ 15 + b * 2 ^ 10 + fn
def encI (op d a imm : Nat) : Nat := op * 2 ^ 25 + d * 2 ^ 20 + a * 2 ^ 15 + imm
def encB (op a b cond off : Nat) : Nat := op * 2 ^ 25 + a * 2 ^ 20 + b * 2 ^ 15 + cond * 2 ^ 12 + off
def encU (op d imm : Nat) : Nat := op * 2 ^ 25 + d * 2 ^ 20 + imm
def fnSO (sc : Scope) (ord : Order) : Nat := sc.code.toNat * 2 ^ 7 + ord.code.toNat * 2 ^ 5

def encBlk (op : Nat) (w : BlkW) (fn : Nat) : Nat :=
  op * 2 ^ 56 + w.vd.toNat * 2 ^ 50 + w.sa.toNat * 2 ^ 44 + w.sb.toNat * 2 ^ 38 + w.sc.toNat * 2 ^ 32
    + w.ca.toNat * 2 ^ 31 + w.cb.toNat * 2 ^ 30 + w.cc.toNat * 2 ^ 29 + w.cv.toNat * 2 ^ 28
    + w.m.toNat * 2 ^ 25 + w.mn.toNat * 2 ^ 24 + w.xe.toNat * 2 ^ 23 + w.xm.toNat * 2 ^ 20
    + w.fs.toNat * 2 ^ 17 + w.ka.code.toNat * 2 ^ 15 + w.kb.code.toNat * 2 ^ 13 + fn

/-- The fields of a block word all zero. -/
def blkZero : BlkW := {}

/-- The word of an instruction, from the layouts of R27, R30 and R33 and the rows of R41-R45. -/
def encode : Instr → Enc
  | .add d a b => .w32 (encR 0x01 d.toNat a.toNat b.toNat 0)
  | .sub d a b => .w32 (encR 0x01 d.toNat a.toNat b.toNat 1)
  | .and_ d a b => .w32 (encR 0x01 d.toNat a.toNat b.toNat 2)
  | .or_ d a b => .w32 (encR 0x01 d.toNat a.toNat b.toNat 3)
  | .xor_ d a b => .w32 (encR 0x01 d.toNat a.toNat b.toNat 4)
  | .sll d a b => .w32 (encR 0x01 d.toNat a.toNat b.toNat 5)
  | .srl d a b => .w32 (encR 0x01 d.toNat a.toNat b.toNat 6)
  | .sra d a b => .w32 (encR 0x01 d.toNat a.toNat b.toNat 7)
  | .slt d a b => .w32 (encR 0x01 d.toNat a.toNat b.toNat 8)
  | .sltu d a b => .w32 (encR 0x01 d.toNat a.toNat b.toNat 9)
  | .seq_ d a b => .w32 (encR 0x01 d.toNat a.toNat b.toNat 10)
  | .sne d a b => .w32 (encR 0x01 d.toNat a.toNat b.toNat 11)
  | .min_ d a b => .w32 (encR 0x01 d.toNat a.toNat b.toNat 12)
  | .max_ d a b => .w32 (encR 0x01 d.toNat a.toNat b.toNat 13)
  | .minu d a b => .w32 (encR 0x01 d.toNat a.toNat b.toNat 14)
  | .maxu d a b => .w32 (encR 0x01 d.toNat a.toNat b.toNat 15)
  | .andn d a b => .w32 (encR 0x01 d.toNat a.toNat b.toNat 16)
  | .orn d a b => .w32 (encR 0x01 d.toNat a.toNat b.toNat 17)
  | .clz d a => .w32 (encR 0x01 d.toNat a.toNat 0 18)
  | .ctz d a => .w32 (encR 0x01 d.toNat a.toNat 0 19)
  | .popc d a => .w32 (encR 0x01 d.toNat a.toNat 0 20)
  | .sextb d a => .w32 (encR 0x01 d.toNat a.toNat 0 21)
  | .sexth d a => .w32 (encR 0x01 d.toNat a.toNat 0 22)
  | .sextw d a => .w32 (encR 0x01 d.toNat a.toNat 0 23)
  | .zextw d a => .w32 (encR 0x01 d.toNat a.toNat 0 24)
  | .rol d a b => .w32 (encR 0x01 d.toNat a.toNat b.toNat 25)
  | .ror d a b => .w32 (encR 0x01 d.toNat a.toNat b.toNat 26)
  | .mul_ d a b => .w32 (encR 0x02 d.toNat a.toNat b.toNat 0)
  | .mulh d a b => .w32 (encR 0x02 d.toNat a.toNat b.toNat 1)
  | .mulhu d a b => .w32 (encR 0x02 d.toNat a.toNat b.toNat 2)
  | .mulhsu d a b => .w32 (encR 0x02 d.toNat a.toNat b.toNat 3)
  | .div_ d a b => .w32 (encR 0x02 d.toNat a.toNat b.toNat 4)
  | .divu d a b => .w32 (encR 0x02 d.toNat a.toNat b.toNat 5)
  | .rem d a b => .w32 (encR 0x02 d.toNat a.toNat b.toNat 6)
  | .remu d a b => .w32 (encR 0x02 d.toNat a.toNat b.toNat 7)
  | .addi d a imm => .w32 (encI 0x03 d.toNat a.toNat imm.toNat)
  | .andi d a imm => .w32 (encI 0x04 d.toNat a.toNat imm.toNat)
  | .ori d a imm => .w32 (encI 0x05 d.toNat a.toNat imm.toNat)
  | .xori d a imm => .w32 (encI 0x06 d.toNat a.toNat imm.toNat)
  | .slti d a imm => .w32 (encI 0x07 d.toNat a.toNat imm.toNat)
  | .sltiu d a imm => .w32 (encI 0x08 d.toNat a.toNat imm.toNat)
  | .slli d a amt => .w32 (encI 0x09 d.toNat a.toNat (0 * 2 ^ 13 + amt.toNat))
  | .srli d a amt => .w32 (encI 0x09 d.toNat a.toNat (1 * 2 ^ 13 + amt.toNat))
  | .srai d a amt => .w32 (encI 0x09 d.toNat a.toNat (2 * 2 ^ 13 + amt.toNat))
  | .rori d a amt => .w32 (encI 0x09 d.toNat a.toNat (3 * 2 ^ 13 + amt.toNat))
  | .lui d imm => .w32 (encU 0x0A d.toNat imm.toNat)
  | .luh d imm => .w32 (encU 0x0B d.toNat imm.toNat)
  | .adpc d imm => .w32 (encU 0x0C d.toNat imm.toNat)
  | .beq a b off => .w32 (encB 0x10 a.toNat b.toNat 0 off.toNat)
  | .bne a b off => .w32 (encB 0x10 a.toNat b.toNat 1 off.toNat)
  | .blt a b off => .w32 (encB 0x10 a.toNat b.toNat 2 off.toNat)
  | .bge a b off => .w32 (encB 0x10 a.toNat b.toNat 3 off.toNat)
  | .bltu a b off => .w32 (encB 0x10 a.toNat b.toNat 4 off.toNat)
  | .bgeu a b off => .w32 (encB 0x10 a.toNat b.toNat 5 off.toNat)
  | .jl d off => .w32 (encU 0x11 d.toNat off.toNat)
  | .jlr d a imm => .w32 (encI 0x12 d.toNat a.toNat imm.toNat)
  | .qbt off => .w32 (encB 0x13 0 0 0 off.toNat)
  | .qbf off => .w32 (encB 0x13 0 0 1 off.toNat)
  | .ldb d a imm => .w32 (encI 0x18 d.toNat a.toNat imm.toNat)
  | .ldh d a imm => .w32 (encI 0x19 d.toNat a.toNat imm.toNat)
  | .ldw d a imm => .w32 (encI 0x1A d.toNat a.toNat imm.toNat)
  | .ldd d a imm => .w32 (encI 0x1B d.toNat a.toNat imm.toNat)
  | .ldbu d a imm => .w32 (encI 0x1C d.toNat a.toNat imm.toNat)
  | .ldhu d a imm => .w32 (encI 0x1D d.toNat a.toNat imm.toNat)
  | .ldwu d a imm => .w32 (encI 0x1E d.toNat a.toNat imm.toNat)
  | .stb xs a imm => .w32 (encI 0x20 xs.toNat a.toNat imm.toNat)
  | .sth xs a imm => .w32 (encI 0x21 xs.toNat a.toNat imm.toNat)
  | .stw xs a imm => .w32 (encI 0x22 xs.toNat a.toNat imm.toNat)
  | .std xs a imm => .w32 (encI 0x23 xs.toNat a.toNat imm.toNat)
  | .ldo d a sc ord sz => .w32 (encR 0x24 d.toNat a.toNat 0 (fnSO sc ord + sz.toNat * 4))
  | .sto a b sc ord sz => .w32 (encR 0x25 0 a.toNat b.toNat (fnSO sc ord + sz.toNat * 4))
  | .amoAdd d a b sc ord word => .w32 (encR 0x26 d.toNat a.toNat b.toNat (fnSO sc ord + word.toNat * 16 + 0))
  | .amoAnd d a b sc ord word => .w32 (encR 0x26 d.toNat a.toNat b.toNat (fnSO sc ord + word.toNat * 16 + 1))
  | .amoOr d a b sc ord word => .w32 (encR 0x26 d.toNat a.toNat b.toNat (fnSO sc ord + word.toNat * 16 + 2))
  | .amoXor d a b sc ord word => .w32 (encR 0x26 d.toNat a.toNat b.toNat (fnSO sc ord + word.toNat * 16 + 3))
  | .amoMin d a b sc ord word => .w32 (encR 0x26 d.toNat a.toNat b.toNat (fnSO sc ord + word.toNat * 16 + 4))
  | .amoMax d a b sc ord word => .w32 (encR 0x26 d.toNat a.toNat b.toNat (fnSO sc ord + word.toNat * 16 + 5))
  | .amoMinu d a b sc ord word => .w32 (encR 0x26 d.toNat a.toNat b.toNat (fnSO sc ord + word.toNat * 16 + 6))
  | .amoMaxu d a b sc ord word => .w32 (encR 0x26 d.toNat a.toNat b.toNat (fnSO sc ord + word.toNat * 16 + 7))
  | .amoSwap d a b sc ord word => .w32 (encR 0x26 d.toNat a.toNat b.toNat (fnSO sc ord + word.toNat * 16 + 8))
  | .amoCas d a b sc ord word => .w32 (encR 0x26 d.toNat a.toNat b.toNat (fnSO sc ord + word.toNat * 16 + 9))
  | .fence sc eng => .w32 (encR 0x27 0 0 0 (sc.code.toNat * 2 ^ 7 + 0 * 2 ^ 5 + eng.toNat * 16))
  | .fenceAcq sc eng => .w32 (encR 0x27 0 0 0 (sc.code.toNat * 2 ^ 7 + 1 * 2 ^ 5 + eng.toNat * 16))
  | .fenceRel sc eng => .w32 (encR 0x27 0 0 0 (sc.code.toNat * 2 ^ 7 + 2 * 2 ^ 5 + eng.toNat * 16))
  | .ldslot d a imm => .w32 (encI 0x28 d.toNat a.toNat imm.toNat)
  | .stslot xs a imm => .w32 (encI 0x29 xs.toNat a.toNat imm.toNat)
  | .tagset d a t => .w32 (encI 0x2A d.toNat a.toNat t.toNat)
  | .tagrd d a => .w32 (encR 0x2B d.toNat a.toNat 0 0)
  | .safept => .w32 (encR 0x2C 0 0 0 0)
  | .racq rgn => .w32 (encI 0x2D 0 0 rgn.toNat)
  | .rgnq d sel rgn => .w32 (encI 0x2E d.toNat 0 (sel.toNat * 2 ^ 8 + rgn.toNat))
  | .qpushSq a => .w32 (encI 0x30 0 a.toNat 0)
  | .qpushDownstream a => .w32 (encI 0x30 0 a.toNat 3)
  | .qpopSq d => .w32 (encI 0x31 d.toNat 0 0)
  | .qpopRq d => .w32 (encI 0x31 d.toNat 0 2)
  | .qpopUpstream d => .w32 (encI 0x31 d.toNat 0 4)
  | .bout a => .w32 (encI 0x32 0 a.toNat 0)
  | .setvl d a b blk lmul sew => .w32 (encR 0x33 d.toNat a.toNat b.toNat (blk.toNat * 2 ^ 5 + lmul.toNat * 2 ^ 3 + sew.toNat))
  | .setrc n => .w32 (encI 0x34 0 0 n.toNat)
  | .vfetch off => .w32 (encU 0x35 0 off.toNat)
  | .vfetchr a imm => .w32 (encI 0x36 0 a.toNat imm.toNat)
  | .vwait => .w32 (encR 0x37 0 0 0 0)
  | .vld q a sc ord ordd ew => .w32 (encR 0x38 q.toNat a.toNat 0 (fnSO sc ord + ordd.toNat * 16 + ew.toNat))
  | .vlds q a b sc ord ordd ew => .w32 (encR 0x39 q.toNat a.toNat b.toNat (fnSO sc ord + ordd.toNat * 16 + ew.toNat))
  | .vldx q a sc ord ordd ew => .w32 (encR 0x3A q.toNat a.toNat 0 (fnSO sc ord + ordd.toNat * 16 + ew.toNat))
  | .vst q a sc ord ordd ew => .w32 (encR 0x3B q.toNat a.toNat 0 (fnSO sc ord + ordd.toNat * 16 + ew.toNat))
  | .vsti q a sc ord ordd ew => .w32 (encR 0x3B q.toNat a.toNat 0 (fnSO sc ord + ordd.toNat * 16 + 8 + ew.toNat))
  | .vsts q a b sc ord ordd ew => .w32 (encR 0x3C q.toNat a.toNat b.toNat (fnSO sc ord + ordd.toNat * 16 + ew.toNat))
  | .vstx q a sc ord ordd ew => .w32 (encR 0x3D q.toNat a.toNat 0 (fnSO sc ord + ordd.toNat * 16 + ew.toNat))
  | .vsta q a sc ord fmt => .w32 (encR 0x3E q.toNat a.toNat 0 (fnSO sc ord + fmt.toNat))
  | .vstr q a sc ord ordd ew => .w32 (encR 0x3F q.toNat a.toNat 0 (fnSO sc ord + ordd.toNat * 16 + ew.toNat))
  | .sdef sm a imm => .w32 (encI 0x40 sm.toNat a.toNat imm.toNat)
  | .sbind sm used ch port => .w32 (encI 0x41 sm.toNat 0 (used.toNat * 2 ^ 7 + ch.toNat * 2 ^ 4 + port.toNat))
  | .sgo sm => .w32 (encI 0x42 sm.toNat 0 0)
  | .sbarCfg => .w32 (encI 0x43 0 0 0)
  | .sbarPhase => .w32 (encI 0x43 0 0 1)
  | .sbarIft => .w32 (encI 0x43 0 0 2)
  | .sbarIff => .w32 (encI 0x43 0 0 3)
  | .wmwait a ch => .w32 (encI 0x44 0 a.toNat ch.toNat)
  | .cpwaitRel sm => .w32 (encI 0x45 sm.toNat 0 0)
  | .cpwaitVis sm => .w32 (encI 0x45 sm.toNat 0 1)
  | .jsub d a imm => .w32 (encI 0x46 d.toNat a.toNat imm.toNat)
  | .sstat d sm => .w32 (encI 0x47 d.toNat 0 sm.toNat)
  | .wbfill n a imm => .w32 (encI 0x48 n.toNat a.toNat imm.toNat)
  | .wbwait d n => .w32 (encI 0x49 d.toNat 0 n.toNat)
  | .bar => .w32 (encR 0x4C 0 0 0 0)
  | .sigadd d a b sc ord => .w32 (encR 0x4D d.toNat a.toNat b.toNat (fnSO sc ord))
  | .sigset a b sc ord => .w32 (encR 0x4D 0 a.toNat b.toNat (fnSO sc ord + 1))
  | .sigwge d a b sc ord => .w32 (encR 0x4D d.toNat a.toNat b.toNat (fnSO sc ord + 2))
  | .sigweq d a b sc ord => .w32 (encR 0x4D d.toNat a.toNat b.toNat (fnSO sc ord + 3))
  | .enq d a b => .w32 (encR 0x4E d.toNat a.toNat b.toNat 0)
  | .symq d => .w32 (encR 0x4F d.toNat 0 0 0)
  | .svc imm => .w32 (encU 0x50 0 imm.toNat)
  | .tret => .w32 (encR 0x51 0 0 0 0)
  | .csrr d n => .w32 (encI 0x52 d.toNat 0 n.toNat)
  | .csrw d a n => .w32 (encI 0x52 d.toNat a.toNat (1 * 2 ^ 12 + n.toNat))
  | .csrs d a n => .w32 (encI 0x52 d.toNat a.toNat (2 * 2 ^ 12 + n.toNat))
  | .csrc d a n => .w32 (encI 0x52 d.toNat a.toNat (3 * 2 ^ 12 + n.toNat))
  | .cueret => .w32 (encR 0x53 0 0 0 0)
  | .park => .w32 (encR 0x54 0 0 0 0)
  | .exit => .w32 (encR 0x55 0 0 0 0)
  | .yield => .w32 (encR 0x56 0 0 0 0)
  | .trc a code => .w32 (encI 0x58 0 a.toNat code.toNat)
  | .brk code => .w32 (encU 0x59 0 code.toNat)
  | .fvld v a imm => .w32 (encI 0x5C v.toNat a.toNat imm.toNat)
  | .fvst v a imm => .w32 (encI 0x5D v.toNat a.toNat imm.toNat)
  | .fvand d a b ew => .w32 (encR 0x5E d.toNat a.toNat b.toNat (ew.toNat * 2 ^ 5 + 0))
  | .fvor d a b ew => .w32 (encR 0x5E d.toNat a.toNat b.toNat (ew.toNat * 2 ^ 5 + 1))
  | .fvandn d a b ew => .w32 (encR 0x5E d.toNat a.toNat b.toNat (ew.toNat * 2 ^ 5 + 2))
  | .fvxor d a b ew => .w32 (encR 0x5E d.toNat a.toNat b.toNat (ew.toNat * 2 ^ 5 + 3))
  | .fvcmpeq d a b ew => .w32 (encR 0x5E d.toNat a.toNat b.toNat (ew.toNat * 2 ^ 5 + 4))
  | .fvcmpne d a b ew => .w32 (encR 0x5E d.toNat a.toNat b.toNat (ew.toNat * 2 ^ 5 + 5))
  | .fvcmplt d a b ew => .w32 (encR 0x5E d.toNat a.toNat b.toNat (ew.toNat * 2 ^ 5 + 6))
  | .fvcmpgt d a b ew => .w32 (encR 0x5E d.toNat a.toNat b.toNat (ew.toNat * 2 ^ 5 + 7))
  | .fvbcast d a ew => .w32 (encR 0x5E d.toNat a.toNat 0 (ew.toNat * 2 ^ 5 + 8))
  | .fvff d a => .w32 (encR 0x5F d.toNat a.toNat 0 0)
  | .fvpopc d a => .w32 (encR 0x5F d.toNat a.toNat 0 1)
  | .vfetchw off => .w32 (encU 0x60 0 off.toNat)
  | .ldslot32 d a imm => .w32 (encI 0x61 d.toNat a.toNat imm.toNat)
  | .sync => .w32 (encR 0x62 0 0 0 0)
  | .qpopw d => .w32 (encI 0x63 d.toNat 0 0)
  | .stop => .w64 (encBlk 0x00 blkZero 0)
  | .vnop => .w64 (encBlk 0x01 blkZero 0)
  | .vbr mk mn off => .w64 (0x02 * 2 ^ 56 + off.toNat * 2 ^ 32 + mk.toNat * 2 ^ 25 + mn.toNat * 2 ^ 24)
  | .vrejoin => .w64 (encBlk 0x03 blkZero 0)
  | .vret w => .w64 (encBlk 0x04 w 0)
  | .vout w dst => .w64 (encBlk 0x05 w dst.toNat)
  | .vidxq w => .w64 (encBlk 0x06 w 0)
  | .vadd w sat => .w64 (encBlk 0x10 w sat.toNat)
  | .vsub w sat => .w64 (encBlk 0x11 w sat.toNat)
  | .vmul w sat => .w64 (encBlk 0x12 w sat.toNat)
  | .vmulh w => .w64 (encBlk 0x13 w 0)
  | .vdiv w => .w64 (encBlk 0x14 w 0)
  | .vrem w => .w64 (encBlk 0x15 w 0)
  | .vand w => .w64 (encBlk 0x16 w 0)
  | .vor w => .w64 (encBlk 0x17 w 0)
  | .vxor w => .w64 (encBlk 0x18 w 0)
  | .vsll w => .w64 (encBlk 0x19 w 0)
  | .vsrl w => .w64 (encBlk 0x1A w 0)
  | .vsra w => .w64 (encBlk 0x1B w 0)
  | .vmin w => .w64 (encBlk 0x1C w 0)
  | .vmax w => .w64 (encBlk 0x1D w 0)
  | .vadc w ci co => .w64 (encBlk 0x1E w (co.toNat * 8 + ci.toNat))
  | .vsbc w ci co => .w64 (encBlk 0x1F w (co.toNat * 8 + ci.toNat))
  | .vcmp w cond => .w64 (encBlk 0x20 w cond.toNat)
  | .vfadd w => .w64 (encBlk 0x30 w 0)
  | .vfsub w => .w64 (encBlk 0x31 w 0)
  | .vfmul w => .w64 (encBlk 0x32 w 0)
  | .vfma w mem => .w64 (encBlk 0x33 w mem.toNat)
  | .vfdiv w => .w64 (encBlk 0x34 w 0)
  | .vfsqrt w => .w64 (encBlk 0x35 w 0)
  | .vfmin w => .w64 (encBlk 0x36 w 0)
  | .vfmax w => .w64 (encBlk 0x37 w 0)
  | .vfcmp w cond => .w64 (encBlk 0x38 w cond.toNat)
  | .vfclass w => .w64 (encBlk 0x39 w 0)
  | .vfsgn w mode => .w64 (encBlk 0x3A w mode.toNat)
  | .vfsfn w fn => .w64 (encBlk 0x3B w fn.toNat)
  | .vcvt w => .w64 (encBlk 0x50 w 0)
  | .vbfly w k tr => .w64 (encBlk 0x51 w (tr.toNat * 16 + k.toNat))
  | .zld w => .w64 (encBlk 0x52 w 0)
  | .zmv w => .w64 (encBlk 0x53 w 0)
  | .vrng w => .w64 (encBlk 0x54 w 0)
  | .mand w => .w64 (encBlk 0x60 w 0)
  | .mor w => .w64 (encBlk 0x60 w 1)
  | .mxor w => .w64 (encBlk 0x60 w 2)
  | .mandn w => .w64 (encBlk 0x60 w 3)
  | .mnot w => .w64 (encBlk 0x60 w 4)
  | .mfirst w => .w64 (encBlk 0x61 w 0)
  | .mpopc w => .w64 (encBlk 0x62 w 0)
  | .mshift w down n => .w64 (encBlk 0x63 w (down.toNat * 2 ^ 12 + n.toNat))
  | .mset w v => .w64 (encBlk 0x64 w v.toNat)
  | .mmv w => .w64 (encBlk 0x65 w 0)
  | .vmv w => .w64 (encBlk 0x70 w 0)
  | .vmerge w => .w64 (encBlk 0x71 w 0)
  | .vid w => .w64 (encBlk 0x72 w 0)
  | .vslideup w n => .w64 (encBlk 0x73 w n.toNat)
  | .vslidedn w n => .w64 (encBlk 0x74 w n.toNat)
  | .vrgather w => .w64 (encBlk 0x75 w 0)
  | .vcompress w => .w64 (encBlk 0x76 w 0)
  | .vredsum w => .w64 (encBlk 0x77 w 0)
  | .vfredsum w seq => .w64 (encBlk 0x78 w seq.toNat)
  | .vredmm w mode => .w64 (encBlk 0x79 w mode.toNat)
  | .vfredmm w max => .w64 (encBlk 0x7A w max.toNat)
  | .mrow w bank acc => .w64 (encBlk 0x80 w (acc.toNat * 4 + bank.toNat))
  | .mrow64 w bank acc => .w64 (encBlk 0x81 w (acc.toNat * 4 + bank.toNat))
  | .vfmacc w => .w64 (encBlk 0xF0 w 0)
  | .partitionChangePost _ _ => .none
  | .laneLend _ _ => .none
  | .lendReturnTimeout _ => .none
  | .pairTrap _ _ _ _ _ => .none
  | .swapFault _ _ => .none
  | .uncorrectableDataError _ _ _ => .none
  | .correctedError _ _ => .none
  | .ctxcmdResume _ _ _ => .none
  | .ctxcmdSkip _ _ _ => .none
  | .ctxcmdTerminate _ => .none
  | .cueDelivery _ _ => .none
  | .kick _ _ => .none
  | .ringFetch _ _ => .none
  | .tornRetry _ _ => .none
  | .launchPacket _ _ _ => .none
  | .signalWritePacket _ _ _ => .none
  | .waitPacket _ _ _ => .none
  | .linkPacket _ _ _ => .none
  | .residencyHint _ _ _ => .none
  | .ringBarrier _ _ _ => .none
  | .nopPacket _ _ _ => .none
  | .jobCardPacket _ _ _ => .none
  | .admission _ => .none
  | .admissionAging _ _ _ => .none
  | .pairStart _ => .none
  | .shareEnd _ _ _ => .none
  | .completionSignalWrite _ _ _ => .none
  | .preemptSoft _ _ _ _ => .none
  | .preemptHardTimeout _ _ _ _ => .none
  | .preemptHard _ _ _ _ => .none
  | .groupRestore _ _ _ _ => .none
  | .regionTableUpdate _ _ _ => .none
  | .regionEvict _ _ => .none
  | .regionArrival _ _ => .none
  | .moveRequest _ _ _ => .none
  | .moveHolderTimeout _ _ => .none
  | .moveCommit _ _ => .none
  | .unloadCode _ _ => .none
  | .forcedRetire _ _ => .none
  | .streamStart _ _ => .none
  | .streamTransfer _ _ => .none
  | .streamReleased _ _ => .none
  | .streamVisible _ _ => .none
  | .streamFault _ _ _ => .none
  | .streamSwapFault _ _ => .none
  | .jobCardStart _ _ => .none
  | .jobCardComplete _ _ => .none
  | .jobCardFault _ _ _ => .none
  | .wbFillStart _ _ => .none
  | .wbFillEnd _ _ _ => .none
  | .peerRequest _ _ _ _ _ => .none
  | .flitReplay _ => .none
  | .dbgStop _ _ => .none
  | .dbgHardStop _ _ => .none
  | .dbgStep _ _ => .none
  | .dbgRun _ _ => .none
  | .trigWrite _ _ _ => .none
  | .trwrWrite _ _ => .none
  | .sampleCycles _ => .none
  | .fTrap _ _ _ => .none
  | .sramErrorFound _ _ _ => .none
  | .scrubRead _ _ _ _ => .none
  | .takeover _ _ => .none
  | .firmwareLost _ _ => .none
  | .fwstatHoldClear _ => .none
  | .jrnlWrite _ _ => .none
  | .admpostPost _ _ => .none
  | .fwnoteWrite _ _ => .none
  | .errcntWrite _ _ => .none
  | .deviceRegisterWrite _ _ _ => .none
  | .hostBar4Read _ => .none
  | .hostBar4Write _ _ => .none
  | .vfKick _ _ => .none
  | .getTdispVersion _ => .none
  | .getTdispCapabilities _ => .none
  | .lockInterfaceRequest _ => .none
  | .getDeviceInterfaceReport _ => .none
  | .getDeviceInterfaceState _ => .none
  | .startInterfaceRequest _ _ => .none
  | .stopInterfaceRequest _ => .none
  | .tdispUnsupported _ _ => .none
  | .lockedConfigWrite _ _ _ => .none
  | .spdmGetCertificate _ => .none
  | .spdmChallenge _ => .none
  | .spdmGetMeasurements _ _ _ => .none
  | .spdmKeyExchange _ => .none
  | .spdmHeartbeat _ => .none
  | .firmwareDelivery _ _ _ _ => .none
  | .packageReset => .none
  | .gafferThrottle _ => .none
  | .gafferRestore _ => .none
  | .dataCacheLineEviction _ _ => .none
  | .vectorAccessCompletion _ _ => .none
  | .residencyRequestService _ _ _ => .none
  | .peerResponse _ _ _ _ => .none
  | .hostSignalReread _ _ => .none
  | .spdmGetVersion => .none
  | .spdmGetCapabilities => .none
  | .spdmNegotiateAlgorithms => .none
  | .spdmGetDigests => .none
  | .spdmFinish _ => .none
  | .spdmEndSession _ => .none
  | .spdmKeyUpdate _ => .none
  | .ideKmQuery _ => .none
  | .ideKmKeyProg _ _ _ => .none
  | .ideKmKSetGo _ _ => .none
  | .ideKmKSetStop _ _ => .none

/-! Words as the memory holds them (R2: little-endian). -/

/-- The k bytes of a word, least significant first. -/
def leBytes : Nat → Nat → List Byte
  | 0, _ => []
  | k + 1, w => BitVec.ofNat 8 w :: leBytes k (w / 256)

/-- The word that bytes hold, least significant first. -/
def ofLE : List Byte → Nat
  | [] => 0
  | b :: t => b.toNat + 256 * ofLE t

/-- The scalar instruction in the first four bytes, with the rest. -/
def decodeScalarBytes : List Byte → Except Bad (Instr × List Byte)
  | b0 :: b1 :: b2 :: b3 :: rest =>
    match decodeScalar (ofLE [b0, b1, b2, b3]) with
    | .ok i => .ok (i, rest)
    | .error e => .error e
  | _ => .error .short

/-- The block instruction in the first eight bytes, with the rest. -/
def decodeBlockBytes : List Byte → Except Bad (Instr × List Byte)
  | b0 :: b1 :: b2 :: b3 :: b4 :: b5 :: b6 :: b7 :: rest =>
    match decodeBlock (ofLE [b0, b1, b2, b3, b4, b5, b6, b7]) with
    | .ok i => .ok (i, rest)
    | .error e => .error e
  | _ => .error .short

/-- The instruction of a row of the opcode table whose bits are w: rows of up to 32 bits are scalar words, longer ones
block words, laid out as the memory stores them and given to the decoder. -/
def decodeTableWord (nbits w : Nat) : Option Instr :=
  if nbits ≤ 32 then
    match decodeScalarBytes (leBytes 4 w) with
    | .ok (i, _) => some i
    | .error _ => none
  else
    match decodeBlockBytes (leBytes 8 w) with
    | .ok (i, _) => some i
    | .error _ => none

end Sys2Proof
end

