-- ==== Sys2Proof/Config.lean ====
section
/-! DEFINITION. What an implementation fixes and what the manual leaves open: the sizes of the whole part (R10), the
constants of the identification registers (R5, R6), and the free values. A free value is an opaque constant: nothing
in Lean can evaluate it, so a theorem about the model holds whatever it is. -/

namespace Sys2Proof.Config

/-! Sizes (R10, R11, R13). -/
def dies : Nat := 8
def clusters : Nat := 40
def slots : Nat := 4
def pairs : Nat := 1280
def groups : Nat := 8
def contexts : Nat := 1024

/-! The physical address map (R19). -/
def hbmTop : Nat := 0x1E000000000
def peerBase : Nat := 0x80000000000
def hostBase : Nat := 0x100000000000
def hostTop : Nat := 0x800000000000
def globalBase : Nat := 0xF00000000000
def localBase : Nat := 0xFFFF00000000
def localTop : Nat := 0xFFFF00400000
def devBase : Nat := 0xFFFFF0000000
def devTop : Nat := 0x1000000000000
def isramBase : Nat := 0xFFFFF8000000
def dsramBase : Nat := 0xFFFFF8040000
def dsramTop : Nat := 0xFFFFF8080000

/-- PARTID (R5) and REVID (R6). -/
def partId : Word := 0x7A1E590801000000#64
def revId : Word := 0x0000000000020101#64

/-- Bytes of one save area (R303). -/
def saveBytes : Nat := 458752

/-! Free values. The first argument of each is the state's free-value counter at the moment of the draw (log 5), or the
number of steps taken (log 3), so that no two draws are tied to each other. -/

/-- What v register r holds after a pair start or a partition change (R4, R14, R167). -/
opaque freeV : Nat → Nat → BitVec 4096
/-- What mask r holds then. -/
opaque freeM : Nat → Nat → BitVec 8192
/-- What scale register r holds then. -/
opaque freeZ : Nat → Nat → BitVec 4096
/-- What fv register r holds at a firmware core's reset (R347). -/
opaque freeFv : Nat → Nat → BitVec 512
/-- How far the 2.4 GHz reference ticks during one step of the model (R328, log 3). -/
opaque ticks : Nat → Nat
/-- Which of the eight ways a data-cache fill replaces (R104). -/
opaque victim : Nat → Nat
/-- What die d of the package was fused with, before two equal draws are told apart (R7). -/
opaque fuse : Nat → BitVec 48
/-- The temperature a die measures (R374). -/
opaque temp : Nat → Nat → BitVec 8
/-- The power that the package draws, in watts (R374). -/
opaque power : Nat → Nat
/-- The bytes of the boot ROM's digest (R370). -/
opaque romDigest : Nat → Byte
/-- The version that a firmware image carries, laid out as block 3 has it (R370). -/
opaque fwVersion : List Byte → BitVec 64
/-- Bytes of messages whose content the manual leaves to cryptography (R365-R370, log 14). -/
opaque secret : Nat → Nat → Byte
/-- A nonce the device issues (R365). -/
opaque nonce : Nat → BitVec 256
/-- Which end of an unordered choice the hardware takes (an order the manual does not fix). -/
opaque choice : Nat → Nat

/-- An element of a fresh queue row that nothing has filled: a software-written VSTART skips it (R126, R133, log 77). The
arguments are the free-value counter and the element. -/
opaque freeEl : Nat → Nat → BitVec 64

/-- The serial numbers of the first n dies: each is what its die was fused with, moved on past the numbers of the dies below it,
so that no two dies share one (R7). -/
def serials : Nat → List (BitVec 48)
  | 0 => []
  | n + 1 =>
    let l := serials n
    l ++ [(((List.range 8).map (fun k => fuse n + BitVec.ofNat 48 k)).find? (fun x => !l.contains x)).getD (fuse n)]

/-- SERIAL of die d (R7). -/
def serial (d : Nat) : BitVec 48 := (serials 8).getD d 0#48

end Sys2Proof.Config
end

