-- ==== Sys2Proof/Machine/State.lean ====
section
/-! DEFINITION. The state of the machine, as plain data: every register, queue, table and record the manual names, the
free-value counter and the agenda of the model, the reasons a step can stop, and the state after reset. -/

namespace Sys2Proof.Machine

/-- A scalar register: 64 bits and the hidden region tag (R71). -/
structure Val where
  v : Word := 0#64
  t : Tag := 255#8
deriving DecidableEq, Repr, Inhabited

/-- Byte-addressed memory: cells with rising addresses, none equal to what an unlisted byte reads as (0, log 4). -/
abbrev Mem := List Host.Cell

/-- One turn is taken by one of these agents (log 2). Pairs are numbered die*160 + cluster*4 + slot (R270); a saved pair whose
place that was goes by that number plus 1280 times one more than the number of its save area (log 22). -/
inductive Actor where
  | thr (p : Nat) (k : Kind)
  | lanes (p : Nat)
  | fcore (d c : Nat)
  | engine (p : Nat)
  | nobody
deriving DecidableEq, Repr, Inhabited

/-- An access of the host: n bytes at an offset of a window, which is a die's (0 to 7), BAR2 (8), BAR4 (9) or the BAR0 of VF v
(64 + v) (R361, R364); or a context's PCMATCH, or its DEPCNT and DEPCTL on a die, which no window shows (R319, R322). -/
inductive HostAct where
  | read (win off n : Nat)
  | write (win off n v : Nat)
  | pcMatch (ctx i : Nat) (v : Word)
  | deprec (ctx die : Nat) (count : Word) (adv : Bool)
deriving DecidableEq, Repr, Inhabited

/-- What the agenda holds: a turn of an agent, an event of the opcode table, the host's reply to a forwarded service call of thread k
of pair p (R293), or an access of the host. -/
inductive Turn where
  | run (a : Actor)
  | ev (i : Instr)
  | reply (p : Nat) (k : Kind) (a0 a1 : Word)
  | host (a : HostAct)
deriving DecidableEq, Repr, Inhabited

/-! Regions and contexts (R93). -/

inductive RSt where
  | absent | arriving | resident | evicting | moving | retired
deriving DecidableEq, Repr, Inhabited

structure Entry where
  req : Bool := false
  prev : BitVec 52 := 0#52
  gen : BitVec 16 := 0#16
  size : BitVec 48 := 0#48
  kind : BitVec 2 := 0#2
  px : Bool := false
  pw : Bool := false
  pr : Bool := false
  ecl : BitVec 3 := 0#3
  st : RSt := .absent
  base : BitVec 52 := 0#52
deriving DecidableEq, Repr, Inhabited

/-- A relocation site of a loaded image (R313): kind, anchor, target, site region, offset, addend. -/
structure Reloc where
  kind : Nat
  anchor : Nat
  target : Nat
  site : Nat
  off : Nat
  add : Word
deriving DecidableEq, Repr, Inhabited

structure Ctx where
  regions : Tab Entry := []
  pcm : Vector Word 16 := Vector.replicate 16 0#64
  depcnt : Vector Word 8 := Vector.replicate 8 0#64
  depadv : BitVec 8 := 0#8
  advAt : Tab Nat := []                   -- CYCLE of the latest advisory on each die (R322)
  relocs : List Reloc := []
  back : Tab Mem := []
  nextBase : Tab Nat := []
deriving DecidableEq, Repr, Inhabited

/-! Queues (R115, R116). -/

/-- A row: VL, width code, queue entries it takes, active bits, elements, and whether every element has arrived. -/
structure Row where
  vl : Nat := 0
  wc : Nat := 0
  ents : Nat := 1
  g : Nat := 1               -- lane groups its producer owned, whose lanes its elements lie by (R116, R124)
  act : List Bool := []
  els : List Nat := []
  ready : Bool := true
  id : Nat := 0
deriving DecidableEq, Repr, Inhabited

/-- A block-queue entry (R170). -/
structure Blk where
  rgn : Tag := 255#8
  off : BitVec 52 := 0#52
  b : Vector Word 8 := Vector.replicate 8 0#64
  vl : BitVec 14 := 0#14
  vtype : BitVec 8 := 0#8
  rc : BitVec 4 := 1#4
  strip : Word := 0#64
  spc : Val := {}
  soff : BitVec 52 := 0#52   -- offset of STRIPPC in its code region (R332)
deriving DecidableEq, Repr, Inhabited

/-- A fragment: an offset in the block's code region and a mask over the tile (R179). -/
structure Frag where
  off : BitVec 52 := 0#52
  f : BitVec 8192 := 0#8192
deriving DecidableEq, Repr, Inhabited

structure Lanes where
  busy : Bool := false
  off : BitVec 52 := 0#52
  f : BitVec 8192 := 0#8192
  frags : List Frag := []
  flags : BitVec 5 := 0#5
  barred : Bool := true      -- a cv bit is illegal on the word reached now (R32)
  carry : Option (Vector (BitVec 4096) 64) := none   -- the registers as a `vbfly.t` would have left them (R203)
  memStall : Bool := false   -- a lane group waits on a source row (R329)
  stalls : Nat := 0          -- stall cycles of block fetch counted toward STALLMAX (R186)
  peerWait : Bool := false   -- block fetch waits for a peer device (R363)
  ahead : List (BitVec 52 × Option Nat) := [] -- block words a peer device has answered with, not yet run: offset, word or failure (R363)
  v : Vector (BitVec 4096) 64 := Vector.replicate 64 0#4096
  m : Vector (BitVec 8192) 8 := Vector.replicate 8 0#8192
  z : Vector (BitVec 4096) 4 := Vector.replicate 4 0#4096
deriving DecidableEq, Repr, Inhabited

/-! Streams and channels (R136, R147, R150). -/

inductive SSt where
  | free | defined | bound | queued | running | done | faulted | skipped
deriving DecidableEq, Repr, Inhabited

structure Stream where
  d : Vector Word 10 := Vector.replicate 10 0#64   -- D0-D9 as sdef resolved them
  st : SSt := .free
  isDef : Bool := false
  isBound : Bool := false
  port : BitVec 4 := 0#4
  chan : BitVec 3 := 0#3
  chu : Bool := false
  rel : Bool := false
  vis : Bool := false
  first : Nat := 0
  vls : Nat := 0
  order : Nat := 0           -- place in queue order
  issued : Nat := 0          -- step of the `sgo` that queued it (R103)
  cond : Option Bool := none -- the outcome a pending sbar.ift or sbar.iff asked for, and whether it held (R144)
  srcAt : Nat := 0           -- source and destination addresses at the start
  dstAt : Nat := 0
  stalls : Nat := 0
  fault : Option (Nat × Word × Nat) := none  -- recorded fault: cause, value, element (R151)
  told : Bool := false       -- the fault has been delivered to the A thread
  row : Option Nat := none   -- the reserved row a V-port stream is filling
  asked : Bool := false      -- a peer has been asked for the next element (R363)
  got : Option (List Byte) := none   -- what the peer sent
  ack : Bool := false        -- the peer has acknowledged the element's write
deriving DecidableEq, Repr, Inhabited

structure Chan where
  wm : BitVec 52 := 0#52
  start : BitVec 32 := 0#32
  by_ : Option Nat := none   -- the stream that uses it
deriving DecidableEq, Repr, Inhabited

/-! Threads (R14, R71, R86, R288-R300, R318). -/

/-- Why a thread issues nothing. -/
inductive Halt where
  | none      -- it issues
  | move      -- parked at a safe point for a move (R18 step 1, R308)
  | debug     -- stopped at a safe point for the debugger (R339)
  | preempt   -- stopped to be saved (R18 step 3, R302)
  | exited    -- ended (R299)
deriving DecidableEq, Repr, Inhabited

/-- What a stalled thread waits for, by the classes of R329. -/
inductive WaitCls where
  | none | mem | vec | other | cue   -- cue: a `sig` wait, `racq` or `park`, during which a cue may be delivered (R320)
deriving DecidableEq, Repr, Inhabited

structure Thread where
  x : Vector Val 32 := Vector.replicate 32 {}
  sh : Vector Val 8 := Vector.replicate 8 {}
  pc : Val := {}
  vl : BitVec 14 := 0#14
  vtype : BitVec 8 := 0#8
  rc : BitVec 4 := 1#4
  vstart : BitVec 13 := 0#13
  strip : Word := 0#64
  strippc : Val := {}
  soff : BitVec 52 := 0#52               -- offset of STRIPPC in its code region (R332)
  fflags : BitVec 5 := 0#5
  stallmax : BitVec 32 := 4800#32
  tcause : BitVec 10 := 0#10
  tval : Word := 0#64
  tpc : Val := {}
  telem : BitVec 32 := 0#32
  wberr : Word := 0#64
  cuevec : Word := 0#64
  cuearm : Word := 0#64
  cuesig : Word := 0#64
  cueval : Word := 0#64
  cuecause : BitVec 16 := 0#16
  cuepc : Val := {}
  incue : Bool := false
  noMatch : Bool := false                -- no PC match at this instruction: just returned to (R321)
  fired : List (Nat × Nat) := []         -- fired cue sources: SRC, WHICH (R320)
  svcRes : List Nat := []                -- regions whose request svc 1 posted (R318)
  barcount : BitVec 32 := 0#32
  fetched : Bool := false                -- its `vfetchw` has dispatched its block and waits (R46)
  inBar : Bool := false                  -- it waits at a bar already counted (R250)
  parkWait : Bool := false               -- it waits at a park (R297)
  stalls : Nat := 0                      -- stall cycles counted toward STALLMAX (R300)
  wait : WaitCls := .none
  onRgn : Option Nat := none             -- the region it stalls on (R96)
  retired : Word := 0#64
  bout : Bool := false                   -- outcome of the latest bout (R144)
  halt : Halt := .none
  atSafe : Bool := false                 -- it stands at the safe point it stopped at and goes on past it
  gens : Tab Nat := []                   -- GEN recorded for each tag at its park (R309)
  asked : Bool := false                  -- its access to a peer device is on its way (R363)
  reply : Option (Bool × List Byte) := none   -- the peer's answer, not yet taken
  sent : List Nat := []                  -- the addresses that answer is about
  sentTo : Nat := 0                      -- the elements below it passed the checks when a vector access asked its peers (R126)
  vflags : BitVec 5 := 0#5               -- flags of a vector instruction under way (R130)
  onVec : Bool := false                  -- the stall is of a vector access (R301)
  vmid : Bool := false                   -- a vector instruction is partly done (R320)
  engAt : Option Nat := none             -- when its `.eng` fence began (R103)
  enqAt : Option (Nat × List Nat) := none   -- the ring index its `enq` holds while it waits for a reel, and its packet (R263)
  resv : Option Nat := none              -- id of the row a vector load reserved and has not filled (R132)
  iword : Option Nat := none             -- a word that a peer device has answered a fetch with, not yet run (R363)
deriving DecidableEq, Repr, Inhabited

/-! Pairs. -/

inductive PStat where
  | free | posted | running | parked | saved | dbg | exited
deriving DecidableEq, Repr, Inhabited

/-- One element of a vector access in flight: its index, the home address and the number of its bytes, the place of its
bits in them, and the bits it writes (for a load, the bits a peer has already sent). -/
structure Elem where
  i : Nat
  a : Nat
  n : Nat := 1
  sh : Nat := 0
  v : Option Nat := none
deriving DecidableEq, Repr, Inhabited

/-- A vector access in flight (R117, R127): a load fills row `row` of queue `q`; a store writes. -/
inductive FlKind where
  | load (q row : Nat)
  | store
deriving DecidableEq, Repr, Inhabited

structure Flight where
  kind : FlKind
  rgn : Tag
  w : Nat                    -- bits of an element
  els : List Elem
  acq : Bool := false        -- an acquire load: the core's clean lines go when it is performed (R128)
deriving DecidableEq, Repr, Inhabited

/-- A scalar trap that waits for its answer under a block word's later trap of the same pair (R288, R289): its thread, and its TRAPCAUSE,
TRAPVAL and TRAPELEM. -/
structure Under where
  k : Kind
  cause : BitVec 10
  val : Word
  elem : BitVec 32
deriving DecidableEq, Repr, Inhabited

/-- The launch a pair belongs to and its place in it (R268, R270, R283). -/
structure Place where
  ring : Nat := 0
  idx : Nat := 0
  grp : Nat := 0
  i0 : Nat := 0
  i1 : Nat := 0
  i2 : Nat := 0
  n0 : Nat := 1
  n1 : Nat := 1
  n2 : Nat := 1
  stg : Nat := 0
  last : Nat := 0
  csz : Nat := 0
  cpos : Nat := 0
  lg : Nat := 1
  slip : Nat := 1
  prio : Nat := 0
  matrix : Bool := false
  sym : Nat := 0
  sign : Bool := false
  shift : Nat := 0
  outd : List Word := []
deriving DecidableEq, Repr, Inhabited

structure Pair where
  st : PStat := .free
  ctx : BitVec 10 := 0#10
  pl : Place := {}
  a : Thread := {}
  x : Thread := {}
  want : BitVec 4 := 0#4
  slipS : Word := 0#64
  slipV : Word := 0#64
  slipM : Word := 0#64
  slipO : Word := 0#64
  parts : List (Nat × List Nat) := []     -- partitions: effective ordinal and groups, latest first (R167)
  pend : Bool := false                    -- the latest partition is posted and not applied
  later : List (List Nat) := []           -- decided while one is pending
  owned : List Nat := []                  -- lane groups the lanes run on
  lent : List Nat := []                   -- groups lent while parked (R168)
  lender : Option Nat := none             -- whose groups a borrower runs on
  q : Vector (List Row) 4 := Vector.replicate 4 []
  sr : Vector (List Row) 2 := Vector.replicate 2 []
  iq : List Row := []
  upSaved : Nat := 0                      -- how many rows of it the area of a stopped pair holds (R339)
  up : List Row := []                     -- upstream queue of this pair (R115)
  sq : List Word := []
  bq : List Bool := []
  rq : List Word := []
  blocks : List Blk := []
  lanes : Lanes := {}
  streams : Vector Stream 16 := Vector.replicate 16 {}
  chans : Vector Chan 8 := Vector.replicate 8 {}
  sbars : List (Nat × Nat × Bool) := []   -- sbar cfg, phase: position in queue order and kind; condition outcome
  nextOrder : Nat := 1
  condNext : Option Bool := none          -- outcome of a pending sbar.ift, sbar.iff for the next sgo
  flights : List Flight := []
  why : Nat := 0                          -- REASON of its save (R305)
  area : Option Nat := none               -- number of the save area that holds it (R303)
  tpcGenA : Nat := 0                      -- GEN at which each thread's TRAPPC stands in that area (R308 step 7)
  tpcGenX : Nat := 0
  badWhy : List Nat := []                 -- why its saved banks are BAD (R233)
  back : PStat := .running                -- what a restore makes of it
  dbgSaved : Bool := false                -- the debugger had stopped it when it was saved: it comes back stopped (R339)
  dbgPend : Nat := 0                      -- 0 none, 1 stop at a safe point, 2 hard stop at its next turn, 3 step
  softPend : Bool := false                -- a soft pre-emption is posted
  movePend : List (Nat × Nat) := []       -- moves (context, region) it is marked for
  seq : Nat := 0                          -- order of admission
  cardFaults : List (Nat × Nat × Word) := [] -- faults of its job cards, not yet delivered: cause, element, address (R155)
  lanesHeld : Bool := false               -- the lanes stand at a trapping word (R185)
  trapK : Kind := .A                      -- the thread that took the latest trap, and whether at a block word (R288)
  trapBlk : Bool := false
  under : Option Under := none            -- a scalar trap taken before that one and not yet answered (R289)
  svcDue : Bool := false                  -- its service call waits for the Puppeteer, or the host's answer to it does (R293)
  svcAns : Option (Word × Word) := none
  resume : Option Bool := none            -- it is to be resumed (or skipped) once its lent groups are back (R25)
deriving DecidableEq, Repr, Inhabited

/-! Clusters: lane groups and the weight buffer (R164, R166, R228-R230). -/

inductive BankSt where
  | empty | filling | ready | bad
deriving DecidableEq, Repr, Inhabited

/-- A weight-buffer bank: its state, its owner, the header of its latest fill, and the image of its tile (values, then
metadata, then scales, one after the other, R230, R304). -/
structure Bank where
  st : BankSt := .empty
  owner : Option Nat := none
  h : Vector Word 4 := Vector.replicate 4 0#64
  image : Mem := []
  badWhy : Nat := 0                       -- why it is BAD: 1 metadata, 2 data error (R233)
  next : Option (Vector Word 4) := none   -- the header of a fill that waits (R231)
  issued : Nat := 0                       -- steps of the `wbfill`s of the latest fill and of the one that waits (R103)
  nextIssued : Nat := 0
deriving DecidableEq, Repr, Inhabited

structure Cluster where
  lpr : Vector (BitVec 3) 8 := Vector.replicate 8 7#3
  mask : BitVec 8 := 0xFF#8
  array : Bool := true
  works : Bool := true
  banks : Vector Bank 4 := Vector.replicate 4 {}
deriving DecidableEq, Repr, Inhabited

/-! Scalar data caches (R104): lines by address / 64. -/

structure Line where
  data : BitVec 512 := 0#512
  dirty : BitVec 64 := 0#64
deriving DecidableEq, Repr, Inhabited

/-! Rings and launches (R261-R278). -/

/-- A packet a die has taken from a ring: its slot, words, and how far it is. -/
structure Pkt where
  idx : Nat
  at_ : Nat
  w : Vector Word 8
  started : Bool := false
  done : Bool := false       -- retired or satisfied on this die
deriving DecidableEq, Repr, Inhabited

structure RingSt where
  cursor : Nat := 0
  reel : Nat := 0
  known : Bool := false      -- the first kick's checks have passed (R262)
  stopped : Bool := false    -- this die has stopped fetching the ring (R277)
  bar : Nat := 0             -- the same of HOME, until the ring has been set running and kicked (R277)
  go : Bool := false         -- the host has kicked it since it has set it running again (R277)
  rejected : Nat := 0        -- one more than the index of the packet it rejected last
  torn : Bool := false       -- a torn packet is to be read again (R264)
  pkts : List Pkt := []
deriving DecidableEq, Repr, Inhabited

structure Launch where
  ring : Nat
  idx : Nat
  ctx : BitVec 10
  at_ : Nat                  -- address of the packet's slot
  w : Vector Word 8
  span : BitVec 8
  n0 : Nat
  n1 : Nat
  n2 : Nat
  stages : Nat
  lg : Nat
  slip : Nat
  csz : Nat
  sym : Nat
  sign : Bool
  scope : Nat
  shift : Nat
  inc : Nat
  prio : Nat
  aged : Nat := 0
  matrix : Bool
  indep : Bool
  outd : List Word := []
  since : Word := 0#64
  pts : Nat                  -- number of kept points
  next : Nat := 0            -- the die's next take group, counted among the die's own
  mine : Nat                 -- how many groups the die has
  exited : Nat := 0
  started : Bool := false
  shareDone : Bool := false
deriving DecidableEq, Repr, Inhabited

inductive GSt where
  | starting | running | saving | saved | restoring | exited
deriving DecidableEq, Repr, Inhabited

structure Group where
  ring : Nat
  idx : Nat
  t : Nat
  st : GSt := .running
  members : List Nat
  prio : Nat := 0
  seq : Nat := 0
deriving DecidableEq, Repr, Inhabited

/-- A completion write of R271 on its way: taken, and held while HOLD is set (R356). -/
structure Compl where
  ring : Nat
  idx : Nat
  ctx : BitVec 10
  sigs : Word
  inc : Nat
  scope : Nat
  prio : Nat := 0            -- priority of its launch (R24)
  held : Bool := false       -- it has been held: it goes before the completions taken after it (R356)
deriving DecidableEq, Repr, Inhabited

/-- A job card the die's scheduler holds (R153-R155). -/
structure Card where
  p : Option Nat             -- submitting pair, none for a ring's packet
  ctx : BitVec 10
  at_ : Val                  -- where the card stands: an offset in the region of its tag, or an address when untagged
  j : Vector Word 12
  first : Nat := 0
  running : Bool := false
  faulted : Bool := false    -- stopped by a fault: it has not ended, and holds back the cards behind it (R143, R155)
  issued : Nat := 0          -- step at which it was taken (R103)
  prio : Nat := 0            -- priority of the launch or ring it comes from (R24)
  srcAt : Nat := 0
  dstAt : Nat := 0
  asked : Bool := false      -- a peer has been asked (R363)
  got : Option (List Byte) := none
  done : Option Nat := none  -- bytes a peer has acknowledged
  short : Bool := false      -- the peer failed after those
  errAt : Option (Nat × Nat) := none -- the byte an uncorrectable data error stops it at, and its address (R155)
  signing : Bool := false    -- it has ended, and only its signal is left to write (R155)
deriving DecidableEq, Repr, Inhabited

/-! Firmware cores (R341-R347). -/

structure FCore where
  x : Vector Word 32 := Vector.replicate 32 0#64
  pc : Word := 0xFFFFF8000000#64
  fflags : BitVec 5 := 0#5
  retired : Word := 0#64
  fv : Vector (BitVec 512) 16 := Vector.replicate 16 0#512
  tretsel : Word := 0#64
  ftvec : Word := 0xFFFFF8000000#64
  ftcause : BitVec 9 := 0#9
  ftval : Word := 0#64
  ftpc : Word := 0#64
  isram : Mem := []
  dsram : Mem := []
  on : Bool := false
  asked : Bool := false                   -- its access to a peer device is on its way (R363)
  reply : Option (Bool × List Byte) := none   -- the peer's answer, not yet taken
deriving DecidableEq, Repr, Inhabited

/-- What a journal record says: the operation, its context, ring and slot index, and ARG, AUX and DATA (R352). -/
structure JRec where
  op : Nat
  ctx : Nat := 0
  ring : Nat := 0
  idx : Nat := 0
  arg : Word := 0#64
  aux : Word := 0#64
  d4 : Word := 0#64
  d5 : Word := 0#64
  d6 : Word := 0#64
  d7 : Word := 0#64
deriving DecidableEq, Repr, Inhabited

structure Die where
  kicks : BitVec 4096 := 0#4096
  rings : Tab RingSt := []
  launches : List Launch := []
  groups : List Group := []
  scan : Nat := 39                        -- the stage-0 cluster chosen last (R275)
  served : Vector Nat 8 := Vector.replicate 8 4095 -- the ring served last in each priority (R274)
  hold : List Compl := []
  compls : List Compl := []               -- completions taken and not yet performed
  posta : Word := 0#64
  postb : Word := 0#64
  postst : BitVec 2 := 0#2
  postings : List (Nat × Nat × Nat) := [] -- the last 256 started (R408)
  fwnote : Word := 0#64
  act : Bool := false
  spare : Bool := true
  holdOn : Bool := false
  lost : Bool := false
  toCause : BitVec 8 := 0#8
  errcnt : Word := 0#64
  jrnl : Word := 0#64
  jrnlSet : Bool := false
  jseq : Word := 0#64                     -- SEQ of the firmware's next journal record (R352)
  jopen : Option Word := none             -- SEQ of the record that is open (R354)
  replayDue : Bool := false               -- a core has taken over, and the journal has yet to be replayed (R357)
  quick : List (Nat × Nat) := []          -- packets that an `enq` of this die has put on a FAST ring of its own: ring, index (R257)
  late : List JRec := []                  -- admissions of the fast path, yet to be recorded (R287)
  trctl : Word := 0#64
  trbuf : Word := 0#64
  trSet : Bool := false                   -- the host has set up a trace buffer (R331)
  trwr : Word := 0#64
  trlost : Word := 0#64
  trrd : Word := 0#64
  lostSince : Word := 0#64
  sampctl : Word := 0#64
  trig : Vector Word 4 := Vector.replicate 4 0#64
  dbgctx : BitVec 10 := 0#10
  dbgOn : Tab Nat := []                   -- command in force for each context: 1 stop, 2 hard stop, 3 step
  cards : List Card := []
  f0 : FCore := {}
  f1 : FCore := {}
  mhz : Nat := 2400
  stackMask : BitVec 3 := 7#3
  links : BitVec 2 := 3#2
deriving DecidableEq, Repr, Inhabited

/-! Host side and platform (R360-R374). -/

inductive VfSt where
  | unlocked | locked | run | error
deriving DecidableEq, Repr, Inhabited

structure Vf where
  cfg : Vector Word 8 := Vector.replicate 8 0#64
  lcfg : Vector Word 8 := Vector.replicate 8 0#64   -- the configuration as locking froze it, in force until the scrub (R366, R367)
  st : VfSt := .unlocked
  nonce : BitVec 256 := 0#256
  ide : Bool := false
  bar0 : Word := 0#64
  memEn : Bool := false
  lockDue : Bool := false    -- regions of other contexts that its locking withholds wait to be retired (R366)
  used : List Nat := []      -- save areas that have held state of its contexts since the last scrub (R367)
  held : List Nat := []      -- save areas of its terminated pairs, not yet zeroed (R367)
deriving DecidableEq, Repr, Inhabited

/-- An IDE stream's key slots (R360). -/
structure Ide where
  key0 : Option (BitVec 256) := none
  key1 : Option (BitVec 256) := none
  go0 : Bool := false
  go1 : Bool := false
deriving DecidableEq, Repr, Inhabited

structure Spdm where
  version : Bool := false       -- GET_VERSION answered
  caps : Bool := false
  algs : Bool := false
  session : Option (BitVec 32) := none
  ready : Bool := false         -- FINISH accepted
  nextId : Nat := 1
  epoch : Nat := 0
  lms : Nat := 0                -- LMS leaves used (R369)
  transcript : Nat := 0
deriving DecidableEq, Repr, Inhabited

/-- What the device sends the host: reports, messages, interrupts and answers. -/
inductive Msg where
  | trap (ctx : Nat) (p : Nat) (cause : Nat) (val : Word) (pc : Word) (elem : Nat)
  | message (ctx : Nat) (p : Nat) (a : List Word)
  | service (ctx : Nat) (p : Nat) (k : Kind) (num : Nat) (a : List Word)
  | ring (die : Nat) (ring : Nat) (err : Nat)
  | context (ctx : Nat) (why : Nat)
  | region (ctx : Nat) (rgn : Nat)
  | move (ctx : Nat) (rgn : Nat) (status : Nat)
  | unload (ctx : Nat) (rgn : Nat) (busy : Bool)
  | update (ctx : Nat) (rgn : Nat) (ok : Bool)
  | fwnote (die : Nat) (val : Word)
  | takeover (die : Nat)
  | advisory (die : Nat) (ctx : Nat)
  | card (die : Nat) (ctx : Nat) (elem : Nat) (addr : Word)
  | barRead (addr : Nat) (val : Byte)
  | tdisp (vf : Nat) (code : Nat) (data : List Byte)
  | spdm (code : Nat) (data : List Byte)
  | ide (stream : Nat) (code : Nat) (data : List Byte)
  | peerReply (ok : Bool) (val : Word)
  | service1 (ctx : Nat) (rgn : Nat)
  | journal (die : Nat) (seq : Nat)
  | hostRead (win off n val : Nat)
deriving DecidableEq, Repr, Inhabited

/-- A move in progress (R308). -/
structure Move where
  ctx : Nat
  rgn : Nat
  old : Nat
  new_ : Nat
  step : Nat
  isReturn : Bool := false
deriving DecidableEq, Repr, Inhabited

/-- The copy of a region's bytes into or out of a peer window: the bytes read so far, by their offset, and how many have been read and
written (R281, R308, R363). -/
structure Copy where
  ctx : Nat
  rgn : Nat
  got : Mem := []
  rd : Nat := 0
  wr : Nat := 0
deriving DecidableEq, Repr, Inhabited

/-- A unit that waits for a peer's answer: a packet a die runs (R267, R271), the start of a pair (R270), or the Puppeteer. -/
inductive UnitId where
  | pkt (d r idx : Nat)
  | start (p : Nat)
  | cue (p : Nat) (k : Kind)   -- a thread's signal cue (R318)
  | copy (c r : Nat)     -- the copy of a region's bytes (R308)
  | sites (c r : Nat)    -- the relocation sites that name a region that is to move (R315)
deriving DecidableEq, Repr, Inhabited

/-- A request on its way to a peer device (R363): who waits (kind F: the lanes of the pair), the addresses, the operation and
the bytes sent. -/
structure PeerReq where
  p : Nat
  k : Kind
  addrs : List Nat
  op : Nat
  size : Nat
  sent : List Byte
  tag : Nat := 0             -- 0 a thread, 1 the lanes, 2 + n stream n of pair p, 97 firmware core p mod 160 of
                             -- the die of p, 98 the unit `who`, 99 nobody waits,
                             -- 100 + c card c of the die of p
  who : Option UnitId := none
deriving DecidableEq, Repr, Inhabited

/-- Why a step stops the machine. -/
inductive Fault where
  /-- Raised when `exec` is asked to run a scalar word although no thread or firmware core has the turn, or a block word
  although no lanes have it. `step` never does so: safe. -/
  | wrongAgent
deriving DecidableEq, Repr, Inhabited

/-- Why the model gives an instruction no meaning. -/
inductive Refusal where
  /-- Raised by a dispatch arm whose instruction has no meaning in the model: safe. -/
  | notModelled (mnemonic : String)
deriving DecidableEq, Repr, Inhabited

structure State where
  mem : Mem := []
  pairs : Tab Pair := []
  clusters : Tab Cluster := []
  caches : Tab (Tab Line) := []
  dies : Tab Die := []
  ctxs : Tab Ctx := []
  vfs : Tab Vf := []
  vfEnable : Bool := false                -- VF Enable and the VF BAR registers of the SR-IOV capability (R360, R366)
  vfBar : Word := 0#64
  ides : Tab Ide := []
  spdm : Spdm := {}
  cycle : Word := 0#64
  ringbase : Word := 0#64
  savepool : Word := 0#64
  expap : Word := 0#64
  devnum : Word := 0#64
  ctxcmd : Word := 0#64
  ctxDie : Nat := 0                       -- the die whose window took the command in progress (R362)
  pwrcap : Word := 5000#64
  mbaddr : Word := 0#64
  mblen : Word := 0#64
  mbfail : BitVec 8 := 0#8
  mbready : BitVec 8 := 0#8
  fwImage : Option (List Byte) := none     -- the firmware image last verified, as the measurements have it (R370, R372)
  caphbm : Word := 0x1E000000000#64
  deadPch : List Nat := []
  posted : List (Nat × Nat × Nat) := []   -- residency requests: context, region, priority, oldest first
  moves : List Move := []
  kept : List (Nat × Nat × Nat) := []     -- moves asked for while a region arrives or is evicted: context, region, base (R311)
  areas : List Nat := []                  -- save areas in use
  copies : List Copy := []
  touched : Tab Nat := []                 -- step of the latest access to region r of context c, at 256 c + r (R280)
  peers : List PeerReq := []
  unitGot : List (UnitId × Nat × Option Word) := []  -- what peers have answered units: who, address, the word or a failure
  outbox : List Msg := []                 -- what the host has been sent, latest first
  agenda : List Turn := []
  rota : List Actor := []
  cur : Actor := .nobody
  fresh : Nat := 0
  steps : Nat := 0
deriving DecidableEq, Repr, Inhabited

/-- The machine right after package reset: no firmware runs, no context, ring or pair exists, and every register holds the
value the manual gives for reset, or the value that log entry 6 names. -/
def State.reset : State := {}

end Sys2Proof.Machine
end

