-- ==== Sys2Proof/Machine/Ops.lean ====
section
/-! DEFINITION. The named operations of the machine: memory bytes, the tables of pairs, clusters, dies and contexts, the
scalar registers of the agent that has the turn, the scalar data caches, trace records and triggers, taking a trap and
returning from one, and the checks an access passes before it is performed. -/

namespace Sys2Proof.Machine

/-! ## Memory -/

/-- The byte at an address; an unlisted byte reads as 0 (log 4). -/
def Mem.get : Mem → Nat → Byte
  | [], _ => 0#8
  | (k, v) :: t, a => if a = k then v else if a < k then 0#8 else Mem.get t a

/-- Write a byte, keeping the canonical form: a zero is not listed. -/
def Mem.set : Mem → Nat → Byte → Mem
  | [], a, b => if b = 0#8 then [] else [(a, b)]
  | (k, v) :: t, a, b =>
    if a = k then (if b = 0#8 then t else (a, b) :: t)
    else if a < k then (if b = 0#8 then (k, v) :: t else (a, b) :: (k, v) :: t)
    else (k, v) :: Mem.set t a b

/-- Addresses rise strictly from a bound and no listed byte is 0. -/
def Mem.okFrom : Nat → Mem → Bool
  | _, [] => true
  | b, (k, v) :: t => decide (b ≤ k) && v != 0#8 && Mem.okFrom (k + 1) t

/-- The canonical form of memory. -/
def Memory.wf (m : Mem) : Bool := Mem.okFrom 0 m

/-- n bytes from an address, least significant first (R2). -/
def Mem.getLE (m : Mem) (a : Nat) : Nat → Nat
  | 0 => 0
  | n + 1 => (Mem.get m a).toNat + 256 * Mem.getLE m (a + 1) n

/-- Write the low n bytes of a number, least significant first (R2). -/
def Mem.setLE (m : Mem) (a : Nat) : Nat → Nat → Mem
  | 0, _ => m
  | n + 1, w => Mem.setLE (Mem.set m a (BitVec.ofNat 8 w)) (a + 1) n (w / 256)

/-- Write a list of bytes. -/
def Mem.setBytes (m : Mem) (a : Nat) : List Byte → Mem
  | [] => m
  | b :: t => Mem.setBytes (Mem.set m a b) (a + 1) t

/-- n bytes as a list. -/
def Mem.getBytes (m : Mem) (a : Nat) : Nat → List Byte
  | 0 => []
  | n + 1 => Mem.get m a :: Mem.getBytes m (a + 1) n

/-- The cells of a range, their addresses counted from its start (a copy of a region, R281). -/
def Mem.slice (m : Mem) (a n : Nat) : Mem :=
  (m.filter (fun c => decide (a ≤ c.1) && decide (c.1 < a + n))).map (fun c => (c.1 - a, c.2))

/-- Zero a range. -/
def Mem.clear (m : Mem) (a n : Nat) : Mem := m.filter (fun c => !(decide (a ≤ c.1) && decide (c.1 < a + n)))

/-- Put a slice at an address: the range takes exactly the slice's bytes. -/
def Mem.paste (m : Mem) (a n : Nat) (sl : Mem) : Mem :=
  sl.foldl (fun m c => Mem.set m (a + c.1) c.2) (Mem.clear m a n)

/-- Copy n bytes from one place to another. -/
def Mem.copy (m : Mem) (src dst n : Nat) : Mem := Mem.paste m dst n (Mem.slice m src n)

/-- A function applied to each entry of a vector. -/
def mapV {α β : Type} {n : Nat} (f : α → β) (v : Vector α n) : Vector β n := Vector.ofFn (fun i => f v[i])

/-! ## Tables of the state -/

def State.pair (s : State) (p : Nat) : Pair := Tab.get {} s.pairs p
def State.setPair (s : State) (p : Nat) (q : Pair) : State := { s with pairs := Tab.set s.pairs p q }
def State.cluster (s : State) (c : Nat) : Cluster := Tab.get {} s.clusters c
def State.setCluster (s : State) (c : Nat) (v : Cluster) : State := { s with clusters := Tab.set s.clusters c v }
def State.die (s : State) (d : Nat) : Die := Tab.get {} s.dies d
def State.setDie (s : State) (d : Nat) (v : Die) : State := { s with dies := Tab.set s.dies d v }
def State.ctx (s : State) (c : Nat) : Ctx := Tab.get {} s.ctxs c
def State.setCtx (s : State) (c : Nat) (v : Ctx) : State := { s with ctxs := Tab.set s.ctxs c v }
def State.cache (s : State) (c : Nat) : Tab Line := Tab.get [] s.caches c
def State.setCache (s : State) (c : Nat) (v : Tab Line) : State := { s with caches := Tab.set s.caches c v }
def State.vf (s : State) (v : Nat) : Vf := Tab.get {} s.vfs v
def State.setVf (s : State) (v : Nat) (x : Vf) : State := { s with vfs := Tab.set s.vfs v x }
def State.region (s : State) (c r : Nat) : Entry := Tab.get {} (s.ctx c).regions r
def State.setRegion (s : State) (c r : Nat) (e : Entry) : State :=
  s.setCtx c { s.ctx c with regions := Tab.set (s.ctx c).regions r e }
def State.setMem (s : State) (m : Mem) : State := { s with mem := m }
def State.send (s : State) (m : Msg) : State := { s with outbox := m :: s.outbox }

/-- Region r of context c is accessed (R280). -/
def State.touch (s : State) (u : Nat × Nat) : State := { s with touched := Tab.set s.touched (256 * u.1 + u.2) s.steps }
/-- When it was accessed last. -/
def State.touchedAt (s : State) (c r : Nat) : Nat := Tab.get 0 s.touched (256 * c + r)

/-- The number of the cluster of a pair, counted over the package, its die, its cluster on the die, its slot (R270). -/
def clusterOf (p : Nat) : Nat := p % 1280 / 4
def dieOf (p : Nat) : Nat := p / 160 % 8
def cluOf (p : Nat) : Nat := p % 160 / 4
def slotOf (p : Nat) : Nat := p % 4

def Die.fcore (d : Die) (c : Nat) : FCore := if c = 0 then d.f0 else d.f1
def Die.setFcore (d : Die) (c : Nat) (f : FCore) : Die := if c = 0 then { d with f0 := f } else { d with f1 := f }

def Pair.thr (q : Pair) : Kind → Thread
  | .X => q.x
  | .A => q.a
  | .F => q.a
def Pair.setThr (q : Pair) (k : Kind) (t : Thread) : Pair :=
  match k with
  | .X => { q with x := t }
  | .A => { q with a := t }
  | .F => { q with a := t }

/-- Change thread k of pair p. -/
def State.updThr (s : State) (p : Nat) (k : Kind) (f : Thread → Thread) : State :=
  s.setPair p ((s.pair p).setThr k (f ((s.pair p).thr k)))
/-- Change pair p. -/
def State.updPair (s : State) (p : Nat) (f : Pair → Pair) : State := s.setPair p (f (s.pair p))
/-- Change die d. -/
def State.updDie (s : State) (d : Nat) (f : Die → Die) : State := s.setDie d (f (s.die d))
/-- Change firmware core c of die d. -/
def State.updF (s : State) (d c : Nat) (f : FCore → FCore) : State :=
  s.setDie d ((s.die d).setFcore c (f ((s.die d).fcore c)))

/-! ## The agent that has the turn -/

/-- The thread kind of the agent that has the turn, when it runs scalar words. -/
def State.kind (s : State) : Option Kind :=
  match s.cur with
  | .thr _ k => some k
  | .fcore _ _ => some .F
  | _ => none

/-- The pair whose thread or lanes have the turn. -/
def State.me (s : State) : Nat :=
  match s.cur with
  | .thr p _ => p
  | .lanes p => p
  | .engine p => p
  | _ => 0

def State.meK (s : State) : Kind :=
  match s.cur with
  | .thr _ k => k
  | .lanes _ => .X
  | _ => .A

/-- The thread that has the turn. -/
def State.thr (s : State) : Thread := (s.pair s.me).thr s.meK

/-- A thread's register under its bank (R71, R320): x0 is zero and untagged, and inside a cue x16-x23 are the shadow
bank. -/
def Thread.rd (t : Thread) (r : XReg) : Val :=
  if r = 0#5 then {}
  else if t.incue && decide (16 ≤ r.toNat) && decide (r.toNat < 24) then t.sh.getD (r.toNat - 16) {}
  else t.x[r.toNat]'r.isLt

/-- Write a thread's register; a write to x0 is discarded with its tag (R71). -/
def Thread.wr (t : Thread) (r : XReg) (v : Val) : Thread :=
  if r = 0#5 then t
  else if t.incue && decide (16 ≤ r.toNat) && decide (r.toNat < 24) then { t with sh := t.sh.setIfInBounds (r.toNat - 16) v }
  else { t with x := t.x.set r.toNat v r.isLt }

/-- The register r of the agent that has the turn; a firmware core's registers carry no tag (R71). -/
def State.rx (s : State) (r : XReg) : Val :=
  match s.cur with
  | .fcore d c => if r = 0#5 then {} else { v := ((s.die d).fcore c).x[r.toNat]'r.isLt }
  | _ => s.thr.rd r

/-- Write the register r of the agent that has the turn. -/
def State.wx (s : State) (r : XReg) (v : Val) : State :=
  match s.cur with
  | .fcore d c => if r = 0#5 then s else s.updF d c (fun f => { f with x := f.x.set r.toNat v.v r.isLt })
  | _ => s.updThr s.me s.meK (fun t => t.wr r v)

/-- The program counter of the agent that has the turn, with the code region it is tagged with. -/
def State.pc (s : State) : Val :=
  match s.cur with
  | .fcore d c => { v := ((s.die d).fcore c).pc }
  | _ => s.thr.pc

/-- What a thread leaves behind when a word retires: no stall is counted, and a PC match may fire again (R300, R321). -/
def Thread.retireAt (t : Thread) (pc : Val) : Thread :=
  { t with pc := pc, retired := t.retired + 1#64, stalls := 0, wait := .none, onRgn := none, noMatch := false, atSafe := false,
           reply := none, fetched := false, inBar := false, parkWait := false, iword := none,
           asked := false, vflags := 0#5, onVec := false, vmid := false, engAt := none, enqAt := none }

/-- The word has run and the PC becomes `pc` (R328: one more scalar word retired). -/
def State.retireTo (s : State) (pc : Val) : State :=
  match s.cur with
  | .fcore d c => s.updF d c (fun f => { f with pc := pc.v, retired := f.retired + 1#64, asked := false, reply := none })
  | _ => s.updThr s.me s.meK (fun t => t.retireAt pc)

/-- The PC of the next word. -/
def State.nextPc (s : State) : Val := { s.pc with v := s.pc.v + 4#64 }

/-- The word has run and the PC moves past it. -/
def State.retire (s : State) : State := s.retireTo s.nextPc

/-- Sticky flags of the agent that has the turn (R65, R74). -/
def State.orFlags (s : State) (f : BitVec 5) : State :=
  match s.cur with
  | .fcore d c => s.updF d c (fun g => { g with fflags := g.fflags ||| f })
  | _ => s.updThr s.me s.meK (fun t => { t with fflags := t.fflags ||| f })

/-! ## Lane groups in force (R167) -/

/-- The groups in force for a strip ordinal: those of the latest partition whose effective ordinal has come. -/
def setFor : List (Nat × List Nat) → Nat → List Nat
  | [], _ => []
  | (e, g) :: t, n => if e ≤ n then g else setFor t n

/-- The groups in force for a thread's current strip. -/
def Pair.curSet (q : Pair) (k : Kind) : List Nat := if q.lent.isEmpty then setFor q.parts (q.thr k).strip.toNat else []

/-- The lane groups a pair runs on, or has lent (R302). -/
def Pair.held (q : Pair) : List Nat := if q.lent.isEmpty then q.owned else q.lent

/-- g of R116 for a row that a pair's A thread or streams produce: the lane groups the pair has, those it has lent among them. While it
has none, the formula of R116 has no value; the groups of the A thread's grant are counted then, one at least (log 95). -/
def Pair.rowGroups (q : Pair) : Nat :=
  if q.held.isEmpty then max 1 (setFor q.parts q.a.strip.toNat).length else q.held.length

/-- The lowest-numbered lane group of a set; 0 when it is empty (R15). -/
def lowestOf (gs : List Nat) : Nat := ((List.range 8).find? gs.contains).getD 0

/-- COORD of a thread (R15). -/
def coord (p : Nat) (q : Pair) (k : Kind) : Word :=
  BitVec.ofNat 64 (slotOf p * 4096 + lowestOf (q.curSet k) * 512 + cluOf p * 8 + dieOf p)

/-- STAGE (R16). -/
def stageCsr (q : Pair) : Word :=
  BitVec.ofNat 64 (q.pl.csz * 4096 + q.pl.cpos * 1024 + q.pl.last * 16 + q.pl.stg)

/-! ## Trace records and triggers (R331-R337) -/

def bitsW (w : Word) (hi lo : Nat) : Nat := bits w.toNat hi lo

/-- Records the die's buffer holds (R331). -/
def Die.trCap (d : Die) : Nat := 64 * 2 ^ (min (bitsW d.trbuf 4 0) 20)

/-- Put one record into the buffer, or drop it and count it (R334). -/
def putSlate (s : State) (d : Nat) (w : List Word) : State :=
  let t := s.die d
  let full := !(t.trctl.getLsbD 21) && decide (t.trCap ≤ (t.trwr - t.trrd).toNat)
  if full then s.setDie d { t with trlost := t.trlost + 1#64, lostSince := t.lostSince + 1#64 }
  else
    let base := bitsW t.trbuf 51 12 * 4096 + 64 * (t.trwr.toNat % t.trCap)
    let m := (List.range 8).foldl (fun m i => Mem.setLE m (base + 8 * i) 8 (w.getD i 0#64).toNat) s.mem
    (s.setMem m).setDie d { t with trwr := t.trwr + 1#64 }

/-- The kind bit of TRCTL admits a record kind (R331). -/
def Die.admitsKind (d : Die) (kind : Nat) : Bool := d.trctl.getLsbD 20 && d.trctl.getLsbD (24 + (kind - 1))

def Die.windowOpen (d : Die) : Bool := d.trig.toList.any (fun w => w.getLsbD 63 && w.getLsbD 62)

/-- A record that names no thread: kinds 4, 5 and 8 (R333). -/
def bareSlate (s : State) (d kind : Nat) (p4 p5 : Word) : State :=
  putSlate s d [s.cycle, 0#64, 0#64, BitVec.ofNat 64 (kind * 2 ^ 16 + d * 2 ^ 34), p4, p5]

/-- Before the first record written after drops, a kind-8 record counts them, where that kind is admitted (R333). -/
def lostSlate (s : State) (d : Nat) : State :=
  let t := s.die d
  let room := t.trctl.getLsbD 21 || decide ((t.trwr - t.trrd).toNat < t.trCap)
  if room && t.lostSince != 0#64 && t.admitsKind 8 then
    (bareSlate s d 8 t.lostSince 0#64).updDie d (fun t => { t with lostSince := 0#64 })
  else s

/-- Write a record of kind 4 or 5 when recording admits it (R334). -/
def machineSlate (s : State) (d kind : Nat) (p4 p5 : Word) : State :=
  if (s.die d).admitsKind kind then bareSlate (lostSlate s d) d kind p4 p5 else s

/-- The record of thread k of pair p (R332). -/
def slateWords (s : State) (p : Nat) (k : Kind) (kind : Nat) (pay : List Word) : List Word :=
  let q := s.pair p
  let t := q.thr k
  [s.cycle, t.strip, BitVec.ofNat 64 (t.strippc.t.toNat * 2 ^ 52 + t.soff.toNat),
   BitVec.ofNat 64 (t.vl.toNat + (if k = .X then 2 ^ 14 else 0) + kind * 2 ^ 16 + q.ctx.toNat * 2 ^ 24 + dieOf p * 2 ^ 34
     + cluOf p * 2 ^ 37 + slotOf p * 2 ^ 43 + q.pl.stg * 2 ^ 45 + lowestOf (q.curSet k) * 2 ^ 48)] ++ pay

/-- TRCTL selects a context (R331). -/
def Die.selects (d : Die) (c : Nat) : Bool := d.trctl.getLsbD 22 || decide (bitsW d.trctl 19 10 = c)

/-- Write a thread's record when recording admits it (R334); the first record after drops is preceded by a kind-8 record. -/
def threadSlate (s : State) (p : Nat) (k : Kind) (kind : Nat) (pay : List Word) : State :=
  let d := dieOf p
  let t := s.die d
  if t.admitsKind kind && t.selects (s.pair p).ctx.toNat && (!(t.trctl.getLsbD 23) || t.windowOpen) then
    let s := lostSlate s d
    putSlate s d (slateWords s p k kind pay)
  else s

/-- The start or stop condition of a trigger holds for an event of a kind and argument (R335). -/
def condIs (kind arg : Nat) (ev : Nat × Nat) : Bool :=
  decide (kind = ev.1) &&
    (if kind = 2 then decide (arg % 16 = ev.2) else if kind = 3 then decide (arg % 2 ^ 15 = ev.2)
     else if kind = 4 then decide (arg % 2 ^ 8 = ev.2) else decide (kind = 5))

/-- Open the triggers whose start condition an event meets, with a kind-4 record for each (R336 step 1). -/
def openTriggers (s : State) (d : Nat) (evs : List (Nat × Nat)) : State :=
  (List.range 4).foldl (fun s i =>
    let w := (s.die d).trig.getD i 0#64
    if w.getLsbD 63 && !(w.getLsbD 62) && evs.any (condIs (bitsW w 55 52) (bitsW w 51 36)) then
      let w' := w ||| 0x4000000000000000#64
      machineSlate (s.updDie d (fun t => { t with trig := t.trig.setIfInBounds i w' })) d 4 (BitVec.ofNat 64 i) w'
    else s) s

/-- Close the open triggers whose stop condition an event meets, with a kind-5 record for each (R336 step 3). -/
def closeTriggers (s : State) (d : Nat) (evs : List (Nat × Nat)) : State :=
  (List.range 4).foldl (fun s i =>
    let w := (s.die d).trig.getD i 0#64
    if w.getLsbD 63 && w.getLsbD 62 && evs.any (condIs (bitsW w 35 32) (bitsW w 31 16)) then
      (machineSlate s d 5 (BitVec.ofNat 64 i) w).updDie d
        (fun t => { t with trig := t.trig.setIfInBounds i (w &&& ~~~0x4000000000000000#64) })
    else s) s

/-- An event of thread k of pair p: triggers open, its record is written, triggers close (R336). -/
def observe (s : State) (p : Nat) (k : Kind) (evs : List (Nat × Nat)) (rec_ : Option (Nat × List Word)) : State :=
  let d := dieOf p
  let sel := (s.die d).selects (s.pair p).ctx.toNat
  let s := if sel then openTriggers s d evs else s
  let s := match rec_ with
    | some (kind, pay) => threadSlate s p k kind pay
    | none => s
  if sel then closeTriggers s d evs else s

/-! ## The Puppeteer and its journal (R351-R354) -/

/-- A journal exists on a die, and a core runs firmware (R351, R358). -/
def fwOn (s : State) (d : Nat) : Bool :=
  let t := s.die d
  t.jrnlSet && !t.lost && (t.fcore (if t.act then 1 else 0)).on

/-- The Puppeteer of a die works: no take-over is in progress, in which everything waits for the replay and for HOLD (R356, R357). -/
def puppeteerOn (s : State) (d : Nat) : Bool := fwOn s d && !(s.die d).holdOn && !(s.die d).replayDue

/-- Some Puppeteer of the package works, for the operations that belong to no one die. They wait for a take-over to replay its journal, so
that no record of an earlier one is replayed after them (log 78). -/
def anyPuppeteer (s : State) : Bool :=
  (List.range 8).any (puppeteerOn s) && (List.range 8).all (fun d => !(fwOn s d && (s.die d).replayDue))

/-- The die whose Puppeteer acts for the package: the lowest whose Puppeteer works (log 78). -/
def workDie (s : State) : Nat := ((List.range 8).find? (puppeteerOn s)).getD 0

/-- Records a die's journal holds (R351). -/
def Die.jCap (t : Die) : Nat := 64 * 2 ^ min 10 (bitsW t.jrnl 3 0)
/-- The place of the record with a sequence number (R352). -/
def Die.jAt (t : Die) (seq : Word) : Nat := bitsW t.jrnl 51 12 * 4096 + 64 * (seq.toNat % t.jCap)

/-- D1 of a record in state st: 1 open, 2 closed, 3 skipped. -/
def JRec.d1 (r : JRec) (st : Nat) : Nat :=
  r.op % 256 + st * 2 ^ 8 + r.ctx % 1024 * 2 ^ 10 + r.ring % 4096 * 2 ^ 20 + r.idx % 2 ^ 32 * 2 ^ 32

/-- The active core writes D2 to D7 and D0, then D1 with ST 1 (R354); on a die whose Puppeteer does not work nothing is written. -/
def openRecord (s : State) (d : Nat) (r : JRec) : State :=
  let t := s.die d
  if !puppeteerOn s d then s
  else
    let a := t.jAt t.jseq
    let words : List (Nat × Nat) := [(2, r.arg.toNat), (3, r.aux.toNat), (4, r.d4.toNat), (5, r.d5.toNat), (6, r.d6.toNat), (7, r.d7.toNat),
      (0, t.jseq.toNat), (1, r.d1 1)]
    (s.setMem (words.foldl (fun m w => Mem.setLE m (a + 8 * w.1) 8 w.2) s.mem)).setDie d { t with jseq := t.jseq + 1#64, jopen := some t.jseq }

/-- Write ST of the record at an address. -/
def setSt (m : Mem) (a st : Nat) : Mem := Mem.set m (a + 9) ((Mem.get m (a + 9) &&& 0xFC#8) ||| BitVec.ofNat 8 st)

/-- The open record of a die, if one is open, is closed (R354). -/
def closeRecord (s : State) (d : Nat) : State :=
  let t := s.die d
  match t.jopen with
  | none => s
  | some q => (s.setMem (setSt s.mem (t.jAt q) 2)).setDie d { t with jopen := none }

/-- An action of the Puppeteer of die d: a record of it is opened first, and closed at the core's next turn or before the next
record, so that no record is opened while another is open (R354, log 78). A replay acts without records of its own. -/
def journal (d : Nat) (r : JRec) (act : State → State) (s : State) : State :=
  if puppeteerOn s d then act (openRecord (closeRecord s d) d r) else act s

/-! ## Scalar data caches (R104) -/

/-- The scalar core of a thread: two access cores and two execute cores a cluster, two threads each (R11). -/
def coreOf (p : Nat) (k : Kind) : Nat := p - p % 4 + (if k = .X then 2 else 0) + p % 4 / 2

def Line.byte (l : Line) (i : Nat) : Byte := (l.data >>> (8 * i)).setWidth 8
def Line.put (l : Line) (i : Nat) (b : Byte) : Line :=
  { data := (l.data &&& ~~~((0xFF#512) <<< (8 * i))) ||| ((b.setWidth 512) <<< (8 * i)),
    dirty := l.dirty ||| (1#64 <<< i) }

/-- The bytes a core has written in a line reach memory (R244: only those bytes). -/
def flushLine (m : Mem) (ln : Nat) (l : Line) : Mem :=
  if l.dirty = 0#64 then m
  else (List.range 64).foldl (fun m i => if l.dirty.getLsbD i then Mem.set m (64 * ln + i) (l.byte i) else m) m

/-- A line of memory as a cache takes it. -/
def fillLine (m : Mem) (ln : Nat) : Line := { data := BitVec.ofNat 512 (Mem.getLE m (64 * ln) 64) }

/-- Write back every dirty line of a core; the lines stay, clean (a release, R100-R103). -/
def writeBackAll (s : State) (core : Nat) : State :=
  if (s.cache core).isEmpty then s
  else
    let m := (s.cache core).foldl (fun m c => flushLine m c.1 c.2) s.mem
    (s.setMem m).setCache core ((s.cache core).map (fun c => (c.1, { c.2 with dirty := 0#64 })))

/-- Invalidate the clean lines of a core (an acquire): a partly dirty line is written back and dropped, and a line whose
every byte the core has written is kept (R104). -/
def invalidateClean (s : State) (core : Nat) : State :=
  if (s.cache core).isEmpty then s
  else
    let full : Nat × Line → Bool := fun c => c.2.dirty == BitVec.allOnes 64
    let m := (s.cache core).foldl (fun m c => if full c then m else flushLine m c.1 c.2) s.mem
    (s.setMem m).setCache core ((s.cache core).filter full)

/-- Write back and drop the lines of a core that meet a range. -/
def purgeCore (s : State) (core a n : Nat) : State :=
  if (s.cache core).isEmpty then s
  else
    let hit : Nat × Line → Bool := fun c => decide (64 * c.1 < a + n) && decide (a < 64 * c.1 + 64)
    let m := (s.cache core).foldl (fun m c => if hit c then flushLine m c.1 c.2 else m) s.mem
    (s.setMem m).setCache core ((s.cache core).filter (fun c => !hit c))

/-- Drop, as an acquire does, only the lines of a core that meet a range. -/
def invalidateRange (s : State) (core a n : Nat) : State :=
  if (s.cache core).isEmpty then s
  else
    let go : Nat × Line → Bool := fun c =>
      decide (64 * c.1 < a + n) && decide (a < 64 * c.1 + 64) && c.2.dirty != BitVec.allOnes 64
    let m := (s.cache core).foldl (fun m c => if go c then flushLine m c.1 c.2 else m) s.mem
    (s.setMem m).setCache core ((s.cache core).filter (fun c => !go c))

/-- A region purge: every scalar data cache of the package writes back and drops its lines in a range (R97). -/
def purgeAll (s : State) (a n : Nat) : State := s.caches.foldl (fun s c => purgeCore s c.1 a n) s

/-- Drop lines in a range without write-back (Terminate, R291). -/
def discardAll (s : State) (a n : Nat) : State :=
  { s with caches := s.caches.map (fun c => (c.1, c.2.filter (fun l => !(decide (64 * l.1 < a + n) && decide (a < 64 * l.1 + 64))))) }

/-- Take a line into a core's cache. A full set gives up one of its eight lines, whichever `Config.victim` names. -/
def takeLine (s : State) (core ln : Nat) : State :=
  match (s.cache core).find? (fun c => c.1 == ln) with
  | some _ => s
  | none =>
    let set := (s.cache core).filter (fun c => c.1 % 128 == ln % 128)
    let s := if set.length < 8 then s
      else match set[Config.victim s.fresh % 8]? with
        | some c => { (s.setMem (flushLine s.mem c.1 c.2)).setCache core (Tab.del (s.cache core) c.1) with fresh := s.fresh + 1 }
        | none => s
    s.setCache core (Tab.set (s.cache core) ln (fillLine s.mem ln))

/-- A load of n bytes through a core's data cache. -/
def cacheLoad (s : State) (core a n : Nat) : State × Nat :=
  let s := takeLine s core (a / 64)
  let l := Tab.get {} (s.cache core) (a / 64)
  (s, (List.range n).foldr (fun i v => (l.byte (a % 64 + i)).toNat + 256 * v) 0)

/-- A store of n bytes through a core's data cache. -/
def cacheStore (s : State) (core a n v : Nat) : State :=
  let s := takeLine s core (a / 64)
  let l := Tab.get {} (s.cache core) (a / 64)
  let l := (List.range n).foldl (fun l i => l.put (a % 64 + i) (BitVec.ofNat 8 (v / 256 ^ i))) l
  s.setCache core (Tab.set (s.cache core) (a / 64) l)

/-! ## Where HBM bytes lie (R12, R324) -/

/-- The pseudo-channels that work, rising. -/
def workingPch (dead : List Nat) : List Nat := (List.range 4608).filter (fun c => !dead.contains c)

/-- How many they are. -/
def workingCount (dead : List Nat) : Nat := if dead.isEmpty then 4608 else (workingPch dead).length

/-- The n-th of them. -/
def nthPch (dead : List Nat) (n : Nat) : Nat := if dead.isEmpty then n else (workingPch dead).getD n 0

/-- SIZE of CAPHBM for the working pseudo-channels (R324). -/
def hbmSize (dead : List Nat) : Nat := workingCount dead * 85899345920 / 192 / 256 * 256

/-- The place of an HBM byte: its stack, the pseudo-channel of the stack, and the offset there. -/
structure HbmPlace where
  stack : Nat
  pch : Nat
  off : Nat
deriving DecidableEq, Repr

/-- R12, with the working pseudo-channels in place of all 4,608 (R324). -/
def hbmPlace (dead : List Nat) (a : Nat) : HbmPlace :=
  let w := workingCount dead
  let g := bits a 40 8
  let q := g / w
  let c := nthPch dead ((g % w + 97 * q) % w)
  { stack := c % 24, pch := c / 24, off := q * 256 + a % 256 }

/-- The die that is the home of an HBM byte: die d owns the stacks 3d, 3d + 1 and 3d + 2 (R9, R11). -/
def HbmPlace.die (h : HbmPlace) : Nat := h.stack / 3

/-! ## Where an address leads (R19) -/

/-- The kinds of place a physical address names. -/
inductive Loc where
  | hbm (a : Nat)
  | scratch (a : Nat)
  | host (a : Nat)
  | loop (a : Nat)       -- this device's own export aperture (R19)
  | loopOff              -- the same with the aperture closed (R363)
  | peer (a : Nat)       -- another device
deriving DecidableEq, Repr

/-- The scratchpad of a cluster by its global alias. -/
def globalOf (cl off : Nat) : Nat := Config.globalBase + (cl / 40) * 2 ^ 32 + (cl % 40) * 2 ^ 24 + off

/-- Where an address leads for an access that a region or the local alias has let through; `cl` is the accessing cluster. -/
def locate (s : State) (cl a : Nat) : Loc :=
  if a < Config.peerBase then .hbm a
  else if a < Config.hostBase then
    if bits a 42 33 = bitsW s.devnum 9 0 then
      if s.expap.getLsbD 63 then .loop (bitsW s.expap 51 33 * 2 ^ 33 + a % 2 ^ 33) else .loopOff
    else .peer a
  else if a < Config.hostTop then .host a
  else if Config.localBase ≤ a ∧ a < Config.localTop then .scratch (globalOf cl (a - Config.localBase))
  else .scratch a

/-! ## How a word ends -/

/-- What a stalled thread waits for. -/
inductive Wait where
  | region (r : Nat) (vec : Bool := false)      -- ABSENT, ARRIVING or EVICTING (R96), met by a scalar or a vector access
  | move (r : Nat)        -- MOVING (R96)
  | queueMem              -- a queue head the A thread or another stage must fill (R117)
  | queueVec              -- the lanes (R117, R170, R172)
  | other
  | cue                   -- a `sig` wait, `racq` or `park` (R320)
  | peer (r : PeerReq)    -- a peer device (R363)
deriving DecidableEq, Repr

/-- Why a word does not run to its end: a trap with its cause, value and element, a stall that leaves the state as it was, or a
stall before which the word has done what the state given shows (what a release does before its own access, R100, R101). -/
inductive Stop where
  | trap (cause : BitVec 8) (val : Word) (elem : BitVec 32)
  | stall (w : Wait)
  | hold (s : State) (w : Wait)
deriving DecidableEq, Repr

abbrev Res (α : Type) := Except Stop α

def trapR {α : Type} (cause : BitVec 8) (val : Word) (elem : BitVec 32 := 0#32) : Res α := .error (.trap cause val elem)
def stallR {α : Type} (w : Wait) : Res α := .error (.stall w)

/-- TRAPVAL of a peer's failure: UNIT 6 of R241. -/
def peerUnit : Word := 0x60000#64

/-! ## Lane groups, banks and pairs given back (R168, R228, R240) -/

/-- Set the LPR field of a lane group of cluster cl: 7 where the group does not work (R166). -/
def setLpr (s : State) (cl g : Nat) (v : BitVec 3) : State :=
  s.setCluster cl { s.cluster cl with
    lpr := (s.cluster cl).lpr.setIfInBounds g (if (s.cluster cl).mask.getLsbD g then v else 7#3) }

/-- Release a lane group: its LPR field reads 7, or 6 while a pair of the cluster has lent it (R164). -/
def freeLpr (s : State) (cl g : Nat) : State :=
  setLpr s cl g (if (List.range 4).any (fun k => (s.pair (4 * cl + k)).lent.contains g) then 6#3 else 7#3)

/-- Release a pair's lane groups. -/
def releaseGroups (s : State) (p : Nat) : State :=
  let s := (s.pair p).owned.foldl (fun s g => freeLpr s (clusterOf p) g) s
  s.updPair p (fun q => { q with owned := [] })

/-- The banks of a pair become EMPTY (R228). -/
def releaseBanks (s : State) (p : Nat) : State :=
  let c := s.cluster (clusterOf p)
  s.setCluster (clusterOf p) { c with banks := mapV (fun b => if b.owner = some p then {} else b) c.banks }

/-! ## Taking a trap (R288-R290, R345) -/

/-- The GEN of every region a thread's tags name, as it stands (R309): recorded when the thread parks. -/
def genRecord (s : State) (q : Pair) (t : Thread) : Tab Nat :=
  let tags := (t.x.toList ++ t.sh.toList ++ [t.pc, t.cuepc, t.tpc]).map (fun v => v.t.toNat)
  tags.foldl (fun g r => if r = 255 then g else Tab.set g r (s.region q.ctx.toNat r).gen.toNat) []

/-- The GENs that a thread records as it parks: those of a park at which it still stands are kept, for a region may have moved since
(R309). -/
def keepGens (s : State) (q : Pair) (t : Thread) : Tab Nat := t.gens.foldl (fun g e => Tab.set g e.1 e.2) (genRecord s q t)

/-- TRAPPC of a thread that has stood still since before a move of its code region, as of that time: its rebasing then gives the
address (R309). -/
def asRecorded (s : State) (q : Pair) (gens : Tab Nat) (pc : Val) : Val :=
  let e := s.region q.ctx.toNat pc.t.toNat
  match gens.find? (fun g => g.1 == pc.t.toNat) with
  | some g => if g.2 = e.gen.toNat then pc else { pc with v := pc.v - (e.base.zeroExtend 64 - e.prev.zeroExtend 64) }
  | none => pc

/-- Causes whose fate is "Reported" (R289): all but the swap fault and the service call. -/
def reported (cause : BitVec 8) : Bool := cause != 0x07#8 && cause != 0x0C#8

/-- Doubleword i of the configuration of an interface that is in force: what locking froze, until the scrub of R367 (R366). -/
def Vf.rule (v : Vf) (i : Nat) : Word := if v.st = .unlocked then v.cfg.getD i 0#64 else v.lcfg.getD i 0#64

/-- A context belongs to an interface, by the CTX field of its configuration (R364). -/
def Vf.owns (v : Vf) (c : Nat) : Bool := decide (bitsW (v.rule 0) 9 0 ≤ c) && decide (c < bitsW (v.rule 0) 9 0 + bitsW (v.rule 0) 25 16)

/-- The assignable interface a context belongs to. -/
def vfOf (s : State) (c : Nat) : Option Nat := (s.vfs.find? (fun v => v.2.owns c)).map (·.1)

/-- An uncorrectable data error met for a context: its interface leaves RUN for ERROR (R365). -/
def vfDataError (s : State) (c : Nat) : State :=
  match vfOf s c with
  | some v => if (s.vf v).st = .run then s.setVf v { s.vf v with st := .error, ide := false } else s
  | none => s

/-- Nobody waits any more for the requests that thread k (tag 0), the lanes or a stream of pair p have sent to peers. -/
def orphan (s : State) (p : Nat) (k : Kind) (tag : Nat) : State :=
  { s with peers := s.peers.map (fun r : PeerReq => if r.p = p ∧ r.k = k ∧ r.tag = tag then { r with tag := 99 } else r) }

/-- The word at the PC has done nothing: what it asked peers for, was answered or reserved is forgotten. -/
def Thread.anew (t : Thread) : Thread := { t with asked := false, reply := none, iword := none, engAt := none, enqAt := none }

/-- A trap that leaves what the word at the PC has done: a block word's, and those of the fetch, for its region is away or RETIRED. The
thread goes on with the same word, so that nothing is made twice (R101, R263). -/
def keepsWord (blk : Bool) (cause : BitVec 8) : Bool := blk || cause == 0x07#8 || cause == 0x08#8

/-- A pair trap (R288, R290): the trapping thread records the trap CSRs, the other thread stops at its instruction
boundary, the pair is parked, and a reported cause is posted to the host. `blk` marks a block word, at which the lanes
stay; a scalar trap leaves them running, and waits on for its own answer when a block word traps after it (R185, R289). After cause 0x0A
the lane groups and banks are released (R240). -/
def pairTrap (s : State) (p : Nat) (k : Kind) (blk : Bool) (cause : BitVec 8) (val : Word) (pc : Val) (elem : BitVec 32) : State :=
  let q := s.pair p
  let tc : BitVec 10 := BitVec.ofNat 10 (cause.toNat + (if k = .X then 256 else 0) + (if blk then 512 else 0))
  let pc52 : Val := { pc with v := pc.v &&& 0xFFFFFFFFFFFFF#64 }
  let t := if keepsWord blk cause then q.thr k else (q.thr k).anew
  let t := { t with tcause := tc, tval := val, tpc := if blk then asRecorded s q t.gens pc52 else pc52, telem := elem, stalls := 0, wait := .none, onRgn := none }
  let owed : Option Under := if blk && q.st == .parked && !q.trapBlk
    then some { k := q.trapK, cause := (q.thr q.trapK).tcause, val := (q.thr q.trapK).tval, elem := (q.thr q.trapK).telem } else q.under
  let q := q.setThr k t
  let q := { q with st := .parked, trapK := k, trapBlk := blk, under := owed, lanesHeld := q.lanesHeld || blk,
                    a := { q.a with gens := keepGens s q q.a }, x := { q.x with gens := keepGens s q q.x } }
  let s := (if keepsWord blk cause then s else orphan s p k 0).setPair p q
  let s := observe s p k [(4, cause.toNat)] (some (3, [tc.zeroExtend 64, val, pc52.v, elem.zeroExtend 64]))
  let s := if reported cause then s.send (.trap q.ctx.toNat p tc.toNat val pc52.v elem.toNat) else s
  if cause = 0x0A#8 then
    vfDataError (releaseBanks (releaseGroups s p) p) q.ctx.toNat
  else s

/-- Step 1 of a take-over, or the loss of the firmware complex (R357, R358): the active core stops and HOLD is set; a Stand-in that
is available is released from reset and CAUSE recorded, else LOST is set and the die is READY no more (R371). A journal record that is open stays so in memory. -/
def takeOver (s : State) (d : Nat) (cause : BitVec 8) : State :=
  let t := s.die d
  let a := if t.act then 1 else 0
  let t := t.setFcore a { t.fcore a with on := false }
  if t.spare then
    let n := 1 - a
    let f := t.fcore n
    let f := { f with on := true, pc := 0xFFFFF8000000#64, x := Vector.replicate 32 0#64, fflags := 0#5, retired := 0#64,
                      fv := Vector.ofFn (fun i => Config.freeFv s.fresh i.val), tretsel := 0#64,
                      ftvec := 0xFFFFF8000000#64, ftcause := 0#9, ftval := 0#64, ftpc := 0#64, asked := false, reply := none }
    let t := { t.setFcore n f with holdOn := true, toCause := cause, spare := false, act := !t.act, jopen := none,
                                       replayDue := true }
    { s.setDie d t with fresh := s.fresh + 1, rota := s.rota.map (fun x => if x = .fcore d a then .fcore d n else x) }
  else
    { s.setDie d { t with lost := true, holdOn := true, jopen := none, replayDue := true } with
        rota := s.rota.filter (fun x => x != .fcore d a), mbready := s.mbready &&& ~~~(1#8 <<< d) }

/-- A trap of a firmware core (R345): FTPC, FTCAUSE and FTVAL are written and the PC becomes FTVEC. Inside the handler it
is a double trap and starts a take-over with cause 3. -/
def fTrap (s : State) (d c : Nat) (cause : BitVec 8) (val : Word) : State :=
  let f := (s.die d).fcore c
  if f.ftcause.getLsbD 8 then takeOver s d 3#8
  else s.updF d c (fun f => { f with ftpc := f.pc &&& 0xFFFFFFFFFFFFF#64, ftcause := BitVec.ofNat 9 (256 + cause.toNat), ftval := val, pc := f.ftvec,
                                      asked := false, reply := none })

/-- A precise trap of the agent that has the turn: a thread's pair trap, a block word's pair trap, or a firmware core's
trap. -/
def State.trap (s : State) (cause : BitVec 8) (val : Word) (elem : BitVec 32) : State :=
  match s.cur with
  | .thr p k => pairTrap s p k false cause val s.pc elem
  | .lanes p =>
    let q := s.pair p
    let b := q.blocks.headD {}
    let pc : Val := { v := ((s.region q.ctx.toNat b.rgn.toNat).base + q.lanes.off).zeroExtend 64, t := b.rgn }
    pairTrap s p .X true cause val pc elem
  | .fcore d c => fTrap s d c cause val
  | _ => s

/-! ## Stalls (R96, R300, R301) -/

/-- Post a residency request for a region unless one is pending (R96): REQ is set. -/
def postRequest (s : State) (c r prio : Nat) : State :=
  let e := s.region c r
  if (e.st = .absent ∨ e.st = .evicting) ∧ !e.req then
    { s.setRegion c r { e with req := true } with posted := s.posted ++ [(c, r, prio)] }
  else s

/-- A residency hint posts a request of its own priority, though another may be pending (R282): REQ is set. -/
def postHint (s : State) (c r prio : Nat) : State :=
  let e := s.region c r
  if e.st = .absent ∨ e.st = .evicting then
    { s.setRegion c r { e with req := true } with posted := s.posted ++ [(c, r, prio)] }
  else s

def waitCls : Wait → WaitCls
  | .queueMem => .mem
  | .queueVec => .vec
  | .cue => .cue
  | _ => .other

/-- The agent that has the turn stalls: its PC stays, so that it starts the word again at its next turn. A stall on a region
that is away posts a request and counts one stall cycle, from 1 where the stall begins; at STALLMAX it becomes a swap fault (R300, R301). A wait on a peer
sends the request. -/
def State.stall (s : State) (w : Wait) : State :=
  match s.cur with
  | .thr p k =>
    match w with
    | .region r vec =>
      let s := postRequest s (s.pair p).ctx.toNat r (s.pair p).pl.prio
      let t := (s.pair p).thr k
      let n := if t.onRgn = some r then t.stalls + 1 else 1
      if t.stallmax.toNat ≤ n then
        pairTrap s p k false 0x07#8 (BitVec.ofNat 64 r) t.pc (if vec then t.vstart.zeroExtend 32 else 0#32)
      else s.updThr p k (fun t => { t with stalls := n, wait := .other, onRgn := some r, onVec := vec })
    | .move r => s.updThr p k (fun t => { t with stalls := 0, wait := .other, onRgn := some r })
    | .peer rq => { s.updThr p k (fun t => { t with asked := true, wait := .other, onRgn := none }) with peers := s.peers ++ [rq] }
    | w => s.updThr p k (fun t => { t with wait := waitCls w, onRgn := none })
  | .lanes p =>
    match w with
    | .region r _ =>
      let s := postRequest s (s.pair p).ctx.toNat r (s.pair p).pl.prio
      let n := (s.pair p).lanes.stalls + 1
      if (s.pair p).x.stallmax.toNat ≤ n then
        (s.updPair p (fun q => { q with lanes := { q.lanes with stalls := 0 } })).trap 0x07#8 (BitVec.ofNat 64 r) 0#32
      else s.updPair p (fun q => { q with lanes := { q.lanes with stalls := n } })
    | .peer rq => { s.updPair p (fun q => { q with lanes := { q.lanes with peerWait := true } }) with peers := s.peers ++ [rq] }
    | .queueMem => s.updPair p (fun q => { q with lanes := { q.lanes with memStall := true } })
    | _ => s
  | .fcore d c =>
    match w with
    | .peer rq => { s.updF d c (fun f => { f with asked := true }) with peers := s.peers ++ [rq] }
    | _ => s
  | _ => s

abbrev Out := Host.Outcome State Fault Refusal

/-- The outcome of a word: its next state, the state after its trap, or the state of a stalled agent. -/
def finish (s : State) : Res State → Out
  | .ok s' => .next s'
  | .error (.trap c v e) => .next (s.trap c v e)
  | .error (.stall w) => .next (s.stall w)
  | .error (.hold s' w) => .next (s'.stall w)

/-- The word of an instruction, as TRAPVAL shows it. -/
def wordOf (i : Instr) : Word :=
  match encode i with
  | .w32 n => BitVec.ofNat 64 n
  | .w64 n => BitVec.ofNat 64 n
  | .none => 0#64

/-- An F-only opcode, or a CSR of 0x100 or above, for the privilege check of R34 step 2. -/
def fLevel (i : Instr) : Bool :=
  match encode i with
  | .w32 w => opFOnly (bits w 31 25) || (bits w 31 25 == 0x52 && decide (0x100 ≤ bits w 11 0))
  | _ => false

/-- Steps 2 and 3 of R34 for a scalar word that starts in `s`, then its effect `r`, or its stop in `s'`: an F-only opcode or
CSR at U level is a privilege trap, and a thread kind the row does not list an illegal instruction. -/
def scalarAt (i : Instr) (s s' : State) (r : Res State) : Out :=
  match s.kind with
  | none => .fault .wrongAgent
  | some k =>
    if k != .F && fLevel i then .next (s.trap 0x0F#8 (wordOf i) 0#32)
    else if !i.runsOn k then .next (s.trap 0x01#8 (wordOf i) 0#32)
    else finish s' r

/-- A scalar word that stops, when it does, in the state it started in. -/
def scalar (i : Instr) (s : State) (r : Res State) : Out := scalarAt i s s r

/-! ## Checks on a pair's access (R94-R96) -/

inductive Acc where
  | load | store | atomic
deriving DecidableEq, Repr

/-- R94: which accesses a region's kind and permissions admit. -/
def Entry.admits (e : Entry) (k : Acc) : Bool :=
  match k with
  | .load => e.pr && e.kind != 3#2
  | .store => e.pw && e.kind == 0#2
  | .atomic => e.pr && e.pw && e.kind == 0#2

/-- The whole access lies in the region (R95 step 4). -/
def Entry.covers (e : Entry) (a n : Nat) : Bool :=
  e.size != 0#48 && decide (e.base.toNat ≤ a) && decide (a + n ≤ e.base.toNat + e.size.toNat)

/-- Step 6 of R95: the fate of R96. -/
def stateFate (r : Nat) (e : Entry) (a : Word) (elem : BitVec 32) : Res Unit :=
  match e.st with
  | .resident => .ok ()
  | .moving => stallR (.move r)
  | .retired => trapR 0x05#8 a elem
  | .absent => stallR (.region r)
  | .arriving => stallR (.region r)
  | .evicting => stallR (.region r)

/-- An access of n bytes at a lies in the device-register range (R19). -/
def touchesDev (a n : Nat) : Bool := decide (Config.devBase < a + n) && decide (a < Config.devTop)

/-- The access lies wholly in the local scratchpad alias (R19). -/
def inLocal (a n : Nat) : Bool := decide (Config.localBase ≤ a) && decide (a + n ≤ Config.localTop)

/-- The checks of R95 in their order, for thread k of pair p: where the access goes, or why it does not. -/
def checkPair (s : State) (p : Nat) (k : Kind) (acc : Acc) (a : Word) (n : Nat) (tag : Tag) (elem : BitVec 32) : Res Loc :=
  let q := s.pair p
  let ad := a.toNat
  if ad % n ≠ 0 then trapR 0x06#8 a elem
  else if touchesDev ad n then trapR 0x0F#8 a elem
  else if tag = 255#8 ∧ k = .A ∧ inLocal ad n then .ok (locate s (clusterOf p) ad)
  else
    let r := if tag = 255#8 then 0 else tag.toNat
    let e := s.region q.ctx.toNat r
    if !e.covers ad n then trapR 0x05#8 a elem
    else if !e.admits acc then trapR 0x05#8 a elem
    else match stateFate r e a elem with
      | .ok _ => .ok (locate s (clusterOf p) ad)
      | .error x => .error x

/-- The write footprint of a stream that uses a channel, in the local scratchpad (R147), and the first address above the
filled prefix: the channel's WM once the stream runs, the place of element FIRST while it is queued. -/
def wmOf (q : Pair) (st : Stream) : Nat × Nat × Nat :=
  let off := bitsW (st.d.getD 8 0#64) 47 0
  let len := bitsW (st.d.getD 9 0#64) 47 0
  let b := 2 ^ bitsW (st.d.getD 0 0#64) 2 0
  let dst := Config.localBase + bitsW (st.d.getD 5 0#64) 21 0 + st.first * b
  let wm := if st.st = .queued then dst else (q.chans.getD st.chan.toNat {}).wm.toNat
  (Config.localBase + off, len, wm)

/-- The stream whose watermark an A-thread access waits for (R147). -/
def wmBlocks (q : Pair) (a n : Nat) : Option Stream :=
  q.streams.toList.find? (fun st =>
    st.chu && (st.st == .queued || st.st == .running || st.st == .faulted) &&
      (let (lo, len, wm) := wmOf q st
       len != 0 && decide (lo < a + n) && decide (a < lo + len) && decide (wm < a + n)))

/-- The fault of a stream, for a thread that waits on it (R147, R149, R151). -/
def faultOf (st : Stream) : Stop :=
  match st.fault with
  | some (c, v, e) => .trap (BitVec.ofNat 8 c) v (BitVec.ofNat 32 e)
  | none => .stall .other

/-- The watermark stall of an A-thread access to the local alias. -/
def wmCheck (s : State) (p : Nat) (k : Kind) (a n : Nat) : Res Unit :=
  if k = .A && inLocal a n then
    match wmBlocks (s.pair p) a n with
    | none => .ok ()
    | some st => if st.st = .faulted then .error (faultOf st) else stallR .other
  else .ok ()

/-! ## Vector accesses in flight (R117, R127) -/

/-- Give row `id` of queue q its elements; a whole row becomes poppable (R117). -/
def fillRow (q : Pair) (qn id : Nat) (whole : Bool) (f : List Nat → List Nat) : Pair :=
  let rows := (q.q.getD qn []).map (fun r => if r.id = id then { r with els := f r.els, ready := whole } else r)
  { q with q := q.q.setIfInBounds qn rows }

end Sys2Proof.Machine
end

