-- ==== Sys2Proof/Machine/Scalar.lean ====
section
/-! DEFINITION. The scalar integer and address instructions: the alu and mul families, the immediates and the upper
immediates (R71-R77). Each writes one register and moves past its word. -/

namespace Sys2Proof.Machine

/-- Write a result and its tag, and move past the word. -/
def put (s : State) (d : XReg) (v : Word) (t : Tag) : Res State := .ok ((s.wx d ⟨v, t⟩).retire)

/-- The tag of a sum (R72): that of the tagged operand when exactly one is tagged. -/
def addTag (ta tb : Tag) : Tag := if tb = untag then ta else if ta = untag then tb else untag

/-- The tag of a difference (R72): that of xa when xb is untagged. -/
def subTag (ta tb : Tag) : Tag := if tb = untag then ta else untag

/-- Shift and rotate amounts use B[5:0] (R73). -/
def shAmt (b : Word) : Nat := b.toNat % 64

def clz64 (x : Word) : Nat := ((List.range 64).find? (fun i => x.getLsbD (63 - i))).getD 64
def ctz64 (x : Word) : Nat := ((List.range 64).find? (fun i => x.getLsbD i)).getD 64
def popc64 (x : Word) : Nat := (List.range 64).countP (fun i => x.getLsbD i)

/-- Quotient and remainder of R74. -/
def divide (sg : Bool) (a b : Word) : Word × Word :=
  if b = 0#64 then (BitVec.allOnes 64, a)
  else if sg then (BitVec.ofInt 64 (Int.tdiv a.toInt b.toInt), BitVec.ofInt 64 (Int.tmod a.toInt b.toInt))
  else (a / b, a % b)

/-- The flags of a division (R74): DZ for a nonzero value by zero, OF for the most negative value by -1. -/
def divFlags (sg : Bool) (a b : Word) : BitVec 5 :=
  if b = 0#64 then (if a = 0#64 then 0#5 else 8#5)
  else if sg && a == 0x8000000000000000#64 && b == BitVec.allOnes 64 then 4#5 else 0#5

/-- R73: A + B modulo 2^64, with the tag of R72. -/
def execAdd (d a b : XReg) (s : State) : Out :=
  let A := (s.rx a).v
  let B := (s.rx b).v
  scalar (.add d a b) s (put s d (A + B) (addTag (s.rx a).t (s.rx b).t))

/-- R73: A - B modulo 2^64, with the tag of R72. -/
def execSub (d a b : XReg) (s : State) : Out :=
  let A := (s.rx a).v
  let B := (s.rx b).v
  scalar (.sub d a b) s (put s d (A - B) (subTag (s.rx a).t (s.rx b).t))

/-- R73: A & B. -/
def execAnd (d a b : XReg) (s : State) : Out :=
  let A := (s.rx a).v
  let B := (s.rx b).v
  scalar (.and_ d a b) s (put s d (A &&& B) untag)

/-- R73: A | B. -/
def execOr (d a b : XReg) (s : State) : Out :=
  let A := (s.rx a).v
  let B := (s.rx b).v
  scalar (.or_ d a b) s (put s d (A ||| B) untag)

/-- R73: A ^ B. -/
def execXor (d a b : XReg) (s : State) : Out :=
  let A := (s.rx a).v
  let B := (s.rx b).v
  scalar (.xor_ d a b) s (put s d (A ^^^ B) untag)

/-- R73: A << B[5:0]. -/
def execSll (d a b : XReg) (s : State) : Out :=
  let A := (s.rx a).v
  let B := (s.rx b).v
  scalar (.sll d a b) s (put s d (A <<< shAmt B) untag)

/-- R73: A >> B[5:0], zeros shifted in. -/
def execSrl (d a b : XReg) (s : State) : Out :=
  let A := (s.rx a).v
  let B := (s.rx b).v
  scalar (.srl d a b) s (put s d (A >>> shAmt B) untag)

/-- R73: A >> B[5:0], copies of A[63] shifted in. -/
def execSra (d a b : XReg) (s : State) : Out :=
  let A := (s.rx a).v
  let B := (s.rx b).v
  scalar (.sra d a b) s (put s d (A.sshiftRight (shAmt B)) untag)

/-- R73: 1 if A < B signed. -/
def execSlt (d a b : XReg) (s : State) : Out :=
  let A := (s.rx a).v
  let B := (s.rx b).v
  scalar (.slt d a b) s (put s d (flagW (A.slt B)) untag)

/-- R73: 1 if A < B unsigned. -/
def execSltu (d a b : XReg) (s : State) : Out :=
  let A := (s.rx a).v
  let B := (s.rx b).v
  scalar (.sltu d a b) s (put s d (flagW (A.ult B)) untag)

/-- R73: 1 if A = B. -/
def execSeq (d a b : XReg) (s : State) : Out :=
  let A := (s.rx a).v
  let B := (s.rx b).v
  scalar (.seq_ d a b) s (put s d (flagW (A == B)) untag)

/-- R73: 1 if A is not B. -/
def execSne (d a b : XReg) (s : State) : Out :=
  let A := (s.rx a).v
  let B := (s.rx b).v
  scalar (.sne d a b) s (put s d (flagW (A != B)) untag)

/-- R73: the smaller, signed. -/
def execMin (d a b : XReg) (s : State) : Out :=
  let A := (s.rx a).v
  let B := (s.rx b).v
  scalar (.min_ d a b) s (put s d (if A.slt B then A else B) untag)

/-- R73: the larger, signed. -/
def execMax (d a b : XReg) (s : State) : Out :=
  let A := (s.rx a).v
  let B := (s.rx b).v
  scalar (.max_ d a b) s (put s d (if A.slt B then B else A) untag)

/-- R73: the smaller, unsigned. -/
def execMinu (d a b : XReg) (s : State) : Out :=
  let A := (s.rx a).v
  let B := (s.rx b).v
  scalar (.minu d a b) s (put s d (if A.ult B then A else B) untag)

/-- R73: the larger, unsigned. -/
def execMaxu (d a b : XReg) (s : State) : Out :=
  let A := (s.rx a).v
  let B := (s.rx b).v
  scalar (.maxu d a b) s (put s d (if A.ult B then B else A) untag)

/-- R73: A & ~B. -/
def execAndn (d a b : XReg) (s : State) : Out :=
  let A := (s.rx a).v
  let B := (s.rx b).v
  scalar (.andn d a b) s (put s d (A &&& ~~~B) untag)

/-- R73: A | ~B. -/
def execOrn (d a b : XReg) (s : State) : Out :=
  let A := (s.rx a).v
  let B := (s.rx b).v
  scalar (.orn d a b) s (put s d (A ||| ~~~B) untag)

/-- R73: A rotated left by B[5:0]. -/
def execRol (d a b : XReg) (s : State) : Out :=
  let A := (s.rx a).v
  let B := (s.rx b).v
  scalar (.rol d a b) s (put s d (A.rotateLeft (shAmt B)) untag)

/-- R73: A rotated right by B[5:0]. -/
def execRor (d a b : XReg) (s : State) : Out :=
  let A := (s.rx a).v
  let B := (s.rx b).v
  scalar (.ror d a b) s (put s d (A.rotateRight (shAmt B)) untag)

/-- R74: A × B modulo 2^64. -/
def execMul (d a b : XReg) (s : State) : Out :=
  let A := (s.rx a).v
  let B := (s.rx b).v
  scalar (.mul_ d a b) s (put s d (A * B) untag)

/-- R74: bits 127:64 of the signed product. -/
def execMulh (d a b : XReg) (s : State) : Out :=
  let A := (s.rx a).v
  let B := (s.rx b).v
  scalar (.mulh d a b) s (put s d (BitVec.ofInt 64 (A.toInt * B.toInt / 2 ^ 64)) untag)

/-- R74: bits 127:64 of the unsigned product. -/
def execMulhu (d a b : XReg) (s : State) : Out :=
  let A := (s.rx a).v
  let B := (s.rx b).v
  scalar (.mulhu d a b) s (put s d (BitVec.ofNat 64 (A.toNat * B.toNat / 2 ^ 64)) untag)

/-- R74: bits 127:64 of signed A × unsigned B. -/
def execMulhsu (d a b : XReg) (s : State) : Out :=
  let A := (s.rx a).v
  let B := (s.rx b).v
  scalar (.mulhsu d a b) s (put s d (BitVec.ofInt 64 (A.toInt * (B.toNat : Int) / 2 ^ 64)) untag)

/-- R73: leading zero bits; 64 if A = 0. -/
def execClz (d a : XReg) (s : State) : Out :=
  let A := (s.rx a).v
  scalar (.clz d a) s (put s d (BitVec.ofNat 64 (clz64 A)) untag)

/-- R73: trailing zero bits; 64 if A = 0. -/
def execCtz (d a : XReg) (s : State) : Out :=
  let A := (s.rx a).v
  scalar (.ctz d a) s (put s d (BitVec.ofNat 64 (ctz64 A)) untag)

/-- R73: one bits in A. -/
def execPopc (d a : XReg) (s : State) : Out :=
  let A := (s.rx a).v
  scalar (.popc d a) s (put s d (BitVec.ofNat 64 (popc64 A)) untag)

/-- R73: sext(A[7:0]). -/
def execSextb (d a : XReg) (s : State) : Out :=
  let A := (s.rx a).v
  scalar (.sextb d a) s (put s d ((A.setWidth 8).signExtend 64) untag)

/-- R73: sext(A[15:0]). -/
def execSexth (d a : XReg) (s : State) : Out :=
  let A := (s.rx a).v
  scalar (.sexth d a) s (put s d ((A.setWidth 16).signExtend 64) untag)

/-- R73: sext(A[31:0]). -/
def execSextw (d a : XReg) (s : State) : Out :=
  let A := (s.rx a).v
  scalar (.sextw d a) s (put s d ((A.setWidth 32).signExtend 64) untag)

/-- R73: zext(A[31:0]). -/
def execZextw (d a : XReg) (s : State) : Out :=
  let A := (s.rx a).v
  scalar (.zextw d a) s (put s d ((A.setWidth 32).zeroExtend 64) untag)

/-- R74: the signed quotient rounded toward zero; all ones and DZ by zero; A and OF for the most negative value by -1. -/
def execDiv (d a b : XReg) (s : State) : Out :=
  let A := (s.rx a).v
  let B := (s.rx b).v
  scalar (.div_ d a b) s (put (s.orFlags (divFlags true A B)) d (divide true A B).1 untag)

/-- R74: the unsigned quotient; all ones and DZ by zero. -/
def execDivu (d a b : XReg) (s : State) : Out :=
  let A := (s.rx a).v
  let B := (s.rx b).v
  scalar (.divu d a b) s (put (s.orFlags (divFlags false A B)) d (divide false A B).1 untag)

/-- R74: the signed remainder, with the sign of A; A by zero; no flag. -/
def execRem (d a b : XReg) (s : State) : Out :=
  let A := (s.rx a).v
  let B := (s.rx b).v
  scalar (.rem d a b) s (put s d (divide true A B).2 untag)

/-- R74: the unsigned remainder; A by zero; no flag. -/
def execRemu (d a b : XReg) (s : State) : Out :=
  let A := (s.rx a).v
  let B := (s.rx b).v
  scalar (.remu d a b) s (put s d (divide false A B).2 untag)

/-- R75: xa + sext(imm) modulo 2^64, with the tag of xa (R72). -/
def execAddi (d a : XReg) (imm : BitVec 15) (s : State) : Out :=
  let A := (s.rx a).v
  scalar (.addi d a imm) s (put s d (A + sextW imm) (s.rx a).t)

/-- R75: xa & sext(imm). -/
def execAndi (d a : XReg) (imm : BitVec 15) (s : State) : Out :=
  let A := (s.rx a).v
  scalar (.andi d a imm) s (put s d (A &&& sextW imm) untag)

/-- R75: xa | zext(imm). -/
def execOri (d a : XReg) (imm : BitVec 15) (s : State) : Out :=
  let A := (s.rx a).v
  scalar (.ori d a imm) s (put s d (A ||| zextW imm) untag)

/-- R75: xa ^ sext(imm). -/
def execXori (d a : XReg) (imm : BitVec 15) (s : State) : Out :=
  let A := (s.rx a).v
  scalar (.xori d a imm) s (put s d (A ^^^ sextW imm) untag)

/-- R75: 1 if xa < sext(imm) signed. -/
def execSlti (d a : XReg) (imm : BitVec 15) (s : State) : Out :=
  let A := (s.rx a).v
  scalar (.slti d a imm) s (put s d (flagW (A.slt (sextW imm))) untag)

/-- R75: 1 if xa < sext(imm) unsigned. -/
def execSltiu (d a : XReg) (imm : BitVec 15) (s : State) : Out :=
  let A := (s.rx a).v
  scalar (.sltiu d a imm) s (put s d (flagW (A.ult (sextW imm))) untag)

/-- R76: as `sll` with the amount of the word. -/
def execSlli (d a : XReg) (amt : BitVec 6) (s : State) : Out :=
  let A := (s.rx a).v
  scalar (.slli d a amt) s (put s d (A <<< amt.toNat) untag)

/-- R76: as `srl` with the amount of the word. -/
def execSrli (d a : XReg) (amt : BitVec 6) (s : State) : Out :=
  let A := (s.rx a).v
  scalar (.srli d a amt) s (put s d (A >>> amt.toNat) untag)

/-- R76: as `sra` with the amount of the word. -/
def execSrai (d a : XReg) (amt : BitVec 6) (s : State) : Out :=
  let A := (s.rx a).v
  scalar (.srai d a amt) s (put s d (A.sshiftRight amt.toNat) untag)

/-- R76: as `ror` with the amount of the word. -/
def execRori (d a : XReg) (amt : BitVec 6) (s : State) : Out :=
  let A := (s.rx a).v
  scalar (.rori d a amt) s (put s d (A.rotateRight amt.toNat) untag)

/-- R77: sext(imm << 12). -/
def execLui (d : XReg) (imm : BitVec 20) (s : State) : Out :=
  scalar (.lui d imm) s (put s d (sextW (imm ++ 0#12)) untag)

/-- R77: xd[51:32] := imm, the other bits kept; xd becomes untagged. -/
def execLuh (d : XReg) (imm : BitVec 20) (s : State) : Out :=
  scalar (.luh d imm) s (put s d (((s.rx d).v &&& 0xFFF00000FFFFFFFF#64) ||| (zextW imm <<< 32)) untag)

/-- R77: PC + sext(imm << 12), tagged with the code region of the PC. -/
def execAdpc (d : XReg) (imm : BitVec 20) (s : State) : Out :=
  scalar (.adpc d imm) s (put s d (s.pc.v + sextW (imm ++ 0#12)) s.pc.t)

end Sys2Proof.Machine
end

