-- ==== Sys2Proof/Machine/Control.lean ====
section
/-! DEFINITION. Branches, jumps and calls (R78-R81) and the branch outcomes that pass from the A thread to the X thread
through bq (R82-R84). -/

namespace Sys2Proof.Machine

/-- The target of an offset counted in words of four bytes (R28). -/
def target4 {k : Nat} (s : State) (off : BitVec k) : Val := { s.pc with v := s.pc.v + (sextW off <<< 2) }

/-- A firmware core's jump target lies in its instruction SRAM (R343). -/
def inIsram (a : Nat) : Bool := decide (Config.isramBase ≤ a) && decide (a + 4 ≤ Config.dsramBase)

/-- The checks of a jump target in the order of R81; `viaReg` marks `jlr`. -/
def checkTarget (s : State) (viaReg : Bool) (t : Val) : Res Unit :=
  if viaReg && t.v.toNat % 4 != 0 then trapR 0x06#8 t.v
  else match s.cur with
    | .fcore _ _ => if inIsram t.v.toNat then .ok () else trapR 0x05#8 t.v
    | _ =>
      let e := s.region (s.pair s.me).ctx.toNat t.t.toNat
      if t.t = untag then trapR 0x05#8 t.v
      else if !e.covers t.v.toNat 4 then trapR 0x05#8 t.v
      else if viaReg && !(e.kind == 1#2 && e.px) then trapR 0x05#8 t.v
      else .ok ()

/-- Take a branch when its condition holds; a branch not taken checks nothing (R78, R81). -/
def branch (s : State) (c : Bool) (off : BitVec 12) : Res State :=
  if c then
    match checkTarget s false (target4 s off) with
    | .ok _ => .ok (s.retireTo (target4 s off))
    | .error e => .error e
  else .ok s.retire

/-- R78: branch if xa and xb are equal. -/
def execBeq (a b : XReg) (off : BitVec 12) (s : State) : Out :=
  let A := (s.rx a).v
  let B := (s.rx b).v
  scalar (.beq a b off) s (branch s (A == B) off)

/-- R78: branch if xa and xb are not equal. -/
def execBne (a b : XReg) (off : BitVec 12) (s : State) : Out :=
  let A := (s.rx a).v
  let B := (s.rx b).v
  scalar (.bne a b off) s (branch s (A != B) off)

/-- R78: branch if xa and xb are signed less than. -/
def execBlt (a b : XReg) (off : BitVec 12) (s : State) : Out :=
  let A := (s.rx a).v
  let B := (s.rx b).v
  scalar (.blt a b off) s (branch s (A.slt B) off)

/-- R78: branch if xa and xb are signed greater or equal. -/
def execBge (a b : XReg) (off : BitVec 12) (s : State) : Out :=
  let A := (s.rx a).v
  let B := (s.rx b).v
  scalar (.bge a b off) s (branch s (!(A.slt B)) off)

/-- R78: branch if xa and xb are unsigned less than. -/
def execBltu (a b : XReg) (off : BitVec 12) (s : State) : Out :=
  let A := (s.rx a).v
  let B := (s.rx b).v
  scalar (.bltu a b off) s (branch s (A.ult B) off)

/-- R78: branch if xa and xb are unsigned greater or equal. -/
def execBgeu (a b : XReg) (off : BitVec 12) (s : State) : Out :=
  let A := (s.rx a).v
  let B := (s.rx b).v
  scalar (.bgeu a b off) s (branch s (!(A.ult B)) off)

/-- Write the link and jump (R79, R80): the link value is the next PC, tagged with the code region of the jump. -/
def jump (s : State) (viaReg : Bool) (d : XReg) (t : Val) : Res State :=
  match checkTarget s viaReg t with
  | .ok _ => .ok ((s.wx d s.nextPc).retireTo t)
  | .error e => .error e

/-- R79: link and jump to the word at the offset. -/
def execJl (d : XReg) (off : BitVec 20) (s : State) : Out :=
  scalar (.jl d off) s (jump s false d (target4 s off))

/-- R80: link and jump to xa + sext(imm), with the tag of xa; the target is formed before xd is written. -/
def execJlr (d a : XReg) (imm : BitVec 15) (s : State) : Out :=
  scalar (.jlr d a imm) s (jump s true d ⟨(s.rx a).v + sextW imm, (s.rx a).t⟩)

/-- The outcome at the head of bq: a stall while the A thread may still push, a queue-protocol trap with code 1 once it
has exited (R83, R84, R119, R121). -/
def bqHead (s : State) : Res Bool :=
  let q := s.pair s.me
  match q.bq with
  | b :: _ => .ok b
  | [] => if q.a.halt = .exited then trapR 0x10#8 1#64 else stallR .queueMem

def popBq (s : State) : State := s.updPair s.me (fun q => { q with bq := q.bq.tail })

/-- R83: pop bq and branch when the outcome is `want`; a trap leaves bq unpopped. -/
def queueBranch (s : State) (want : Bool) (off : BitVec 12) : Res State :=
  match bqHead s with
  | .error e => .error e
  | .ok b => branch (popBq s) (b == want) off

/-- R83: branch when the outcome is true. -/
def execQbt (off : BitVec 12) (s : State) : Out := scalar (.qbt off) s (queueBranch s true off)
/-- R83: branch when the outcome is false. -/
def execQbf (off : BitVec 12) (s : State) : Out := scalar (.qbf off) s (queueBranch s false off)

/-- R82: push the outcome xa ≠ 0 onto bq; a stall at 64 entries; discarded once the X thread has exited (R119). The
thread's latest outcome is kept for `sbar` (R144). -/
def execBout (a : XReg) (s : State) : Out :=
  let v := (s.rx a).v != 0#64
  let q := s.pair s.me
  scalar (.bout a) s
    (if q.x.halt = .exited then .ok (s.updThr s.me .A (fun t => { t with bout := v })).retire
     else if 64 ≤ q.bq.length then stallR .other
     else .ok ((s.updPair s.me (fun q => { q with bq := q.bq ++ [v], a := { q.a with bout := v } })).retire))

end Sys2Proof.Machine
end

