-- ==== Sys2Proof/Machine/Queues.lean ====
section
/-! DEFINITION. The queues between the threads of a pair and between the stages of a take (R115-R124), the scalar pushes
and pops, and the count of deprecated encodings (R46, R322). -/

namespace Sys2Proof.Machine

/-- The pair of the same take at stage n (R13). -/
def stageMate (s : State) (p n : Nat) : Option Nat :=
  let a := (s.pair p).pl
  (s.pairs.find? (fun c => dieOf c.1 == dieOf p && c.2.st != .free && c.2.pl.ring == a.ring && c.2.pl.idx == a.idx
    && c.2.pl.grp == a.grp && c.2.pl.i0 == a.i0 && c.2.pl.i1 == a.i1 && c.2.pl.i2 == a.i2 && c.2.pl.stg == n
    && c.2.ctx == (s.pair p).ctx)).map (·.1)

/-- Queue entries that rows take. -/
def entsOf (rs : List Row) : Nat := rs.foldl (fun n r => n + r.ents) 0

/-- Entries a row of vl elements of w bits takes on g lane groups (R116). -/
def rowEnts (vl w g : Nat) : Nat := max 1 ((vl * w + (512 * g - 1)) / (512 * g))

/-- Element width of a width code (R116). -/
def widthOf (wc : Nat) : Nat := 4 * 2 ^ wc

/-- TRAPVAL of a queue-shape trap (R118). -/
def shapeVal (r : Row) (vl wc : Nat) : Word :=
  BitVec.ofNat 64 (r.vl % 2 ^ 14 + r.wc % 8 * 2 ^ 16 + vl % 2 ^ 14 * 2 ^ 32 + wc % 8 * 2 ^ 48)

/-- The consumer's check of a head row (R118). -/
def shapeOk (r : Row) (vl wc : Nat) : Res Unit :=
  if r.vl = vl ∧ r.wc = wc then .ok () else trapR 0x0B#8 (shapeVal r vl wc)

/-- The producer of an upstream queue can never push again (R119). -/
def upDead (s : State) (p : Nat) : Bool :=
  let n := (s.pair p).pl.stg
  if n = 0 then true
  else match stageMate s p (n - 1) with
    | some p' => decide ((s.pair p').x.halt = .exited)
    | none => true

/-- The lanes of a pair have nothing to run (R119). -/
def lanesIdle (q : Pair) : Bool := q.blocks.isEmpty && !q.lanes.busy

/-- Count a deprecated encoding of context c on die d, and raise the advisory when DEPCTL asks for it, at most once a
millisecond (R322). -/
def countDeprecated (s : State) (c d : Nat) : State :=
  let x := s.ctx c
  let n := x.depcnt.getD d 0#64
  let x := { x with depcnt := x.depcnt.setIfInBounds d (if n = BitVec.allOnes 64 then n else n + 1#64) }
  let due := match x.advAt.find? (fun e => e.1 == d) with
    | some e => decide (2400000 ≤ s.cycle.toNat - e.2)
    | none => true
  if x.depadv.getLsbD d && due then
    (s.setCtx c { x with advAt := Tab.set x.advAt d s.cycle.toNat }).send (.advisory d c)
  else s.setCtx c x

/-- A deprecated encoding has run (R46); a firmware core runs in no context. -/
def deprecated (s : State) : State :=
  match s.cur with
  | .thr p _ => countDeprecated s (s.pair p).ctx.toNat (dieOf p)
  | .lanes p => countDeprecated s (s.pair p).ctx.toNat (dieOf p)
  | _ => s

/-- R122: push xa to sq; a stall at 32 entries, discarded once the X thread has exited (R119). -/
def execQpushSq (a : XReg) (s : State) : Out :=
  let q := s.pair s.me
  scalar (.qpushSq a) s
    (if q.x.halt = .exited then .ok s.retire
     else if 32 ≤ q.sq.length then stallR .other
     else .ok ((s.updPair s.me (fun q => { q with sq := q.sq ++ [(s.rx a).v] })).retire))

/-- Push a row to the downstream queue, which lives at the next stage's pair (R115, R120): a queue-protocol trap at the
last stage, a stall while entries are too few or that pair has yet to start with its queues empty (R14), discarded once the
consumer has exited. -/
def pushDown (s : State) (rows : List Row) : Res State :=
  let q := s.pair s.me
  if q.pl.stg = q.pl.last then trapR 0x10#8 3#64
  else match stageMate s s.me (q.pl.stg + 1) with
    | none => .ok s
    | some p' =>
      let q' := s.pair p'
      if q'.x.halt = .exited then .ok s
      else if q'.st = .posted then stallR .other
      else if 8 < entsOf q'.up + entsOf rows then stallR .other
      else .ok (s.updPair p' (fun q' => { q' with up := q'.up ++ rows }))

/-- R120, R122: push a row of VL 1 and width code 4 that holds xa. -/
def execQpushDownstream (a : XReg) (s : State) : Out :=
  let row : Row := { vl := 1, wc := 4, ents := 1, g := (s.pair s.me).rowGroups, act := [true], els := [(s.rx a).v.toNat] }
  scalar (.qpushDownstream a) s
    (match pushDown s [row] with
     | .ok s' => .ok s'.retire
     | .error e => .error e)

/-- The head of sq: a stall while the A thread may push, trap 0x10 with code 0 once it has exited (R119, R121). -/
def sqHead (s : State) : Res Word :=
  let q := s.pair s.me
  match q.sq with
  | w :: _ => .ok w
  | [] => if q.a.halt = .exited then trapR 0x10#8 0#64 else stallR .queueMem

def popSq (s : State) : State := s.updPair s.me (fun q => { q with sq := q.sq.tail })

/-- R123: pop sq into xd, untagged. -/
def execQpopSq (d : XReg) (s : State) : Out :=
  scalar (.qpopSq d) s
    (match sqHead s with
     | .ok w => put (popSq s) d w untag
     | .error e => .error e)

/-- R46: pop sq; xd := sext of the low 32 bits; a deprecated encoding. -/
def execQpopw (d : XReg) (s : State) : Out :=
  scalar (.qpopw d) s
    (match sqHead s with
     | .ok w => put (deprecated (popSq s)) d ((w.setWidth 32).signExtend 64) untag
     | .error e => .error e)

/-- R123: pop rq; it stalls while a block may still push, and traps 0x10 with code 2 when none can (R119). -/
def execQpopRq (d : XReg) (s : State) : Out :=
  let q := s.pair s.me
  scalar (.qpopRq d) s
    (match q.rq with
     | w :: t => put (s.updPair s.me (fun q => { q with rq := t })) d w untag
     | [] => if lanesIdle q then trapR 0x10#8 2#64 else stallR .queueVec)

/-- R120, R123: pop a scalar row from upstream; any other shape traps 0x0B. -/
def execQpopUpstream (d : XReg) (s : State) : Out :=
  let q := s.pair s.me
  scalar (.qpopUpstream d) s
    (match q.up with
     | [] => if upDead s s.me then trapR 0x10#8 4#64 else stallR .queueMem
     | r :: t =>
       if !r.ready then stallR .queueMem
       else match shapeOk r 1 4 with
         | .error e => .error e
         | .ok _ => put (s.updPair s.me (fun q => { q with up := t })) d (BitVec.ofNat 64 (r.els.headD 0)) untag)

end Sys2Proof.Machine
end

