-- ==== Sys2Proof/Machine/Flags.lean ====
section
/-! DEFINITION. Numbers: the formats of R47-R55 decoded exactly, the operations on exact values, and the one rounding that
places a result and raises its flags (R48-R64). A flag set is five bits: NV 16, DZ 8, OF 4, UF 2, NX 1 (R65). -/

namespace Sys2Proof.Machine

abbrev Flg := BitVec 5
def fNV : Flg := 16#5
def fDZ : Flg := 8#5
def fOF : Flg := 4#5
def fUF : Flg := 2#5
def fNX : Flg := 1#5

/-- An exact value: NaN (signalling or not), an infinity, or (-1)^neg · m · 2^e; `st` says that the true magnitude lies
strictly between m and m + 1 units of 2^e. -/
inductive Num where
  | nan (sig : Bool)
  | inf (neg : Bool)
  | fin (neg : Bool) (m : Nat) (e : Int) (st : Bool)
deriving DecidableEq, Repr, Inhabited

/-! ## Formats (R47) -/

/-- Element width of a format code in a register; tap6 takes 8 bits (R47, R55). -/
def fmtWidth (f : Nat) : Nat :=
  match f with
  | 0x00 => 8 | 0x01 => 16 | 0x02 => 32 | 0x03 => 64
  | 0x04 => 8 | 0x05 => 16 | 0x06 => 32 | 0x07 => 64
  | 0x08 => 64 | 0x09 => 32 | 0x0A => 16 | 0x0B => 16
  | 0x0E => 4
  | _ => 8

/-- Width code of an element width (R116). -/
def wcOf (w : Nat) : Nat := if w = 4 then 0 else if w = 8 then 1 else if w = 16 then 2 else if w = 32 then 3 else 4

def isInt (f : Nat) : Bool := decide (f < 8)
def isSigned (f : Nat) : Bool := decide (f < 4)
/-- Every floating and tapered format except e8m0 (R189). -/
def isFloat (f : Nat) : Bool := (decide (8 ≤ f) && decide (f ≤ 0x0E)) || f == 0x10 || f == 0x11
/-- The IEEE-based and narrow formats (R49, R50), to which FTZ applies (R61). -/
def isIeee (f : Nat) : Bool := decide (8 ≤ f) && decide (f ≤ 0x0E)
/-- Codes 0x12-0x1F are reserved (R47). -/
def fmtKnown (f : Nat) : Bool := decide (f ≤ 0x11)

/-- Exponent bits, fraction bits and bias of an IEEE-based or narrow format (R49, R50). -/
def ieee (f : Nat) : Nat × Nat × Nat :=
  match f with
  | 0x08 => (11, 52, 1023)
  | 0x09 => (8, 23, 127)
  | 0x0A => (5, 10, 15)
  | 0x0B => (8, 7, 127)
  | 0x0C => (4, 3, 7)
  | 0x0D => (5, 2, 15)
  | _ => (2, 1, 1)

/-- The largest finite magnitude of such a format, as its bits without the sign (R49, R50). -/
def maxFinite (f : Nat) : Nat :=
  match f with
  | 0x0C => 0x7E
  | 0x0E => 0x7
  | _ => let (eb, fb, _) := ieee f; (2 ^ eb - 1) * 2 ^ fb - 1

/-- The canonical NaN (R49, R50); e2m1 has none and takes +0 (R60). -/
def canonNaN (f : Nat) : Nat :=
  match f with
  | 0x0C => 0x7F
  | 0x0E => 0
  | _ => let (eb, fb, _) := ieee f; (2 ^ eb - 1) * 2 ^ fb + 2 ^ (fb - 1)

def signBit (f : Nat) : Nat := 2 ^ (fmtWidth f - 1)

/-- An IEEE-based or narrow value, exactly. -/
def decodeIeee (f w : Nat) : Num :=
  let (eb, fb, bias) := ieee f
  let s := decide (w / 2 ^ (eb + fb) % 2 = 1)
  let e := w / 2 ^ fb % 2 ^ eb
  let m := w % 2 ^ fb
  if e = 0 then .fin s m (1 - (bias : Int) - fb) false
  else if e = 2 ^ eb - 1 ∧ f ≠ 0x0C ∧ f ≠ 0x0E then
    if m = 0 then .inf s else .nan (decide (m < 2 ^ (fb - 1)))
  else if f = 0x0C ∧ e = 15 ∧ m = 7 then .nan false
  else .fin s (2 ^ fb + m) ((e : Int) - bias - fb) false

/-- Length of the run of bits equal to b in w, from bit i downward (R53). -/
def runLen (w : Nat) (b : Bool) : Nat → Nat
  | 0 => if w.testBit 0 = b then 1 else 0
  | i + 1 => if w.testBit (i + 1) = b then 1 + runLen w b i else 0

/-- The magnitude of a positive tapered word: significand and exponent (R53). -/
def tapMag (n es w : Nat) : Nat × Int :=
  let b := w.testBit (n - 2)
  let m := runLen w b (n - 2)
  let k : Int := if b then (m : Int) - 1 else -(m : Int)
  let nr := n - 2 - m          -- bits below the bit that ends the run
  let rest := w % 2 ^ nr
  let ne := min es nr
  let e := rest / 2 ^ (nr - ne) * 2 ^ (es - ne)
  let nf := nr - ne
  let fr := rest % 2 ^ nf
  (2 ^ nf + fr, k * (2 ^ es : Nat) + e - nf)

def tapBits (f : Nat) : Nat × Nat := if f = 0x10 then (8, 1) else (6, 0)

/-- A tapered value (R53); tap6 ignores its container's top bits (R55). -/
def decodeTap (f w : Nat) : Num :=
  let (n, es) := tapBits f
  let w := w % 2 ^ n
  if w = 0 then .fin false 0 0 false
  else if w = 2 ^ (n - 1) then .nan false
  else if w.testBit (n - 1) then
    let (m, e) := tapMag n es (2 ^ n - w)
    .fin true m e false
  else
    let (m, e) := tapMag n es w
    .fin false m e false

/-- An integer element as an exact integer (R48). -/
def decodeInt (f w : Nat) : Int :=
  let k := fmtWidth f
  if isSigned f then signed k w else ((w % 2 ^ k : Nat) : Int)

def ofInt (i : Int) : Num := .fin (decide (i < 0)) i.natAbs 0 false

/-- An element of any format, exactly. -/
def decodeNum (f w : Nat) : Num :=
  if isInt f then ofInt (decodeInt f w)
  else if isIeee f then decodeIeee f w
  else if f = 0x0F then (if w % 256 = 255 then .nan false else .fin false 1 ((w % 256 : Nat) - 127) false)
  else decodeTap f w

/-- A subnormal encoding (R61). -/
def isSubnormal (f w : Nat) : Bool :=
  isIeee f && (let (eb, fb, _) := ieee f; decide (w / 2 ^ fb % 2 ^ eb = 0) && decide (w % 2 ^ fb ≠ 0))

/-- An operand as FTZ reads it (R61): a subnormal becomes a zero of its sign. -/
def readNum (f w : Nat) (ftz : Bool) : Num :=
  if ftz && isSubnormal f w then
    match decodeNum f w with
    | .fin s _ _ _ => .fin s 0 0 false
    | x => x
  else decodeNum f w

/-- Scale an operand by an e8m0 entry (R62). -/
def scaleNum (x : Num) (e : Nat) : Num :=
  match x with
  | .nan s => .nan (s && e != 255)
  | .inf s => if e = 255 then .nan false else .inf s
  | .fin s m q st => if e = 255 then .nan false else .fin s m (q + e - 127) st

/-! ## Exact operations (R196) -/

def isSig : Num → Bool
  | .nan s => s
  | _ => false
def isNaN : Num → Bool
  | .nan _ => true
  | _ => false
def isNeg : Num → Bool
  | .fin s _ _ _ => s
  | .inf s => s
  | .nan _ => false
def negNum : Num → Num
  | .nan s => .nan s
  | .inf s => .inf !s
  | .fin s m e st => .fin (!s) m e st
def sigFlag (x : Num) : Flg := if isSig x then fNV else 0#5

/-- The value as an integer multiple of 2^q, for q at most its exponent. -/
def scaled (s : Bool) (m : Nat) (e q : Int) : Int :=
  let v : Int := ((m * 2 ^ (e - q).toNat : Nat) : Int)
  if s then -v else v

/-- The exact sum; a zero sum is + but under RDN, and two zeros of one sign keep it (R196). -/
def addNum (rm : Nat) (a b : Num) : Num × Flg :=
  match a, b with
  | .nan x, y => (.nan false, (if x then fNV else 0#5) ||| sigFlag y)
  | x, .nan y => (.nan false, (if y then fNV else 0#5) ||| sigFlag x)
  | .inf x, .inf y => if x = y then (.inf x, 0#5) else (.nan false, fNV)
  | .inf x, .fin _ _ _ _ => (.inf x, 0#5)
  | .fin _ _ _ _, .inf y => (.inf y, 0#5)
  | .fin s1 m1 e1 _, .fin s2 m2 e2 _ =>
    if m1 = 0 ∧ m2 = 0 then (.fin (if s1 = s2 then s1 else rm == 2) 0 0 false, 0#5)
    else if m1 = 0 then (.fin s2 m2 e2 false, 0#5)
    else if m2 = 0 then (.fin s1 m1 e1 false, 0#5)
    else
      let q := min e1 e2
      let t := scaled s1 m1 e1 q + scaled s2 m2 e2 q
      if t = 0 then (.fin (rm == 2) 0 0 false, 0#5) else (.fin (decide (t < 0)) t.natAbs q false, 0#5)

/-- The exact product; 0 × ∞ is NaN with NV. -/
def mulNum (a b : Num) : Num × Flg :=
  match a, b with
  | .nan x, y => (.nan false, (if x then fNV else 0#5) ||| sigFlag y)
  | x, .nan y => (.nan false, (if y then fNV else 0#5) ||| sigFlag x)
  | .inf x, .inf y => (.inf (x != y), 0#5)
  | .inf x, .fin s m _ _ => if m = 0 then (.nan false, fNV) else (.inf (x != s), 0#5)
  | .fin s m _ _, .inf x => if m = 0 then (.nan false, fNV) else (.inf (x != s), 0#5)
  | .fin s1 m1 e1 _, .fin s2 m2 e2 _ => (.fin (s1 != s2) (m1 * m2) (if m1 * m2 = 0 then 0 else e1 + e2) false, 0#5)

/-- A·B + C, rounded once later; 0 × ∞ + C sets NV even when C is a NaN (R196). -/
def fmaNum (rm : Nat) (a b c : Num) : Num × Flg :=
  let (p, f1) := mulNum a b
  let (r, f2) := addNum rm p c
  (r, f1 ||| f2)

/-- Compare two finite or infinite values. -/
def cmpNum (a b : Num) : Ordering :=
  match a, b with
  | .inf x, .inf y => if x = y then .eq else if x then .lt else .gt
  | .inf x, _ => if x then .lt else .gt
  | _, .inf y => if y then .gt else .lt
  | .fin s1 m1 e1 _, .fin s2 m2 e2 _ =>
    let q := min (if m1 = 0 then e2 else e1) (if m2 = 0 then e1 else e2)
    compare (if m1 = 0 then 0 else scaled s1 m1 e1 q) (if m2 = 0 then 0 else scaled s2 m2 e2 q)
  | _, _ => .eq

/-- −0 counts as below +0 (R196, R223). -/
def cmpSigned (a b : Num) : Ordering :=
  match cmpNum a b with
  | .eq => if isNeg a && !(isNeg b) then .lt else if isNeg b && !(isNeg a) then .gt else .eq
  | o => o

/-- The lesser or greater of two values: a lone NaN gives the other operand, a signalling NaN sets NV (R196). -/
def minmaxNum (big : Bool) (a b : Num) : Num × Flg :=
  let fl := sigFlag a ||| sigFlag b
  if isNaN a && isNaN b then (.nan false, fl)
  else if isNaN a then (b, fl)
  else if isNaN b then (a, fl)
  else
    let o := cmpSigned a b
    (if big then (if o = .lt then b else a) else (if o = .gt then b else a), fl)

/-! ## Division, roots, powers (R197) -/

/-- Integer square root by Newton's iteration from above. -/
def isqrtAux (n : Nat) : Nat → Nat → Nat
  | 0, x => x
  | fuel + 1, x =>
    let y := (x + n / x) / 2
    if y < x then isqrtAux n fuel y else x

def isqrt (n : Nat) : Nat := if n = 0 then 0 else isqrtAux n (n.log2 + 8) (2 ^ (n.log2 / 2 + 1))

/-- Bits of precision carried by results that are not exact (log 15). -/
def prec : Nat := 320

def divFin (s : Bool) (m1 : Nat) (e1 : Int) (m2 : Nat) (e2 : Int) : Num :=
  let k := prec + m2.log2 + 1
  let t := m1 * 2 ^ k
  .fin s (t / m2) (e1 - e2 - k) (t % m2 != 0)

/-- The quotient of R197. -/
def divNum (a b : Num) : Num × Flg :=
  match a, b with
  | .nan x, y => (.nan false, (if x then fNV else 0#5) ||| sigFlag y)
  | x, .nan y => (.nan false, (if y then fNV else 0#5) ||| sigFlag x)
  | .inf _, .inf _ => (.nan false, fNV)
  | .inf x, .fin s _ _ _ => (.inf (x != s), 0#5)
  | .fin s _ _ _, .inf y => (.fin (s != y) 0 0 false, 0#5)
  | .fin s1 m1 e1 _, .fin s2 m2 e2 _ =>
    if m2 = 0 then (if m1 = 0 then (.nan false, fNV) else (.inf (s1 != s2), fDZ))
    else if m1 = 0 then (.fin (s1 != s2) 0 0 false, 0#5)
    else (divFin (s1 != s2) m1 e1 m2 e2, 0#5)

/-- m · 2^e with an even exponent. -/
def evenExp (m : Nat) (e : Int) : Nat × Int := if e % 2 = 0 then (m, e) else (2 * m, e - 1)

/-- The square root of R197. -/
def sqrtNum (a : Num) : Num × Flg :=
  match a with
  | .nan s => (.nan false, if s then fNV else 0#5)
  | .inf s => if s then (.nan false, fNV) else (.inf false, 0#5)
  | .fin s m e _ =>
    if m = 0 then (.fin s 0 0 false, 0#5)
    else if s then (.nan false, fNV)
    else
      let (m, e) := evenExp m e
      let t := m * 2 ^ (2 * prec)
      let r := isqrt t
      (.fin false r (e / 2 - prec) (r * r != t), 0#5)

/-- `.rcp`. -/
def rcpNum (a : Num) : Num × Flg :=
  match a with
  | .nan s => (.nan false, if s then fNV else 0#5)
  | .inf s => (.fin s 0 0 false, 0#5)
  | .fin s m e _ => if m = 0 then (.inf s, fDZ) else (divFin s 1 0 m e, 0#5)

/-- `.rsqrt`. -/
def rsqrtNum (a : Num) : Num × Flg :=
  match a with
  | .nan s => (.nan false, if s then fNV else 0#5)
  | .inf s => if s then (.nan false, fNV) else (.fin false 0 0 false, 0#5)
  | .fin s m e _ =>
    if m = 0 then (.inf s, fDZ)
    else if s then (.nan false, fNV)
    else
      let (m, e) := evenExp m e
      let k := prec + m.log2
      let y := 2 ^ (2 * k) / m
      let r := isqrt y
      (.fin false r (-(e / 2) - k) (r * r * m != 2 ^ (2 * k)), 0#5)

/-- ln 2 in units of 2^-prec, by 2·atanh(1/3). -/
def ln2Fix : Nat :=
  ((List.range 110).foldl (fun (acc : Nat × Nat) k => (acc.1 + acc.2 / (2 * k + 1), acc.2 / 9)) (0, 2 ^ (prec + 33) * 2 / 3)).1 / 2 ^ 33

/-- 2^f for f in units of 2^-prec below 1, in the same units. -/
def pow2Fix (f : Nat) : Nat :=
  let y := f * ln2Fix / 2 ^ prec
  let r := ((List.range 90).foldl (fun (acc : Nat × Nat) k => (acc.1 + acc.2, acc.2 * y / 2 ^ prec / (k + 1))) (0, 2 ^ prec)).1
  min r (2 ^ (prec + 1) - 1)

/-- The power of two that stands for one beyond every format: from 2^32768 on, and from 2^-32768 down, every format of R197 gives one
result. -/
def farExp (n : Int) : Int := max (-32768) (min 32768 n)

/-- `.exp2`: exact for an integer, else to `prec` bits (log 15). -/
def exp2Num (a : Num) : Num × Flg :=
  match a with
  | .nan s => (.nan false, if s then fNV else 0#5)
  | .inf s => if s then (.fin false 0 0 false, 0#5) else (.inf false, 0#5)
  | .fin s m e _ =>
    if m = 0 then (.fin false 1 0 false, 0#5)
    else if 0 ≤ e ∨ m % 2 ^ (-e).toNat = 0 then
      let n : Int := if 0 ≤ e then ((m * 2 ^ e.toNat : Nat) : Int) else ((m / 2 ^ (-e).toNat : Nat) : Int)
      (.fin false 1 (farExp (if s then -n else n)) false, 0#5)
    else
      let k := (-e).toNat
      let ip : Int := ((m / 2 ^ k : Nat) : Int)
      let fr := m % 2 ^ k * 2 ^ prec / 2 ^ k
      let (ip, fr) := if s then (-ip - 1, 2 ^ prec - fr - (if m % 2 ^ k * 2 ^ prec % 2 ^ k = 0 then 0 else 1)) else (ip, fr)
      (.fin false (pow2Fix fr) (farExp ip - prec) true, 0#5)

/-- `.log2`: exact for a power of two, else to about `prec` bits (log 15). -/
def log2Num (a : Num) : Num × Flg :=
  match a with
  | .nan s => (.nan false, if s then fNV else 0#5)
  | .inf s => if s then (.nan false, fNV) else (.inf false, 0#5)
  | .fin s m e _ =>
    if m = 0 then (.inf true, fDZ)
    else if s then (.nan false, fNV)
    else
      let l := m.log2
      let x : Int := e + l
      if m = 2 ^ l then (.fin (decide (x < 0)) x.natAbs 0 false, 0#5)
      else
        let z := (m - 2 ^ l) * 2 ^ prec / (m + 2 ^ l)
        let z2 := z * z / 2 ^ prec
        let ln := ((List.range 110).foldl (fun (acc : Nat × Nat) k => (acc.1 + acc.2 / (2 * k + 1), acc.2 * z2 / 2 ^ prec)) (0, 2 * z)).1
        let fr := ln * 2 ^ prec / ln2Fix
        let v : Int := x * ((2 ^ prec : Nat) : Int) + fr
        if v < 0 then (.fin true (v.natAbs - 1) (-(prec : Int)) true, 0#5) else (.fin false v.natAbs (-(prec : Int)) true, 0#5)

/-! ## Random numbers (R59, R206) -/

def philoxRound (c : Nat × Nat × Nat × Nat) (k : Nat × Nat) : Nat × Nat × Nat × Nat :=
  let p0 := 0xD2511F53 * c.1
  let p1 := 0xCD9E8D57 * c.2.2.1
  (Nat.xor (Nat.xor (p1 / 2 ^ 32) c.2.1) k.1, p1 % 2 ^ 32, Nat.xor (Nat.xor (p0 / 2 ^ 32) c.2.2.2) k.2, p0 % 2 ^ 32)

/-- Philox-4x32-10 (its published constants, log 19). -/
def philox (c : Nat × Nat × Nat × Nat) (k : Nat × Nat) : Nat × Nat × Nat × Nat :=
  ((List.range 10).foldl (fun (st : (Nat × Nat × Nat × Nat) × (Nat × Nat)) _ =>
    (philoxRound st.1 st.2, ((st.2.1 + 0x9E3779B9) % 2 ^ 32, (st.2.2 + 0xBB67AE85) % 2 ^ 32))) (c, k)).1

/-- Word c of the sequence keyed by `key`: block c >> 2, word c & 3 (R59, R206). -/
def randomWord (key c : Nat) : Nat :=
  let b := c % 2 ^ 64 / 4
  let o := philox (b % 2 ^ 32, b / 2 ^ 32, 0, 0) (key % 2 ^ 32, key / 2 ^ 32 % 2 ^ 32)
  match c % 4 with
  | 0 => o.1
  | 1 => o.2.1
  | 2 => o.2.2.1
  | _ => o.2.2.2

/-! ## Rounding (R58-R61) -/

/-- Whether the magnitude rounds up: r of d units are cut off, `odd` says that the kept part is odd, `st` that a further
nonzero part lies below (R58, R59). Modes: 0 RNE, 1 RTZ, 2 RDN, 3 RUP, 4 RNA, 5 stochastic with the random word u. -/
def roundsUp (rm u : Nat) (neg odd : Bool) (r d : Nat) (st : Bool) : Bool :=
  if r = 0 ∧ !st then false
  else match rm with
    | 0 => decide (d < 2 * r) || (decide (d = 2 * r) && (st || odd))
    | 1 => false
    | 2 => neg
    | 3 => !neg
    | 4 => decide (d ≤ 2 * r)
    | _ => decide (2 ^ 32 ≤ r * 2 ^ 32 / d + u)

/-- Round m · 2^e (and a part below) to a multiple of 2^q: the multiple, and whether it is inexact. -/
def roundQ (rm u : Nat) (neg : Bool) (m : Nat) (e : Int) (st : Bool) (q : Int) : Nat × Bool :=
  if q ≤ e then (m * 2 ^ (e - q).toNat, st)
  else
    let sh := (q - e).toNat
    let n := m / 2 ^ sh
    let r := m % 2 ^ sh
    (if roundsUp rm u neg (n % 2 == 1) r (2 ^ sh) st then n + 1 else n, r != 0 || st)

def withSign (f : Nat) (neg : Bool) (w : Nat) : Nat := if neg then signBit f + w else w

/-- A finite overflow placed by R60. Stochastic rounding has carried it above the largest value, so it goes to infinity as
under RNE (log 20). -/
def overflow (f rm : Nat) (sat neg : Bool) : Nat × Flg :=
  let big := withSign f neg (maxFinite f)
  let fl := fOF ||| fNX
  if f = 0x0E then (big, fl)
  else if f = 0x0C then (if sat then big else 0x7F, fl)
  else if sat then (big, fl)
  else
    let toMax := match rm with
      | 1 => true
      | 2 => !neg
      | 3 => neg
      | _ => false
    (if toMax then big else withSign f neg (maxFinite f + 1), fl)

/-- An infinite result placed by R60; clamped to the largest value it sets OF and NX (log 17). -/
def placeInf (f : Nat) (sat neg : Bool) : Nat × Flg :=
  let big := withSign f neg (maxFinite f)
  if f = 0x0E then (big, fOF ||| fNX)
  else if f = 0x0C then (if sat then (big, fOF ||| fNX) else (0x7F, fNV))
  else if sat then (big, fOF ||| fNX)
  else (withSign f neg (maxFinite f + 1), 0#5)

/-- A finite nonzero value rounded into an IEEE-based or narrow format (R58, R60, R61). -/
def roundIeee (f rm u : Nat) (sat ftz neg : Bool) (m : Nat) (e : Int) (st : Bool) : Nat × Flg :=
  let (eb, fb, bias) := ieee f
  let emin : Int := 1 - (bias : Int)
  let x : Int := e + m.log2
  let q := max (x - fb) (emin - fb)
  let emax : Int := (2 ^ eb : Nat) - 1 - (bias : Int)
  if emax + 2 < x then overflow f rm sat neg
  else
    let (n, ix) := roundQ rm u neg m e st q
    -- n has at most fb + 2 bits; as bits: exponent field and fraction
    let w := if q = emin - fb ∧ n < 2 ^ fb then n else ((q - (emin - fb)).toNat + 1) * 2 ^ fb + n - 2 ^ fb
    if maxFinite f < w then overflow f rm sat neg
    else
      let small := decide (w < 2 ^ fb)
      let fl := (if ix then fNX else 0#5) ||| (if ix && small then fUF else 0#5)
      if ftz && small && decide (w ≠ 0) then (withSign f neg 0, fUF ||| fNX) else (withSign f neg w, fl)

/-- A finite nonzero value into a tapered format (R54). -/
def roundTap (f rm u : Nat) (neg : Bool) (m : Nat) (e : Int) (st : Bool) : Nat × Flg :=
  let (n, es) := tapBits f
  let top := 2 ^ (n - 1) - 1
  let x : Int := e + m.log2
  let sgn : Nat → Nat := fun c => if neg then 2 ^ n - c else c
  let (mt, et) := tapMag n es top
  let (m1, e1) := tapMag n es 1
  if et + mt.log2 + 1 < x then (sgn top, fOF ||| fNX)
  else if x < e1 + m1.log2 - 1 then (sgn 1, fUF ||| fNX)
  else
    let q := min e (-(64 : Int))
    let X := m * 2 ^ (e - q).toNat
    let val : Nat → Nat := fun c => let (mc, ec) := tapMag n es c; mc * 2 ^ (ec - q).toNat
    if val top < X ∨ (val top = X ∧ st) then (sgn top, fOF ||| fNX)
    else if X < val 1 then (sgn 1, fUF ||| fNX)
    else
      let c := ((List.range top).foldl (fun c i => if val (i + 1) ≤ X then i + 1 else c) 1)
      let r := X - val c
      let d := val (c + 1) - val c
      let ix := r != 0 || st
      if c = top then (sgn top, if ix then fOF ||| fNX else 0#5)
      else (sgn (if roundsUp rm u neg (c % 2 == 1) r d st then c + 1 else c), if ix then fNX else 0#5)

/-- A finite value into an integer format (the integer row of R60). -/
def roundInt (f rm u : Nat) (neg : Bool) (m : Nat) (e : Int) (st : Bool) : Nat × Flg :=
  let w := fmtWidth f
  let lo : Int := if isSigned f then -((2 ^ (w - 1) : Nat) : Int) else 0
  let hi : Int := if isSigned f then ((2 ^ (w - 1) : Nat) : Int) - 1 else ((2 ^ w : Nat) : Int) - 1
  if m ≠ 0 ∧ (70 : Int) < e + m.log2 then (wrap w (if neg then lo else hi), fNV)
  else
    let (n, ix) := roundQ rm u neg m e st 0
    let v : Int := if neg then -(n : Int) else n
    if v < lo then (wrap w lo, fNV)
    else if hi < v then (wrap w hi, fNV)
    else (wrap w v, if ix then fNX else 0#5)

/-- A finite nonzero positive value into e8m0 (R52). -/
def roundE8m0 (rm u : Nat) (sat : Bool) (m : Nat) (e : Int) (st : Bool) : Nat × Flg :=
  let l := m.log2
  let x : Int := e + l
  let r := m - 2 ^ l
  let up := roundsUp rm u false (decide ((x + 127) % 2 = 1)) r (2 ^ l) st
  let ix := r != 0 || st
  let y := (if up then x + 1 else x) + 127
  if y < 0 then (0, fUF ||| fNX)
  else if 254 < y then (if sat then 254 else 255, fOF ||| fNX)
  else (y.toNat, if ix then fNX else 0#5)

/-- `round(x, fmt, rm)` of R58 with the placements of R52, R54, R60 and R61: the element's bits and its flags. -/
def roundNum (f rm u : Nat) (sat ftz : Bool) (x : Num) : Nat × Flg :=
  if isInt f then
    match x with
    | .nan _ => (0, fNV)
    | .inf s =>
      let w := fmtWidth f
      (if isSigned f then (if s then 2 ^ (w - 1) else 2 ^ (w - 1) - 1) else (if s then 0 else 2 ^ w - 1), fNV)
    | .fin s m e st => roundInt f rm u s m e st
  else if isIeee f then
    match x with
    | .nan _ => (canonNaN f, if f = 0x0E then fNV else 0#5)
    | .inf s => placeInf f sat s
    | .fin s m e st => if m = 0 then (withSign f s 0, 0#5) else roundIeee f rm u sat ftz s m e st
  else if f = 0x0F then
    match x with
    | .nan _ => (255, fNV)
    | .inf s => if s then (255, fNV) else if sat then (254, 0#5) else (255, fNV)
    | .fin s m e st => if m = 0 ∨ s then (255, fNV) else roundE8m0 rm u sat m e st
  else
    let (n, _) := tapBits f
    match x with
    | .nan _ => (2 ^ (n - 1), 0#5)
    | .inf s => if sat then (if s then 2 ^ (n - 1) + 1 else 2 ^ (n - 1) - 1, fOF ||| fNX) else (2 ^ (n - 1), fNV)
    | .fin s m e st => if m = 0 then (0, 0#5) else roundTap f rm u s m e st

/-! ## The format word (R56, R57) -/

structure Fmt where
  fa : Nat := 0
  fb : Nat := 0
  fd : Nat := 0
  rm : Nat := 0
  sat : Bool := false
  ftz : Bool := false
  sa : Bool := false
  za : Nat := 0
  sb : Bool := false
  zb : Nat := 0
  sd : Bool := false
  zd : Nat := 0
deriving DecidableEq, Repr, Inhabited

def fmtOf (w : Word) : Fmt :=
  { fa := bitsW w 4 0, fb := bitsW w 9 5, fd := bitsW w 14 10, rm := bitsW w 17 15, sat := w.getLsbD 18, ftz := w.getLsbD 19,
    sa := w.getLsbD 20, za := bitsW w 22 21, sb := w.getLsbD 23, zb := bitsW w 25 24, sd := w.getLsbD 26, zd := bitsW w 28 27 }

/-- Formats that may be scaled (R57). -/
def scalable (f : Nat) : Bool := isIeee f || f == 0x10

/-- Which fields besides FA and SA an opcode reads: SB, SD and RM (R189, R236). -/
structure Reads where
  sb : Bool := true
  sd : Bool := false
  rm : Bool := true
deriving DecidableEq, Repr

/-- The legality of a format word for the fields an opcode reads; reserved codes are illegal in any field (R36, R57). `fs` is the
block scalar that holds it. -/
def fmtLegal (r : Reads) (w : Word) (fs : Nat) : Bool :=
  let f := fmtOf w
  decide (w.toNat < 2 ^ 29) && fmtKnown f.fa && fmtKnown f.fb && fmtKnown f.fd && decide (f.rm < 6)
    && (!f.sa || scalable f.fa) && (!r.sb || !f.sb || scalable f.fb)
    && (!r.sd || !f.sd || f.fd == 0x0C || f.fd == 0x0D || f.fd == 0x0E)
    && !(r.rm && f.rm == 5 && decide (6 ≤ fs))

/-- Round a result under a format word (R58-R61), its random word drawn by R59 for element c. -/
def place (f : Fmt) (key base c : Nat) (x : Num) : Nat × Flg :=
  roundNum f.fd f.rm (if f.rm = 5 then randomWord key (base + c) else 0) f.sat f.ftz x

end Sys2Proof.Machine
end

