-- ==== Sys2Proof/Machine/Operands.lean ====
section
/-! DEFINITION. The operands of block words (R169-R174, R188, R191, R214): the tile a word sweeps, the registers, block scalars
and queue rows it reads, the checks made at dispatch, and the one sweep by which elementwise words write a register or a
mask. All lane groups of a pair run a word together (log 10). -/

namespace Sys2Proof.Machine

/-! ## The tile -/

/-- What a block word sees: its pair, the lane groups owned, the shape of its block, the block scalars and the lanes. -/
structure Tile where
  p : Nat
  g : Nat
  vl : Nat
  rc : Nat
  sew : Nat        -- code
  lmul : Nat       -- code
  blk : Nat        -- code
  b : Vector Word 8
  stg : Nat
  word : Word      -- the block word
  L : Lanes
deriving DecidableEq, Repr

/-- The tile of the block in progress of a pair (R171). -/
def tileOf (s : State) (p : Nat) (word : Word) : Tile :=
  let q := s.pair p
  let e := q.blocks.headD {}
  { p := p, g := q.owned.length, vl := e.vl.toNat, rc := e.rc.toNat, sew := bits e.vtype.toNat 2 0,
    lmul := bits e.vtype.toNat 4 3, blk := bits e.vtype.toNat 7 5, b := e.b, stg := q.pl.stg, word := word, L := q.lanes }

def Tile.sewBits (t : Tile) : Nat := widthOf t.sew
/-- VLMAX of the block's shape (R162). -/
def Tile.vlmax (t : Tile) : Nat := 512 * t.g * 2 ^ t.lmul / t.sewBits
def Tile.pos (t : Tile) (j i : Nat) : Nat := j * t.vl + i
/-- The fragment bit of an element (R174). -/
def Tile.fr (t : Tile) (j i : Nat) : Bool := t.L.f.getLsbD (t.pos j i)
def Tile.mbit (t : Tile) (m : Nat) (pos : Nat) : Bool := (t.L.m.getD m 0#8192).getLsbD pos
/-- The test of an execution mask (R174). -/
def Tile.masked (t : Tile) (w : BlkW) (j i : Nat) : Bool := w.m == 0#3 || (t.mbit w.m.toNat (t.pos j i) != w.mn)
def Tile.act (t : Tile) (w : BlkW) (j i : Nat) : Bool := t.fr j i && t.masked w j i
/-- The positions of a tile, row by row. -/
def Tile.all (t : Tile) : List (Nat × Nat) :=
  (List.range t.rc).flatMap (fun j => (List.range t.vl).map (fun i => (j, i)))

/-! ## Register elements (R51, R173, log 7) -/

/-- Elements of w bits that a register holds on g lane groups. -/
def perReg (g w : Nat) : Nat := 512 * g / w

/-- The lowest bit of element k of a register: successive elements lie in successive lanes; a 4-bit element is half of the
8-bit element that holds its byte. -/
def elemBit (g w k : Nat) : Nat :=
  let at_ : Nat → Nat → Nat := fun w k => 64 * (k % (8 * g)) + w * (k / (8 * g))
  if w = 4 then at_ 8 (k / 2) + 4 * (k % 2) else at_ w k

/-- Registers a row of w-bit elements takes (R173). -/
def Tile.regs (t : Tile) (w : Nat) : Nat := max 1 (2 ^ t.lmul * w / t.sewBits)

/-- Element i of row j of the operand v[n] of width w. -/
def Tile.vget (t : Tile) (n w j i : Nat) : Nat :=
  let e := perReg t.g w
  ((t.L.v.getD (n + j * t.regs w + i / e) 0#4096) >>> (elemBit t.g w (i % e))).toNat % 2 ^ w

/-- Write it. -/
def Tile.vput (t : Tile) (n w j i x : Nat) : Tile :=
  let e := perReg t.g w
  let r := n + j * t.regs w + i / e
  let sh := elemBit t.g w (i % e)
  let keep := (t.L.v.getD r 0#4096) &&& ~~~(BitVec.ofNat 4096 (2 ^ w - 1) <<< sh)
  { t with L := { t.L with v := t.L.v.setIfInBounds r (keep ||| (BitVec.ofNat 4096 (x % 2 ^ w) <<< sh)) } }

def Tile.mput (t : Tile) (m pos : Nat) (x : Bool) : Tile :=
  let v := t.L.m.getD m 0#8192
  let one := 1#8192 <<< pos
  { t with L := { t.L with m := t.L.m.setIfInBounds m (if x then v ||| one else v &&& ~~~one) } }

def Tile.zget (t : Tile) (z e : Nat) : Nat := ((t.L.z.getD z 0#4096) >>> (8 * e)).toNat % 256

def Tile.zput (t : Tile) (z e x : Nat) : Tile :=
  let keep := (t.L.z.getD z 0#4096) &&& ~~~(0xFF#4096 <<< (8 * e))
  { t with L := { t.L with z := t.L.z.setIfInBounds z (keep ||| (BitVec.ofNat 4096 (x % 256) <<< (8 * e))) } }

/-- Flags of the running block (R66). -/
def Tile.orFlags (t : Tile) (f : Flg) : Tile := { t with L := { t.L with flags := t.L.flags ||| f } }

/-! ## Checks at dispatch -/

/-- Trap 0x02 with the block word (R37). -/
def Tile.bad {α : Type} (t : Tile) : Res α := trapR 0x02#8 t.word

/-- EMUL of an operand of width w lies within 1/8 to 8 (R173). -/
def Tile.emulOk (t : Tile) (w : Nat) : Bool := decide (2 ^ t.lmul * w ≤ 8 * t.sewBits) && decide (t.sewBits ≤ 8 * (2 ^ t.lmul * w))

/-- The register group of an operand of width w is legal (R173). -/
def Tile.groupOk (t : Tile) (n w : Nat) : Bool :=
  t.emulOk w && decide (n % t.regs w = 0) && decide (n + t.rc * t.regs w ≤ 64)

def Tile.needGroup (t : Tile) (n : VReg) (w : Nat) : Res Unit := if t.groupOk n.toNat w then .ok () else t.bad

/-- Scale entry of an element (R62). -/
def Tile.entry (t : Tile) (j i : Nat) : Nat :=
  let l := 2 ^ (t.blk + 3)
  j * ((t.vlmax + l - 1) / l) + i / l

/-- Some scale entry of the tile exceeds 511 (R62). -/
def Tile.scaleOk (t : Tile) : Bool := t.vl == 0 || decide (t.entry (t.rc - 1) (t.vl - 1) ≤ 511)

/-- The format word a block word names (R36), legal in itself and for this opcode. -/
def Tile.format (t : Tile) (w : BlkW) (r : Reads) (ok : Fmt → Bool) : Res Fmt :=
  let x := t.b.getD w.fs.toNat 0#64
  if fmtLegal r x w.fs.toNat && ok (fmtOf x) then .ok (fmtOf x) else trapR 0x02#8 x

/-- Trap 0x02 by R37 when a scaled operand runs past entry 511. -/
def Tile.needScale (t : Tile) (used : Bool) : Res Unit := if used && !t.scaleOk then t.bad else .ok ()

/-! ## Sources -/

/-- A source, ready to be read: a register, a block scalar, or the rows at the head of a queue. -/
inductive Src where
  | reg (n : Nat)
  | scalar (x : Nat)
  | rows (rs : List Row)
deriving DecidableEq, Repr

/-- The rows a block source sees: q3 of a pair at stage 1 or later is the upstream queue (R120). -/
def headRows (q : Pair) (n : Nat) : List Row := if n = 3 ∧ q.pl.stg ≠ 0 then q.up else q.q.getD n []

/-- The RC rows at the head of a queue, every one checked (R117-R119, R121). -/
def takeRows (s : State) (t : Tile) (n w : Nat) : Nat → List Row → Res (List Row)
  | 0, _ => .ok []
  | _ + 1, [] =>
    let q := s.pair t.p
    if n = 3 ∧ q.pl.stg ≠ 0 then (if upDead s t.p then trapR 0x10#8 4#64 else stallR .queueMem)
    else if q.a.halt = .exited then trapR 0x10#8 (BitVec.ofNat 64 (8 + n)) else stallR .queueMem
  | k + 1, r :: rs =>
    if !r.ready then stallR .queueMem
    else match shapeOk r t.vl (wcOf w) with
      | .error e => .error e
      | .ok _ =>
        match takeRows s t n w k rs with
        | .ok l => .ok (r :: l)
        | .error e => .error e

/-- A source of width w is legal: its EMUL, and its register group when it is a register (R173). -/
def Tile.srcOk (t : Tile) (n : VReg) (k : SrcKind) (w : Nat) : Bool := if k == .vreg then t.groupOk n.toNat w else t.emulOk w

/-- A source of width w (R31, R173, R214). -/
def source (s : State) (t : Tile) (n : VReg) (k : SrcKind) (w : Nat) : Res Src :=
  if !t.srcOk n k w then t.bad
  else match k with
  | .vreg => .ok (.reg n.toNat)
  | .bscalar => .ok (.scalar (t.b.getD n.toNat 0#64).toNat)
  | .queue =>
    match takeRows s t n.toNat w t.rc (headRows (s.pair t.p) n.toNat) with
    | .ok rs => .ok (.rows rs)
    | .error e => .error e

/-- Element i of row j of a source (R188). -/
def Tile.el (t : Tile) (x : Src) (w j i : Nat) : Nat :=
  match x with
  | .reg n => t.vget n w j i
  | .scalar b => b % 2 ^ w
  | .rows rs => ((rs.getD j {}).els.getD i 0) % 2 ^ w

/-- Trap 0x02 unless a source of width w is legal (R173). -/
def Tile.needReg (t : Tile) (n : VReg) (k : SrcKind) (w : Nat) : Res Unit := if t.srcOk n k w then .ok () else t.bad

/-- Source a of width wa: every operand's shape is checked before any queue is. -/
def source1 (s : State) (t : Tile) (w : BlkW) (wa : Nat) : Res Src := source s t w.sa w.ka wa

/-- Sources a and b. Of two queues both of which would trap or stall, that of source a is answered first, for all its rows (R118, R214,
log 97). -/
def source2 (s : State) (t : Tile) (w : BlkW) (wa wb : Nat) : Res (Src × Src) := do
  t.needReg w.sa w.ka wa
  t.needReg w.sb w.kb wb
  let a ← source s t w.sa w.ka wa
  let b ← source s t w.sb w.kb wb
  return (a, b)

/-- Pop the RC rows of a queue source. -/
def popRows (q : Pair) (k : SrcKind) (n : VReg) (rc : Nat) : Pair :=
  match k with
  | .queue =>
    if n = 3#6 ∧ q.pl.stg ≠ 0 then { q with up := q.up.drop rc }
    else { q with q := q.q.setIfInBounds n.toNat ((q.q.getD n.toNat []).drop rc) }
  | _ => q

/-- A number read from a source: decoded exactly, flushed by FTZ, and scaled (R61, R62, R188). -/
def Tile.num (t : Tile) (x : Src) (f : Nat) (ftz scaled : Bool) (z j i : Nat) : Num :=
  let v := readNum f (t.el x (fmtWidth f) j i) ftz
  if scaled then scaleNum v (t.zget z (t.entry j i)) else v

/-! ## How a block word ends -/

/-- The lanes move past a word. -/
def Lanes.advance (l : Lanes) : Lanes := { l with off := l.off + 8#52, barred := false, memStall := false, stalls := 0, ahead := l.ahead.filter (fun w => w.1 != l.off) }

/-- Store the lanes of a tile, pop its queue sources, and move past the word. -/
def commit (s : State) (t : Tile) (w : BlkW) : State :=
  s.updPair t.p (fun q =>
    let q := popRows (popRows q w.ka w.sa t.rc) w.kb w.sb t.rc
    { q with lanes := t.L.advance })

/-- A block word: legal only when lanes have the turn. `r` is its effect on the tile of the block in progress. -/
def block (i : Instr) (s : State) (r : Tile → Res State) : Out :=
  match s.cur with
  | .lanes p => finish s (r (tileOf s p (wordOf i)))
  | _ => .fault .wrongAgent

/-! ## The sweeps (R188, R191) -/

/-- An exception (NV, DZ, OF or UF; never NX) (R191). -/
def excepts (f : Flg) : Bool := f &&& 30#5 != 0#5

/-- Write the exception mask (R191). -/
def Tile.putXm (t : Tile) (w : BlkW) (bit : Nat → Nat → Bool) (old : Tile) : Tile :=
  if w.xe then
    old.all.foldl (fun t c => if old.fr c.1 c.2 then t.mput w.xm.toNat (old.pos c.1 c.2) (bit c.1 c.2) else t) t
  else t

/-- The elementwise sweep: every active element of vd, of width dw, takes `f`'s bits, its flags are gathered, `also` is done,
and the exception mask is written (R188). Everything is read before anything is written. -/
def Tile.sweep (t : Tile) (w : BlkW) (dw : Nat) (f : Nat → Nat → Nat × Flg) (also : Tile → Tile := id) : Tile :=
  let rs := t.all.filterMap (fun c => if t.act w c.1 c.2 then some (c, f c.1 c.2) else none)
  let u := rs.foldl (fun u e => (u.vput w.vd.toNat dw e.1.1 e.1.2 e.2.1).orFlags e.2.2) t
  (also u).putXm w (fun j i => t.act w j i && excepts (f j i).2) t

/-- The sweep of a word whose result is a mask: active positions take `f`'s bit; `f`'s flags are gathered (R195, R198). -/
def Tile.maskSweep (t : Tile) (w : BlkW) (f : Nat → Nat → Bool × Flg) : Tile :=
  let rs := t.all.filterMap (fun c => if t.act w c.1 c.2 then some (c, f c.1 c.2) else none)
  rs.foldl (fun u e => (u.mput w.vd.toNat (t.pos e.1.1 e.1.2) e.2.1).orFlags e.2.2) t

end Sys2Proof.Machine
end

