-- ==== Sys2Proof/Machine/VInt.lean ====
section
/-! DEFINITION. The elementwise integer block words (R192-R195). -/

namespace Sys2Proof.Machine

/-- The range of an integer format (R48). -/
def intRange (f : Nat) : Int × Int :=
  let n := fmtWidth f
  if isSigned f then (-((2 ^ (n - 1) : Nat) : Int), ((2 ^ (n - 1) : Nat) : Int) - 1) else (0, ((2 ^ n : Nat) : Int) - 1)

/-- An exact integer into a format: wrapped, or clamped when `sat` (R48); no flag. -/
def clampIf (sat : Bool) (f : Nat) (x : Int) : Nat × Flg :=
  let r := intRange f
  (wrap (fmtWidth f) (if sat then max r.1 (min x r.2) else x), 0#5)

/-- B mod w, a shift amount (R192). -/
def wrapMod (n : Nat) (b : Int) : Nat := (b % (n : Int)).toNat

/-- A quotient and its flag (R193). -/
def divElem (n f : Nat) (a b : Int) : Nat × Flg :=
  if b = 0 then (2 ^ n - 1, if a = 0 then 0#5 else fDZ)
  else
    let q := Int.tdiv a b
    let r := intRange f
    (wrap n q, if q < r.1 ∨ r.2 < q then fOF else 0#5)

/-- An elementwise integer word: formats checked by R189, exact operands, one result per element (R188). -/
def intWord (s : State) (w : BlkW) (op : Fmt → Nat → Int → Int → Nat × Flg) (t : Tile) : Res State := do
  let f ← t.format w { rm := false } (fun f => isInt f.fa && isInt f.fb && isInt f.fd)
  t.needGroup w.vd (fmtWidth f.fd)
  let (a, b) ← source2 s t w (fmtWidth f.fa) (fmtWidth f.fb)
  let u := t.sweep w (fmtWidth f.fd) (fun j i =>
    op f (fmtWidth f.fd) (decodeInt f.fa (t.el a (fmtWidth f.fa) j i)) (decodeInt f.fb (t.el b (fmtWidth f.fb) j i)))
  return commit s u w

/-- R192: A + B, wrapped, or clamped by `.sat`. -/
def execVadd (w : BlkW) (sat : Bool) (s : State) : Out :=
  block (.vadd w sat) s (intWord s w (fun f _ A B => clampIf sat f.fd (A + B)))

/-- R192: A - B, wrapped, or clamped by `.sat`. -/
def execVsub (w : BlkW) (sat : Bool) (s : State) : Out :=
  block (.vsub w sat) s (intWord s w (fun f _ A B => clampIf sat f.fd (A - B)))

/-- R192: A × B, wrapped, or clamped by `.sat`. -/
def execVmul (w : BlkW) (sat : Bool) (s : State) : Out :=
  block (.vmul w sat) s (intWord s w (fun f _ A B => clampIf sat f.fd (A * B)))

/-- R192: floor(A × B / 2^w). -/
def execVmulh (w : BlkW) (s : State) : Out :=
  block (.vmulh w) s (intWord s w (fun _ n A B => (wrap n (A * B / 2 ^ n), 0#5)))

/-- R193: A / B toward zero, with DZ and OF. -/
def execVdiv (w : BlkW) (s : State) : Out :=
  block (.vdiv w) s (intWord s w (fun f n A B => divElem n f.fd A B))

/-- R193: the remainder; A by zero. -/
def execVrem (w : BlkW) (s : State) : Out :=
  block (.vrem w) s (intWord s w (fun _ n A B => (if B = 0 then wrap n A else wrap n (Int.tmod A B), 0#5)))

/-- R192: bitwise and of the wrapped patterns. -/
def execVand (w : BlkW) (s : State) : Out :=
  block (.vand w) s (intWord s w (fun _ n A B => (Nat.land (wrap n A) (wrap n B), 0#5)))

/-- R192: bitwise or. -/
def execVor (w : BlkW) (s : State) : Out :=
  block (.vor w) s (intWord s w (fun _ n A B => (Nat.lor (wrap n A) (wrap n B), 0#5)))

/-- R192: bitwise xor. -/
def execVxor (w : BlkW) (s : State) : Out :=
  block (.vxor w) s (intWord s w (fun _ n A B => (Nat.xor (wrap n A) (wrap n B), 0#5)))

/-- R192: A shifted left by B mod w. -/
def execVsll (w : BlkW) (s : State) : Out :=
  block (.vsll w) s (intWord s w (fun _ n A B => (wrap n A * 2 ^ wrapMod n B % 2 ^ n, 0#5)))

/-- R192: A shifted right by B mod w, zeros shifted in. -/
def execVsrl (w : BlkW) (s : State) : Out :=
  block (.vsrl w) s (intWord s w (fun _ n A B => (wrap n A / 2 ^ wrapMod n B, 0#5)))

/-- R192: A shifted right by B mod w, its top bit shifted in. -/
def execVsra (w : BlkW) (s : State) : Out :=
  block (.vsra w) s (intWord s w (fun _ n A B => (wrap n (signed n (wrap n A) / 2 ^ wrapMod n B), 0#5)))

/-- R192: the smaller of the exact values. -/
def execVmin (w : BlkW) (s : State) : Out :=
  block (.vmin w) s (intWord s w (fun _ n A B => (wrap n (min A B), 0#5)))

/-- R192: the larger of the exact values. -/
def execVmax (w : BlkW) (s : State) : Out :=
  block (.vmax w) s (intWord s w (fun _ n A B => (wrap n (max A B), 0#5)))

/-- Add or subtract with carry, in unsigned w-bit patterns (R194): `f` gives the element and its carry from A, B and the
carry in. -/
def carryWord (s : State) (w : BlkW) (ci co : BitVec 3) (f : Nat → Nat → Nat → Nat → Nat × Bool) (t : Tile) : Res State := do
  let fm ← t.format w { rm := false } (fun f => isInt f.fa && isInt f.fb && isInt f.fd && fmtWidth f.fa == fmtWidth f.fd && fmtWidth f.fb == fmtWidth f.fd)
  let n := fmtWidth fm.fd
  t.needGroup w.vd n
  let (a, b) ← source2 s t w n n
  let r : Nat → Nat → Nat × Bool := fun j i => f n (t.el a n j i) (t.el b n j i) (t.mbit ci.toNat (t.pos j i)).toNat
  let u := t.sweep w n (fun j i => ((r j i).1, 0#5)) (fun u =>
    t.all.foldl (fun u c => if t.act w c.1 c.2 then u.mput co.toNat (t.pos c.1 c.2) (r c.1 c.2).2 else u) u)
  return commit s u w

/-- R194: add with carry. -/
def execVadc (w : BlkW) (ci co : BitVec 3) (s : State) : Out :=
  block (.vadc w ci co) s (carryWord s w ci co (fun n a b c => ((a + b + c) % 2 ^ n, decide (2 ^ n ≤ a + b + c))))

/-- R194: subtract with borrow. -/
def execVsbc (w : BlkW) (ci co : BitVec 3) (s : State) : Out :=
  block (.vsbc w ci co) s (carryWord s w ci co (fun n a b c => (wrap n ((a : Int) - b - c), decide (a < b + c))))

/-- The conditions 0-5 of a comparison: eq, ne, lt, le, gt, ge. -/
def condHolds (c : BitVec 3) (o : Ordering) : Bool :=
  match c.toNat with
  | 0 => o == .eq
  | 1 => o != .eq
  | 2 => o == .lt
  | 3 => o != .gt
  | 4 => o == .gt
  | _ => o != .lt

/-- R195: compare exact values into a mask; no flag. -/
def vcmpWord (s : State) (w : BlkW) (cond : BitVec 3) (t : Tile) : Res State := do
  let f ← t.format w { rm := false } (fun f => isInt f.fa && isInt f.fb)
  let (a, b) ← source2 s t w (fmtWidth f.fa) (fmtWidth f.fb)
  let u := t.maskSweep w (fun j i =>
    (condHolds cond (compare (decodeInt f.fa (t.el a (fmtWidth f.fa) j i)) (decodeInt f.fb (t.el b (fmtWidth f.fb) j i))), 0#5))
  return commit s u w

/-- R195: integer compare. -/
def execVcmp (w : BlkW) (cond : BitVec 3) (s : State) : Out := block (.vcmp w cond) s (vcmpWord s w cond)

end Sys2Proof.Machine
end

