-- ==== Sys2Proof/Machine/VFloat.lean ====
section
/-! DEFINITION. The elementwise floating block words (R196-R200). -/

namespace Sys2Proof.Machine

/-- Every float format but f64 (R189). -/
def narrowSafe (f : Nat) : Bool := isFloat f && f != 0x08

/-- Round an exact result into FD at an element, with the flags of the operation and of the rounding (R70, R190). -/
def roundAt (t : Tile) (f : Fmt) (j i : Nat) (x : Num × Flg) : Nat × Flg :=
  let r := place f (t.b.getD 7 0#64).toNat (t.b.getD 6 0#64).toNat (t.pos j i) x.1
  (r.1, x.2 ||| r.2)

/-- An elementwise word of two floating operands, rounded once (R188, R196). -/
def fltWord2 (s : State) (w : BlkW) (fmtOk : Nat → Bool) (op : Nat → Num → Num → Num × Flg) (t : Tile) : Res State := do
  let f ← t.format w {} (fun f => fmtOk f.fa && fmtOk f.fb && fmtOk f.fd)
  t.needGroup w.vd (fmtWidth f.fd)
  t.needScale (f.sa || f.sb)
  let (a, b) ← source2 s t w (fmtWidth f.fa) (fmtWidth f.fb)
  let u := t.sweep w (fmtWidth f.fd) (fun j i =>
    roundAt t f j i (op f.rm (t.num a f.fa f.ftz f.sa f.za j i) (t.num b f.fb f.ftz f.sb f.zb j i)))
  return commit s u w

/-- An elementwise word of one floating operand, rounded once (R188, R197). -/
def fltWord1 (s : State) (w : BlkW) (fmtOk : Nat → Bool) (op : Num → Num × Flg) (t : Tile) : Res State := do
  let f ← t.format w { sb := false } (fun f => fmtOk f.fa && fmtOk f.fd)
  t.needGroup w.vd (fmtWidth f.fd)
  t.needScale f.sa
  let a ← source1 s t w (fmtWidth f.fa)
  let u := t.sweep w (fmtWidth f.fd) (fun j i => roundAt t f j i (op (t.num a f.fa f.ftz f.sa f.za j i)))
  return commit s u w

/-- R196: A + B. -/
def execVfadd (w : BlkW) (s : State) : Out := block (.vfadd w) s (fltWord2 s w isFloat addNum)
/-- R196: A - B. -/
def execVfsub (w : BlkW) (s : State) : Out := block (.vfsub w) s (fltWord2 s w isFloat (fun rm a b => addNum rm a (negNum b)))
/-- R196: A × B. -/
def execVfmul (w : BlkW) (s : State) : Out := block (.vfmul w) s (fltWord2 s w isFloat (fun _ a b => mulNum a b))
/-- R197: A / B. -/
def execVfdiv (w : BlkW) (s : State) : Out := block (.vfdiv w) s (fltWord2 s w narrowSafe (fun _ a b => divNum a b))
/-- R196: the lesser. -/
def execVfmin (w : BlkW) (s : State) : Out := block (.vfmin w) s (fltWord2 s w isFloat (fun _ a b => minmaxNum false a b))
/-- R196: the greater. -/
def execVfmax (w : BlkW) (s : State) : Out := block (.vfmax w) s (fltWord2 s w isFloat (fun _ a b => minmaxNum true a b))
/-- R197: the square root. -/
def execVfsqrt (w : BlkW) (s : State) : Out := block (.vfsqrt w) s (fltWord1 s w narrowSafe sqrtNum)

/-- The special function a word names (R197). -/
def sfn (fn : BitVec 4) : Num → Num × Flg :=
  match fn.toNat with
  | 0 => rcpNum
  | 1 => rsqrtNum
  | 2 => exp2Num
  | _ => log2Num

/-- R197: rcp, rsqrt, exp2, log2. -/
def execVfsfn (w : BlkW) (fn : BitVec 4) (s : State) : Out := block (.vfsfn w fn) s (fltWord1 s w narrowSafe (sfn fn))

/-- ±A·B ± C with one rounding (R196); C is the register `c`, read in format FD, unscaled. -/
def fmaWord (s : State) (w : BlkW) (c : VReg) (mem : BitVec 2) (t : Tile) : Res State := do
  let f ← t.format w {} (fun f => isFloat f.fa && isFloat f.fb && isFloat f.fd)
  t.needGroup w.vd (fmtWidth f.fd)
  t.needGroup c (fmtWidth f.fd)
  t.needScale (f.sa || f.sb)
  let (a, b) ← source2 s t w (fmtWidth f.fa) (fmtWidth f.fb)
  let u := t.sweep w (fmtWidth f.fd) (fun j i =>
    let x := t.num a f.fa f.ftz f.sa f.za j i
    let z := t.num (.reg c.toNat) f.fd f.ftz false 0 j i
    roundAt t f j i (fmaNum f.rm (if mem.getLsbD 1 then negNum x else x) (t.num b f.fb f.ftz f.sb f.zb j i)
      (if mem.getLsbD 0 then negNum z else z)))
  return commit s u w

/-- R196: fused multiply-add in four sign forms. -/
def execVfma (w : BlkW) (mem : BitVec 2) (s : State) : Out := block (.vfma w mem) s (fmaWord s w w.sc mem)

/-- R46, R196: `vfma` with C the old element of vd; a deprecated encoding. -/
def execVfmacc (w : BlkW) (s : State) : Out :=
  block (.vfmacc w) s (fun t =>
    match fmaWord s w w.vd 0#2 t with
    | .ok s' => .ok (deprecated s')
    | .error e => .error e)

/-- The seven conditions of R198 on two operands, with their flag. -/
def fcond (c : BitVec 3) (a b : Num) : Bool × Flg :=
  let quiet := decide (c.toNat ≤ 1) || c == 6#3
  if isNaN a || isNaN b then
    (c == 1#3 || c == 6#3, if quiet then sigFlag a ||| sigFlag b else fNV)
  else (if c = 6#3 then false else condHolds c (cmpNum a b), 0#5)

/-- R198: compare into a mask. -/
def vfcmpWord (s : State) (w : BlkW) (c : BitVec 3) (t : Tile) : Res State := do
  let f ← t.format w { rm := false } (fun f => isFloat f.fa && isFloat f.fb)
  t.needScale (f.sa || f.sb)
  let (a, b) ← source2 s t w (fmtWidth f.fa) (fmtWidth f.fb)
  let u := t.maskSweep w (fun j i => fcond c (t.num a f.fa f.ftz f.sa f.za j i) (t.num b f.fb f.ftz f.sb f.zb j i))
  return commit s u w

/-- R198: floating compare. -/
def execVfcmp (w : BlkW) (cond : BitVec 3) (s : State) : Out := block (.vfcmp w cond) s (vfcmpWord s w cond)

/-- The class bit of an operand of format f (R199); a finite value is subnormal when it lies below the format's smallest
normal. -/
def classBit (f : Nat) (x : Num) : Nat :=
  match x with
  | .nan sg => if sg then 8 else 9
  | .inf n => if n then 0 else 7
  | .fin n m e _ =>
    if m = 0 then (if n then 3 else 4)
    else
      let sub := isIeee f && (let (_, _, bias) := ieee f; decide (e + (m.log2 : Int) < 1 - (bias : Int)))
      if sub then (if n then 2 else 5) else (if n then 1 else 6)

/-- R199: one bit set, by the class of the element. -/
def vfclassWord (s : State) (w : BlkW) (t : Tile) : Res State := do
  let f ← t.format w { sb := false, rm := false } (fun f => isFloat f.fa && isInt f.fd && f.fd != 0x00 && f.fd != 0x04)
  t.needGroup w.vd (fmtWidth f.fd)
  t.needScale f.sa
  let a ← source1 s t w (fmtWidth f.fa)
  let u := t.sweep w (fmtWidth f.fd) (fun j i => (2 ^ classBit f.fa (t.num a f.fa f.ftz f.sa f.za j i), 0#5))
  return commit s u w

/-- R199: classify. -/
def execVfclass (w : BlkW) (s : State) : Out := block (.vfclass w) s (vfclassWord s w)

/-- R200: the bits of A under a sign taken from B. -/
def vfsgnWord (s : State) (w : BlkW) (mode : BitVec 2) (t : Tile) : Res State := do
  let f ← t.format w { rm := false } (fun f => isIeee f.fa && isIeee f.fb && f.fd == f.fa)
  let n := fmtWidth f.fa
  t.needGroup w.vd n
  let (a, b) ← source2 s t w n (fmtWidth f.fb)
  let u := t.sweep w n (fun j i =>
    let x := t.el a n j i
    let sa := x.testBit (n - 1)
    let sb := (t.el b (fmtWidth f.fb) j i).testBit (fmtWidth f.fb - 1)
    let sg := if mode = 0#2 then sb else if mode = 1#2 then !sb else sa != sb
    (x % 2 ^ (n - 1) + (if sg then 2 ^ (n - 1) else 0), 0#5))
  return commit s u w

/-- R200: sign injection. -/
def execVfsgn (w : BlkW) (mode : BitVec 2) (s : State) : Out := block (.vfsgn w mode) s (vfsgnWord s w mode)

end Sys2Proof.Machine
end

