-- ==== Sys2Proof/Machine/VConvert.lean ====
section
/-! DEFINITION. Conversion and quantisation (R201, R63), the Hadamard stage (R202, R203), scale registers (R204, R205) and
random numbers (R206). -/

namespace Sys2Proof.Machine

/-- A moved operand with the flag of a signalling NaN. -/
def moveNum (x : Num) : Num × Flg := (x, sigFlag x)

/-! ## Quantisation (R63) -/

/-- emax of the narrow formats (R63). -/
def emaxOf (f : Nat) : Int := if f = 0x0C then 8 else if f = 0x0D then 15 else 2

/-- Floor of log2 of a finite nonzero magnitude. -/
def log2Of : Num → Option Int
  | .fin _ m e _ => if m = 0 then none else some (e + m.log2)
  | _ => none

/-- The scale entry of a block from its active values: 0xFF with a NaN, 0x7F when no finite value is nonzero, else by its
largest finite magnitude (R63). -/
def blockEntry (fd : Nat) (xs : List Num) : Nat :=
  if xs.any isNaN then 255
  else match (xs.filterMap log2Of).max? with
    | none => 127
    | some e => (max (-127) (min 127 (e - emaxOf fd)) + 127).toNat

/-- An active element of a block placed under its entry (R63). -/
def blockElem (t : Tile) (f : Fmt) (entry j i : Nat) (x : Num) : Nat × Flg :=
  if entry = 255 then
    let r := roundNum f.fd f.rm 0 f.sat f.ftz (.nan false)
    (r.1, r.2 ||| sigFlag x)
  else match x with
    | .inf n => placeInf f.fd f.sat n
    | .fin n m e st => roundAt t { f with sat := true } j i (.fin n m (e - ((entry : Int) - 127)) st, 0#5)
    | .nan _ => (canonNaN f.fd, 0#5)

/-! ## vcvt -/

/-- One element of `vcvt` without quantisation (R201). -/
def cvtElem (t : Tile) (f : Fmt) (j i : Nat) (bits_ : Nat) (x : Num) : Nat × Flg :=
  if isInt f.fa && isInt f.fd then clampIf f.sat f.fd (decodeInt f.fa bits_)
  else roundAt t f j i (moveNum x)

/-- The exact operand of `vcvt` at an element. -/
def cvtNum (t : Tile) (f : Fmt) (a : Src) (j i : Nat) : Num := t.num a f.fa f.ftz f.sa f.za j i

/-- R201, R63. After a `vbfly.t` the source reads what that word would have written (R203). -/
def vcvtWord (s : State) (w : BlkW) (t : Tile) : Res State := do
  let f ← t.format w { sb := false, sd := true } (fun _ => true)
  t.needGroup w.vd (fmtWidth f.fd)
  t.needScale (f.sa || f.sd)
  let a ← source1 s t w (fmtWidth f.fa)
  let r : Tile := match t.L.carry with
    | some v => { t with L := { t.L with v := v } }
    | none => t
  let t := { t with L := { t.L with carry := none } }
  let n := fmtWidth f.fa
  if f.sd then
    let ent : Nat → Nat → Nat := fun j b =>
      blockEntry f.fd ((List.range t.vl).filterMap (fun i =>
        if i / 2 ^ (t.blk + 3) = b && t.act w j i then some (cvtNum r f a j i) else none))
    let ents := t.all.filterMap (fun c =>
      if t.act w c.1 c.2 then some (t.entry c.1 c.2, ent c.1 (c.2 / 2 ^ (t.blk + 3))) else none)
    let u := t.sweep w (fmtWidth f.fd) (fun j i => blockElem t f (ent j (i / 2 ^ (t.blk + 3))) j i (cvtNum r f a j i))
      (fun u => ents.foldl (fun u e => u.zput f.zd e.1 e.2) u)
    return commit s u w
  else
    return commit s (t.sweep w (fmtWidth f.fd) (fun j i => cvtElem t f j i (r.el a n j i) (cvtNum r f a j i))) w

/-- R201: convert, or quantise. -/
def execVcvt (w : BlkW) (s : State) : Out := block (.vcvt w) s (vcvtWord s w)

/-! ## vbfly -/

/-- The exact result of the butterfly of distance d at an element (R202). -/
def bflyNum (f : Fmt) (vl d : Nat) (x : Nat → Num) (i : Nat) : Num × Flg :=
  let p := Nat.xor i d
  if vl ≤ p then moveNum (x i)
  else if i / d % 2 = 0 then addNum f.rm (x i) (x p)
  else addNum f.rm (x p) (negNum (x i))

/-- The block word at an offset of the block's code region, as it stands at its home; a word in a peer device has been fetched with the
convoy it belongs to. -/
def blockWordAt (s : State) (p : Nat) (off : BitVec 52) : Nat :=
  let q := s.pair p
  let r := s.region q.ctx.toNat (q.blocks.headD {}).rgn.toNat
  let a := (r.base + off).toNat
  if r.covers a 8 then
    match locate s (clusterOf p) a with
    | .hbm a => Mem.getLE s.mem a 8
    | .host a => Mem.getLE s.mem a 8
    | .loop a => Mem.getLE s.mem a 8
    | .scratch a => Mem.getLE s.mem a 8
    | .loopOff => 2 ^ 64 - 1
    | .peer _ => ((q.lanes.ahead.find? (fun w => w.1 == off)).bind (·.2)).getD (2 ^ 64 - 1)
  else 2 ^ 64 - 1

/-- The next word is the `vcvt` that a `vbfly.t` must be followed by (R203). -/
def cvtFollows (s : State) (t : Tile) (w : BlkW) (fd : Nat) : Bool :=
  match decodeBlock (blockWordAt s t.p (t.L.off + 8#52)) with
  | .ok (.vcvt v) => v.cv && v.sa == w.vd && v.ka == .vreg && bitsW (t.b.getD v.fs.toNat 0#64) 4 0 == fd
  | _ => false

/-- R202, R203. The transient form leaves vd and hands its values to the next word. -/
def vbflyWord (s : State) (w : BlkW) (k : BitVec 4) (tr : Bool) (t : Tile) : Res State := do
  let f ← t.format w { sb := false } (fun f => isFloat f.fa && isFloat f.fd)
  if tr && !cvtFollows s t w f.fd then t.bad
  t.needGroup w.vd (fmtWidth f.fd)
  t.needScale f.sa
  let a ← source1 s t w (fmtWidth f.fa)
  let u := t.sweep w (fmtWidth f.fd) (fun j i =>
    roundAt t f j i (bflyNum f t.vl (2 ^ k.toNat) (fun i => t.num a f.fa f.ftz f.sa f.za j i) i))
  if tr then return commit s { u with L := { u.L with v := t.L.v, carry := some u.L.v } } w
  else return commit s u w

/-- R202: the Hadamard stage at distance 2^k. -/
def execVbfly (w : BlkW) (k : BitVec 4) (tr : Bool) (s : State) : Out := block (.vbfly w k tr) s (vbflyWord s w k tr)

/-! ## Scale registers -/

/-- Q of R204. -/
def Tile.q (t : Tile) : Nat := (t.vlmax + 2 ^ (t.blk + 3) - 1) / 2 ^ (t.blk + 3)

/-- The dispatch check of R204. -/
def Tile.needEntries (t : Tile) : Res Unit := if 512 < (t.rc - 1) * t.q + min t.vl t.q then t.bad else .ok ()

/-- R205: entries from a source of width 8. -/
def zldWord (s : State) (w : BlkW) (t : Tile) : Res State := do
  t.needEntries
  let a ← source1 s t w 8
  let u := t.all.foldl (fun u c =>
    if c.2 < t.q && t.act w c.1 c.2 then u.zput w.vd.toNat (c.1 * t.q + c.2) (t.el a 8 c.1 c.2) else u) t
  return commit s u w

/-- R205: load scale entries. -/
def execZld (w : BlkW) (s : State) : Out := block (.zld w) s (zldWord s w)

/-- R205: entries to a register, zeros beyond them. -/
def zmvWord (s : State) (w : BlkW) (t : Tile) : Res State := do
  t.needEntries
  t.needGroup w.vd 8
  let u := t.all.foldl (fun u c =>
    if t.fr c.1 c.2 then u.vput w.vd.toNat 8 c.1 c.2 (if c.2 < t.q then t.zget w.sa.toNat (c.1 * t.q + c.2) else 0) else u) t
  return commit s u w

/-- R205: read scale entries. -/
def execZmv (w : BlkW) (s : State) : Out := block (.zmv w) s (zmvWord s w)

/-! ## Random numbers -/

/-- The random element at position p (R206). -/
def randomElem (sew base key p : Nat) : Nat :=
  if sew = 64 then randomWord key (base + 2 * p) + 2 ^ 32 * randomWord key (base + 2 * p + 1)
  else randomWord key (base + p) % 2 ^ sew

/-- R206. -/
def vrngWord (s : State) (w : BlkW) (t : Tile) : Res State := do
  t.needGroup w.vd t.sewBits
  let base := (t.b.getD w.sa.toNat 0#64).toNat
  let key := (t.b.getD w.sb.toNat 0#64).toNat
  return commit s (t.sweep w t.sewBits (fun j i => (randomElem t.sewBits base key (t.pos j i), 0#5))) w

/-- R206: random bits. -/
def execVrng (w : BlkW) (s : State) : Out := block (.vrng w) s (vrngWord s w)

end Sys2Proof.Machine
end

