-- ==== Sys2Proof/Machine/VMask.lean ====
section
/-! DEFINITION. Mask words (R207-R210) and the push of values to rq (R184). -/

namespace Sys2Proof.Machine

/-- A mask word: every position of the tile whose F bit is set takes `f`'s bit; every source bit is read first. -/
def maskWord (s : State) (w : BlkW) (f : Tile → Nat → Nat → Bool) (t : Tile) : Res State :=
  .ok (commit s (t.all.foldl (fun u c => if t.fr c.1 c.2 then u.mput w.vd.toNat (t.pos c.1 c.2) (f t c.1 c.2) else u) t) w)

/-- The bits of the masks sa and sb at an element. -/
def Tile.ma (t : Tile) (w : BlkW) (j i : Nat) : Bool := t.mbit w.sa.toNat (t.pos j i)
def Tile.mb (t : Tile) (w : BlkW) (j i : Nat) : Bool := t.mbit w.sb.toNat (t.pos j i)

/-- R207: a & b. -/
def execMand (w : BlkW) (s : State) : Out := block (.mand w) s (maskWord s w (fun t j i => t.ma w j i && t.mb w j i))
/-- R207: a | b. -/
def execMor (w : BlkW) (s : State) : Out := block (.mor w) s (maskWord s w (fun t j i => t.ma w j i || t.mb w j i))
/-- R207: a ^ b. -/
def execMxor (w : BlkW) (s : State) : Out := block (.mxor w) s (maskWord s w (fun t j i => t.ma w j i != t.mb w j i))
/-- R207: a & ~b. -/
def execMandn (w : BlkW) (s : State) : Out := block (.mandn w) s (maskWord s w (fun t j i => t.ma w j i && !(t.mb w j i)))
/-- R207: ~a. -/
def execMnot (w : BlkW) (s : State) : Out := block (.mnot w) s (maskWord s w (fun t j i => !(t.ma w j i)))
/-- R208: set or clear. -/
def execMset (w : BlkW) (v : Bool) (s : State) : Out := block (.mset w v) s (maskWord s w (fun _ _ _ => v))
/-- R208: copy. -/
def execMmv (w : BlkW) (s : State) : Out := block (.mmv w) s (maskWord s w (fun t j i => t.ma w j i))
/-- R209: shift within each row, up or down. -/
def execMshift (w : BlkW) (down : Bool) (n : BitVec 12) (s : State) : Out :=
  block (.mshift w down n) s (maskWord s w (fun t j i =>
    if down then decide (i + n.toNat < t.vl) && t.ma w j (i + n.toNat)
    else decide (n.toNat ≤ i) && t.ma w j (i - n.toNat)))

/-- Push one value for each row to rq (R184, R210): a stall while it lacks room for RC values; discarded once the X thread
has exited (R119). -/
def pushRq (s : State) (t : Tile) (vals : List Word) : Res State :=
  let q := s.pair t.p
  if q.x.halt = .exited then .ok s
  else if 16 < q.rq.length + vals.length then stallR .queueVec
  else .ok (s.updPair t.p (fun q => { q with rq := q.rq ++ vals }))

/-- Push a value of each row to rq, in row order. -/
def rqWord (s : State) (w : BlkW) (f : Tile → Nat → Nat) (t : Tile) : Res State := do
  let s ← pushRq s t ((List.range t.rc).map (fun j => BitVec.ofNat 64 (f t j)))
  return commit s t w

/-- R210: the first set index of each row, or VL. -/
def execMfirst (w : BlkW) (s : State) : Out :=
  block (.mfirst w) s (rqWord s w (fun t j => ((List.range t.vl).find? (fun i => t.fr j i && t.ma w j i)).getD t.vl))
/-- R210: the number of set bits of each row. -/
def execMpopc (w : BlkW) (s : State) : Out :=
  block (.mpopc w) s (rqWord s w (fun t j => (List.range t.vl).countP (fun i => t.fr j i && t.ma w j i)))

end Sys2Proof.Machine
end

