-- ==== Sys2Proof/Machine/VMove.lean ====
section
/-! DEFINITION. Copy, select and number (R216), slides, gather and compress (R217-R219) and the reductions (R221-R224). -/

namespace Sys2Proof.Machine

/-- A word that moves elements of width SEW from source a: each active element takes `f`'s bits, none keeps its own. -/
def moveWord (s : State) (w : BlkW) (f : Tile → Src → Nat → Nat → Option Nat) (t : Tile) : Res State := do
  t.needGroup w.vd t.sewBits
  let a ← source1 s t w t.sewBits
  let rs := t.all.filterMap (fun c => if t.act w c.1 c.2 then (f t a c.1 c.2).map (fun x => (c, x)) else none)
  return commit s (rs.foldl (fun u e => u.vput w.vd.toNat t.sewBits e.1.1 e.1.2 e.2) t) w

/-- R216: copy. -/
def execVmv (w : BlkW) (s : State) : Out := block (.vmv w) s (moveWord s w (fun t a j i => some (t.el a t.sewBits j i)))

/-- R216: the mask selects a or b and gates nothing. -/
def vmergeWord (s : State) (w : BlkW) (t : Tile) : Res State := do
  t.needGroup w.vd t.sewBits
  let (a, b) ← source2 s t w t.sewBits t.sewBits
  let rs := t.all.filterMap (fun c => if t.fr c.1 c.2 then
    some (c, if t.mbit w.m.toNat (t.pos c.1 c.2) then t.el a t.sewBits c.1 c.2 else t.el b t.sewBits c.1 c.2) else none)
  return commit s (rs.foldl (fun u e => u.vput w.vd.toNat t.sewBits e.1.1 e.1.2 e.2) t) w

/-- R216: select. -/
def execVmerge (w : BlkW) (s : State) : Out := block (.vmerge w) s (vmergeWord s w)

/-- R216: each element's index. -/
def vidWord (s : State) (w : BlkW) (t : Tile) : Res State := do
  t.needGroup w.vd t.sewBits
  return commit s (t.sweep { w with xe := false } t.sewBits (fun _ i => (i % 2 ^ t.sewBits, 0#5))) w

/-- R216: number. -/
def execVid (w : BlkW) (s : State) : Out := block (.vid w) s (vidWord s w)

/-- The amount of a slide (R217). -/
def slideBy (t : Tile) (w : BlkW) (n : BitVec 13) : Nat :=
  if w.kb = .bscalar then (t.b.getD w.sb.toNat 0#64).toNat else n.toNat

/-- R217: slide up; the first n elements keep their bits. -/
def execVslideup (w : BlkW) (n : BitVec 13) (s : State) : Out :=
  block (.vslideup w n) s (moveWord s w (fun t a j i =>
    let k := slideBy t w n
    if k ≤ i then some (t.el a t.sewBits j (i - k)) else none))

/-- R217: slide down; zeros come in. -/
def execVslidedn (w : BlkW) (n : BitVec 13) (s : State) : Out :=
  block (.vslidedn w n) s (moveWord s w (fun t a j i =>
    let k := slideBy t w n
    some (if i + k < t.vl then t.el a t.sewBits j (i + k) else 0)))

/-- R218: gather by index within each row. -/
def vrgatherWord (s : State) (w : BlkW) (t : Tile) : Res State := do
  t.needGroup w.vd t.sewBits
  let (a, b) ← source2 s t w t.sewBits t.sewBits
  return commit s (t.sweep { w with xe := false } t.sewBits (fun j i =>
    let x := t.el b t.sewBits j i
    (if x < t.vl then t.el a t.sewBits j x else 0, 0#5))) w

/-- R218: gather. -/
def execVrgather (w : BlkW) (s : State) : Out := block (.vrgather w) s (vrgatherWord s w)

/-- R219: pack the selected elements to the front of each row. -/
def vcompressWord (s : State) (w : BlkW) (t : Tile) : Res State := do
  t.needGroup w.vd t.sewBits
  let a ← source1 s t w t.sewBits
  let row : Nat → List Nat := fun j => (List.range t.vl).filterMap (fun i =>
    if t.fr j i && t.mbit w.m.toNat (t.pos j i) then some (t.el a t.sewBits j i) else none)
  let put : Tile → Nat → Tile := fun u j =>
    ((row j).foldl (fun (acc : Tile × Nat) x => (acc.1.vput w.vd.toNat t.sewBits j acc.2 x, acc.2 + 1)) (u, 0)).1
  return commit s ((List.range t.rc).foldl put t) w

/-- R219: compress. -/
def execVcompress (w : BlkW) (s : State) : Out := block (.vcompress w) s (vcompressWord s w)

/-! ## Reductions -/

/-- A row of the tile holds a position of the fragment (R221). -/
def Tile.rowIn (t : Tile) (j : Nat) : Bool := (List.range t.vl).any (fun i => t.fr j i)

/-- A reduction: element 0 of each row of the fragment takes the row's result, of width dw; flags are gathered and the row's
exception bit is written (R221, R224). -/
def redWrite (t : Tile) (w : BlkW) (dw : Nat) (f : Nat → Nat × Flg) : Tile :=
  let rs := (List.range t.rc).filterMap (fun j => if t.rowIn j then some (j, f j) else none)
  let u := rs.foldl (fun u e => (u.vput w.vd.toNat dw e.1 0 e.2.1).orFlags e.2.2) t
  if w.xe then rs.foldl (fun u e => u.mput w.xm.toNat (t.pos e.1 0) (excepts e.2.2)) u else u

/-- One level of the pairwise tree (R69). -/
def pairUp {α : Type} (op : α → α → α) : List α → List α
  | a :: b :: r => op a b :: pairUp op r
  | l => l

/-- Fold a list of 2^k values by the pairwise tree. -/
def treeFold {α : Type} (op : α → α → α) : Nat → List α → List α
  | 0, l => l
  | k + 1, l => treeFold op k (pairUp op l)

/-- Least k with VL at most 2^k (R69). -/
def treeDepth (vl : Nat) : Nat := if vl ≤ 1 then 0 else (vl - 1).log2 + 1

/-- The common start of the reductions: format, groups, scales, source. -/
def redStart (s : State) (w : BlkW) (rm : Bool) (ok : Fmt → Bool) (t : Tile) : Res (Fmt × Src) := do
  let f ← t.format w { rm := rm } (fun f => ok f && !f.sb && !f.sd)
  t.needGroup w.vd (fmtWidth f.fd)
  t.needScale f.sa
  let a ← source1 s t w (fmtWidth f.fa)
  return (f, a)

/-- R221: the exact sum of the active elements, wrapped to FD. -/
def vredsumWord (s : State) (w : BlkW) (t : Tile) : Res State := do
  let (f, a) ← redStart s w false (fun f => isInt f.fa && isInt f.fd) t
  let n := fmtWidth f.fa
  let u := redWrite t w (fmtWidth f.fd) (fun j =>
    (wrap (fmtWidth f.fd) ((List.range t.vl).foldl (fun x i => if t.act w j i then x + decodeInt f.fa (t.el a n j i) else x) 0), 0#5))
  return commit s u w

/-- R221: integer sum. -/
def execVredsum (w : BlkW) (s : State) : Out := block (.vredsum w) s (vredsumWord s w)

/-- A value in FD with its flags, as an operand of the next node. FD e2m1 has no NaN: a NaN leaf or node is placed by R60 as +0 with NV, and
the fold goes on from there (R222, log 98). -/
def nodeAdd (f : Fmt) (x y : Num × Flg) : Num × Flg :=
  let r := addNum f.rm x.1 y.1
  let p := roundNum f.fd f.rm 0 f.sat f.ftz r.1
  (readNum f.fd p.1 f.ftz, x.2 ||| y.2 ||| r.2 ||| p.2)

/-- The floating sum of one row (R69, R222): by the tree or, with `sq`, from left to right. -/
def fsumRow (t : Tile) (w : BlkW) (f : Fmt) (a : Src) (sq : Bool) (j : Nat) : Nat × Flg :=
  let zero : Num × Flg := (.fin true 0 0 false, 0#5)
  let leaf : Nat → Num × Flg := fun i => moveNum (t.num a f.fa f.ftz f.sa f.za j i)
  let r :=
    if sq then
      (List.range t.vl).foldl (fun x i => if t.act w j i then nodeAdd f x (leaf i) else x) zero
    else
      let k := treeDepth t.vl
      (treeFold (nodeAdd f) k ((List.range (2 ^ k)).map (fun i => if i < t.vl && t.act w j i then leaf i else zero))).headD zero
  let p := roundNum f.fd f.rm 0 f.sat f.ftz r.1
  (p.1, r.2 ||| p.2)

/-- R222. -/
def vfredsumWord (s : State) (w : BlkW) (sq : Bool) (t : Tile) : Res State := do
  let (f, a) ← redStart s w true (fun f => isFloat f.fa && isFloat f.fd && f.rm != 5) t
  return commit s (redWrite t w (fmtWidth f.fd) (fsumRow t w f a sq)) w

/-- R222: floating sum. -/
def execVfredsum (w : BlkW) (seq : Bool) (s : State) : Out := block (.vfredsum w seq) s (vfredsumWord s w seq)

/-- The fold of `vredmm` over one row (R221): modes min, max, minu, maxu. -/
def redmmRow (t : Tile) (w : BlkW) (f : Nat) (a : Src) (mode : BitVec 2) (j : Nat) : Nat :=
  let n := fmtWidth f
  let r := intRange f
  let start : Int := match mode.toNat with
    | 0 => r.2
    | 1 => r.1
    | 2 => ((2 ^ n : Nat) : Int) - 1
    | _ => 0
  wrap n ((List.range t.vl).foldl (fun x i =>
    if t.act w j i then
      let e := t.el a n j i
      let y : Int := if mode.getLsbD 1 then (e : Int) else decodeInt f e
      if mode.getLsbD 0 then max x y else min x y
    else x) start)

/-- R221. -/
def vredmmWord (s : State) (w : BlkW) (mode : BitVec 2) (t : Tile) : Res State := do
  let (f, a) ← redStart s w false (fun f => isInt f.fa && f.fd == f.fa) t
  return commit s (redWrite t w (fmtWidth f.fd) (fun j => (redmmRow t w f.fa a mode j, 0#5))) w

/-- R221: integer minimum or maximum. -/
def execVredmm (w : BlkW) (mode : BitVec 2) (s : State) : Out := block (.vredmm w mode) s (vredmmWord s w mode)

/-- The fold of `vfredmm` over one row (R223): NaN when no active leaf is a number. -/
def fredmmRow (t : Tile) (w : BlkW) (f : Fmt) (a : Src) (big : Bool) (j : Nat) : Nat × Flg :=
  let leaves := (List.range t.vl).filterMap (fun i => if t.act w j i then some (t.num a f.fa f.ftz f.sa f.za j i) else none)
  roundAt t f j 0 (leaves.foldl (fun (x : Num × Flg) y => let m := minmaxNum big x.1 y; (m.1, x.2 ||| m.2)) (.nan false, 0#5))

/-- R223. -/
def vfredmmWord (s : State) (w : BlkW) (big : Bool) (t : Tile) : Res State := do
  let (f, a) ← redStart s w true (fun f => isFloat f.fa && f.fd == f.fa) t
  return commit s (redWrite t w (fmtWidth f.fd) (fredmmRow t w f a big)) w

/-- R223: floating minimum or maximum. -/
def execVfredmm (w : BlkW) (max : Bool) (s : State) : Out := block (.vfredmm w max) s (vfredmmWord s w max)

end Sys2Proof.Machine
end

