-- ==== Sys2Proof/Machine/Blocks.lean ====
section
/-! DEFINITION. The control words of a block (R179-R183), the words that push rows and values (R184, R220), and the scalar
instructions that shape strips and dispatch blocks (R162, R169-R172). -/

namespace Sys2Proof.Machine

/-! ## Control words -/

/-- Park a fragment, merging with one at the same place (R179); none when the buffer of eight is full (R182). -/
def park (fs : List Frag) (off : BitVec 52) (f : BitVec 8192) : Option (List Frag) :=
  if fs.any (fun x => x.off == off) then
    some (fs.map (fun x => if x.off == off then { x with f := x.f ||| f } else x))
  else if 8 ≤ fs.length then none
  else some (fs ++ [{ off := off, f := f }])

/-- The parked fragment of the lowest PC (its offset from the code region's base), and the others. -/
def popLowest (base : BitVec 52) (fs : List Frag) : Option (Frag × List Frag) :=
  match fs with
  | [] => none
  | x :: t =>
    let m := t.foldl (fun a b => if (base + b.off).toNat < (base + a.off).toNat then b else a) x
    some (m, fs.filter (fun y => y.off != m.off))

/-- The base of the code region of the block at the head of the block queue. -/
def blockBase (s : State) (p : Nat) : BitVec 52 := (s.region (s.pair p).ctx.toNat ((s.pair p).blocks.headD {}).rgn.toNat).base

/-- The address of an offset of the block's code region. -/
def blockAddr (s : State) (p : Nat) (off : BitVec 52) : Word := (blockBase s p + off).zeroExtend 64

/-- Go to a place of the block under a mask: the word reached there bars a cv bit (R32). -/
def goto_ (s : State) (p : Nat) (off : BitVec 52) (f : BitVec 8192) (fs : List Frag) : State :=
  s.updPair p (fun q => { q with lanes := { q.lanes.advance with off := off, f := f, frags := fs, barred := true, ahead := [] } })

/-- The block ends in the lanes: its flags reach the X thread's FFLAGS and its entry leaves the block queue (R66, R171). -/
def retireBlock (s : State) (p : Nat) : State :=
  s.updPair p (fun q => { q with blocks := q.blocks.tail, x := { q.x with fflags := q.x.fflags ||| q.lanes.flags },
                                 lanes := { q.lanes.advance with busy := false, frags := [], flags := 0#5, carry := none, ahead := [] } })

/-- R181: end the fragment. -/
def execStop (s : State) : Out :=
  block .stop s (fun t =>
    match popLowest (blockBase s t.p) t.L.frags with
    | some (x, fs) => .ok (goto_ s t.p x.off x.f fs)
    | none => .ok (retireBlock s t.p))

/-- R181: nothing. -/
def execVnop (s : State) : Out := block .vnop s (fun t => .ok (goto_ s t.p (t.L.off + 8#52) t.L.f t.L.frags))

/-- The positions of the fragment that take a branch (R179). -/
def takenMask (t : Tile) (m : BitVec 3) (mn : Bool) : BitVec 8192 :=
  let b := t.L.m.getD m.toNat 0#8192
  t.L.f &&& (if mn then ~~~b else b)

/-- R179: the divergent branch. -/
def execVbr (mk : BitVec 3) (mn : Bool) (off : BitVec 24) (s : State) : Out :=
  block (.vbr mk mn off) s (fun t =>
    let taken := takenMask t mk mn
    let target := t.L.off + (off.signExtend 52 <<< 3)
    if taken = 0#8192 then .ok (goto_ s t.p (t.L.off + 8#52) t.L.f t.L.frags)
    else if taken = t.L.f then .ok (goto_ s t.p target t.L.f t.L.frags)
    else match park t.L.frags target taken with
      | none => trapR 0x04#8 (blockAddr s t.p target)
      | some fs => .ok (goto_ s t.p (t.L.off + 8#52) (t.L.f &&& ~~~taken) fs))

/-- R180: park at the join PC, then run the fragment of the lowest PC. -/
def execVrejoin (s : State) : Out :=
  block .vrejoin s (fun t =>
    let j := t.L.off + 8#52
    match park t.L.frags j t.L.f with
    | none => trapR 0x04#8 (blockAddr s t.p j)
    | some fs =>
      match popLowest (blockBase s t.p) fs with
      | some (x, rest) => .ok (goto_ s t.p x.off x.f rest)
      | none => .ok (goto_ s t.p j t.L.f []))

/-! ## Rows and values pushed by the lanes -/

/-- R184: element 0 of each row to rq. -/
def vretWord (s : State) (w : BlkW) (t : Tile) : Res State := do
  let a ← source1 s t w t.sewBits
  let vals := (List.range t.rc).map (fun j => match a with
    | .scalar x => BitVec.ofNat 64 x
    | a => BitVec.ofNat 64 (t.el a t.sewBits j 0))
  let s ← pushRq s t vals
  return commit s t w

/-- R184: push values to rq. -/
def execVret (w : BlkW) (s : State) : Out := block (.vret w) s (vretWord s w)

/-- The rows a word pushes (R220): the block's VL, the active bits, zero where they are 0. -/
def outRows (t : Tile) (w : BlkW) (a : Src) : List Row :=
  (List.range t.rc).map (fun j =>
    { vl := t.vl, wc := t.sew, ents := rowEnts t.vl t.sewBits t.g, g := t.g,
      act := (List.range t.vl).map (fun i => t.act w j i),
      els := (List.range t.vl).map (fun i => if t.act w j i then t.el a t.sewBits j i else 0) })

/-- Push rows to s0 or s1: a stall while entries are too few; discarded once the A thread has exited (R116, R119). -/
def pushS (s : State) (p n : Nat) (rows : List Row) : Res State :=
  let q := s.pair p
  if q.a.halt = .exited then .ok s
  else if 8 < entsOf (q.sr.getD n []) + entsOf rows then stallR .other
  else .ok (s.updPair p (fun q => { q with sr := q.sr.setIfInBounds n (q.sr.getD n [] ++ rows) }))

/-- Push rows to iq, four entries deep. -/
def pushIq (s : State) (p : Nat) (rows : List Row) : Res State :=
  let q := s.pair p
  if q.a.halt = .exited then .ok s
  else if 4 < entsOf q.iq + entsOf rows then stallR .other
  else .ok (s.updPair p (fun q => { q with iq := q.iq ++ rows }))

/-- R220: RC rows to s0, s1 or the downstream queue; at the last stage the downstream form traps before anything else. -/
def voutWord (s : State) (w : BlkW) (dst : BitVec 2) (t : Tile) : Res State := do
  t.needReg w.sa w.ka t.sewBits
  if dst = 2#2 && (s.pair t.p).pl.stg = (s.pair t.p).pl.last then trapR 0x10#8 3#64
  let a ← source1 s t w t.sewBits
  let s ← if dst = 2#2 then pushDown s (outRows t w a) else pushS s t.p dst.toNat (outRows t w a)
  return commit s t w

/-- R220: push rows. -/
def execVout (w : BlkW) (dst : BitVec 2) (s : State) : Out := block (.vout w dst) s (voutWord s w dst)

/-- R220: RC index rows to iq. -/
def vidxqWord (s : State) (w : BlkW) (t : Tile) : Res State := do
  let a ← source1 s t w t.sewBits
  let s ← pushIq s t.p (outRows t w a)
  return commit s t w

/-- R220: push index rows. -/
def execVidxq (w : BlkW) (s : State) : Out := block (.vidxq w) s (vidxqWord s w)

end Sys2Proof.Machine
end

