-- ==== Sys2Proof/Machine/Access.lean ====
section
/-! DEFINITION. A pair's accesses to memory (R94-R108): where they go once checked, the scalar data cache, the home, a peer
device; the vector accesses in flight; and what acquires and releases do to the core's cache. -/

namespace Sys2Proof.Machine

/-! ## Vector accesses in flight -/

/-- The bits a load element reads. -/
def loadEl (m : Mem) (w : Nat) (e : Elem) : Nat :=
  match e.v with
  | some v => v
  | none => Mem.getLE m e.a e.n / 2 ^ e.sh % 2 ^ w

/-- Write a store element; bits of its bytes outside the element stay (R51). -/
def storeEl (m : Mem) (w : Nat) (e : Elem) : Mem :=
  let old := Mem.getLE m e.a e.n
  let keep := old - old / 2 ^ e.sh % 2 ^ w * 2 ^ e.sh
  Mem.setLE m e.a e.n (keep + e.v.getD 0 % 2 ^ w * 2 ^ e.sh)

/-- The lines that a vector access's own elements lie in leave a core's cache, written back first (R104, R127). -/
def purgeElems (s : State) (core : Nat) (els : List Elem) : State :=
  els.foldl (fun s e => if e.v.isNone && decide (e.a < Config.hbmTop) then purgeCore s core e.a e.n else s) s

/-- Perform the elements of one vector access, in ascending order (R128): a load fills its row, which becomes poppable; the core keeps no
line of the bytes it reads, so that a later plain load sees no older write than it saw (R244, R248), and an acquire load drops all the
core's clean lines; a store drops the lines it writes from the core's cache (R127). -/
def perform (s : State) (p : Nat) (f : Flight) : State :=
  match f.kind with
  | .load q row =>
    let s := purgeElems (if f.acq then invalidateClean s (coreOf p .A) else s) (coreOf p .A) f.els
    s.updPair p (fun pr => fillRow pr q row true (fun els => f.els.foldl (fun els e => els.set e.i (loadEl s.mem f.w e)) els))
  | .store =>
    let s := f.els.foldl (fun s e => if e.a < Config.hbmTop then purgeCore s (coreOf p .A) e.a e.n else s) s
    s.setMem (f.els.foldl (fun m e => storeEl m f.w e) s.mem)

/-- The oldest vector access of a pair completes. -/
def land1 (s : State) (p : Nat) : State :=
  match (s.pair p).flights with
  | [] => s
  | f :: t => perform (s.updPair p (fun q => { q with flights := t })) p f

/-- Every vector access of a pair completes, oldest first. -/
def settle (s : State) (p : Nat) : State := (List.range (s.pair p).flights.length).foldl (fun s _ => land1 s p) s

/-- Before a memory access of its own, an A thread's vector accesses are performed (R127, log 8). -/
def settleMe (s : State) : State := if s.meK = .A then settle s s.me else s

/-! ## Homes and peers -/

/-- The address at which the device itself serves an access, unless a peer or nobody does. -/
def Loc.home : Loc → Option Nat
  | .hbm a => some a
  | .scratch a => some a
  | .host a => some a
  | .loop a => some a
  | .loopOff => none
  | .peer _ => none

def Loc.cached : Loc → Bool
  | .hbm _ => true
  | _ => false

def Loc.isHost : Loc → Bool
  | .host _ => true
  | _ => false

/-- Operations of a request to a peer (R363). -/
def peerRead : Nat := 0
def peerWrite : Nat := 1
/-- Member m of `amo` or `sig`. -/
def peerAmo (m : Nat) : Nat := 2 + m
/-- A write of some bits of a byte: the byte, then the mask of its bits (log 80). -/
def peerBits : Nat := 98

/-- The bytes of a word, least significant first. -/
def bytesOf (v : Nat) : Nat → List Byte
  | 0 => []
  | n + 1 => BitVec.ofNat 8 v :: bytesOf (v / 256) n

def natOf : List Byte → Nat
  | [] => 0
  | b :: t => b.toNat + 256 * natOf t

/-- Ask a peer for an action whose answer nothing waits for. -/
def tellPeer (s : State) (d a op n : Nat) (sent : List Byte) : State :=
  { s with peers := s.peers ++ [{ p := d * 160, k := .F, addrs := [a], op := op, size := n, sent := sent, tag := 99 }] }

/-- Ask a peer, or take its answer: a wait until it comes, which keeps what the word has done before the access, and 0x0A with
UNIT 6 when it is a failure. -/
def askPeer (s : State) (a op n : Nat) (sent : List Byte) : Res Nat :=
  match s.thr.reply with
  | some (true, l) => .ok (natOf l)
  | some (false, _) => trapR 0x0A#8 peerUnit
  | none =>
    .error (.hold s (if s.thr.asked then .other
      else .peer { p := s.me, k := s.meK, addrs := [a], op := op, size := n, sent := sent }))

/-- The scalar core of the agent that has the turn. -/
def State.core (s : State) : Nat := coreOf s.me s.meK

/-- Read n bytes at their home. -/
def readHome (s : State) (l : Loc) (n : Nat) : Res Nat :=
  match l with
  | .peer a => askPeer s a peerRead n []
  | .loopOff => trapR 0x0A#8 peerUnit
  | l => .ok (Mem.getLE s.mem (l.home.getD 0) n)

/-- Write n bytes at their home. -/
def writeHome (s : State) (l : Loc) (n v : Nat) : Res State :=
  match l with
  | .peer a =>
    match askPeer s a peerWrite n (bytesOf v n) with
    | .ok _ => .ok s
    | .error e => .error e
  | .loopOff => trapR 0x0A#8 peerUnit
  | l => .ok (s.setMem (Mem.setLE s.mem (l.home.getD 0) n v))

/-- The thread's cached copy of an access's own line is written back and dropped; an access through the peer window of this
very device reaches the same bytes (R19, R245). -/
def dropLine (s : State) (l : Loc) : State :=
  match l with
  | .hbm a => purgeCore s s.core (a / 64 * 64) 64
  | .loop a => purgeCore s s.core (a / 64 * 64) 64
  | _ => s

/-- Read through the core's data cache, which holds HBM addresses only (R104). -/
def readCached (s : State) (l : Loc) (n : Nat) : Res (State × Nat) :=
  match l with
  | .hbm a => .ok (cacheLoad s s.core a n)
  | l =>
    match readHome (dropLine s l) l n with
    | .ok v => .ok (dropLine s l, v)
    | .error e => .error e

/-- Write through the core's data cache. -/
def writeCached (s : State) (l : Loc) (n v : Nat) : Res State :=
  match l with
  | .hbm a => .ok (cacheStore s s.core a n v)
  | l => writeHome (dropLine s l) l n v

/-! ## Acquire and release (R100, R101, R103) -/

/-- The cache work before an access at a scope and order. -/
def before (s : State) (sc : Scope) (rel : Bool) : State := if sc != .pair && rel then writeBackAll s s.core else s
/-- The cache work after it. -/
def after (s : State) (sc : Scope) (acq : Bool) : State := if sc != .pair && acq then invalidateClean s s.core else s

/-! ## Scalar accesses of a pair's thread -/

/-- An access that a peer device has already performed passed its checks when it was sent: it is not made again, and no check of it
fails any more (R95, R101). -/
def answered {α : Type} (s : State) (there : α) (r : Res α) : Res α :=
  match r with
  | .ok l => .ok l
  | .error e => if s.thr.reply.isSome then .ok there else .error e

/-- R95 and the watermark for the thread that has the turn: where the access goes. -/
def checkMe (s : State) (acc : Acc) (a : Val) (n : Nat) : Res Loc :=
  answered s (locate s (clusterOf s.me) a.v.toNat)
    (match checkPair s s.me s.meK acc a.v n a.t 0#32 with
    | .error e => .error e
    | .ok l =>
      match wmCheck s s.me s.meK a.v.toNat n with
      | .ok _ => .ok l
      | .error e => .error e)

/-- A plain load: relaxed at pair scope (R98). -/
def plainLoad (s : State) (a : Val) (n : Nat) : Res (State × Nat) := do
  let l ← checkMe s .load a n
  readCached (settleMe s) l n

/-- A plain store (R98). -/
def plainStore (s : State) (a : Val) (n v : Nat) : Res State := do
  let l ← checkMe s .store a n
  writeCached (settleMe s) l n v

/-- An ordered load (R100). -/
def orderedLoad (s : State) (a : Val) (n : Nat) (sc : Scope) (ord : Order) : Res (State × Nat) := do
  let l ← checkMe s .load a n
  let s := settleMe s
  if sc = .pair then readCached s l n
  else
    let s := dropLine s l
    let v ← readHome s l n
    return (after s sc ord.hasAcq, v)

/-- An ordered store (R100). -/
def orderedStore (s : State) (a : Val) (n v : Nat) (sc : Scope) (ord : Order) : Res State := do
  let l ← checkMe s .store a n
  let s := settleMe s
  if sc = .pair then writeCached s l n v
  else writeHome (before (dropLine s l) sc ord.hasRel) l n v

/-- What an atomic of member m and n bytes writes, from the old value, the operand and the compare value (R101). -/
def amoNew (m n old b cmp : Nat) : Nat :=
  let k := 8 * n
  match m with
  | 0 => (old + b) % 2 ^ k
  | 1 => Nat.land old b
  | 2 => Nat.lor old b
  | 3 => Nat.xor old b
  | 4 => if signed k old ≤ signed k b then old else b
  | 5 => if signed k old ≤ signed k b then b else old
  | 6 => min old b
  | 7 => max old b
  | 8 => b
  | _ => if old = cmp then b else old

/-- An atomic of n bytes at its home (R101): the old value. On host memory only doubleword add, swap and cas exist. -/
def atomic (s : State) (a : Val) (m n b cmp : Nat) (sc : Scope) (ord : Order) : Res (State × Nat) := do
  let l ← checkMe s .atomic a n
  if l.isHost && !(n == 8 && (m == 0 || m == 8 || m == 9)) then trapR 0x05#8 a.v
  let s := before (dropLine (settleMe s) l) sc ord.hasRel
  match l with
  | .peer pa =>
    let old ← askPeer s pa (peerAmo m) n (bytesOf b n ++ bytesOf cmp n)
    return (after s sc ord.hasAcq, old)
  | .loopOff => trapR 0x0A#8 peerUnit
  | l =>
    let h := l.home.getD 0
    let old := Mem.getLE s.mem h n
    return (after (s.setMem (Mem.setLE s.mem h n (amoNew m n old b cmp))) sc ord.hasAcq, old)

/-- A fence (R103): kinds full, acquire, release; `eng` writes back at any scope. -/
def fenceOp (s : State) (sc : Scope) (acq rel eng : Bool) : State :=
  let s := settleMe s
  let s := if rel && (eng || sc != .pair) then writeBackAll s s.core else s
  after s sc acq

/-! ## Slot words (R106-R108) -/

/-- The slot word of a value (R108), unless its region is moving. -/
def slotWord (s : State) (c : Nat) (x : Val) : Res Word :=
  if x.t = untag then .ok ((0x0FF0000000000000#64) ||| (x.v &&& 0xFFFFFFFFFFFFF#64))
  else
    let e := s.region c x.t.toNat
    if e.st = .moving then stallR (.move x.t.toNat)
    else .ok (0x8000000000000000#64 ||| (x.t.zeroExtend 64 <<< 52) ||| (((x.v.setWidth 52) - e.base).zeroExtend 64))

/-- The value a slot word names (R107). -/
def unslot (s : State) (c : Nat) (w : Word) : Res Val :=
  let i : Tag := (w >>> 52).setWidth 8
  if w &&& 0x7000000000000000#64 != 0#64 then trapR 0x05#8 w
  else if !(w.getLsbD 63) then .ok ⟨(w.setWidth 52).zeroExtend 64, i⟩
  else if i = untag then trapR 0x05#8 w
  else
    let e := s.region c i.toNat
    if e.st = .moving then stallR (.move i.toNat) else .ok ⟨(e.base + w.setWidth 52).zeroExtend 64, i⟩

end Sys2Proof.Machine
end

