-- ==== Sys2Proof/Machine/VectorMem.lean ====
section
/-! DEFINITION. The vector memory instructions (R125-R133), image stores (R129, R284, R285), scatter with combining (R130) and
the symmetry query (R286). -/

namespace Sys2Proof.Machine

/-! ## Symmetry images (R283-R286) -/

/-- The tensor of a launch's output descriptor: base, rows, columns, element bytes, tile height and width, negation kind. -/
structure Tensor where
  base : Nat
  rows : Nat
  cols : Nat
  n : Nat
  th : Nat
  tw : Nat
  flt : Bool
deriving DecidableEq, Repr

def tensorOf (s : State) (q : Pair) : Tensor :=
  let d : Nat → Word := fun i => q.pl.outd.getD i 0#64
  let w := d 0
  let base := if w.getLsbD 63 then (s.region q.ctx.toNat (bitsW w 59 52)).base.toNat + bitsW w 51 0 else bitsW w 51 0
  { base := base, rows := bitsW (d 1) 23 0, cols := bitsW (d 1) 47 24, n := 2 ^ bitsW (d 1) 50 48, th := bitsW (d 2) 15 0,
    tw := bitsW (d 2) 47 32, flt := (d 1).getLsbD 51 }

/-- The images of an element, in orbit order (R284). -/
def imagesOf (pl : Place) (t : Tensor) (r c : Nat) : List (Nat × Nat) :=
  match pl.sym with
  | 1 => [(c, r)]
  | 2 => [(t.rows - 1 - r, c)]
  | 3 => [(r, t.cols - 1 - c)]
  | 4 => (List.range (pl.n0 / Nat.gcd pl.n0 pl.shift - 1)).map (fun m => ((r + (m + 1) * pl.shift * t.th) % t.rows, c))
  | _ => []

/-- The storing point owns an element (R283). -/
def ownsElem (pl : Place) (t : Tensor) (r c : Nat) : Bool := r / t.th == pl.i0 && c / t.tw == pl.i1

/-- Negation of an image (R129, R283). -/
def negElem (flt : Bool) (n v : Nat) : Nat :=
  if flt then Nat.xor v (2 ^ (8 * n - 1)) else wrap (8 * n) (-(v : Int))

/-- The point is a self-image point (R285). -/
def selfImage (pl : Place) : Bool :=
  (pl.sym == 1 && pl.i0 == pl.i1) || (pl.sym == 2 && pl.n0 % 2 == 1 && pl.i0 == pl.n0 / 2)
    || (pl.sym == 3 && pl.n1 % 2 == 1 && pl.i1 == pl.n1 / 2)

/-- The value of `symq` (R286). -/
def symValue (pl : Place) : Word :=
  let self_ := selfImage pl
  let orbit := if self_ || pl.sym == 0 then 1 else if pl.sym = 4 then pl.n0 / Nat.gcd pl.n0 pl.shift else 2
  BitVec.ofNat 64 ((if self_ then 2 ^ 63 else 0) + (if pl.sign then 2 ^ 27 else 0) + pl.sym * 2 ^ 24 + orbit)

/-- R286: the point's symmetry information. -/
def execSymq (d : XReg) (s : State) : Out := scalar (.symq d) s (put s d (symValue (s.pair s.me).pl) untag)

/-! ## Forms -/

inductive Mode where
  | unit | stride (b : Word) | index
deriving DecidableEq, Repr

/-- A form of R125: a load into queue q or a store from s queue q, its element width, mode, and attributes. -/
structure VForm where
  load : Bool
  q : Nat
  w : Nat            -- bits of an element
  p6 : Bool := false
  nib : Bool := false
  mode : Mode
  acc : Acc
  sc : Scope
  ord : Order
  image : Bool := false
  train : Bool := false          -- `vstr`
  add : Option Nat := none       -- the format of `vsta`
deriving DecidableEq, Repr

def VForm.bytes (f : VForm) : Nat := max 1 (f.w / 8)
/-- The width code of the row (R125). -/
def VForm.wc (f : VForm) : Nat := if f.p6 then 1 else wcOf f.w

/-- The address, bytes and bit place of element i (R125, R51, R55). -/
def VForm.place (f : VForm) (xa : Word) (idx : Option Row) (i : Nat) : Word × Nat × Nat :=
  let at_ : Int → Word := fun o => xa + BitVec.ofInt 64 o
  if f.nib then (at_ (i / 2 : Nat), 1, 4 * (i % 2))
  else if f.p6 then
    let g : Int := match f.mode with
      | .stride b => (i / 4 : Nat) * b.toInt
      | _ => (3 * (i / 4) : Nat)
    let lo := 6 * (i % 4) / 8
    (at_ (g + lo), (6 * (i % 4) + 5) / 8 - lo + 1, 6 * (i % 4) - 8 * lo)
  else match f.mode with
    | .unit => (at_ (i * f.bytes : Nat), f.bytes, 0)
    | .stride b => (at_ ((i : Int) * b.toInt), f.bytes, 0)
    | .index => (at_ (match idx with
        | some r => signed (widthOf r.wc) (r.els.getD i 0)
        | none => 0), f.bytes, 0)

/-- An element that has passed its checks. -/
structure Ok where
  i : Nat
  a : Word
  loc : Loc
  n : Nat
  sh : Nat
deriving DecidableEq, Repr

/-- R95 and the watermark for one element; a pack6 element is checked byte by byte. -/
def checkFresh (s : State) (f : VForm) (xa : Val) (i : Nat) (pl : Word × Nat × Nat) : Res Loc :=
  let p := s.me
  let q := s.pair p
  let (a, n, _) := pl
  let e := BitVec.ofNat 32 i
  let r : Res Loc :=
    if f.p6 then
      match checkPair s p .A f.acc a 1 xa.t e with
      | .error x => .error x
      | .ok l => if n = 1 then .ok l else match checkPair s p .A f.acc (a + 1#64) 1 xa.t e with
        | .error x => .error x
        | .ok _ => .ok l
    else checkPair s p .A f.acc a n xa.t e
  match r with
  | .error x => .error x
  | .ok l =>
    let t := tensorOf s q
    if f.add.isSome && l.isHost then trapR 0x05#8 a e
    else if f.image && q.pl.sym != 0 && (f.nib || f.bytes != t.n || decide (a.toNat < t.base) || (a.toNat - t.base) % t.n != 0
      || decide (t.base + t.rows * t.cols * t.n < a.toNat + n)) then trapR 0x05#8 a e
    else match wmCheck s p .A a.toNat n with
      | .error x => .error x
      | .ok _ => .ok l

/-- The check of one element, which it has passed for good once it was sent to a peer with those before it. -/
def checkElem (s : State) (f : VForm) (xa : Val) (i : Nat) (pl : Word × Nat × Nat) : Res Loc :=
  let r := checkFresh s f xa i pl
  if i < s.thr.sentTo then answered s (locate s (clusterOf s.me) pl.1.toNat) r else r

/-- Check elements in ascending order: those that pass before the first that does not, and that one with its reason. -/
def scan (s : State) (f : VForm) (xa : Val) (idx srow : Option Row) : List Nat → List Ok × Option (Nat × Stop)
  | [] => ([], none)
  | i :: t =>
    let on := (match srow with | some r => r.act.getD i false | none => true) && (match idx with | some r => r.act.getD i false | none => true)
    if on then
      let pl := f.place xa.v idx i
      match checkElem s f xa i pl with
      | .error x => ([], some (i, x))
      | .ok l => let r := scan s f xa idx srow t; (⟨i, pl.1, l, pl.2.1, pl.2.2⟩ :: r.1, r.2)
    else scan s f xa idx srow t

/-! ## Effects -/

/-- One write of a vector store: the element that makes it, where it goes and what it writes. -/
structure Wr where
  i : Nat
  loc : Loc
  n : Nat
  sh : Nat
  v : Nat
deriving DecidableEq, Repr

/-- The writes of an element: its own, then its images in orbit order (R129, R285). -/
def writesOf (s : State) (f : VForm) (r : Row) (e : Ok) : List Wr :=
  let q := s.pair s.me
  let v := r.els.getD e.i 0
  let own : Wr := ⟨e.i, e.loc, e.n, e.sh, v⟩
  if f.image && q.pl.sym != 0 then
    let t := tensorOf s q
    let k := (e.a.toNat - t.base) / t.n
    own :: ((imagesOf q.pl t (k / t.cols) (k % t.cols)).filter (fun x => !ownsElem q.pl t x.1 x.2)).map (fun x =>
      ⟨e.i, locate s (clusterOf s.me) (t.base + (x.1 * t.cols + x.2) * t.n), e.n, 0, if q.pl.sign then negElem t.flt t.n v else v⟩)
  else [own]

/-- The value and flags of one add of `vsta` (R130). -/
def addBits (fmt x y : Nat) : Nat × Flg :=
  if isInt fmt then ((x + y) % 2 ^ fmtWidth fmt, 0#5)
  else
    let r := addNum 0 (decodeNum fmt x) (decodeNum fmt y)
    let p := roundNum fmt 0 0 false false r.1
    (p.1, r.2 ||| p.2)

/-- Merge the elements of each distinct address in order of its lowest element (R130). -/
def combine (fmt : Nat) : List Wr → List (Wr × Flg)
  | [] => []
  | w :: t =>
    let r := combine fmt t
    -- `r` holds one merge for each address above; fold this element's equals from its own value upward
    let eqs := t.filter (fun x => x.loc == w.loc)
    let m := eqs.foldl (fun (c : Nat × Flg) x => let y := addBits fmt c.1 x.v; (y.1, c.2 ||| y.2)) (w.v % 2 ^ fmtWidth fmt, 0#5)
    ({ w with v := m.1 }, m.2) :: r.filter (fun x => x.1.loc != w.loc)

/-- The lines an access touches leave the issuing core's cache, written back first (R104, R127). -/
def dropElems (s : State) (els : List (Loc × Nat)) : State :=
  els.foldl (fun s e => match e.1 with
    | .hbm a => purgeCore s s.core a e.2
    | .loop a => purgeCore s s.core a e.2
    | _ => s) s

def Loc.foreign : Loc → Option Nat
  | .peer a => some a
  | _ => none

/-- The answers of the peers for the foreign places of an access (R363): all of them, or how many came before the failure. -/
def askPeers (s : State) (addrs : List Nat) (op n : Nat) (sent : List Byte) : Res (Bool × List Byte) :=
  if addrs.isEmpty then .ok (true, [])
  else match s.thr.reply with
    | some r => .ok r
    | none => stallR (if s.thr.asked then .other else .peer { p := s.me, k := .A, addrs := addrs, op := op, size := n, sent := sent })

/-- The elements below k are done and the instruction goes on from k (R132, R133): VSTART is k, and the peers' answers are used up. -/
def partDone (s : State) (k : Nat) : State :=
  s.updThr s.me .A (fun t => { t with vstart := BitVec.ofNat 13 k, vmid := t.vmid || decide (t.vstart.toNat < k), asked := false, reply := none })

/-- The instruction is over: VSTART is 0, the reservation gone, and its flags reach FFLAGS (R126, R130, R133). -/
def vecDone (s : State) : State :=
  (s.updThr s.me .A (fun t => { t with vstart := 0#13, resv := none, fflags := t.fflags ||| t.vflags })).retire

/-- What a fresh row holds before it is filled: zero for the elements the load is to do, anything for those a software-written
VSTART skips (R126, log 77). -/
def freshEls (s : State) (vl vstart : Nat) : List Nat :=
  (List.range vl).map (fun i => if i < vstart then (Config.freeEl s.fresh i).toNat else 0)

/-- The row a load reserved is still there for it: a row of the shape it pushes, not yet filled. -/
def holdsRow (s : State) (f : VForm) (vl id : Nat) : Bool :=
  ((s.pair s.me).q.getD f.q []).any (fun r => r.id == id && !r.ready && r.vl == vl && r.wc == f.wc)

/-- The reserved row of a load, taken at first issue (R116, R126); a stream on the queue's port stalls it (R146). Once the X
thread has exited nothing is kept of the push (R119). -/
def reserve (s : State) (f : VForm) (vl : Nat) : Res (State × Nat) :=
  match s.thr.resv.filter (holdsRow s f vl) with
  | some id => .ok (s, id)
  | none =>
    let q := s.pair s.me
    let rows := q.q.getD f.q []
    let ents := rowEnts vl (widthOf f.wc) q.rowGroups
    if q.x.halt = .exited then .ok ({ s with fresh := s.fresh + 1 }, s.fresh)
    else if 8 < entsOf rows + ents then stallR .other
    else if q.streams.toList.any (fun st => st.port.toNat == 8 + f.q && st.isBound && (st.st == .queued || st.st == .running)) then
      stallR .other
    else
      let row : Row := { vl := vl, wc := f.wc, ents := ents, g := q.rowGroups, act := List.replicate vl true, els := (freshEls s vl s.thr.vstart.toNat).map (· % 2 ^ widthOf f.wc),
                         ready := false, id := s.fresh }
      .ok ({ s.updPair s.me (fun q => { q with q := q.q.setIfInBounds f.q (rows ++ [row]), a := { q.a with resv := some row.id } })
             with fresh := s.fresh + 1 }, row.id)

/-- The elements of a load, with the values peers have sent (`vals`, one for each foreign element). -/
def loadElems (w : Nat) : List Ok → List Nat → List Elem
  | [], _ => []
  | e :: t, vals =>
    match e.loc.home with
    | some a => { i := e.i, a := a, n := e.n, sh := e.sh } :: loadElems w t vals
    | none => { i := e.i, a := 0, n := e.n, sh := e.sh, v := some (vals.headD 0 / 2 ^ e.sh % 2 ^ w) } :: loadElems w t vals.tail

/-- Cut a byte list into values of the lengths given, as far as it holds them whole. -/
def cuts : List Nat → List Byte → List Nat
  | [], _ => []
  | n :: t, l => if l.length < n then [] else natOf (l.take n) :: cuts t (l.drop n)

/-- Cut a byte list into values of n bytes. -/
def chunk (n : Nat) : Nat → List Byte → List Nat
  | 0, _ => []
  | k + 1, l => if l.isEmpty then [] else natOf (l.take n) :: chunk n k (l.drop n)

/-- The trap of element k at a place that nobody serves (R363). -/
def unserved (k : Nat) : Nat × Stop := (k, .trap 0x0A#8 peerUnit (BitVec.ofNat 32 k))

/-- The fault horizon (R132): the lowest element that fails a check or that the device's own closed aperture leaves without a home
(R363), with what it meets there. A stall of an element is a vector access's (R301). -/
def horizon (els : List (Nat × Loc)) (bad : Option (Nat × Stop)) : Option (Nat × Stop) :=
  match (els.filterMap (fun e => if e.2 = .loopOff then some e.1 else none)).min? with
  | some k => some (unserved k)
  | none => bad.map (fun b => (b.1, match b.2 with
    | .stall (.region r _) => .stall (.region r true)
    | x => x))

/-- Once peers have answered, the instruction goes no further than the elements it sent: those above wait for its next turn. -/
def sentHorizon (s : State) (vl : Nat) (foreign : Bool) (hz : Option (Nat × Stop)) : Option (Nat × Stop) :=
  if s.thr.reply.isSome && foreign && decide (s.thr.sentTo < (hz.map (·.1)).getD vl) then some (s.thr.sentTo, .stall .other) else hz

/-- The thread keeps how far the elements go that it sends to peers. -/
def sendTo (s : State) (vl : Nat) (hz : Option (Nat × Stop)) : State :=
  s.updThr s.me .A (fun t => { t with sentTo := (hz.map (·.1)).getD vl })

/-- Element i lies below the horizon. -/
def under (hz : Option (Nat × Stop)) (i : Nat) : Bool := hz.all (fun h => decide (i < h.1))

/-- Where the instruction stops once the peers have answered: at the lowest foreign element a peer has not served, else at the
horizon. -/
def cutAt (hz : Option (Nat × Stop)) (foreign : List Nat) (answered : Nat) (ok : Bool) : Option (Nat × Stop) :=
  if ok then hz
  else match (foreign.drop answered).min? with
    | some k => some (unserved k)
    | none => hz

/-- A load: reserve, check, then read what lies below the horizon at the homes and the peers; the row is filled when the access
completes. A stop at element k, be it a trap or a stall, leaves the elements below it in the reserved row, VSTART at k and the row
reserved (R126, R132). -/
def vecLoad (s : State) (f : VForm) (xa : Val) (idx : Option Row) (vl : Nat) : State × Res State :=
  match reserve s f vl with
  | .error e => (s, .error e)
  | .ok (s, id) =>
    let (all, bad) := scan s f xa idx none ((List.range vl).drop s.thr.vstart.toNat)
    let hz := sentHorizon s vl (all.any (fun e => e.loc.foreign.isSome)) (horizon (all.map (fun e => (e.i, e.loc))) bad)
    let oks := all.filter (fun e => under hz e.i)
    let s := dropElems (before (settleMe s) f.sc f.ord.hasRel) (oks.map (fun e => (e.loc, e.n)))
    let fo := oks.filter (fun e => e.loc.foreign.isSome)
    -- of a packed element the bytes that hold it are read, one by one (R55)
    let bytes := fo.flatMap (fun e => (List.range (if f.p6 then e.n else 1)).filterMap (fun j => e.loc.foreign.map (· + j)))
    match askPeers s bytes peerRead (if f.p6 then 1 else f.bytes) [] with
    | .error e => (sendTo s vl hz, .error e)
    | .ok (ok, data) =>
      let vals := cuts (fo.map (·.n)) data
      match cutAt hz (fo.map (·.i)) vals.length ok with
      | some (k, x) =>
        let els := loadElems f.w (oks.filter (fun e => decide (e.i < k))) vals
        (partDone (s.updPair s.me (fun q => fillRow q f.q id false (fun r => els.foldl (fun r e => r.set e.i (loadEl s.mem f.w e)) r))) k, .error x)
      | none =>
        let fl : Flight := { kind := .load f.q id, rgn := xa.t, w := f.w, els := loadElems f.w oks vals, acq := f.sc != .pair && f.ord.hasAcq }
        let s := s.updPair s.me (fun q => { q with flights := q.flights ++ [fl], iq := if idx.isSome then q.iq.tail else q.iq })
        (s, .ok (vecDone (after s f.sc f.ord.hasAcq)))

def ewBits (ew : BitVec 3) : Nat := if ew = 4#3 then 6 else 8 * 2 ^ ew.toNat

/-- Apply the writes of a store at their homes. -/
def applyWrites (s : State) (w : Nat) (ws : List Wr) : State :=
  s.setMem (ws.foldl (fun m x => match x.loc.home with
    | some a => storeEl m w { i := x.i, a := a, n := x.n, sh := x.sh, v := some x.v }
    | none => m) s.mem)

/-- Apply the combining adds (R130): the flags of the network and of the homes are gathered. -/
def applyAdds (s : State) (fmt n : Nat) (ws : List (Wr × Flg)) (vals : List Nat) : State × Flg :=
  let r := ws.foldl (fun (acc : Mem × Flg × List Nat) x => match x.1.loc.home with
    | some a =>
      let y := addBits fmt (Mem.getLE acc.1 a n) x.1.v
      (Mem.setLE acc.1 a n y.1, acc.2.1 ||| x.2 ||| y.2, acc.2.2)
    | none => (acc.1, acc.2.1 ||| x.2 ||| (addBits fmt (acc.2.2.headD 0) x.1.v).2, acc.2.2.tail)) (s.mem, 0#5, vals)
  (s.setMem r.1, r.2.1)

/-- The destination of a train (R131): a die of the package, whose HBM or scratchpad the element lies in, a device behind a peer
window, this one included, or the host. -/
def destOf (s : State) : Loc → Nat
  | .hbm a => (hbmPlace s.deadPch a).die
  | .scratch a => (a - Config.globalBase) / 2 ^ 32
  | .peer a => 8 + bits a 42 33
  | .host _ => 2048
  | _ => 8 + bitsW s.devnum 9 0

/-- The lowest element of the train that carries a write. -/
def trainLow (s : State) (ws : List Wr) (x : Wr) : Nat :=
  match ws.find? (fun y => destOf s y.loc == destOf s x.loc) with
  | some y => y.i
  | none => x.i

/-- Put the writes of `vstr` in the order of their trains (R131), a train before those whose lowest element is above its own. -/
def trains (s : State) (ws : List Wr) : List Wr :=
  (ws.map (fun x => destOf s x.loc)).eraseDups.flatMap (fun d => ws.filter (fun x => destOf s x.loc == d))

/-- Perform the writes of a store at the device's own homes, with the flags of the adds (R130). -/
def runWrites (f : VForm) (vals : List Nat) (s : State) (l : List (Wr × Flg)) : State :=
  match f.add with
  | some fmt => let y := applyAdds s fmt f.bytes l vals; y.1.updThr s.me .A (fun t => { t with vflags := t.vflags ||| y.2 })
  | none => applyWrites s f.w (l.map (·.1))

/-- The writes of a store in the order they go out: merged for `vsta` (R130), by trains for `vstr`. -/
def orderWrites (s : State) (f : VForm) (ws : List Wr) : List (Wr × Flg) :=
  match f.add with
  | some fmt => combine fmt ws
  | none => (if f.train then trains s ws else ws).map (fun x => (x, 0#5))

/-- A request that a store makes of peers: the operation, the bytes that go to each address, and for each address the lowest element it is
about. -/
structure Sent where
  op : Nat
  size : Nat
  to_ : List (Nat × Nat)   -- address, element
  data : List Byte
deriving DecidableEq, Repr

/-- The bytes that 4-bit elements lie in, with the bits of them that are written: address, lowest element, bits, mask (R51). -/
def nibBytes : List Wr → List (Nat × Nat × Nat × Nat)
  | [] => []
  | x :: t =>
    let a := x.loc.foreign.getD 0
    let v := x.v % 16 * 2 ^ x.sh
    let m := 15 * 2 ^ x.sh
    match nibBytes t with
    | (a', i, v', m') :: r => if a = a' then (a, x.i, v + v', m + m') :: r else (a, x.i, v, m) :: (a', i, v', m') :: r
    | [] => [(a, x.i, v, m)]

/-- What a store sends to peers of its writes there. Two 4-bit elements of one byte go as that byte; where an element goes alone, the
bytes go with the masks of their bits (R51, log 80). -/
def sentOf (s : State) (f : VForm) (ws fo : List Wr) : Sent :=
  if f.nib then
    let bs := nibBytes fo
    let whole := bs.all (fun b => b.2.2.2 == 255)
    { op := if whole then peerWrite else peerBits, size := 1, to_ := bs.map (fun b => (b.1, b.2.1)),
      data := bs.flatMap (fun b => if whole then [BitVec.ofNat 8 b.2.2.1] else [BitVec.ofNat 8 b.2.2.1, BitVec.ofNat 8 b.2.2.2]) }
  else
    { op := match f.add with
        | some fmt => 100 + fmt
        | none => peerWrite
      size := f.bytes
      to_ := fo.filterMap (fun x => x.loc.foreign.map (fun a => (a, if f.train then trainLow s ws x else x.i)))
      data := fo.flatMap (fun x => bytesOf x.v x.n) }

/-- What of a store is done when it stops at element k: the elements below k, or the trains that went before (R131, R132). -/
def doneBelow (s : State) (f : VForm) (ws : List Wr) (k : Nat) : List (Wr × Flg) :=
  orderWrites s f (ws.filter (fun x => decide ((if f.train then trainLow s ws x else x.i) < k)))

/-- A store: check every element, then perform those below the horizon (R126, R132). A plain store completes later; an image
store, a combining store and a train are performed here. -/
def vecStore (s : State) (f : VForm) (xa : Val) (idx : Option Row) (r : Row) (vl : Nat) : State × Res State :=
  let (oks, bad) := scan s f xa idx (some r) ((List.range vl).drop s.thr.vstart.toNat)
  let all := oks.flatMap (writesOf s f r)
  let hz := sentHorizon s vl (all.any (fun x => x.loc.foreign.isSome)) (horizon (all.map (fun x => (x.i, x.loc))) bad)
  let ws := all.filter (fun x => under hz x.i)
  let out := orderWrites s f ws
  let s := dropElems (before (settleMe s) f.sc f.ord.hasRel) (ws.map (fun x => (x.loc, x.n)))
  let fo := (out.map (·.1)).filter (fun x => x.loc.foreign.isSome)
  let y := sentOf s f ws fo
  match askPeers s (y.to_.map (·.1)) y.op y.size y.data with
  | .error e => (sendTo s vl hz, .error e)
  | .ok (ok, data) =>
    let got := if f.add.isSome then data.length / f.bytes else data.length
    let vals := chunk f.bytes vl data
    match cutAt hz (y.to_.map (·.2)) got ok with
    | some (k, x) => (partDone (runWrites f vals s (doneBelow s f ws k)) k, .error x)
    | none =>
      let els : List Elem := ws.filterMap (fun x => x.loc.home.map (fun a => ⟨x.i, a, x.n, x.sh, some x.v⟩))
      let s := if f.image || f.train || f.add.isSome then runWrites f vals s out
        else s.updPair s.me (fun q => { q with flights := q.flights ++ [{ kind := .store, rgn := xa.t, w := f.w, els := els }] })
      let s := s.updPair s.me (fun q => { q with sr := q.sr.setIfInBounds f.q (q.sr.getD f.q []).tail, iq := if idx.isSome then q.iq.tail else q.iq })
      (s, .ok (vecDone (after s f.sc f.ord.hasAcq)))

/-- The train of `vstr` that carries element `elem` is not delivered (R131): the elements of the trains that have been acknowledged are
written, and the instruction stops at the lowest element of the one that failed; none where no train carries `elem`. With `.ord` the
trains before it have been acknowledged and none after it; else which have is free (log 90). -/
def loseTrain (s : State) (f : VForm) (xa : Val) (idx : Option Row) (r : Row) (vl : Nat) (ordd : Bool) (elem : Nat) : Option (State × Nat) :=
  let (oks, bad) := scan s f xa idx (some r) ((List.range vl).drop s.thr.vstart.toNat)
  let all := oks.flatMap (writesOf s f r)
  let hz := horizon (all.map (fun x => (x.i, x.loc))) bad
  let ws := all.filter (fun x => under hz x.i)
  (ws.find? (fun x => x.i == elem)).map (fun x =>
    let low := trainLow s ws x
    let acked := ws.filter (fun y => destOf s y.loc != destOf s x.loc
      && (if ordd then decide (trainLow s ws y < low) else Config.choice (s.fresh + destOf s y.loc) % 2 == 0))
    let t := dropElems (before (settleMe s) f.sc f.ord.hasRel) (acked.map (fun y => (y.loc, y.n)))
    ({ applyWrites t f.w (trains s acked) with fresh := t.fresh + 4096 }, low))

/-- The head of s0, s1 or iq, checked by R118 and R119. -/
def rowHead (s : State) (rows : List Row) (code vl wc : Nat) : Res Row :=
  match rows with
  | [] => if (s.pair s.me).x.halt = .exited then trapR 0x10#8 (BitVec.ofNat 64 code) else stallR .other
  | r :: _ =>
    match shapeOk r vl wc with
    | .ok _ => .ok r
    | .error e => .error e

/-- The frame of R126. Under SEW 4 only the byte forms of `vld` and `vst` run, on 4-bit elements (R125). -/
def vecRun (i : Instr) (s : State) (f : VForm) (xa : Val) : State × Res State :=
  let q := s.pair s.me
  let t := s.thr
  let vl := t.vl.toNat
  let sew := bits t.vtype.toNat 2 0
  let byteForm := f.mode == .unit && f.w == 8 && !f.p6 && !f.train && f.add.isNone
  if f.load && f.q == 3 && q.pl.stg != 0 then (s, trapR 0x10#8 11#64)
  else if vl = 0 then (s, .ok s.retire)
  else if sew = 0 && !byteForm then (s, trapR 0x01#8 (wordOf i))
  else if vl ≤ t.vstart.toNat then (s, trapR 0x01#8 (t.vstart.zeroExtend 64))
  else
    let f := if sew = 0 then { f with w := 4, nib := true } else f
    let idx : Res (Option Row) := if f.mode == .index then (rowHead s q.iq 14 vl sew).map some else .ok none
    if f.load then
      match idx with
      | .error e => (s, .error e)
      | .ok idx => vecLoad s f xa idx vl
    else
      match rowHead s (q.sr.getD f.q []) (12 + f.q) vl f.wc, idx with
      | .error e, _ => (s, .error e)
      | _, .error e => (s, .error e)
      | .ok r, .ok idx => vecStore s f xa idx r vl

/-- A train of the `vstr` that the A thread is about to perform is not delivered (R131). -/
def vstrLost (i : Instr) (s : State) (elem : Nat) : Option (State × Nat) :=
  match i with
  | .vstr qn a sc ord ordd ew =>
    let q := s.pair s.me
    let vl := s.thr.vl.toNat
    let f : VForm := { load := false, q := qn.toNat, w := ewBits ew, mode := .index, acc := .store, sc := sc, ord := ord, train := true }
    if bits s.thr.vtype.toNat 2 0 = 0 then none
    else match rowHead s q.iq 14 vl (bits s.thr.vtype.toNat 2 0), rowHead s (q.sr.getD f.q []) (12 + f.q) vl f.wc with
      | .ok idx, .ok r => loseTrain s f (s.rx a) (some idx) r vl ordd elem
      | _, _ => none
  | _ => none

/-- A vector memory instruction of the A thread. -/
def vecMem (i : Instr) (s : State) (f : VForm) (a : XReg) : Out :=
  let r := vecRun i s f (s.rx a)
  scalarAt i s r.1 r.2

/-- R125: unit-stride load. -/
def execVld (q : BitVec 2) (a : XReg) (sc : Scope) (ord : Order) (ordd : Bool) (ew : BitVec 3) (s : State) : Out :=
  vecMem (.vld q a sc ord ordd ew) s { load := true, q := q.toNat, w := ewBits ew, p6 := ew == 4#3, mode := .unit, acc := .load, sc := sc, ord := ord } a

/-- R125: strided load. -/
def execVlds (q : BitVec 2) (a b : XReg) (sc : Scope) (ord : Order) (ordd : Bool) (ew : BitVec 3) (s : State) : Out :=
  vecMem (.vlds q a b sc ord ordd ew) s
    { load := true, q := q.toNat, w := ewBits ew, p6 := ew == 4#3, mode := .stride (s.rx b).v, acc := .load, sc := sc, ord := ord } a

/-- R125: indexed load. -/
def execVldx (q : BitVec 2) (a : XReg) (sc : Scope) (ord : Order) (ordd : Bool) (ew : BitVec 3) (s : State) : Out :=
  vecMem (.vldx q a sc ord ordd ew) s { load := true, q := q.toNat, w := ewBits ew, mode := .index, acc := .load, sc := sc, ord := ord } a

/-- R125: unit-stride store. -/
def execVst (q : BitVec 1) (a : XReg) (sc : Scope) (ord : Order) (ordd : Bool) (ew : BitVec 3) (s : State) : Out :=
  vecMem (.vst q a sc ord ordd ew) s { load := false, q := q.toNat, w := ewBits ew, mode := .unit, acc := .store, sc := sc, ord := ord } a

/-- R129: image store. -/
def execVsti (q : BitVec 1) (a : XReg) (sc : Scope) (ord : Order) (ordd : Bool) (ew : BitVec 3) (s : State) : Out :=
  vecMem (.vsti q a sc ord ordd ew) s
    { load := false, q := q.toNat, w := ewBits ew, mode := .unit, acc := .store, sc := sc, ord := ord, image := true } a

/-- R125: strided store. -/
def execVsts (q : BitVec 1) (a b : XReg) (sc : Scope) (ord : Order) (ordd : Bool) (ew : BitVec 3) (s : State) : Out :=
  vecMem (.vsts q a b sc ord ordd ew) s
    { load := false, q := q.toNat, w := ewBits ew, mode := .stride (s.rx b).v, acc := .store, sc := sc, ord := ord } a

/-- R125: scatter. -/
def execVstx (q : BitVec 1) (a : XReg) (sc : Scope) (ord : Order) (ordd : Bool) (ew : BitVec 3) (s : State) : Out :=
  vecMem (.vstx q a sc ord ordd ew) s { load := false, q := q.toNat, w := ewBits ew, mode := .index, acc := .store, sc := sc, ord := ord } a

/-- R130: scatter with combining adds. -/
def execVsta (q : BitVec 1) (a : XReg) (sc : Scope) (ord : Order) (fmt : BitVec 5) (s : State) : Out :=
  vecMem (.vsta q a sc ord fmt) s
    { load := false, q := q.toNat, w := fmtWidth fmt.toNat, mode := .index, acc := .atomic, sc := sc, ord := ord, add := some fmt.toNat } a

/-- R131: remote scatter. -/
def execVstr (q : BitVec 1) (a : XReg) (sc : Scope) (ord : Order) (ordd : Bool) (ew : BitVec 3) (s : State) : Out :=
  vecMem (.vstr q a sc ord ordd ew) s
    { load := false, q := q.toNat, w := ewBits ew, mode := .index, acc := .store, sc := sc, ord := ord, train := true } a

end Sys2Proof.Machine
end

