-- ==== Sys2Proof/Machine/Streams.lean ====
section
/-! DEFINITION. Streams, ports, channels and watermarks (R135-R152): the instructions that define, bind, queue and await
streams, and the steps Dolly takes. -/

namespace Sys2Proof.Machine

/-- Change channel k of a pair. -/
def updChan (s : State) (p : Nat) (k : BitVec 3) (f : Chan → Chan) : State :=
  s.updPair p (fun q => { q with chans := q.chans.setIfInBounds k.toNat (f (q.chans.getD k.toNat {})) })

/-! ## The descriptor (R136-R139) -/

def Stream.dw (st : Stream) (i : Nat) : Word := st.d.getD i 0#64
def Stream.esz (st : Stream) : Nat := 2 ^ bitsW (st.dw 0) 2 0
def Stream.srck (st : Stream) : Nat := bitsW (st.dw 0) 6 5
def Stream.dstk (st : Stream) : Nat := bitsW (st.dw 0) 8 7
def Stream.strs (st : Stream) : Bool := (st.dw 0).getLsbD 9
def Stream.sc (st : Stream) : Nat := bitsW (st.dw 0) 12 10
/-- Length of dimension k, 1 beyond NDIM (R138). -/
def Stream.len (st : Stream) (k : Nat) : Nat :=
  if bitsW (st.dw 0) 4 3 < k then 1 else bitsW (st.dw 1) (16 * k + 15) (16 * k)
def Stream.stride (st : Stream) (k : Nat) : Int :=
  signed 32 (bitsW (st.dw (2 + k / 2)) (32 * (k % 2) + 31) (32 * (k % 2)))
def Stream.count (st : Stream) : Nat := st.len 0 * st.len 1 * st.len 2 * st.len 3

/-- A footprint: kind, region, offset, length (R136). -/
structure Foot where
  k : Nat
  rgn : Nat
  off : Nat
  len : Nat
deriving DecidableEq, Repr

def footOf (a b : Word) : Foot := { k := bitsW a 55 54, rgn := bitsW a 63 56, off := bitsW a 47 0, len := bitsW b 47 0 }
def Stream.rf (st : Stream) : Foot := footOf (st.dw 6) (st.dw 7)
def Stream.wf (st : Stream) : Foot := footOf (st.dw 8) (st.dw 9)

/-- An address word fits its kind (R137): a slot word of a region, or an offset in the local or the global scratchpad. -/
def addrWordOk (kind : Nat) (w : Word) (f : Foot) : Bool :=
  match kind with
  | 0 => bitsW w 62 60 == 0 && bitsW w 59 52 != 255 && bitsW w 59 52 == f.rgn
  | 1 => decide (w.toNat < 2 ^ 22)
  | 2 => decide (w.toNat < 2 ^ 35)
  | _ => w == 0#64

/-- The first doubleword of a descriptor that fails its check (R139). A write footprint of kind 3 with a length, which R137's table rules
out, fails at D9 (log 85). -/
def badDword (d : Nat → Word) : Option Nat :=
  let d0 := d 0
  let nd := bitsW d0 4 3
  let st : Stream := { d := Vector.ofFn (fun i => d i.val) }
  let lens := (List.range 4).map (fun k => bitsW (d 1) (16 * k + 15) (16 * k))
  let lensOk := (List.range 4).all (fun k => if k ≤ nd then lens.getD k 0 != 0 else lens.getD k 0 == 0)
  let strideOk : Nat → Bool := fun k => decide (k ≤ nd) || st.stride k == 0
  let bad : Nat → Bool := fun i => match i with
    | 0 => bitsW d0 63 13 != 0 || bitsW d0 2 0 ≥ 4 || bitsW d0 6 5 == 3 || bitsW d0 12 10 ≥ 5 || (bitsW d0 8 7 == 3 && d0.getLsbD 9)
    | 1 => !lensOk || decide (2 ^ 32 - 1 < st.count)
    | 2 => !(strideOk 0 && strideOk 1)
    | 3 => !(strideOk 2 && strideOk 3)
    | 4 => !addrWordOk st.srck (d 4) st.rf
    | 5 => !addrWordOk st.dstk (d 5) st.wf
    | 6 => bitsW (d 6) 53 48 != 0 || st.rf.k == 3 || st.rf.k != st.srck || (st.rf.k != 0 && st.rf.rgn != 0)
    | 7 => bitsW (d 7) 63 48 != 0
    | 8 => bitsW (d 8) 53 48 != 0 || st.wf.k != st.dstk || (st.wf.k != 0 && st.wf.rgn != 0)
    | _ => bitsW (d 9) 63 48 != 0 || (st.wf.k == 3 && st.wf.len != 0)
  (List.range 10).find? bad

/-- Turn an absolute slot word into offset form, at this moment (R137). -/
def toOffset (s : State) (c : Nat) (kind : Nat) (w : Word) : Word :=
  if kind = 0 && !(w.getLsbD 63) then
    0x8000000000000000#64 ||| (w &&& 0x0FF0000000000000#64)
      ||| (((w.setWidth 52) - (s.region c (bitsW w 59 52)).base).zeroExtend 64)
  else w

/-- Read n doublewords through a thread's tag, as loads checked by R95 (R139): their values. A peer is asked for all at once. -/
def loadWords (s : State) (a : Val) : Nat → Res (State × List Word)
  | n =>
    let addr : Nat → Val := fun i => { a with v := a.v + BitVec.ofNat 64 (8 * i) }
    let checks := (List.range n).foldl (fun (r : Res (List Loc)) i => match r with
      | .error e => .error e
      | .ok ls => match checkMe s .load (addr i) 8 with
        | .error e => .error e
        | .ok l => .ok (ls ++ [l])) (.ok [])
    match checks with
    | .error e => .error e
    | .ok ls =>
      if ls.any (fun l => l == .loopOff) then trapR 0x0A#8 peerUnit
      else match askPeers s (ls.filterMap Loc.foreign) peerRead 8 [] with
        | .error e => .error e
        | .ok (false, _) => trapR 0x0A#8 peerUnit
        | .ok (true, data) =>
          let r := ls.foldl (fun (acc : State × List Word × List Nat) l => match l with
            | .peer _ => (acc.1, acc.2.1 ++ [BitVec.ofNat 64 (acc.2.2.headD 0)], acc.2.2.tail)
            | l => match readCached acc.1 l 8 with
              | .ok (s, v) => (s, acc.2.1 ++ [BitVec.ofNat 64 v], acc.2.2)
              | .error _ => acc) (settleMe s, [], chunk 8 n data)
          .ok (r.1, r.2.1)

def Pair.str (q : Pair) (i : Nat) : Stream := q.streams.getD i {}
def Pair.setStr (q : Pair) (i : Nat) (st : Stream) : Pair := { q with streams := q.streams.setIfInBounds i st }
def State.setStr (s : State) (p i : Nat) (st : Stream) : State := s.updPair p (fun q => q.setStr i st)
def Stream.busy (st : Stream) : Bool := st.st == .queued || st.st == .running

/-- The number of a state in the status word (R150). -/
def SSt.code : SSt → Nat
  | .free => 0 | .defined => 1 | .bound => 2 | .queued => 3 | .running => 4 | .done => 5 | .faulted => 6 | .skipped => 7

/-- The status word (R150). -/
def Stream.status (st : Stream) : Word :=
  BitVec.ofNat 64 (st.first % 2 ^ 32 * 2 ^ 32 + st.port.toNat * 2 ^ 12 + st.chan.toNat * 2 ^ 9 + st.chu.toNat * 2 ^ 8
    + st.vis.toNat * 2 ^ 7 + st.rel.toNat * 2 ^ 6 + st.st.code)

/-! ## The instructions -/

/-- R139: define a stream. -/
def sdefRun (s : State) (sm : Nat) (a : Val) : Res State := do
  if a.v.toNat % 16 != 0 then trapR 0x06#8 a.v
  let p := s.me
  let old := (s.pair p).str sm
  if old.busy then stallR .other
  let (s, ds) ← loadWords s a 10
  match badDword (fun i => ds.getD i 0#64) with
  | some i => trapR 0x0E#8 (a.v + BitVec.ofNat 64 (8 * i))
  | none =>
    let c := (s.pair p).ctx.toNat
    let d : Vector Word 10 := Vector.ofFn (fun i => ds.getD i.val 0#64)
    let st : Stream := { d := d }
    let d := (d.setIfInBounds 4 (toOffset s c st.srck (st.dw 4))).setIfInBounds 5 (toOffset s c st.dstk (st.dw 5))
    return (s.setStr p sm { st := .defined, d := d, isDef := true, isBound := old.isBound, port := old.port, chan := old.chan, chu := old.chu }).retire

/-- R139. -/
def execSdef (sm : BitVec 4) (a : XReg) (imm : BitVec 15) (s : State) : Out :=
  scalar (.sdef sm a imm) s (sdefRun s sm.toNat ⟨(s.rx a).v + sextW imm, (s.rx a).t⟩)

/-- R140: bind a stream to a port and a channel. -/
def execSbind (sm : BitVec 4) (used : Bool) (ch : BitVec 3) (port : BitVec 4) (s : State) : Out :=
  let st := (s.pair s.me).str sm.toNat
  scalar (.sbind sm used ch port) s
    (if st.busy then stallR .other
     else .ok (s.setStr s.me sm.toNat { st with isBound := true, port := port, chan := ch, chu := used,
                                                st := if st.st = .defined then .bound else st.st }).retire)

/-- What makes `sgo` raise a stream fault (R141, R147). -/
def sgoBad (st : Stream) (vl : Nat) : Bool :=
  !st.isDef || !st.isBound || (st.dstk == 3 && st.port.toNat < 8) || (st.dstk != 3 && 8 ≤ st.port.toNat)
    || (8 ≤ st.port.toNat && vl == 0) || (st.chu && !(st.dstk == 1 && !st.strs))

/-- R141: queue a stream; one whose condition fails ends at once (R144). -/
def execSgo (sm : BitVec 4) (s : State) : Out :=
  let q := s.pair s.me
  let st := q.str sm.toNat
  let vl := q.a.vl.toNat
  let again := st.st == .faulted
  let st' : Stream := { st with
    st := if q.condNext = some false then .skipped else .queued, order := q.nextOrder, issued := s.steps, vls := vl, rel := false, vis := false,
    first := if again then st.first else 0, fault := none, told := false, stalls := 0, asked := false, got := none, ack := false,
    row := if again then st.row else none, cond := q.condNext }
  scalar (.sgo sm) s
    (if st.busy then stallR .other
     else if q.pl.stg != 0 && st.port == 11#4 && st.isBound then trapR 0x10#8 11#64
     else if sgoBad st vl then trapR 0x0E#8 st.status
     else .ok (s.updPair s.me (fun q => { q.setStr sm.toNat st' with nextOrder := q.nextOrder + 1, condNext := none })).retire)

/-- A barrier between streams: kind 0 waits for RELEASED, kind 1 for VISIBLE (R144). -/
def sbar (s : State) (vis : Bool) : Res State :=
  .ok (s.updPair s.me (fun q => { q with sbars := (q.nextOrder, if vis then 1 else 0, true) :: q.sbars })).retire

/-- A condition on the next `sgo` (R144). -/
def scond (s : State) (want : Bool) : Res State :=
  .ok (s.updPair s.me (fun q => { q with condNext := some ((q.condNext.getD true) && (q.a.bout == want)) })).retire

/-- R144. -/
def execSbarCfg (s : State) : Out := scalar .sbarCfg s (sbar s false)
/-- R144. -/
def execSbarPhase (s : State) : Out := scalar .sbarPhase s (sbar s true)
/-- R144. -/
def execSbarIft (s : State) : Out := scalar .sbarIft s (scond s true)
/-- R144. -/
def execSbarIff (s : State) : Out := scalar .sbarIff s (scond s false)

/-- The stream that a channel belongs to now: of those that use it and have not ended, the one queued first (R142, R148). -/
def chanStream (q : Pair) (ch : BitVec 3) : Option Stream :=
  q.streams.toList.foldl (fun b st =>
    if st.chu && st.chan == ch && (st.busy || st.st == .faulted) && b.all (fun u => decide (st.order < u.order)) then some st else b) none

/-- R148: wait until the byte at xa lies below the channel's watermark. -/
def execWmwait (a : XReg) (ch : BitVec 3) (s : State) : Out :=
  let q := s.pair s.me
  let x := (s.rx a).v.toNat
  scalar (.wmwait a ch) s
    (match chanStream q ch with
     | none => .ok s.retire
     | some st =>
       let w := wmOf q st
       if x < w.1 ∨ w.1 + w.2.1 ≤ x ∨ x < w.2.2 then .ok s.retire
       else if st.st = .faulted then .error (faultOf st) else stallR .other)

/-- R149: wait for RELEASED or VISIBLE. -/
def cpwait (s : State) (sm : Nat) (vis : Bool) : Res State :=
  let st := (s.pair s.me).str sm
  let ended := st.st == .free || st.st == .skipped || st.st == .done
  if ended || (if vis then st.vis else st.rel) then
    if vis then
      let w := st.wf
      let base := if w.k = 0 then (s.region (s.pair s.me).ctx.toNat w.rgn).base.toNat + w.off else 0
      .ok (if w.k = 0 then invalidateRange (settleMe s) s.core base w.len else settleMe s).retire
    else .ok s.retire
  else if st.st = .faulted then .error (faultOf st)
  else stallR .other

/-- R149. -/
def execCpwaitRel (sm : BitVec 4) (s : State) : Out := scalar (.cpwaitRel sm) s (cpwait s sm.toNat false)
/-- R149: acts as an acquire on the write footprint. -/
def execCpwaitVis (sm : BitVec 4) (s : State) : Out := scalar (.cpwaitVis sm) s (cpwait s sm.toNat true)

/-- R150: the status word. -/
def execSstat (d : XReg) (sm : BitVec 4) (s : State) : Out :=
  scalar (.sstat d sm) s (put s d ((s.pair s.me).str sm.toNat).status untag)

/-! ## When Dolly starts a stream (R142-R144) -/

/-- A stream that has been queued and has not ended. -/
def Stream.live (st : Stream) : Bool := st.st == .queued || st.st == .running || st.st == .faulted

/-- Two footprints overlap; an empty one overlaps nothing (R143). -/
def Foot.overlaps (a b : Foot) : Bool :=
  a.k == b.k && a.k != 3 && (a.k != 0 || a.rgn == b.rgn) && a.len != 0 && b.len != 0
    && decide (a.off < b.off + b.len) && decide (b.off < a.off + a.len)

/-- Every edge from an earlier stream u into t is satisfied (R143). -/
def edgeOk (u t : Stream) : Bool :=
  !u.live || ((!(u.wf.overlaps t.rf) || u.vis) && (!(u.rf.overlaps t.wf) || u.rel) && (!(u.wf.overlaps t.wf) || u.vis))

/-- Conditions 1 to 4 of R142. -/
def startReady (q : Pair) (t : Stream) : Bool :=
  let before := q.streams.toList.filter (fun u => u.live && decide (u.order < t.order))
  before.all (fun u => (u.port != t.port || u.rel) && (!(t.chu && u.chu && u.chan == t.chan)) && edgeOk u t)
    && q.sbars.all (fun b => !(decide (b.1 ≤ t.order)) ||
        before.all (fun u => !(decide (u.order < b.1)) || (if b.2.1 = 0 then u.rel else u.vis)))

/-- The regions a stream's footprints name. -/
def Stream.regions (st : Stream) : List Nat := [st.rf, st.wf].filterMap (fun f => if f.k = 0 then some f.rgn else none)

/-- The footprint regions that are not RESIDENT (condition 5 of R142). -/
def awayRegions (s : State) (c : Nat) (rs : List Nat) : List Nat := rs.filter (fun r => (s.region c r).st != .resident)

/-- One that no move will bring back: a wait for it counts toward a swap fault (R96, R152). -/
def awayRegion (s : State) (c : Nat) (rs : List Nat) : Option Nat := (awayRegions s c rs).find? (fun r => (s.region c r).st != .moving)

/-- A residency request for each region that is away (R96, R142). -/
def requestAll (s : State) (c prio : Nat) (rs : List Nat) : State := rs.foldl (fun s r => postRequest s c r prio) s

/-- The engines of a pair run while it runs, and while it is parked; not once it is saved or stopped by the debugger (R152, R339). -/
def Pair.enginesRun (q : Pair) : Bool := q.st == .running || q.st == .parked

/-- A pair of the launch of p stands on cluster cl (R137, R145): a saved one stands nowhere (R276). -/
def launchOn (s : State) (p cl : Nat) : Bool :=
  let a := (s.pair p).pl
  s.pairs.any (fun e => decide (e.1 < 1280) && clusterOf e.1 == cl && e.2.st != .free && e.2.st != .exited && e.2.pl.ring == a.ring && e.2.pl.idx == a.idx
    && e.2.ctx == (s.pair p).ctx)

/-- The cluster of a global scratchpad offset, when it names one. -/
def globalCluster (off : Nat) : Option Nat :=
  if off / 2 ^ 32 < 8 ∧ off / 2 ^ 24 % 256 < 40 then some (off / 2 ^ 32 * 40 + off / 2 ^ 24 % 256) else none

/-- The start check of a footprint (R145). -/
def footOk (s : State) (p : Nat) (f : Foot) (write : Bool) : Bool :=
  match f.k with
  | 0 =>
    let e := s.region (s.pair p).ctx.toNat f.rgn
    decide (f.off + f.len ≤ e.size.toNat) && (if write then e.pw && e.kind != 1#2 else e.pr)
  | 1 => true
  | 2 =>
    match globalCluster f.off with
    | some cl => decide (f.off % 2 ^ 24 + f.len ≤ 2 ^ 22) && launchOn s p cl
    | none => false
  | _ => true

/-- The address at which a side's offset lies now (R137). -/
def sideBase (s : State) (c kind rgn off : Nat) : Nat :=
  match kind with
  | 0 => ((s.region c rgn).base.toNat + off) % 2 ^ 52
  | 1 => Config.localBase + off
  | 2 => Config.globalBase + off
  | _ => 0

/-- The address of a side's word. -/
def wordBase (s : State) (c kind : Nat) (w : Word) : Nat :=
  sideBase s c kind (bitsW w 59 52) (if kind = 0 then bitsW w 51 0 else w.toNat)

/-- Record a fault of a stream at element k (R151). -/
def faultStream (s : State) (p sm k : Nat) (cause : Nat) (val : Word) : State :=
  let st := (s.pair p).str sm
  let s := orphan s p .F (2 + sm)
  let s := s.setStr p sm { st with st := .faulted, first := k, fault := some (cause, val, k), told := false, asked := false, got := none, ack := false }
  if st.chu then updChan s p st.chan (fun c => { c with start := BitVec.ofNat 32 k }) else s

/-- Address of element e on a side (R138). -/
def elemAt (st : Stream) (base : Nat) (strided : Bool) (e : Nat) : Nat :=
  if strided then
    let i0 := e % st.len 0
    let i1 := e / st.len 0 % st.len 1
    let i2 := e / (st.len 0 * st.len 1) % st.len 2
    let i3 := e / (st.len 0 * st.len 1 * st.len 2)
    wrap 52 ((base : Int) + i0 * st.stride 0 + i1 * st.stride 1 + i2 * st.stride 2 + i3 * st.stride 3)
  else (base + e * st.esz) % 2 ^ 52

def Stream.srcElem (st : Stream) (e : Nat) : Nat := elemAt st st.srcAt (!st.strs) e
def Stream.dstElem (st : Stream) (e : Nat) : Nat := elemAt st st.dstAt st.strs e

/-- `STREAM_START` (R142): Dolly starts a queued stream once its port, channel, edges, barriers and regions allow; the regions that
are away are asked for, whatever else holds the stream back, and a wait for them alone is counted (R152). The channel's WM and START are set at the start, and a failed start check faults
the stream at FIRST (R145, R147). -/
def streamStart (p sm : Nat) (s : State) : State :=
  let q := s.pair p
  let st := q.str sm
  let c := q.ctx.toNat
  if st.st = .queued ∧ q.enginesRun then
    if awayRegions s c st.regions ≠ [] then
      let counts := (awayRegion s c st.regions).isSome && startReady q st
      (requestAll s c q.pl.prio st.regions).setStr p sm { st with stalls := if counts then st.stalls + 1 else st.stalls }
    else if !startReady q st then s
    else
      let src := wordBase s c st.srck (st.dw 4)
      let dst := wordBase s c st.dstk (st.dw 5)
      let st := { st with st := .running, srcAt := src, dstAt := dst, stalls := 0 }
      let s := s.setStr p sm st
      let s := if st.chu then
          updChan s p st.chan (fun _ => ⟨BitVec.ofNat 52 (st.dstElem st.first), BitVec.ofNat 32 st.first, some sm⟩)
        else s
      if !(footOk s p st.rf false) then faultStream s p sm st.first 0x0E (BitVec.ofNat 64 (st.srcElem st.first))
      else if !(footOk s p st.wf true) then faultStream s p sm st.first 0x0E (BitVec.ofNat 64 (st.dstElem st.first))
      else s
  else s

/-! ## Transfers (R145, R146) -/

/-- Where the range of R19 that an address lies in ends; the address itself when it is reserved. -/
def mappedEnd (s : State) (a : Nat) : Nat :=
  if a < s.caphbm.toNat then s.caphbm.toNat
  else if Config.peerBase ≤ a ∧ a < Config.hostTop then Config.hostTop
  else if Config.localBase ≤ a ∧ a < Config.localTop then Config.localTop
  else if Config.globalBase ≤ a ∧ (globalCluster (a - Config.globalBase)).isSome ∧ a % 2 ^ 24 < 2 ^ 22 then a - a % 2 ^ 24 + 2 ^ 22
  else a

/-- An access lies on no reserved range of R19. -/
def mapped (s : State) (a n : Nat) : Bool := decide (a + n ≤ mappedEnd s a)

/-- A side of an element passes its checks (R145). -/
def elemOk (s : State) (p : Nat) (f : Foot) (a n : Nat) : Bool :=
  let lo := sideBase s (s.pair p).ctx.toNat f.k f.rgn f.off
  a % n == 0 && decide (lo ≤ a) && decide (a + n ≤ lo + f.len) && mapped s a n

/-- The rows of the vector queue a V-port stream pushes to. -/
def Stream.rows (st : Stream) (q : Pair) : List Row := q.q.getD (st.port.toNat - 8) []

/-- The row of a V-port stream's next element is reserved there. -/
def Stream.hasRow (st : Stream) (q : Pair) : Bool := st.row.any (fun id => (st.rows q).any (fun r => r.id == id))

/-- The place of the next element in its row, and the row's length (R146). -/
def Stream.slot (st : Stream) : Nat := st.first % max 1 st.vls
def Stream.rowLen (st : Stream) : Nat := min (max 1 st.vls) (st.count - st.first / max 1 st.vls * max 1 st.vls)

/-- Reserve the row of a V-port stream's next element, unless it has it: in row order, none while the queue lacks room (R146). What
stands below an element that a stream resumes at is a free value (log 60). Once the X thread has exited nothing is reserved (R119). -/
def openRow (s : State) (p sm : Nat) : Option State :=
  let q := s.pair p
  let st := q.str sm
  let n := st.rowLen
  let w := 8 * st.esz
  let ents := rowEnts n w q.rowGroups
  if st.dstk != 3 || q.x.halt == .exited || st.hasRow q then some s
  else if 8 < entsOf (st.rows q) + ents then none
  else
    let els := (List.range n).map (fun i => if i < st.slot then (Config.freeEl s.fresh i).toNat % 2 ^ w else 0)
    let row : Row := { vl := n, wc := wcOf w, ents := ents, g := q.rowGroups, act := List.replicate n true, els := els, ready := false, id := s.fresh }
    let q := { q with q := q.q.setIfInBounds (st.port.toNat - 8) (st.rows q ++ [row]) }
    some { s.setPair p (q.setStr sm { st with row := some row.id }) with fresh := s.fresh + 1 }

/-- Put an element of a V-port stream into its row, which becomes poppable with its last (R146); once the X thread has exited the element
is discarded (R119). -/
def pushElem (s : State) (p sm v : Nat) : State :=
  let q := s.pair p
  let st := q.str sm
  match st.row with
  | some id =>
    if q.x.halt = .exited then s.setStr p sm { st with row := none }
    else
      let last := st.slot + 1 == st.rowLen
      let q := fillRow q (st.port.toNat - 8) id last (fun els => els.set st.slot v)
      s.setPair p (q.setStr sm { st with row := if last then none else some id })
  | none => s

/-- Post a request of a stream to a peer (R363). -/
def streamAsk (s : State) (p sm a op n : Nat) (sent : List Byte) : State :=
  { s with peers := s.peers ++ [{ p := p, k := .F, addrs := [a], op := op, size := n, sent := sent, tag := 2 + sm }] }

/-- The element has been performed: FIRST and the watermark advance (R147). -/
def stepElem (s : State) (p sm : Nat) : State :=
  let st := (s.pair p).str sm
  let st := { st with first := st.first + 1, asked := false, got := none, ack := false }
  let s := s.setStr p sm st
  if st.chu then
    updChan s p st.chan (fun c => { c with wm := BitVec.ofNat 52 (st.dstAt + st.first * st.esz), start := BitVec.ofNat 32 st.first })
  else s

/-- The address of the first check that element `first` of a running stream fails. -/
def badSide (s : State) (p : Nat) (st : Stream) : Option Nat :=
  let n := st.esz
  let a := st.srcElem st.first
  let b := st.dstElem st.first
  if !(elemOk s p st.rf a n) then some a
  else if st.dstk != 3 && !(elemOk s p st.wf b n) then some b
  else if locate s (clusterOf p) a == .loopOff then some a
  else if st.dstk != 3 && locate s (clusterOf p) b == .loopOff then some b
  else none

/-- The data of a running stream's next element: none until a peer has sent it. -/
def elemData (s : State) (p : Nat) (st : Stream) : Option Nat :=
  match locate s (clusterOf p) (st.srcElem st.first) with
  | .peer _ => st.got.map natOf
  | l => some (Mem.getLE s.mem (l.home.getD 0) st.esz)

/-- The next element of a running stream, whose row is reserved: it is checked, read, and written or pushed (R145). -/
def moveElem (s : State) (p sm : Nat) : State :=
  let st := (s.pair p).str sm
  match badSide s p st, elemData s p st with
  | some a, _ => faultStream s p sm st.first 0x0E (BitVec.ofNat 64 a)
  | none, none =>
    if st.asked then s else (streamAsk s p sm (st.srcElem st.first) peerRead st.esz []).setStr p sm { st with asked := true }
  | none, some v =>
    if st.dstk = 3 then stepElem (pushElem s p sm v) p sm
    else match locate s (clusterOf p) (st.dstElem st.first) with
      | .peer a =>
        if st.ack then stepElem s p sm
        else if st.asked then s
        else (streamAsk s p sm a peerWrite st.esz (bytesOf v st.esz)).setStr p sm { st with asked := true }
      | l => stepElem (s.setMem (Mem.setLE s.mem (l.home.getD 0) st.esz v)) p sm

/-- A stream has an element to transfer. -/
def streamMoves (s : State) (p sm : Nat) : Bool :=
  let st := (s.pair p).str sm
  st.st == .running && decide (st.first < st.count) && (s.pair p).enginesRun

/-- `STREAM_TRANSFER` (R145): Dolly transfers the next element, ascending, its row reserved first; a failed check faults the stream at it
(R151). -/
def streamTransfer (p sm : Nat) (s : State) : State :=
  if streamMoves s p sm then
    match openRow s p sm with
    | none => s
    | some s => moveElem s p sm
  else s

/-- `STREAM_RELEASED` (R149): every source element has been read. -/
def streamReleased (p sm : Nat) (s : State) : State :=
  let st := (s.pair p).str sm
  if st.st = .running ∧ st.count ≤ st.first ∧ (s.pair p).enginesRun then s.setStr p sm { st with rel := true } else s

/-- `STREAM_VISIBLE` (R149): every write is performed at SCOPE; the stream is DONE and its channel idle. -/
def streamVisible (p sm : Nat) (s : State) : State :=
  let st := (s.pair p).str sm
  if st.st = .running ∧ st.rel ∧ st.count ≤ st.first ∧ (s.pair p).enginesRun then
    let s := s.setStr p sm { st with vis := true, st := .done }
    if st.chu then updChan s p st.chan (fun c => { c with by_ := none }) else s
  else s

/-- `STREAM_FAULT` (R151): the next element fails its check, or meets an uncorrectable data error (`err`). The row that holds it stays
reserved. -/
def streamFault (p sm : Nat) (err : Bool) (s : State) : State :=
  if streamMoves s p sm then
    match openRow s p sm with
    | none => s
    | some t =>
      let st := (s.pair p).str sm
      match badSide s p st with
      | some a => faultStream t p sm st.first 0x0E (BitVec.ofNat 64 a)
      | none => if err then faultStream t p sm st.first 0x0A (BitVec.ofNat 64 (st.srcElem st.first)) else s
  else s

/-- `STREAM_SWAP_FAULT` (R152): a stream ready except for residency for STALLMAX raises a swap fault at FIRST. -/
def streamSwapFault (p sm : Nat) (s : State) : State :=
  let q := s.pair p
  let st := q.str sm
  if st.st = .queued ∧ startReady q st ∧ q.a.stallmax.toNat ≤ st.stalls ∧ q.st = .running then
    match awayRegion s q.ctx.toNat st.regions with
    | some r => pairTrap (s.setStr p sm { st with stalls := 0 }) p .A false 0x07#8 (BitVec.ofNat 64 r) q.a.pc (BitVec.ofNat 32 st.first)
    | none => s
  else s

/-- A fault of a stream, or of a job card the thread submitted, waits to be delivered (R151, R155): its trap. -/
def pendingFault (q : Pair) : Option (Pair × BitVec 8 × Word × BitVec 32) :=
  match (List.range 16).find? (fun i => (q.str i).st == .faulted && !(q.str i).told && (q.str i).fault.isSome) with
  | some i =>
    let st := q.str i
    match st.fault with
    | some (c, v, e) => some (q.setStr i { st with told := true }, BitVec.ofNat 8 c, v, BitVec.ofNat 32 e)
    | none => none
  | none =>
    match q.cardFaults with
    | (c, e, a) :: t => some ({ q with cardFaults := t }, BitVec.ofNat 8 c, a, BitVec.ofNat 32 e)
    | [] => none

end Sys2Proof.Machine
end

