-- ==== Sys2Proof/Machine/JobCards.lean ====
section
/-! DEFINITION. Job cards (R153-R155): `jsub`, the scheduler's checks and the steps by which a card starts, completes and
faults. -/

namespace Sys2Proof.Machine

def Card.dw (c : Card) (i : Nat) : Word := c.j.getD i 0#64
def Card.kind (c : Card) : Nat := bitsW (c.dw 0) 3 0
def Card.fmt (c : Card) : Nat := bitsW (c.dw 0) 8 4
def Card.len (c : Card) : Nat := bitsW (c.dw 1) 47 0
def Card.rf (c : Card) : Foot := footOf (c.dw 4) (c.dw 5)
def Card.wf (c : Card) : Foot := footOf (c.dw 6) (c.dw 7)
/-- Bytes of an element: those of FMT for an add, one otherwise. -/
def Card.width (c : Card) : Nat := if c.kind = 2 then fmtWidth c.fmt / 8 else 1

/-- The formats an add may name (R153). -/
def addFormat (f : Nat) : Bool := [0x02, 0x03, 0x06, 0x07, 0x08, 0x09, 0x0A, 0x0B].contains f

/-- The first doubleword of a card that fails its check (R153, R154). A write footprint of kind 3 is refused, at the address word J3 that
it leaves without a kind (log 94). -/
def badCardDword (d : Nat → Word) : Option Nat :=
  let k := bitsW (d 0) 3 0
  let f := bitsW (d 0) 8 4
  let rf := footOf (d 4) (d 5)
  let wf := footOf (d 6) (d 7)
  let len := bitsW (d 1) 47 0
  let bad : Nat → Bool := fun i => match i with
    | 0 => bitsW (d 0) 63 13 != 0 || 3 ≤ k || 5 ≤ bitsW (d 0) 11 9 || (if k = 2 then !addFormat f else f != 0)
    | 1 => bitsW (d 1) 63 48 != 0 || (k == 1 && len % 8 != 0) || (k == 2 && addFormat f && len % (fmtWidth f / 8) != 0)
    | 2 => if k = 1 then d 2 != 0#64 else !addrWordOk rf.k (d 2) rf
    | 3 => wf.k == 3 || !addrWordOk wf.k (d 3) wf
    | 4 => bitsW (d 4) 53 48 != 0 || (rf.k == 3 && k != 1) || (rf.k != 0 && rf.rgn != 0)
    | 5 => bitsW (d 5) 63 48 != 0
    | 6 => bitsW (d 6) 53 48 != 0 || wf.k == 3 || (wf.k != 0 && wf.rgn != 0)
    | 7 => bitsW (d 7) 63 48 != 0
    | 8 => (d 0).getLsbD 12 && bitsW (d 8) 62 60 != 0
    | 11 => bitsW (d 11) 61 48 != 0
    | _ => false
  (List.range 12).find? bad

/-- A card with its slot words of absolute form turned into the region and the offset they name now (R137, R153). -/
def resolveCard (s : State) (c : Nat) (d : Vector Word 12) : Vector Word 12 :=
  let g : Nat → Word := fun i => d.getD i 0#64
  let d := if bitsW (g 0) 3 0 = 1 then d else d.setIfInBounds 2 (toOffset s c (footOf (g 4) (g 5)).k (g 2))
  d.setIfInBounds 3 (toOffset s c (footOf (g 6) (g 7)).k (g 3))

/-- Where a card stands, kept so that it survives a move: an offset in its region, or an address of the scratchpad. -/
def cardPlace (s : State) (p : Nat) (a : Val) : Val :=
  if a.t = untag && inLocal a.v.toNat 96 then ⟨BitVec.ofNat 64 (globalOf (clusterOf p) (a.v.toNat - Config.localBase)), untag⟩
  else
    let r : Tag := if a.t = untag then 0#8 else a.t
    ⟨a.v - (s.region (s.pair p).ctx.toNat r.toNat).base.zeroExtend 64, r⟩

/-- Its address now. -/
def Card.addr (s : State) (c : Card) : Nat :=
  if c.at_.t = untag then c.at_.v.toNat
  else (c.at_.v + (s.region c.ctx.toNat c.at_.t.toNat).base.zeroExtend 64).toNat

/-- The scheduler of die d writes J11 (R153): where the card's region has its recorded base, whatever the region's state; the spec does
not say what the write does while the card's region is away (log 94). -/
def writeJ11 (s : State) (d : Nat) (c : Card) (jst first : Nat) : State :=
  let v := jst * 2 ^ 62 + first % 2 ^ 48
  match locate s (40 * d) (c.addr s + 88) with
  | .peer a => tellPeer s d a peerWrite 8 (bytesOf v 8)
  | l => match l.home with
    | some h => s.setMem (Mem.setLE s.mem h 8 v)
    | none => s

/-- The scheduler of die d keeps the cards for which `keep` holds; requests to peers follow their cards to their new places, and
nobody waits for those of a card that is gone. -/
def keepCards (s : State) (d : Nat) (keep : Nat → Card → Bool) : State :=
  let cs := (s.die d).cards
  let kept : Nat → Bool := fun i => match cs[i]? with
    | some c => keep i c
    | none => false
  let follow : PeerReq → PeerReq := fun r =>
    if r.tag < 100 ∨ r.p / 160 ≠ d then r
    else if kept (r.tag - 100) then { r with tag := 100 + ((List.range (r.tag - 100)).filter kept).length }
    else { r with tag := 99 }
  let cs := ((List.range cs.length).filter kept).map (fun i => cs.getD i { p := none, ctx := 0#10, at_ := {}, j := Vector.replicate 12 0#64 })
  { s.updDie d (fun t => { t with cards := cs }) with peers := s.peers.map follow }

/-- The scheduler of a die takes a card unless its 256 entries are full (R154). A card submitted again after its fault leaves the
place it held for a fresh one (R143). -/
def takeCard (s : State) (d : Nat) (c : Card) : Option State :=
  let s := keepCards s d (fun _ u => !(u.faulted && u.ctx == c.ctx && u.at_ == c.at_))
  if 256 ≤ (s.die d).cards.length then none
  else
    let first := if bitsW (c.dw 11) 63 62 = 3 then bitsW (c.dw 11) 47 0 else 0
    let c := { c with first := first, issued := s.steps, j := resolveCard s c.ctx.toNat c.j }
    some (writeJ11 (s.updDie d (fun t => { t with cards := t.cards ++ [c] })) d c 0 first)

/-- R154: read a card and submit it. -/
def jsubRun (s : State) (d : XReg) (a : Val) : Res State := do
  if a.v.toNat % 16 != 0 then trapR 0x06#8 a.v
  let (s, ws) ← loadWords s a 12
  match badCardDword (fun i => ws.getD i 0#64) with
  | some i => trapR 0x0E#8 (a.v + BitVec.ofNat 64 (8 * i))
  | none =>
    let p := s.me
    let c : Card := { p := some p, ctx := (s.pair p).ctx, prio := (s.pair p).pl.prio, at_ := cardPlace s p a, j := Vector.ofFn (fun i => ws.getD i.val 0#64) }
    match takeCard s (dieOf p) c with
    | some s => put s d 0#64 untag
    | none => put s d 1#64 untag

/-- R154. -/
def execJsub (d a : XReg) (imm : BitVec 15) (s : State) : Out :=
  scalar (.jsub d a imm) s (jsubRun s d ⟨(s.rx a).v + sextW imm, (s.rx a).t⟩)

/-! ## The scheduler -/

def Die.card (d : Die) (i : Nat) : Option Card := d.cards[i]?
def State.setCard (s : State) (d i : Nat) (c : Card) : State := s.updDie d (fun t => { t with cards := t.cards.set i c })

/-- The card's edges from earlier cards of its context are satisfied; a faulted one has not ended (R143, R155), one that has only its
signal to write has. -/
def cardEdges (cs : List Card) (i : Nat) (c : Card) : Bool :=
  (cs.take i).all (fun u => u.ctx != c.ctx || u.signing || !(u.wf.overlaps c.rf || u.rf.overlaps c.wf || u.wf.overlaps c.wf))

def Card.regions (c : Card) : List Nat := [c.rf, c.wf].filterMap (fun f => if f.k = 0 then some f.rgn else none)

/-- The pair a card's local places belong to. -/
def Card.owner (c : Card) (d : Nat) : Nat := c.p.getD (d * 160)

/-- The start check of a card's footprint (R145, R153): a global scratchpad must be of the submitting die. -/
def cardFootOk (s : State) (d : Nat) (c : Card) (f : Foot) (write : Bool) : Bool :=
  match f.k with
  | 0 =>
    let e := s.region c.ctx.toNat f.rgn
    decide (f.off + f.len ≤ e.size.toNat) && (if write then e.pw && e.kind != 1#2 else e.pr)
  | 3 => true
  | _ => match c.p with
    | none => false
    | some p => footOk s p f write && (f.k != 2 || f.off / 2 ^ 32 == d)

/-- A card stops at byte k (R155): J11 is written, and its submitter, or the host when that thread has ended, is told. It keeps
its place until it is submitted again. -/
def faultCard (s : State) (d i k cause : Nat) (val : Word) : State :=
  match (s.die d).card i with
  | none => s
  | some c =>
    let s := (writeJ11 s d c 3 k).setCard d i { c with running := false, faulted := true, first := k, asked := false, got := none, done := none, short := false, errAt := none }
    let s := if cause = 0x0A ∧ c.p.all (fun p => (s.pair p).a.halt = .exited) then vfDataError s c.ctx.toNat else s
    let e := k / c.width
    match c.p with
    | some p =>
      if (s.pair p).a.halt = .exited ∨ (s.pair p).ctx ≠ c.ctx then s.send (.card d c.ctx.toNat e val)
      else s.updPair p (fun q => { q with cardFaults := q.cardFaults ++ [(cause, e, val)] })
    | none => s.send (.card d c.ctx.toNat e val)

/-- `JOB_CARD_START` (R155): a card starts once its edges are satisfied and its regions RESIDENT; those that are away are asked for
meanwhile (R142). -/
def jobCardStart (d i : Nat) (s : State) : State :=
  match (s.die d).card i with
  | none => s
  | some c =>
    if c.running || c.faulted || c.signing then s
    else if awayRegions s c.ctx.toNat c.regions ≠ [] then requestAll s c.ctx.toNat c.prio c.regions
    else if !cardEdges (s.die d).cards i c then s
    else
      let src := wordBase s c.ctx.toNat c.rf.k (c.dw 2)
      let dst := wordBase s c.ctx.toNat c.wf.k (c.dw 3)
      if !cardFootOk s d c c.rf false then faultCard s d i c.first 0x0E (BitVec.ofNat 64 (src + c.first))
      else if !cardFootOk s d c c.wf true then faultCard s d i c.first 0x0E (BitVec.ofNat 64 (dst + c.first))
      else writeJ11 (s.setCard d i { c with running := true, srcAt := src, dstAt := dst }) d c 1 c.first

/-- Where the peer window that an address lies in ends, counted from a side's start: what goes to a peer at once lies in one device
(R19, R363). -/
def windowEnd (a len : Nat) : Nat := if Config.peerBase ≤ a ∧ a < Config.hostBase then (a / 2 ^ 33 + 1) * 2 ^ 33 - a else len

/-- How many bytes of a side lie in its footprint and, from the first byte to do, on no reserved address (R20), counted from the
side's start. -/
def sideLimit (s : State) (c : Card) (f : Foot) (a : Nat) : Nat :=
  let lo := sideBase s c.ctx.toNat f.k f.rgn f.off
  if f.k = 3 then c.len
  else if lo ≤ a then min c.len (min (lo + f.len - a) (mappedEnd s (a + c.first) - a)) else 0

/-- The first byte of a running card that fails its check, with its address (R155); none when all pass. This device's own window with
the aperture closed fails where a side comes to it. An uncorrectable data error found in what the card reads fails its byte too. -/
def cardLimit (s : State) (d : Nat) (c : Card) : Nat × Option Nat :=
  let cl := clusterOf (c.owner d)
  let w := c.width
  let shut : Nat → Bool := fun a => locate s cl a == .loopOff
  let ls := if c.kind = 1 then c.len else if c.srcAt % w ≠ 0 ∨ shut (c.srcAt + c.first) then c.first else sideLimit s c c.rf c.srcAt / w * w
  let ld := if c.dstAt % w ≠ 0 ∨ shut (c.dstAt + c.first) then c.first else sideLimit s c c.wf c.dstAt / w * w
  let n := max c.first (min ls ld)
  match c.errAt with
  | some (k, a) => if k < n ∨ c.len ≤ n then (k, some a) else (n, some (if ls ≤ ld then c.srcAt + n else c.dstAt + n))
  | none => if c.len ≤ n then (c.len, none) else (n, some (if ls ≤ ld then c.srcAt + n else c.dstAt + n))

/-- The cause of the fault that ends a card at byte n (R155): the uncorrectable error's, or a failed check's. -/
def Card.cause (c : Card) (n : Nat) : Nat := if c.errAt.any (fun e => e.1 == n) then 0x0A else 0x0E

/-- The end of the piece that a card performs at once: the bytes of each side in one peer device. -/
def pieceEnd (c : Card) (n : Nat) : Nat :=
  let room : Nat → Nat := fun a => c.first + windowEnd (a + c.first) c.len
  min n (min (if c.kind = 1 then n else room c.srcAt) (room c.dstAt))

/-- Bytes k to n - 1 of what a copy or a fill writes, or of the source of an add. -/
def cardBytes (s : State) (d : Nat) (c : Card) (n : Nat) : List Byte :=
  if c.kind = 1 then (List.range (n - c.first)).map (fun i => ((c.dw 10) >>> (8 * ((c.first + i) % 8))).setWidth 8)
  else match c.got with
    | some l => l
    | none => match (locate s (clusterOf (c.owner d)) (c.srcAt + c.first)).home with
      | some a => Mem.getBytes s.mem a (n - c.first)
      | none => []

/-- Add elements into memory, each rounded once (R153). -/
def addElems (fmt w : Nat) : Nat → Mem → Nat → List Byte → Mem
  | 0, m, _, _ => m
  | k + 1, m, a, l =>
    if l.isEmpty then m
    else addElems fmt w k (Mem.setLE m a w (addBits fmt (Mem.getLE m a w) (natOf (l.take w))).1) (a + w) (l.drop w)

/-! ## The completion signal (R106, R155, R253) -/

/-- A slot word, resolved as `ldslot` would; none when it does not resolve. -/
def resolveSlot (s : State) (c : Nat) (w : Word) : Option Val :=
  let r : Tag := (w >>> 52).setWidth 8
  if bitsW w 62 60 != 0 || (w.getLsbD 63 && r == untag) || (r != untag && (s.region c r.toNat).size == 0#48) then none
  else if w.getLsbD 63 then some ⟨((s.region c r.toNat).base + w.setWidth 52).zeroExtend 64, r⟩
  else some ⟨(w.setWidth 52).zeroExtend 64, r⟩

/-- A slot word names a region that is moving: who resolves it waits (R107). -/
def slotMoving (s : State) (c : Nat) (w : Word) : Bool :=
  bitsW w 59 52 != 255 && (s.region c (bitsW w 59 52)).st == .moving

/-- How an access of a unit through a resolved address fares (R95, R96): its home, a wait for a region, or a failure. -/
inductive UnitAcc where
  | ok (home : Nat)
  | peer (a : Nat)
  | wait (r : Nat)
  | bad
deriving DecidableEq, Repr

/-- The access of a unit of n bytes at a resolved address: untagged, it is checked as one of region 0 (R95). -/
def unitAccess (s : State) (c : Nat) (acc : Acc) (v : Val) (n : Nat) : UnitAcc :=
  let r := if v.t = untag then 0 else v.t.toNat
  let e := s.region c r
  let a := v.v.toNat
  if a % n != 0 || !e.covers a n || !e.admits acc then .bad
  else match e.st with
    | .resident => (match locate s 0 a with
      | .peer a => .peer a
      | l => match l.home with
        | some h => .ok h
        | none => .bad)
    | .retired => .bad
    | _ => .wait r

/-- The access of a card's signal: through the resolved tag, with the checks of `sigadd` (R253); an untagged address in the local alias
is the submitting pair's (R94). A word that does not resolve has none. -/
def signalAccess (s : State) (d : Nat) (c : Card) : UnitAcc :=
  match resolveSlot s c.ctx.toNat (c.dw 8) with
  | none => .bad
  | some v =>
    if v.t = untag ∧ c.p.isSome ∧ inLocal v.v.toNat 8 then
      (if v.v.toNat % 8 = 0 then .ok (globalOf (clusterOf (c.owner d)) (v.v.toNat - Config.localBase)) else .bad)
    else unitAccess s c.ctx.toNat .atomic v 8

/-- A card that is done leaves. -/
def dropCard (s : State) (d i : Nat) : State := keepCards s d (fun n _ => n != i)

/-- The signal of a card that is done (R155): its increment is added at its home and the card leaves. The write waits for a region that
is away or MOVING, and one that fails a check is dropped and the context reported, as R271 has it for a launch (log 94). -/
def cardSignal (s : State) (d i : Nat) : State :=
  match (s.die d).card i with
  | none => s
  | some c =>
    let x := c.ctx.toNat
    let inc := (c.dw 9).toNat
    if slotMoving s x (c.dw 8) then s
    else match signalAccess s d c with
      | .wait r => postRequest s x r c.prio
      | .ok h => (dropCard s d i).setMem (Mem.setLE s.mem h 8 (Mem.getLE s.mem h 8 + inc))
      | .peer a => tellPeer (dropCard s d i) d a (peerAmo 0) 8 (bytesOf inc 8)
      | .bad => (dropCard s d i).send (.context x 1)

/-- A card has performed its bytes below n: it faults there, or it has ended: J11 is written, then its signal (R155). -/
def endCard (s : State) (d i n : Nat) (bad : Option Nat) (cause : Nat) : State :=
  match (s.die d).card i, bad with
  | none, _ => s
  | some _, some a => faultCard s d i n cause (BitVec.ofNat 64 a)
  | some c, none =>
    let s := writeJ11 s d c 2 c.len
    if (c.dw 0).getLsbD 12 then cardSignal (s.setCard d i { c with running := false, signing := true }) d i else dropCard s d i

/-- A card's piece up to byte m is performed; the card goes on with the next, or ends at n. -/
def endPiece (s : State) (d i m n : Nat) (bad : Option Nat) (cause : Nat) : State :=
  match (s.die d).card i with
  | none => s
  | some c => if m < n then s.setCard d i { c with first := m, asked := false, got := none, done := none, short := false } else endCard s d i n bad cause

def cardAsk (s : State) (d i a op n : Nat) (sent : List Byte) : State :=
  { s with peers := s.peers ++ [{ p := d * 160, k := .F, addrs := [a], op := op, size := n, sent := sent, tag := 100 + i }] }

/-- `JOB_CARD_COMPLETE` (R155): the card's bytes are moved, written and performed, J11 is written and the signal added; a card of which
only the signal is left writes that. A side in a peer device is asked for first. -/
def jobCardComplete (d i : Nat) (s : State) : State :=
  match (s.die d).card i with
  | none => s
  | some c =>
    if c.signing then cardSignal s d i
    else if !c.running then s
    else
      let cl := clusterOf (c.owner d)
      let w := c.width
      let (n, bad) := cardLimit s d c
      let m := pieceEnd c n
      let src := locate s cl (c.srcAt + c.first)
      let needSrc := c.kind != 1 && src.foreign.isSome && c.got.isNone && decide (c.first < m)
      if needSrc then
        if c.asked then s else (cardAsk s d i (src.foreign.getD 0) peerRead (m - c.first) []).setCard d i { c with asked := true }
      else
        let l := cardBytes s d c m
        -- what a peer that failed has sent, in whole elements
        let k := c.first + l.length / w * w
        let m := if c.got.isSome then min m k else m
        let (n, bad) := if c.got.isSome && c.short then (m, some (c.srcAt + m)) else (n, bad)
        match locate s cl (c.dstAt + c.first) with
        | .peer a =>
          match c.done with
          | some k =>
            let k := c.first + k / w * w
            if c.short && k < m then endPiece s d i k k (some (c.dstAt + k)) 0x0E
            else if m < k then endPiece s d i k c.len none 0
            else endPiece s d i m n bad (c.cause n)
          | none => if c.asked then s
            else if m = c.first then endPiece s d i m n bad (c.cause n)
            else (cardAsk s d i a (if c.kind = 2 then 100 + c.fmt else peerWrite) (m - c.first) (l.take (m - c.first))).setCard d i { c with asked := true }
        | dst =>
          let h := dst.home.getD 0
          let l := l.take (m - c.first)
          let mem := if c.kind = 2 then addElems c.fmt w l.length s.mem h l else Mem.setBytes s.mem h l
          endPiece (s.setMem mem) d i m n bad (c.cause n)

/-- Where a card reads memory of this device: the addresses its sides start at. -/
def Card.reads (c : Card) (s : State) (d : Nat) : List Nat :=
  let own : Nat → Bool := fun a => (locate s (clusterOf (c.owner d)) (a + c.first)).home.isSome
  (if c.kind != 1 && own c.srcAt then [c.srcAt] else []) ++ (if c.kind == 2 && own c.dstAt then [c.dstAt] else [])

/-- An uncorrectable data error lies in what a running card has still to read: at which byte, and of which side, is a free value
(R151, R155, log 94). The card stops there. -/
def cardError (s : State) (d i : Nat) (c : Card) : State :=
  let (n, _) := cardLimit s d c
  let rs := c.reads s d
  if c.errAt.isSome ∨ c.asked ∨ c.done.isSome ∨ rs.isEmpty ∨ n ≤ c.first then s
  else
    let k := c.first + Config.choice s.fresh % (n - c.first) / c.width * c.width
    let a := rs.getD (Config.choice (s.fresh + 1) % rs.length) 0
    { s.setCard d i { c with errAt := some (k, a + k) } with fresh := s.fresh + 2 }

/-- `JOB_CARD_FAULT` (R155): the next byte of a running card fails its check, or the card meets an uncorrectable data error. -/
def jobCardFault (d i : Nat) (err : Bool) (s : State) : State :=
  let s := match (s.die d).card i with
    | some c => if err ∧ c.running then cardError s d i c else s
    | none => s
  match (s.die d).card i with
  | none => s
  | some c =>
    if !c.running then s
    else match cardLimit s d c with
      | (n, some a) => if n = c.first then faultCard s d i n (c.cause n) (BitVec.ofNat 64 a) else s
      | (_, none) => s

end Sys2Proof.Machine
end

