-- ==== Sys2Proof/Machine/Matrix.lean ====
section
/-! DEFINITION. The matrix array and the weight buffer (R227-R242): fill headers, banks, `wbfill`, `wbwait`, the steps of a
fill, and the two matrix words. -/

namespace Sys2Proof.Machine

/-! ## The fill header (R229) -/

/-- A fill header, as doublewords. -/
abbrev Hdr := Vector Word 4

def Hdr.w (h : Hdr) (i : Nat) : Word := h.getD i 0#64
def Hdr.fmt (h : Hdr) : Nat := bitsW (Hdr.w h 0) 4 0
def Hdr.sparse (h : Hdr) : Bool := (Hdr.w h 0).getLsbD 5
def Hdr.scaled (h : Hdr) : Bool := (Hdr.w h 0).getLsbD 6
def Hdr.blk (h : Hdr) : Nat := bitsW (Hdr.w h 0) 9 7
def Hdr.pack6 (h : Hdr) : Bool := (Hdr.w h 0).getLsbD 10
def Hdr.k (h : Hdr) : Nat := bitsW (Hdr.w h 0) 26 16
def Hdr.n (h : Hdr) : Nat := bitsW (Hdr.w h 0) 39 32
def Hdr.val (h : Hdr) : Nat := bitsW (Hdr.w h 1) 21 0
def Hdr.meta_ (h : Hdr) : Nat := bitsW (Hdr.w h 2) 21 0
def Hdr.sc (h : Hdr) : Nat := bitsW (Hdr.w h 3) 21 0

/-- Kmax and Nmax of a bank format, none for a format that banks do not hold (R227). -/
def bankMax (f : Nat) : Option (Nat × Nat) :=
  match f with
  | 0x0B => some (256, 128)
  | 0x0C => some (512, 128)
  | 0x0D => some (512, 128)
  | 0x10 => some (512, 128)
  | 0x11 => some (512, 128)
  | 0x00 => some (512, 128)
  | 0x0E => some (1024, 128)
  | 0x08 => some (32, 8)
  | _ => none

/-- Bits of a stored value (R230). -/
def Hdr.valBits (h : Hdr) : Nat := if Hdr.pack6 h then 6 else fmtWidth (Hdr.fmt h)
/-- Stored value rows. -/
def Hdr.kv (h : Hdr) : Nat := if Hdr.sparse h then Hdr.k h / 2 else Hdr.k h
/-- Bytes of the values, of the metadata and of the scales (R230, R231). -/
def Hdr.valLen (h : Hdr) : Nat := (Hdr.kv h * Hdr.n h * Hdr.valBits h + 7) / 8
def Hdr.metaLen (h : Hdr) : Nat := if Hdr.sparse h then (Hdr.k h / 4 * Hdr.n h + 1) / 2 else 0
def Hdr.scaleBlocks (h : Hdr) : Nat := (Hdr.k h + 2 ^ (Hdr.blk h + 3) - 1) / 2 ^ (Hdr.blk h + 3)
def Hdr.scaleLen (h : Hdr) : Nat := if Hdr.scaled h then Hdr.scaleBlocks h * Hdr.n h else 0

/-- K and N are in range for the format (R231). -/
def Hdr.sizeOk (h : Hdr) : Bool :=
  match bankMax (Hdr.fmt h) with
  | some (km, nm) => decide (0 < Hdr.k h) && decide (Hdr.k h ≤ km) && decide (0 < Hdr.n h) && decide (Hdr.n h ≤ nm)
  | none => false

/-- The first doubleword of a header that fails, with its reason: 5 an illegal field, 6 a range (R231 step 3). -/
def Hdr.bad (h : Hdr) : Option (Nat × Nat) :=
  let f := Hdr.fmt h
  let w0 := Hdr.w h 0
  let illegal0 := bitsW w0 63 40 != 0 || bitsW w0 31 27 != 0 || bitsW w0 15 11 != 0 || !Hdr.sizeOk h
    || (Hdr.sparse h && (f == 0x08 || Hdr.k h % 4 != 0))
    || (Hdr.scaled h && !([0x0B, 0x0C, 0x0D, 0x0E, 0x10].contains f && Hdr.blk h != 7))
    || (!Hdr.scaled h && Hdr.blk h != 0) || (Hdr.pack6 h && f != 0x11)
  let top := 4 * 2 ^ 20
  let align := if f = 0x0B then 2 else if f = 0x08 then 8 else 1
  if illegal0 then some (0, 5)
  else if bitsW (Hdr.w h 1) 63 22 != 0 then some (1, 5)
  else if Hdr.val h % align != 0 || decide (top < Hdr.val h + Hdr.valLen h) then some (1, 6)
  else if bitsW (Hdr.w h 2) 63 22 != 0 || (!Hdr.sparse h && Hdr.w h 2 != 0#64) then some (2, 5)
  else if decide (top < Hdr.meta_ h + Hdr.metaLen h) then some (2, 6)
  else if bitsW (Hdr.w h 3) 63 22 != 0 || (!Hdr.scaled h && Hdr.w h 3 != 0#64) then some (3, 5)
  else if decide (top < Hdr.sc h + Hdr.scaleLen h) then some (3, 6)
  else none

/-- TRAPVAL of a matrix-operand trap (R242). -/
def matVal (hdw reason bank : Nat) : Word := BitVec.ofNat 64 (hdw * 256 + reason * 16 + bank)

/-! ## Banks -/

def State.bank (s : State) (cl b : Nat) : Bank := (s.cluster cl).banks.getD b {}
def State.setBank (s : State) (cl b : Nat) (k : Bank) : State :=
  s.setCluster cl { s.cluster cl with banks := (s.cluster cl).banks.setIfInBounds b k }

/-- R231: fill bank n. It starts at once, or waits for the fill in progress; a second waiting fill stalls. -/
def wbfillRun (s : State) (n : Nat) (a : Val) : Res State := do
  if a.v.toNat % 16 != 0 then trapR 0x06#8 a.v
  let (s, ws) ← loadWords s a 4
  let h : Hdr := Vector.ofFn (fun i => ws.getD i.val 0#64)
  match Hdr.bad h with
  | some (i, r) => trapR 0x09#8 (matVal i r n)
  | none =>
    let cl := clusterOf s.me
    let b := s.bank cl n
    if b.owner.isSome && b.owner != some s.me then trapR 0x09#8 (matVal 0 2 n)
    else if b.next.isSome then stallR .other
    else if b.st = .filling then return (s.setBank cl n { b with next := some h, nextIssued := s.steps }).retire
    else return (s.setBank cl n { st := .filling, owner := some s.me, h := h, issued := s.steps }).retire

/-- R231: `wbfill`. -/
def execWbfill (n : BitVec 2) (a : XReg) (imm : BitVec 15) (s : State) : Out :=
  scalar (.wbfill n a imm) s (wbfillRun s n.toNat { s.rx a with v := (s.rx a).v + sextW imm })

/-- R233: wait until the bank's fills end, and read its status. -/
def execWbwait (d : XReg) (n : BitVec 2) (s : State) : Out :=
  let b := s.bank (clusterOf s.me) n.toNat
  scalar (.wbwait d n) s
    (if b.owner.isSome && b.owner != some s.me then put s d 4#64 untag
     else if b.st = .filling || b.next.isSome then stallR .other
     else put s d (match b.st with
       | .ready => 0#64
       | .bad => BitVec.ofNat 64 b.badWhy
       | _ => 3#64) untag)

/-! ## The steps of a fill (R231, R232) -/

/-- The ranges of the local scratchpad a fill reads: offset and length. -/
def Hdr.ranges (h : Hdr) : List (Nat × Nat) :=
  [(Hdr.val h, Hdr.valLen h), (Hdr.meta_ h, Hdr.metaLen h), (Hdr.sc h, Hdr.scaleLen h)].filter (fun r => r.2 != 0)

/-- The tile's image: values, then metadata, then scales (R230, R304). -/
def Hdr.take (h : Hdr) (m : Mem) (cl : Nat) : Mem :=
  let part : Nat → Nat → Nat → Mem := fun off len base => (Mem.slice m (globalOf cl off) len).map (fun c => (base + c.1, c.2))
  part (Hdr.val h) (Hdr.valLen h) 0 ++ part (Hdr.meta_ h) (Hdr.metaLen h) (Hdr.valLen h)
    ++ part (Hdr.sc h) (Hdr.scaleLen h) (Hdr.valLen h + Hdr.metaLen h)

/-- Metadata nibble i of an image. -/
def nibbleAt (h : Hdr) (im : Mem) (i : Nat) : Nat := (Mem.get im (Hdr.valLen h + i / 2)).toNat / 16 ^ (i % 2) % 16

/-- The lowest illegal metadata nibble (R230, R232). -/
def badNibble (h : Hdr) (im : Mem) : Option Nat :=
  if Hdr.sparse h then
    (List.range (Hdr.k h / 4 * Hdr.n h)).find? (fun i => decide (nibbleAt h im i / 4 ≤ nibbleAt h im i % 4))
  else none

/-- WBERR of a fill that ended BAD (R234). -/
def wberrOf (col kind bank idx : Nat) : Word :=
  BitVec.ofNat 64 (col % 128 * 2 ^ 40 + kind * 2 ^ 34 + bank * 2 ^ 32 + idx % 1024)

/-- R231: a fill that waits starts when the fill before it has ended. -/
def wbFillStart (cl b : Nat) (s : State) : State :=
  let k := s.bank cl b
  match k.next with
  | some h => if k.st = .filling then s else s.setBank cl b { st := .filling, owner := k.owner, h := h, issued := k.nextIssued }
  | none => s

/-- R232: a fill ends, once its earlier stores are performed and no watermark holds its reads back. `err` is the row and
column at which a scratchpad read meets an uncorrectable error, if one does. -/
def wbFillEnd (cl b : Nat) (err : Option (Nat × Nat)) (s : State) : State :=
  let k := s.bank cl b
  match k.st, k.owner with
  | .filling, some p =>
    if (Hdr.ranges k.h).any (fun r => (wmBlocks (s.pair p) (Config.localBase + r.1) r.2).isSome) then s
    else
      let s := settle s p
      let im := Hdr.take k.h s.mem cl
      let bad : Nat → Word → State := fun why w =>
        (s.setBank cl b { k with st := .bad, image := im, badWhy := why }).updThr p .A (fun t => { t with wberr := w })
      match err, badNibble k.h im with
      | some (v, n), _ => bad 2 (wberrOf n 2 b v)
      | none, some i => bad 1 (wberrOf (i % Hdr.n k.h) 1 b (i / Hdr.n k.h))
      | none, none => s.setBank cl b { k with st := .ready, image := im }
  | _, _ => s

/-! ## The tile in a bank -/

/-- Stored value i of an image, as bits (R51, R55, R230). -/
def valueAt (h : Hdr) (im : Mem) (i : Nat) : Nat :=
  let w := Hdr.valBits h
  Mem.getLE im (i * w / 8) (max 2 (w / 8)) / 2 ^ (i * w % 8) % 2 ^ w

/-- Weight (k, n): none where a sparse tile stores nothing (R230, R237). -/
def weightAt (h : Hdr) (im : Mem) (k n : Nat) : Option Nat :=
  if Hdr.sparse h then
    let nib := nibbleAt h im (k / 4 * Hdr.n h + n)
    if k % 4 = nib % 4 then some (valueAt h im (k / 4 * 2 * Hdr.n h + n))
    else if k % 4 = nib / 4 then some (valueAt h im ((k / 4 * 2 + 1) * Hdr.n h + n))
    else none
  else some (valueAt h im (k * Hdr.n h + n))

/-- The scale of column n for the block that holds k (R230); 127 stands for 1. -/
def weightScale (h : Hdr) (im : Mem) (k n : Nat) : Nat :=
  if Hdr.scaled h then (Mem.get im (Hdr.valLen h + Hdr.metaLen h + k / 2 ^ (Hdr.blk h + 3) * Hdr.n h + n)).toNat else 127

/-! ## Sums (R67, R68) -/

/-- A product with the flags R67 gives it: 0 × ∞, or a signalling bf16 operand. -/
def mrowMul (bf : Bool) (a b : Num) : Num × Flg :=
  let quiet : Num → Num := fun x => if bf then x else match x with
    | .nan _ => .nan false
    | x => x
  mulNum (quiet a) (quiet b)

/-- Truncate a finite value to a multiple of 2^q, as that multiple. -/
def truncTo (q : Int) (x : Num) : Int :=
  match x with
  | .fin s m e _ =>
    let v : Int := if q ≤ e then ((m * 2 ^ (e - q).toNat : Nat) : Int) else ((m / 2 ^ (q - e).toNat : Nat) : Int)
    if s then -v else v
  | _ => 0

/-- The exponent of a finite nonzero value's magnitude. -/
def expOf (x : Num) : Option Int :=
  match x with
  | .fin _ m e _ => if m = 0 then none else some (e + m.log2)
  | _ => none

/-- The sum of one group (R67). -/
def groupSum (ps : List Num) : Num × Flg :=
  let pinf := ps.any (fun p => p == .inf false)
  let minf := ps.any (fun p => p == .inf true)
  if pinf && minf then (.nan false, fNV)
  else if ps.any isNaN then (.nan false, 0#5)
  else if pinf then (.inf false, 0#5)
  else if minf then (.inf true, 0#5)
  else
    match (ps.filterMap expOf).max? with
    | none => (.fin false 0 0 false, 0#5)
    | some e =>
      let q := e - 40
      let t := (ps.map (truncTo q)).foldl (· + ·) 0
      if t = 0 then (.fin false 0 0 false, 0#5) else (.fin (decide (t < 0)) t.natAbs q false, 0#5)

/-- The products of one column in increasing k: the element's k and its value, absent ones left out. -/
abbrev Prods := List (Nat × Num × Flg)

/-- One column of `mrow` (R67): the products, the group length, the K in use, the scales of a group by its first k, and the
accumulator; the f32 bits of the sum and the flags. -/
def column (ps : Prods) (g keff : Nat) (scA scW : Nat → Nat) (acc : Num) (accBits : Nat) : Nat × Flg :=
  let r := (List.range ((keff + g - 1) / g)).foldl (fun (r : Num × Nat × Flg) i =>
    let mine := ps.filter (fun p => p.1 / g == i)
    let (gs, f1) := groupSum (mine.map (fun p => p.2.1))
    let gs := scaleNum (scaleNum gs (scA (i * g))) (scW (i * g))
    let (x, f2) := addNum 0 r.1 gs
    let (b, f3) := roundNum 0x09 0 0 false false x
    (decodeNum 0x09 b, b, r.2.2 ||| mine.foldl (fun f p => f ||| p.2.2) 0#5 ||| f1 ||| f2 ||| f3)) (acc, accBits, 0#5)
  (r.2.1, r.2.2)

/-- One column of `mrow64` (R68). SAT and FTZ act on each of its roundings into f64, as on any result in f64 (R60, R61, log 79). -/
def column64 (sat ftz : Bool) (ps : Prods) (acc : Num) (accBits : Nat) : Nat × Flg :=
  let r := ps.foldl (fun (r : Num × Nat × Flg) p =>
    let (x, f2) := addNum 0 r.1 p.2.1
    let (b, f3) := roundNum 0x08 0 0 sat ftz x
    (decodeNum 0x08 b, b, r.2.2 ||| p.2.2 ||| f2 ||| f3)) (acc, accBits, 0#5)
  (r.2.1, r.2.2)

/-! ## mrow and mrow64 (R235-R238) -/

/-- The pairings of R227: the bank's format with FA and FD. -/
def pairingOk (fb fa fd : Nat) : Bool :=
  let eight := [0x0C, 0x0D, 0x10, 0x11]
  let flt := fd == 0x09 || fd == 0x0B
  if fb = 0x0B then fa == 0x0B && flt
  else if fb = 0x0E then fa == 0x0E && flt
  else if fb = 0x00 then fa == 0x00 && fd == 0x02
  else if fb = 0x08 then fa == 0x08 && fd == 0x08
  else eight.contains fb && eight.contains fa && flt

/-- The format words the two matrix words admit (R236 step 2). -/
def mrowFmt (wide : Bool) (f : Fmt) : Bool :=
  if wide then f.fa == 0x08 && f.fb == 0x08 && f.fd == 0x08 && !f.sa && !f.sb && !f.sd
  else [0x0B, 0x0C, 0x0D, 0x0E, 0x10, 0x11, 0x00].contains f.fa && [0x09, 0x0B, 0x02].contains f.fd && f.rm != 5 && !f.sd

/-- The bank a matrix word reads, once it is READY for it (R236 step 4). -/
def bankFor (s : State) (t : Tile) (n : Nat) (wide : Bool) (f : Fmt) : Res Bank :=
  let b := s.bank (clusterOf t.p) n
  if b.st = .empty then trapR 0x09#8 (matVal 0 1 n)
  else if b.owner != some t.p then trapR 0x09#8 (matVal 0 2 n)
  else if b.st = .filling then stallR .queueVec
  else if b.st = .bad then trapR 0x09#8 (matVal 0 3 n)
  else if f.fb != Hdr.fmt b.h || !pairingOk f.fb f.fa f.fd || wide != (Hdr.fmt b.h == 0x08) then trapR 0x09#8 (matVal 0 4 n)
  else .ok b

/-- The least power of two at or above n, among 1 to 2^6. -/
def pow2Above (n : Nat) : Nat := ((List.range 7).find? (fun k => decide (n ≤ 2 ^ k))).map (2 ^ ·) |>.getD 128

/-- Element n of a destination row that starts at register r: rows of a matrix word are packed by the width alone (R236). -/
def Tile.rowGet (t : Tile) (r w n : Nat) : Nat :=
  let e := perReg t.g w
  ((t.L.v.getD (r + n / e) 0#4096) >>> (elemBit t.g w (n % e))).toNat % 2 ^ w

def Tile.rowPut (t : Tile) (r w n x : Nat) : Tile :=
  let e := perReg t.g w
  let sh := elemBit t.g w (n % e)
  let keep := (t.L.v.getD (r + n / e) 0#4096) &&& ~~~(BitVec.ofNat 4096 (2 ^ w - 1) <<< sh)
  { t with L := { t.L with v := t.L.v.setIfInBounds (r + n / e) (keep ||| (BitVec.ofNat 4096 (x % 2 ^ w) <<< sh)) } }

/-- Element n of a result row: its bits and flags, from the row's source elements (none where inactive) (R237). -/
def mrowElem (f : Fmt) (wide : Bool) (h : Hdr) (im : Mem) (row : List (Option Nat)) (gLen : Nat) (scA : Nat → Nat) (n : Nat)
    (acc : Option Nat) : Nat × Flg :=
  let ks := (List.range row.length).filterMap (fun k => match row.getD k none, weightAt h im k n with
    | some x, some w => some (k, x, w)
    | _, _ => none)
  if f.fa = 0x00 then
    (wrap 32 (ks.foldl (fun z e => z + decodeInt 0x00 e.2.1 * decodeInt 0x00 e.2.2) (signed 32 (acc.getD 0))), 0#5)
  else
    let ps : Prods := ks.map (fun e =>
      let p := mrowMul (f.fa == 0x0B || wide) (readNum f.fa e.2.1 f.ftz) (readNum f.fb e.2.2 f.ftz)
      (e.1, p.1, p.2))
    if wide then column64 f.sat f.ftz ps (readNum 0x08 (acc.getD 0) f.ftz) (acc.getD 0)
    else
      let start := if f.fd = 0x0B then acc.getD 0 * 2 ^ 16 else acc.getD 0
      let (b, fl) := column ps gLen row.length scA (fun k => weightScale h im k n) (decodeNum 0x09 start) start
      if f.fd = 0x09 then (b, fl)
      else
        let r := roundNum 0x0B f.rm 0 f.sat f.ftz (decodeNum 0x09 b)
        (r.1, fl ||| r.2)

/-- The effect of a matrix word (R236, R237): every row is computed before vd is written (R238). R236 does not place R62's check of the scale
entries: it stands between step 3 and the bank's check of step 4 (log 97). `mrow64` does not read RM (R57, R68). -/
def mrowWord (s : State) (w : BlkW) (n : Nat) (add wide : Bool) (t : Tile) : Res State := do
  if !(s.pair t.p).pl.matrix then trapR 0x09#8 (matVal 0 7 n)
  let f ← t.format w { sb := false, rm := !wide } (mrowFmt wide)
  t.needReg w.sa w.ka (fmtWidth f.fa)
  t.needScale f.sa
  let b ← bankFor s t n wide f
  let cols := Hdr.n b.h
  let wd := fmtWidth f.fd
  let rd := pow2Above ((cols * wd + 512 * t.g - 1) / (512 * t.g))
  if w.vd.toNat % rd != 0 || decide (64 < w.vd.toNat + t.rc * rd) then t.bad
  let a ← source1 s t w (fmtWidth f.fa)
  let keff := min t.vl (Hdr.k b.h)
  let gLen := min (min (if f.fa = 0x0B then 16 else 32) (if f.sa then 2 ^ (t.blk + 3) else 32)) (if Hdr.scaled b.h then 2 ^ (Hdr.blk b.h + 3) else 32)
  let outs := (List.range t.rc).flatMap (fun j =>
    if (List.range t.vl).any (t.fr j) then
      let row := (List.range keff).map (fun k => if t.act w j k then some (t.el a (fmtWidth f.fa) j k) else none)
      let scA : Nat → Nat := fun k => if f.sa then t.zget f.za (t.entry j k) else 127
      (List.range cols).map (fun c =>
        (w.vd.toNat + j * rd, c, mrowElem f wide b.h b.image row gLen scA c
          (if add then some (t.rowGet (w.vd.toNat + j * rd) wd c) else none)))
    else [])
  let u := outs.foldl (fun u o => (u.rowPut o.1 wd o.2.1 o.2.2.1).orFlags o.2.2.2) t
  return commit s u w

/-- R237: rows through the matrix array. -/
def execMrow (w : BlkW) (bank : BitVec 2) (acc : Bool) (s : State) : Out :=
  block (.mrow w bank acc) s (mrowWord s w bank.toNat acc false)
/-- R237: rows of f64. -/
def execMrow64 (w : BlkW) (bank : BitVec 2) (acc : Bool) (s : State) : Out :=
  block (.mrow64 w bank acc) s (mrowWord s w bank.toNat acc true)

end Sys2Proof.Machine
end

