-- ==== Sys2Proof/Machine/Save.lean ====
section
/-! DEFINITION. Rebasing, save areas, and what a thread does at a safe point (R18, R113, R302-R310): the image of a pair in
its save area, saving and restoring a pair and a take group, and the debugger's stops (R339). -/

namespace Sys2Proof.Machine

/-! ## Rebasing (R309) -/

/-- A tagged value whose region has another GEN than the one recorded at the park moves with the region. -/
def rebaseVal (s : State) (c : Nat) (gens : Tab Nat) (v : Val) : Val :=
  let r := v.t.toNat
  let e := s.region c r
  match gens.find? (fun g => g.1 == r) with
  | some g => if v.t != untag && g.2 != e.gen.toNat then { v with v := v.v + (e.base.zeroExtend 64 - e.prev.zeroExtend 64) } else v
  | none => v

/-- A thread is unparked: its registers are rebased (R309). -/
def rebaseThread (s : State) (c : Nat) (t : Thread) : Thread :=
  let f := rebaseVal s c t.gens
  { t with x := mapV f t.x, sh := mapV f t.sh, pc := f t.pc, cuepc := f t.cuepc, tpc := f t.tpc, gens := [] }

/-- The GENs that both threads of a pair record where they stand (R309). -/
def noteGens (s : State) (q : Pair) : Pair := { q with a := { q.a with gens := genRecord s q q.a }, x := { q.x with gens := genRecord s q q.x } }

/-- Both threads of a pair. -/
def rebasePair (s : State) (p : Nat) : State :=
  s.updPair p (fun q => { q with a := rebaseThread s q.ctx.toNat q.a, x := rebaseThread s q.ctx.toNat q.x })

/-! ## The image of a pair (R304-R306) -/

/-- A piece of an image: offset, bytes, value. -/
abbrev Img := List (Nat × Nat × Nat)

/-- A register record (R306). -/
def recordOf (s : State) (c : Nat) (v : Val) : Nat :=
  v.v.toNat + v.t.toNat * 2 ^ 64 + (if v.t = untag then 0 else (s.region c v.t.toNat).gen.toNat * 2 ^ 80)

/-- An offset-form slot word (R106). -/
def offSlot (r : Tag) (off : BitVec 52) : Nat := 2 ^ 63 + r.toNat * 2 ^ 52 + off.toNat

/-- A thread block (R306), with RETIRED and, for the X thread, the slip counters (R330). -/
def threadImg (s : State) (q : Pair) (k : Kind) (at_ : Nat) : Img :=
  let t := q.thr k
  let c := q.ctx.toNat
  let csrs : List Nat :=
    [t.vl.toNat, t.vtype.toNat, t.rc.toNat, t.vstart.toNat, t.strip.toNat, t.strippc.v.toNat, t.fflags.toNat, t.stallmax.toNat,
     t.tcause.toNat, t.tval.toNat, t.tpc.v.toNat, t.telem.toNat, if k = .X then 0 else t.wberr.toNat, t.cuevec.toNat,
     t.cuearm.toNat, t.cuesig.toNat, t.cueval.toNat, t.cuecause.toNat, if k = .A then 0 else q.want.toNat]
  (List.range 32).map (fun i => (at_ + 16 * i, 16, recordOf s c (if i = 0 then {} else t.x.getD i {})))
    ++ (List.range 8).map (fun i => (at_ + 0x200 + 16 * i, 16, recordOf s c (t.sh.getD i {})))
    ++ [(at_ + 0x280, 16, recordOf s c t.pc), (at_ + 0x290, 16, recordOf s c t.cuepc)]
    ++ (List.range csrs.length).map (fun i => (at_ + 0x2A0 + 8 * i, 8, csrs.getD i 0))
    ++ [(at_ + 0x338, 8, t.incue.toNat + 2 * 128 * (t.barcount.toNat - (if t.inBar then 1 else 0))), (at_ + 0x340, 8, t.stalls),
        (at_ + 0x348, 8, t.retired.toNat)]
    ++ (if k = .X then [(at_ + 0x350, 8, q.slipS.toNat), (at_ + 0x358, 8, q.slipV.toNat), (at_ + 0x360, 8, q.slipM.toNat),
        (at_ + 0x368, 8, q.slipO.toNat)] else [])

/-- The scalar queues. -/
def scalarQueuesImg (q : Pair) : Img :=
  (List.range q.sq.length).map (fun i => (0x900 + 8 * i, 8, (q.sq.getD i 0#64).toNat))
    ++ (List.range q.rq.length).map (fun i => (0xA00 + 8 * i, 8, (q.rq.getD i 0#64).toNat))
    ++ [(0xA80, 8, (List.range q.bq.length).foldl (fun n i => n + (q.bq.getD i false).toNat * 2 ^ i) 0),
        (0xA88, 8, q.sq.length + q.rq.length * 2 ^ 8 + q.bq.length * 2 ^ 16)]

def streamsImg (q : Pair) : Img :=
  (List.range 16).flatMap (fun i =>
    let st := q.str i
    (0xB00 + 128 * i, 8, st.status.toNat) :: (List.range 10).map (fun j => (0xB08 + 128 * i + 8 * j, 8, (st.dw j).toNat))
      ++ [(0xB58 + 128 * i, 8, st.vls)])
    ++ (List.range 8).flatMap (fun i =>
      let c := q.chans.getD i {}
      [(0x1300 + 16 * i, 8, c.wm.toNat), (0x1308 + 16 * i, 8, c.start.toNat)])

/-- The header of a saved bank: its offsets counted in the image. -/
def savedHdr (h : Hdr) : List Nat :=
  [(Hdr.w h 0).toNat, 0, if Hdr.sparse h then Hdr.valLen h else 0, if Hdr.scaled h then Hdr.valLen h + Hdr.metaLen h else 0]

def bankCode : BankSt → Nat
  | .empty => 0
  | .filling => 1
  | .ready => 2
  | .bad => 3

def banksImg (s : State) (p : Nat) : Img :=
  (List.range 4).flatMap (fun b =>
    let k := s.bank (clusterOf p) b
    if k.owner = some p then
      (0x1380 + 64 * b, 8, bankCode k.st) :: (List.range 4).map (fun j => (0x1388 + 64 * b + 8 * j, 8, (savedHdr k.h).getD j 0))
    else [])

/-- The images of the banks. -/
def bankImages (s : State) (p : Nat) : Img :=
  (List.range 4).flatMap (fun b =>
    let k := s.bank (clusterOf p) b
    if k.owner = some p then k.image.map (fun c => (0x1D080 + 80 * 1024 * b + c.1, 1, c.2.toNat)) else [])

def blocksImg (q : Pair) : Img :=
  (List.range q.blocks.length).flatMap (fun i =>
    let e := q.blocks.getD i {}
    let at_ := 0x1480 + 128 * i
    (at_, 8, offSlot e.rgn e.off) :: (List.range 8).map (fun j => (at_ + 8 + 8 * j, 8, (e.b.getD j 0#64).toNat))
      ++ [(at_ + 0x48, 8, e.vl.toNat + e.vtype.toNat * 2 ^ 16 + e.rc.toNat * 2 ^ 24), (at_ + 0x50, 8, e.strip.toNat),
          (at_ + 0x58, 8, offSlot e.spc.t e.soff)])

/-- The part of a mask over the tile that the i-th group of a pair keeps: 1,024 positions (log 22). -/
def maskPart (f : BitVec 8192) (i : Nat) : Nat := (f >>> (1024 * i)).toNat % 2 ^ 1024

/-- Lane positions: every group of a pair stands at the same word (log 10). -/
def lanesImg (q : Pair) : Img :=
  let r := (q.blocks.headD {}).rgn
  if q.lanes.busy then
    (List.range q.held.length).flatMap (fun i =>
      let at_ := 0x3480 + 2048 * i
      [(at_ + 8, 8, offSlot r q.lanes.off), (at_ + 0x10, 128, maskPart q.lanes.f i), (at_ + 0x90, 8, q.lanes.frags.length)]
        ++ (List.range q.lanes.frags.length).flatMap (fun j =>
          let g := q.lanes.frags.getD j {}
          [(at_ + 0xA0 + 144 * j, 8, offSlot r g.off), (at_ + 0xA8 + 144 * j, 128, maskPart g.f i)]))
  else []

def masksImg (q : Pair) : Img :=
  (List.range 8).map (fun i => (0x7480 + 1024 * i, 1024, (q.lanes.m.getD i 0#8192).toNat))
    ++ (List.range 4).map (fun i => (0x9480 + 512 * i, 512, (q.lanes.z.getD i 0#4096).toNat))

def vectorsImg (q : Pair) : Img := (List.range 64).map (fun i => (0x15080 + 512 * i, 512, (q.lanes.v.getD i 0#4096).toNat))

/-- The entries of a row from entry `at_` of the area's sixty (R304): elements lie in an entry as in a register of the groups its
producer owned, so that a row keeps its place when the pair's groups have changed (R124). -/
def rowImg (at_ : Nat) (r : Row) : Img :=
  let g := r.g
  let w := widthOf r.wc
  let n := perReg g w
  (List.range r.ents).flatMap (fun e =>
    let mine := (List.range n).filter (fun l => decide (e * n + l < r.vl))
    let o := 0x9C80 + 768 * (at_ + e)
    [(o, 8, r.vl % 2 ^ 14 + r.wc * 2 ^ 16 + 2 ^ 20 + r.ready.toNat * 2 ^ 21 + r.ents * 2 ^ 24 + e * 2 ^ 32),
     (o + 0x40, 128, mine.foldl (fun z l => z + (r.act.getD (e * n + l) false).toNat * 2 ^ l) 0),
     (o + 0xC0, 512, mine.foldl (fun z l => z + r.els.getD (e * n + l) 0 % 2 ^ w * 2 ^ elemBit g w l) 0)])

/-- The rows of a queue, one after the other. -/
def rowsImg : Nat → List Row → Img
  | _, [] => []
  | at_, r :: t => rowImg at_ r ++ rowsImg (at_ + r.ents) t

/-- The row queues of a pair with the first of the entries each takes in the area. -/
def rowQueues (q : Pair) : List (Nat × List Row) :=
  [(0, q.q.getD 0 []), (8, q.q.getD 1 []), (16, q.q.getD 2 []), (24, q.q.getD 3 []), (32, q.sr.getD 0 []), (40, q.sr.getD 1 []),
   (48, q.iq), (52, q.up)]

/-- The save header (R305). -/
def headerImg (s : State) (p : Nat) (q : Pair) (reason : Nat) : Img :=
  let banks := (List.range 4).foldl (fun n b => n + (if (s.bank (clusterOf p) b).owner = some p then 2 ^ b else 0)) 0
  [(0, 32, 1 + reason * 2 ^ 8 + q.ctx.toNat * 2 ^ 16 + (stageCsr q).toNat % 2 ^ 16 * 2 ^ 32 + q.held.length * 2 ^ 52
      + banks * 2 ^ 56 + q.pl.idx % 2 ^ 32 * 2 ^ 64 + q.pl.ring * 2 ^ 96)]

/-- The whole image of pair p, offsets rising. -/
def pairImg (s : State) (p : Nat) (reason : Nat) : Img :=
  let q := s.pair p
  headerImg s p q reason ++ threadImg s q .A 0x100 ++ threadImg s q .X 0x500 ++ scalarQueuesImg q ++ streamsImg q ++ banksImg s p
    ++ blocksImg q ++ lanesImg q ++ masksImg q ++ (rowQueues q).flatMap (fun r => rowsImg r.1 r.2) ++ vectorsImg q
    ++ bankImages s p

/-- The address of save area i (R303). -/
def areaBase (s : State) (i : Nat) : Nat := bitsW s.savepool 51 16 * 65536 + Config.saveBytes * i

/-- The lowest free save area of the pool. -/
def freeArea (s : State) : Option Nat := (List.range (16 * bitsW s.savepool 63 52)).find? (fun i => !s.areas.contains i)

/-- Write a pair's image into an area; every byte the image does not fill is zero. An interface keeps the number of the area (R367). -/
def writeArea (s : State) (p i reason : Nat) : State :=
  let b := areaBase s i
  let m := (pairImg s p reason).foldr (fun e m => Mem.setLE m (b + e.1) e.2.1 e.2.2) (Mem.clear s.mem b Config.saveBytes)
  let s := match vfOf s (s.pair p).ctx.toNat with
    | some v => s.setVf v { s.vf v with used := if (s.vf v).used.contains i then (s.vf v).used else (s.vf v).used ++ [i] }
    | none => s
  let gen : Thread → Nat := fun t => (s.region (s.pair p).ctx.toNat t.tpc.t.toNat).gen.toNat
  ({ s.setMem m with areas := if s.areas.contains i then s.areas else s.areas ++ [i] }).updPair p
    (fun q => { q with tpcGenA := gen q.a, tpcGenX := gen q.x })

/-! ## Reading an image back -/

def Mem.dw (m : Mem) (a : Nat) : Word := BitVec.ofNat 64 (Mem.getLE m a 8)

/-- The bits of WBERR and of the cue CSRs that are not reserved (R234, R318). -/
def wberrMask : Word := 0x7F0F000003FF#64
def cuevecMask : Word := 0x8FFFFFFFFFFFFFFC#64
def cuearmMask (k : Kind) : Word := if k = .X then 0xE000000000000000#64 else 0xE00000FFFFFFFFFF#64
def cuesigMask : Word := 0x8FFFFFFFFFFFFFFF#64

def recordAt (m : Mem) (a : Nat) : Val := ⟨Mem.dw m a, Mem.get m (a + 8)⟩

/-- A thread as its block describes it, reserved bits as zero (R3, R318); what the area does not hold stays as the machine kept it.
A peer's answer and a stop already made belong to the word at the PC, and go when the area names another place. -/
def loadThread (m : Mem) (a : Nat) (k : Kind) (t : Thread) : Thread :=
  let c : Nat → Word := fun i => Mem.dw m (a + 0x2A0 + 8 * i)
  let f := Mem.dw m (a + 0x338)
  let same := recordAt m (a + 0x280) == t.pc
  { t with
    x := Vector.ofFn (fun i => if i.val = 0 then {} else recordAt m (a + 16 * i.val))
    sh := Vector.ofFn (fun i => recordAt m (a + 0x200 + 16 * i.val))
    pc := recordAt m (a + 0x280), cuepc := recordAt m (a + 0x290)
    vl := (c 0).setWidth 14, vtype := (c 1).setWidth 8, rc := (c 2).setWidth 4, vstart := (c 3).setWidth 13, strip := c 4
    strippc := { t.strippc with v := c 5 }, fflags := (c 6).setWidth 5, stallmax := (c 7).setWidth 32, tcause := (c 8).setWidth 10
    tval := c 9, tpc := { t.tpc with v := c 10 }, telem := (c 11).setWidth 32
    wberr := if k = .X then t.wberr else c 12 &&& wberrMask
    cuevec := c 13 &&& cuevecMask, cuearm := c 14 &&& cuearmMask k, cuesig := c 15 &&& cuesigMask, cueval := c 16, cuecause := (c 17).setWidth 16
    incue := f.getLsbD 0, barcount := (f >>> 8).setWidth 32, stalls := (Mem.dw m (a + 0x340)).toNat
    retired := Mem.dw m (a + 0x348)
    inBar := false, wait := .none, gens := []
    -- the stall cycles counted are of the region that the word at the PC waits for (R300, R306)
    onRgn := if same then t.onRgn else none
    asked := t.asked && same, reply := if same then t.reply else none, iword := if same then t.iword else none, atSafe := t.atSafe && same
    enqAt := if same then t.enqAt else none
    halt := if t.halt = .exited then .exited else .none }

/-- The rows of a queue from entry e of an area, as far as the n entries that are the queue's; `old` gives the names the machine knew the
rows by and the groups by whose lanes they lie. Fuel: no queue holds more than eight rows. -/
def loadRows (m : Mem) (b : Nat) : Nat → Nat → Nat → List Row → List Row
  | 0, _, _, _ => []
  | fuel + 1, n, e, old =>
    let o := b + 0x9C80 + 768 * e
    let h := (Mem.dw m o).toNat
    if n ≠ 0 ∧ bits h 20 20 = 1 ∧ bits h 35 32 = 0 then
      let vl := bits h 13 0
      let wc := bits h 18 16
      let w := widthOf wc
      let g := (old.headD {}).g
      let k := perReg g w
      let at_ : Nat → Nat := fun i => o + 768 * (i / k)
      let row : Row :=
        { vl := vl, wc := wc, ents := bits h 31 24, g := g, ready := bits h 21 21 == 1, id := (old.headD {}).id
          act := (List.range vl).map (fun i => (Mem.getLE m (at_ i + 0x40) 128).testBit (i % k))
          els := (List.range vl).map (fun i => Mem.getLE m (at_ i + 0xC0) 512 / 2 ^ elemBit g w (i % k) % 2 ^ w) }
      row :: loadRows m b fuel (n - max 1 row.ents) (e + max 1 row.ents) old.tail
    else []

/-- A running stream is QUEUED again at FIRST, for its next start (R152). It keeps its place in the order of queueing, so that the streams
behind it find the same edges (log 96). -/
def Stream.requeue (st : Stream) : Stream := { st with st := if st.st = .running then .queued else st.st, stalls := 0 }

/-- A stream as an area describes it. -/
def loadStream (m : Mem) (a : Nat) (st : Stream) : Stream :=
  let w := Mem.dw m a
  { st.requeue with
            d := Vector.ofFn (fun i => Mem.dw m (a + 8 + 8 * i.val)), vls := (Mem.dw m (a + 0x58)).toNat
            first := bitsW w 63 32, port := BitVec.ofNat 4 (bitsW w 15 12), chan := BitVec.ofNat 3 (bitsW w 11 9)
            chu := w.getLsbD 8, vis := w.getLsbD 7, rel := w.getLsbD 6 }

def loadBlock (s : State) (m : Mem) (c a : Nat) : Blk :=
  let w := Mem.dw m a
  let sp := Mem.dw m (a + 0x58)
  let r : Tag := (sp >>> 52).setWidth 8
  let h := Mem.dw m (a + 0x48)
  { rgn := (w >>> 52).setWidth 8, off := w.setWidth 52, b := Vector.ofFn (fun i => Mem.dw m (a + 8 + 8 * i.val)),
    vl := h.setWidth 14, vtype := (h >>> 16).setWidth 8, rc := (h >>> 24).setWidth 4, strip := Mem.dw m (a + 0x50), soff := sp.setWidth 52,
    spc := ⟨((s.region c r.toNat).base + sp.setWidth 52).zeroExtend 64, r⟩ }

/-- A mask over the tile from the parts the groups kept. -/
def joinMask (m : Mem) (g at_ : Nat) : BitVec 8192 :=
  BitVec.ofNat 8192 ((List.range g).foldl (fun z i => z + Mem.getLE m (at_ + 2048 * i) 128 * 2 ^ (1024 * i)) 0)

/-- The vector registers, masks and scales of an area. -/
def loadVectors (m : Mem) (b : Nat) (l : Lanes) : Lanes :=
  { l with v := Vector.ofFn (fun i => BitVec.ofNat 4096 (Mem.getLE m (b + 0x15080 + 512 * i.val) 512))
           m := Vector.ofFn (fun i => BitVec.ofNat 8192 (Mem.getLE m (b + 0x7480 + 1024 * i.val) 1024))
           z := Vector.ofFn (fun i => BitVec.ofNat 4096 (Mem.getLE m (b + 0x9480 + 512 * i.val) 512)) }

def loadLanes (m : Mem) (b g : Nat) (l : Lanes) : Lanes :=
  let same := (Mem.dw m (b + 0x3488)).setWidth 52 == l.off
  let l := { loadVectors m b l with memStall := false }
  if l.busy then
    { l with peerWait := l.peerWait && same, ahead := if same then l.ahead else []
             off := (Mem.dw m (b + 0x3488)).setWidth 52, f := joinMask m g (b + 0x3490)
             frags := (List.range (min 8 (Mem.dw m (b + 0x3510)).toNat)).map (fun j =>
               { off := (Mem.dw m (b + 0x3520 + 144 * j)).setWidth 52, f := joinMask m g (b + 0x3528 + 144 * j) }) }
  else l

/-- A pair as the image at b describes it (R302, R339). -/
def loadPair (s : State) (b : Nat) (q : Pair) : Pair :=
  let m := s.mem
  let cnt := Mem.dw m (b + 0xA88)
  let bqw := Mem.getLE m (b + 0xA80) 8
  let g := q.held.length
  let rows : Nat → Nat → List Row → List Row := fun at_ n old => loadRows m b 8 n at_ old
  -- the offset of STRIPPC goes with it, unless the area holds another STRIPPC (R332)
  let place : Thread → Thread → Thread := fun old t =>
    if t.strippc = old.strippc then t else { t with soff := t.strippc.v.setWidth 52 - (s.region q.ctx.toNat t.strippc.t.toNat).base }
  { q with
    a := place q.a (loadThread m (b + 0x100) .A q.a)
    x := place q.x (loadThread m (b + 0x500) .X q.x)
    slipS := Mem.dw m (b + 0x850), slipV := Mem.dw m (b + 0x858), slipM := Mem.dw m (b + 0x860), slipO := Mem.dw m (b + 0x868)
    want := (Mem.dw m (b + 0x500 + 0x2A0 + 8 * 18)).setWidth 4
    sq := (List.range (bitsW cnt 5 0)).map (fun i => Mem.dw m (b + 0x900 + 8 * i))
    rq := (List.range (bitsW cnt 12 8)).map (fun i => Mem.dw m (b + 0xA00 + 8 * i))
    bq := (List.range (bitsW cnt 22 16)).map (fun i => bqw.testBit i)
    streams := Vector.ofFn (fun i => loadStream m (b + 0xB00 + 128 * i.val) (q.str i.val))
    chans := Vector.ofFn (fun i => { q.chans.getD i.val {} with
      wm := (Mem.dw m (b + 0x1300 + 16 * i.val)).setWidth 52, start := (Mem.dw m (b + 0x1308 + 16 * i.val)).setWidth 32 })
    blocks := (List.range q.blocks.length).map (fun i => loadBlock s m q.ctx.toNat (b + 0x1480 + 128 * i))
    lanes := loadLanes m b g q.lanes
    q := Vector.ofFn (fun i => rows (8 * i.val) 8 (q.q.getD i.val []))
    sr := Vector.ofFn (fun i => rows (32 + 8 * i.val) 8 (q.sr.getD i.val []))
    iq := rows 48 4 q.iq
    up := rows 52 8 q.up }

/-! ## Partition changes (R167) and lent groups (R25, R168) -/

/-- The set that holds once every change posted or decided has been applied. -/
def Pair.lastSet (q : Pair) : List Nat := q.later.getLastD ((q.parts.head?.map (·.2)).getD [])

/-- A partition change is posted, with its effective ordinal (R167 step 1). -/
def Pair.postNow (q : Pair) (set : List Nat) : Pair :=
  { q with parts := (max q.a.strip.toNat q.x.strip.toNat + 1, set) :: q.parts, pend := true }

/-- Changes wait in the Puppeteer to be posted to the pair (R167). -/
def Pair.waits (q : Pair) : Bool := q.pend || !q.later.isEmpty

/-- Post a partition change, or keep it until those before it have been posted and applied (R167). -/
def Pair.post (q : Pair) (set : List Nat) : Pair := if q.waits then { q with later := q.later ++ [set] } else q.postNow set

/-- The record of a partition change (R353 OP 2). -/
def changeRec (p : Nat) (q : Pair) (set : List Nat) : JRec :=
  { op := 2, ctx := q.ctx.toNat
    arg := BitVec.ofNat 64 (cluOf p + slotOf p * 2 ^ 6 + ((List.range 8).filter set.contains).foldl (fun n g => n + 2 ^ (8 + g)) 0) }

/-- The Puppeteer posts a partition change to pair p with its record, or keeps it until those before it have been applied (R167,
R354). -/
def postChange (s : State) (p : Nat) (set : List Nat) : State :=
  let q := s.pair p
  if q.waits then s.setPair p (q.post set)
  else journal (dieOf p) (changeRec p q set) (fun s => s.setPair p (q.post set)) s

/-- The first change that waits is posted, once the one before it has been applied. -/
def postNext (s : State) (p : Nat) : State :=
  let q := s.pair p
  match q.later with
  | [] => s
  | x :: t =>
    if q.pend || !puppeteerOn s (dieOf p) then s
    else journal (dieOf p) (changeRec p q x) (fun s => s.setPair p ({ q with later := t }.postNow x)) s

/-- The record of a resumption (R353 OP 5). -/
def resumeRec (s : State) (p : Nat) (skip : Bool) : JRec :=
  { op := 5, ctx := (s.pair p).ctx.toNat, arg := BitVec.ofNat 64 (p % 160 + skip.toNat * 256) }

/-- A lane group of a cluster belongs to nobody and works (R166). -/
def groupFree (s : State) (cl g : Nat) : Bool :=
  (s.cluster cl).mask.getLsbD g && (s.cluster cl).lpr.getD g 7#3 == 7#3
    && (List.range 4).all (fun k => !((s.pair (4 * cl + k)).owned.contains g))

/-- Requests to peers that the threads and lanes of a pair no longer wait for. -/
def dropStale (s : State) (p : Nat) : State :=
  let q := s.pair p
  let gone : PeerReq → Bool := fun r => r.p == p && ((r.tag == 0 && !(q.thr r.k).asked) || (r.tag == 1 && !q.lanes.peerWait))
  { s with peers := s.peers.map (fun r => if gone r then { r with tag := 99 } else r) }

/-- A trapping thread goes on at an address, or past it. Past the word, at another one, or where code has been replaced (R291), nothing of
the word is under way any more. -/
def Thread.goOn (t : Thread) (at_ : Val) (skip new_ : Bool) : Thread :=
  let t := if skip || new_ || at_ != t.pc then { t.anew with fetched := false, inBar := false, parkWait := false } else t
  let t := { t with pc := if skip then { at_ with v := at_.v + 4#64 } else at_, stalls := 0, wait := .none, onRgn := none }
  if skip then { t with resv := none, vflags := 0#5, vmid := false } else t

/-- The scalar trap that waits under a block word's is answered; the pair stays parked for that (R289). -/
def answerUnder (s : State) (p : Nat) (skip : Bool) : State :=
  match (s.pair p).under with
  | none => s
  | some u =>
    dropStale (s.updPair p (fun q =>
      let t := q.thr u.k
      -- the X thread's own TRAPPC has been written over by the block word's
      let at_ : Val := if u.k = .X then { t.pc with v := t.pc.v &&& 0xFFFFFFFFFFFFF#64 } else t.tpc
      { q.setThr u.k (t.goOn at_ skip (u.cause.toNat % 256 == 8)) with under := none, svcDue := false, svcAns := none })) p

/-- A block word's trap is answered while a scalar trap of the pair still waits: the lanes go on, and the pair stays parked for that one,
which the trap CSRs of its thread describe again (R289, log 103). -/
def answerBlock (s : State) (p : Nat) (u : Under) : State :=
  s.updPair p (fun q =>
    let back : Thread → Thread := fun t =>
      { t with tcause := u.cause, tval := u.val, tpc := { t.pc with v := t.pc.v &&& 0xFFFFFFFFFFFFF#64 }, telem := u.elem }
    { q with lanesHeld := false, trapK := u.k, trapBlk := false, under := none, x := if u.k = .X then back q.x else q.x })

/-- A pair stays parked when its latest trap is answered, for a scalar trap before that one is not (R289). -/
def Pair.owes (q : Pair) : Bool := q.trapBlk && q.under.isSome

/-- Resume a parked pair at TRAPPC, or past it (R288, R291). An area it was saved in where it stands (R310) is free again. -/
def resumeNow (s : State) (p : Nat) (skip : Bool) : State :=
  match (if (s.pair p).trapBlk then (s.pair p).under else none) with
  | some u => answerBlock s p u
  | none =>
    let area := (s.pair p).area
    let s := (rebasePair s p).updPair p (fun q =>
      -- a thread that had parked for a move that is over issues again (R18)
      let wake : Thread → Thread := fun t => if t.halt = .move ∧ q.movePend.isEmpty then { t with halt := .none } else t
      let t := q.thr q.trapK
      let q := if q.trapBlk then q else q.setThr q.trapK (t.goOn t.tpc skip (t.tcause.toNat % 256 == 8))
      { q with st := .running, lanesHeld := false, resume := none, svcDue := false, svcAns := none, area := none, under := none
               a := wake q.a, x := wake q.x })
    dropStale { s with areas := s.areas.filter (fun i => area != some i) } p

/-- A pair that took an uncorrectable data error: it is not resumed, and its groups are released as at exit (R240). -/
def Pair.dead (q : Pair) : Bool := q.st == .parked && (q.thr q.trapK).tcause.toNat % 256 == 0x0A

/-- A pair of a cluster that holds lane groups, or is to hold them. -/
def Pair.holds (q : Pair) : Bool :=
  q.st == .posted || ((q.st == .running || q.st == .parked || q.st == .dbg) && q.x.halt != .exited && !q.dead)

/-- A borrower that has been promised groups of o and has yet to take them at its strip (R25). -/
def Pair.awaits (q : Pair) (o : Nat) (lent : List Nat) : Bool :=
  q.lender == some o && q.holds && ((q.pend && ((q.parts.head?.map (·.2)).getD []).any lent.contains) || q.later.any (fun l => l.any lent.contains))

/-- Lent groups go back to their owner once nobody runs on them or is about to: its vector state is restored, and it is resumed if
it waits for that, with the record of it (R25, R168, R354). A group that has failed meanwhile reads 7 in LPR (R166). -/
def returnLent (s : State) (o : Nat) : State :=
  let q := s.pair o
  let cl := clusterOf o
  let used := (List.range 4).any (fun k =>
    (s.pair (4 * cl + k)).owned.any (fun g => q.lent.contains g) || (s.pair (4 * cl + k)).awaits o q.lent)
  match q.resume with
  | none => s
  | some skip =>
    if q.lent.isEmpty || used || !puppeteerOn s (dieOf o) then s
    else
      let lanes := match q.area with
        | some i => loadVectors s.mem (areaBase s i) q.lanes
        | none => q.lanes
      let s := q.lent.foldl (fun s g => setLpr s cl g (BitVec.ofNat 3 (slotOf o))) s
      let s := s.setPair o { q with owned := q.lent, lent := [], lanes := lanes, area := none }
      let s := { s with areas := s.areas.filter (fun i => q.area != some i)
                        pairs := s.pairs.map (fun e => (e.1, if e.2.lender = some o then { e.2 with lender := none } else e.2)) }
      journal (dieOf o) (resumeRec s o skip) (fun s => resumeNow s o skip) s

/-- Resume a parked pair (R288). Groups it has lent come back first: the borrower is posted the loss of them (R25). -/
def resumePair (s : State) (p : Nat) (skip : Bool) : State :=
  let q := s.pair p
  if q.st != .parked then s
  else if q.lent.isEmpty || q.owes then resumeNow s p skip
  else
    let s := s.setPair p { q with resume := some skip }
    let cl := clusterOf p
    let s := (List.range 4).foldl (fun s k =>
      let b := 4 * cl + k
      let qb := s.pair b
      if qb.lender = some p ∧ qb.lastSet.any (fun g => q.lent.contains g) then
        postChange s b (qb.lastSet.filter (fun g => !q.lent.contains g))
      else s) s
    returnLent s p

/-- A pair holds a lane group, or is to hold it after some change that is posted or decided; one it has lent counts for those who borrow it
(R398). -/
def Pair.counts (q : Pair) (g : Nat) : Bool :=
  q.holds && !q.lent.contains g && (q.owned.contains g || (q.parts.head?.any (fun x => x.2.contains g)) || q.later.any (·.contains g))

/-- Lane groups that the pairs of an interface hold on die d, or are to hold: a group that goes from one of them to another counts once
(R364, R398). -/
def vfGroups (s : State) (d v : Nat) : Nat :=
  let mine := s.pairs.filter (fun e => decide (e.1 < 1280) && dieOf e.1 == d && vfOf s e.2.ctx.toNat == some v)
  ((mine.map (fun e => clusterOf e.1)).eraseDups.map (fun cl =>
    ((List.range 8).filter (fun g => mine.any (fun e => clusterOf e.1 == cl && e.2.counts g))).length)).sum

/-- How many more lane groups a pair of context c may be given on die d (R364): any number where no interface owns the context. -/
def vfRoom (s : State) (d c : Nat) : Nat :=
  match vfOf s c with
  | none => 8
  | some v => bitsW ((s.vf v).rule 5) 15 0 - vfGroups s d v

/-- A working lane group that no pair owns, and that none is to be given (R398). -/
def groupSpare (s : State) (cl g : Nat) : Bool :=
  groupFree s cl g && (List.range 4).all (fun k => !((s.pair (4 * cl + k)).holds && (s.pair (4 * cl + k)).lastSet.contains g))

/-- Lane groups that no pair owns go to the pairs of the cluster that want more, those of launch (c, ring, idx) first, in slot
order, lowest-numbered groups first (R168, R398); the Puppeteer posts the changes where it works (R351). -/
def giveSpare (s : State) (cl c ring idx : Nat) : State :=
  if !puppeteerOn s (cl / 40) then s else
  let all := (List.range 4).map (fun k => 4 * cl + k) |>.filter (fun r => (s.pair r).holds && (s.pair r).st != .posted)
  let same : Nat → Bool := fun r => (s.pair r).ctx.toNat == c && (s.pair r).pl.ring == ring && (s.pair r).pl.idx == idx
  let order := all.filter same ++ all.filter (fun r => !same r)
  (order.foldl (fun (x : State × List Nat) r =>
    let q := x.1.pair r
    let n := min (min 8 q.want.toNat - q.lastSet.length) (vfRoom x.1 (dieOf r) q.ctx.toNat)
    if n = 0 ∨ x.2.isEmpty then x
    else (postChange x.1 r ((List.range 8).filter (fun g => q.lastSet.contains g || (x.2.take n).contains g)), x.2.drop n))
    (s, (List.range 8).filter (groupSpare s cl))).1

/-- The pairs of a cluster give up, at their next strips, the groups of which LANEMASK says that they do not work; the Puppeteer posts the
changes where it works (R168). -/
def dropFailed (s : State) (cl : Nat) : State :=
  if !puppeteerOn s (cl / 40) then s
  else (List.range 4).foldl (fun s k =>
    let q := s.pair (4 * cl + k)
    let set := q.lastSet.filter (s.cluster cl).mask.getLsbD
    if q.holds && q.lastSet != set then postChange s (4 * cl + k) set else s) s

/-- Lane groups that pair p has given up go on (R168), and those that are spare when it writes LANEWANT, where no launch has given them up
and its own comes first (R398, log 106). -/
def giveGroups (s : State) (p : Nat) : State :=
  let q := s.pair p
  giveSpare s (clusterOf p) q.ctx.toNat q.pl.ring q.pl.idx

/-! ## Stopping and saving a pair -/

/-- No fill of a bank of pair p is in progress or waiting (R228). -/
def fillsDone (s : State) (p : Nat) : Bool :=
  (List.range 4).all (fun b =>
    let k := s.bank (clusterOf p) b
    k.owner != some p || (k.st != .filling && k.next.isNone))

/-- A thread that issues nothing until its pair is saved, stopped or resumed. -/
def Thread.still (t : Thread) : Bool := t.halt == .exited || t.halt == .preempt || t.halt == .debug

/-- Both threads of a pair stand still. -/
def Pair.still (q : Pair) : Bool := q.st == .parked || q.st == .dbg || q.st == .exited || (q.a.still && q.x.still)

/-- A thread stops at its instruction boundary (R302). A request it has made of a peer stays on its way, and its answer waits for the
word, so that nothing is made twice (R101, R279). -/
def Thread.stop (t : Thread) : Thread := if t.halt = .exited then t else { t with halt := .preempt }

/-- The cores of a pair keep no clean line (R104): what a pair does there next sees the homes (R247, R249). -/
def freshCores (s : State) (p : Nat) : State := invalidateClean (invalidateClean s (coreOf p .A)) (coreOf p .X)

/-- The accesses of a pair's threads and lanes are performed, the store buffers drained, and the dirty lines of its cores written
back; the lines, clean now, leave the cores (R104, R133, R302). -/
def quiesce (s : State) (p : Nat) : State :=
  let s := settle s p
  freshCores (writeBackAll (writeBackAll s (coreOf p .A)) (coreOf p .X)) p

/-- The save area of a running pair whose threads no longer stand still is free again (R310). -/
def freeStill (s : State) (p : Nat) : State :=
  let q := s.pair p
  let stands : Thread → Bool := fun t => t.halt == .preempt || t.halt == .debug
  match q.area with
  | some i =>
    if q.st = .running ∧ !(stands q.a) ∧ !(stands q.x) then
      { s.updPair p (fun q => { q with area := none }) with areas := s.areas.filter (fun j => j != i) }
    else s
  | none => s

/-- A hard stop of every thread of a pair (R302). -/
def hardStop (s : State) (p : Nat) : State :=
  let rec_ : Pair → Thread → Thread := fun q t => if t.gens.isEmpty then { t with gens := genRecord s q t } else t
  (quiesce s p).updPair p (fun q => { q with a := (rec_ q q.a).stop, x := (rec_ q q.x).stop })

/-- The key of a saved pair (log 22). -/
def savedKey (p i : Nat) : Nat := 1280 * (i + 1) + p % 1280

/-- The unit has no more use for what it asked. -/
def dropUnit (s : State) (who : UnitId) : State :=
  { s with unitGot := s.unitGot.filter (fun g => g.1 != who)
           peers := s.peers.map (fun q => if q.tag = 98 ∧ q.who = some who then { q with tag := 99 } else q) }

/-- What the signal cues of a pair's threads have asked of peers is of no more use (R318). -/
def dropCues (s : State) (p : Nat) : State := dropUnit (dropUnit s (.cue p .A)) (.cue p .X)

/-- Another name for a pair wherever the machine refers to it. -/
def renamePair (s : State) (d p p' : Nat) : State :=
  let f : Nat → Nat := fun x => if x = p then p' else x
  let s := dropCues s p
  let s := s.updDie d (fun t => { t with groups := t.groups.map (fun g => { g with members := g.members.map f })
                                         cards := t.cards.map (fun c => { c with p := c.p.map f }) })
  let q := s.pair p
  { s with pairs := (Tab.set (Tab.del s.pairs p) p' q).map (fun e => (e.1, { e.2 with lender := e.2.lender.map f }))
           peers := s.peers.map (fun r => if r.tag < 97 then { r with p := f r.p } else r)
           rota := s.rota.filter (fun a => match a with
             | .thr x _ => x != p
             | .lanes x => x != p
             | .engine x => x != p
             | _ => true) }

/-- The groups a pair has lent belong from now on to those who run on them, and the others to nobody (R22, R302). -/
def forgetLoan (s : State) (p : Nat) : State :=
  let cl := clusterOf p
  let s := (s.pair p).lent.foldl (fun s g =>
    match (List.range 4).find? (fun k => (s.pair (4 * cl + k)).owned.contains g) with
    | some k => setLpr s cl g (BitVec.ofNat 3 k)
    | none => setLpr s cl g 7#3) s
  { s with pairs := s.pairs.map (fun e => (e.1, if e.2.lender = some p then { e.2 with lender := none } else e.2)) }

/-- What the area a pair already has holds comes back into the pair, and the area is free: a stopped pair's whole state (R339), the
vector state of one whose groups are lent (R168). -/
def takeArea (s : State) (p : Nat) : State :=
  let q := s.pair p
  match q.area with
  | none => s
  | some j =>
    let q := if q.st = .dbg then
        let l := loadPair s (areaBase s j) q
        -- rows that the stage before has pushed since the stop stay behind those of the area (R115, R124)
        { l with up := l.up ++ q.up.drop q.upSaved }
      else if q.lent.isEmpty then q else { q with lanes := loadVectors s.mem (areaBase s j) q.lanes }
    dropStale { s.setPair p { q with area := none } with areas := s.areas.filter (· != j) } p

/-- Save pair p into area i: its banks become EMPTY, its groups are released and its slot is free (R228, R302). A pair whose groups
are lent is saved with as many groups as it lent (R22). -/
def savePair (s : State) (p i reason : Nat) : State :=
  let s := rebasePair (quiesce (takeArea s p) p) p
  let was := (s.pair p).st
  let s := writeArea s p i reason
  let why := (List.range 4).map (fun b => (s.bank (clusterOf p) b).badWhy)
  let owned := (s.pair p).held
  let s := releaseBanks (releaseGroups (forgetLoan s p) p) p
  let s := s.updPair p (fun q => { q with st := .saved, area := some i, why := reason, badWhy := why, owned := owned, lent := [], softPend := false,
                                          movePend := [], back := if was = .dbg then q.back else was, dbgSaved := was == .dbg })
  let o := (s.pair p).lender
  let s := renamePair (s.updPair p (fun q => { q with lender := none })) (dieOf p) p (savedKey p i)
  -- the groups it had borrowed are free now (R25)
  match o with
  | some o => returnLent s o
  | none => s

/-- Save areas for n pairs, if the pool has them. -/
def freeAreas (s : State) (n : Nat) : Option (List Nat) :=
  let l := ((List.range (16 * bitsW s.savepool 63 52)).filter (fun i => !s.areas.contains i)).take n
  if l.length = n then some l else none

def Die.group (d : Die) (ring idx t : Nat) : Option Group := d.groups.find? (fun g => g.ring == ring && g.idx == idx && g.t == t)

/-- Change a group. -/
def State.updGroup (s : State) (d ring idx t : Nat) (f : Group → Group) : State :=
  s.updDie d (fun x => { x with groups := x.groups.map (fun g => if g.ring == ring && g.idx == idx && g.t == t then f g else g) })

/-- A SAVING group becomes SAVED once every thread of every pair stands still and no fill runs (R276, R302). -/
def trySave (s : State) (d : Nat) (g : Group) : State :=
  if g.st = .saving ∧ g.members.all (fun p => (s.pair p).still && fillsDone s p) then
    let live := g.members.filter (fun p => (s.pair p).st != .exited)
    match freeAreas s live.length with
    | none => s
    | some is =>
      let was := live.map (fun p => (clusterOf p, (s.pair p).ctx.toNat))
      let s := (List.range live.length).foldl (fun s n => savePair s (live.getD n 0) (is.getD n 0) (s.pair (live.getD n 0)).why) s
      let s := was.foldl (fun s c => giveSpare s c.1 c.2 g.ring g.idx) s
      s.updGroup d g.ring g.idx g.t (fun g => { g with st := .saved })
  else s

/-- The take group of a pair. -/
def groupOf (s : State) (p : Nat) : Option Group := (s.die (dieOf p)).groups.find? (fun g => g.members.contains p)

/-- Try to save the group of a pair, after something it waited for has happened. -/
def trySaveOf (s : State) (p : Nat) : State :=
  match groupOf s p with
  | some g => trySave s (dieOf p) g
  | none => s

/-! ## Pre-emption (R276, R302) -/

/-- The record of a pre-emption: 0 soft, 1 hard (R353 OP 4). -/
def preemptRec (s : State) (g : Group) (hard : Nat) : JRec :=
  { op := 4, ctx := (g.members.head?.map (fun p => (s.pair p).ctx.toNat)).getD 0, ring := g.ring, idx := g.idx
    arg := BitVec.ofNat 64 g.t, aux := BitVec.ofNat 64 hard }

/-- A soft pre-emption of a RUNNING group, unless the pool is full (R303). -/
def softAct (s : State) (d : Nat) (g : Group) : State :=
  if g.st = .running ∧ (freeAreas s g.members.length).isSome then
    let s := s.updGroup d g.ring g.idx g.t (fun g => { g with st := .saving })
    let s := g.members.foldl (fun s p => s.updPair p (fun q => { q with softPend := true, why := 0 })) s
    match (s.die d).group g.ring g.idx g.t with
    | some g => trySave s d g
    | none => s
  else s

/-- The Puppeteer posts a soft pre-emption, with its record (R354). -/
def postSoft (s : State) (d : Nat) (g : Group) : State :=
  if g.st = .running ∧ (freeAreas s g.members.length).isSome then journal d (preemptRec s g 0) (fun s => softAct s d g) s else s

/-- A hard pre-emption of a RUNNING or SAVING group, unless the pool is full. -/
def hardAct (s : State) (d : Nat) (g : Group) (reason : Nat) : State :=
  if (g.st = .running ∨ g.st = .saving) ∧ (freeAreas s g.members.length).isSome then
    let s := s.updGroup d g.ring g.idx g.t (fun g => { g with st := .saving })
    let s := g.members.foldl (fun s p =>
      (if (s.pair p).still then s else hardStop s p).updPair p (fun q => { q with softPend := true, why := reason })) s
    match (s.die d).group g.ring g.idx g.t with
    | some g => trySave s d g
    | none => s
  else s

/-- The Puppeteer posts a hard pre-emption, with its record (R354). -/
def postHard (s : State) (d : Nat) (g : Group) (reason : Nat) : State :=
  if (g.st = .running ∨ g.st = .saving) ∧ (freeAreas s g.members.length).isSome then
    journal d (preemptRec s g 1) (fun s => hardAct s d g reason) s
  else s

/-! ## Restoring (R276, R302, R304) -/

/-- A partition's groups under the groups a pair is restored on, for a change that was pending or waiting when it was saved: the first of
the new groups, or all of them and the lowest-numbered others (log 22). -/
def remapSet (new_ set : List Nat) : List Nat :=
  if set.length ≤ new_.length then new_.take set.length
  else new_ ++ ((List.range 8).filter (fun g => !new_.contains g)).take (set.length - new_.length)

/-- The banks an image holds go back into the cluster, owned by p (R228). -/
def loadBanks (s : State) (p b : Nat) (why : List Nat) : State :=
  (List.range 4).foldl (fun s n =>
    let st := bitsW (Mem.dw s.mem (b + 0x1380 + 64 * n)) 1 0
    if st = 0 then s
    else
      let h : Hdr := Vector.ofFn (fun i => Mem.dw s.mem (b + 0x1388 + 64 * n + 8 * i.val))
      s.setBank (clusterOf p) n
        { st := if st = 2 then .ready else .bad, owner := some p, h := h, badWhy := why.getD n 1
          image := Mem.slice s.mem (b + 0x1D080 + 80 * 1024 * n) (Hdr.valLen h + Hdr.metaLen h + Hdr.scaleLen h) }) s

/-- Restore the saved pair `key` at place p on the given lane groups. -/
def restorePair (s : State) (key p : Nat) (groups : List Nat) : State :=
  let q := s.pair key
  match q.area with
  | none => s
  | some i =>
    let b := areaBase s i
    let q := loadPair s b q
    let q := { q with st := if q.dbgSaved then .dbg else q.back, area := none, owned := groups, softPend := false, dbgSaved := false
                      parts := q.parts.map (fun e => (e.1, remapSet groups e.2)), later := q.later.map (remapSet groups) }
    let s := renamePair s (dieOf p) key p
    let s := groups.foldl (fun s g => setLpr s (clusterOf p) g (BitVec.ofNat 3 (slotOf p))) (s.setPair p q)
    let s := dropStale (freshCores (loadBanks s p b q.badWhy) p) p
    let s := { s with areas := s.areas.filter (· != i), rota := s.rota ++ [.thr p .A, .thr p .X, .lanes p, .engine p] }
    -- one that was parked or stopped stays so: a move of a region it holds is applied when it goes on (R309)
    let s := if q.st = .parked ∨ q.st = .dbg then s.updPair p (noteGens s) else s
    match q.st, q.resume with
    | .parked, some skip => journal (dieOf p) (resumeRec s p skip) (fun s => resumeNow s p skip) s
    | _, _ => s

/-! ## The debugger's stops (R339) -/

/-- Both threads of a pair have stopped for the debugger, and no fill of its banks runs: its state is written to a save area
(R228, R339). -/
def debugSave (s : State) (p : Nat) : State :=
  let q := s.pair p
  if (q.a.halt = .debug ∨ q.a.halt = .exited) ∧ (q.x.halt = .debug ∨ q.x.halt = .exited)
      ∧ (q.st = .running ∨ q.st = .parked) ∧ (q.a.halt = .debug ∨ q.x.halt = .debug) ∧ fillsDone s p then
    let s := rebasePair (quiesce s p) p
    match (match q.area with
      | some i => some i
      | none => freeArea s) with
    | some i => (writeArea s p i 4).updPair p (fun q => { q with st := .dbg, back := q.st, area := some i, upSaved := q.up.length, dbgPend := 0 })
    -- with the pool full it stands as it is: its streams start again, and its registers are rebased, when it goes on (log 22)
    | none => s.updPair p (fun q => noteGens s { q with st := .dbg, back := q.st, dbgPend := 0, streams := mapV Stream.requeue q.streams })
  else s

/-- Run (0) or step (3) a stopped pair: its state is reloaded from the save area and each thread goes on; one that was parked is
parked still. -/
def debugResume (s : State) (p pend : Nat) : State :=
  let q := s.pair p
  if q.st = .dbg then
    let live : Thread → Thread := fun t => if t.halt = .exited then t else { t with halt := .none }
    let s := if q.area.isSome then takeArea s p else rebasePair s p
    s.updPair p (fun q =>
      let q := { q with dbgPend := pend, a := live q.a, x := live q.x }
      if q.back = .parked then noteGens s { q with st := .parked } else { q with st := .running })
  else s

/-- A thread stops for a debugger: triggers are offered the event, and a kind-6 record says how: 0 stop, 1 hard stop, 2 the
end of a step (R333, R335). -/
def stopSlate (s : State) (p : Nat) (k : Kind) (how : Nat) : State := observe s p k [(5, 0)] (some (6, [BitVec.ofNat 64 how]))

/-- Stop every thread of a pair where it stands (R339). -/
def debugHard (s : State) (p : Nat) : State :=
  let q := s.pair p
  let stop : State → Kind → State := fun s k =>
    if (q.thr k).halt = .exited ∨ (q.thr k).halt = .debug then s
    else stopSlate (s.updThr p k (fun t => { t with halt := .debug, gens := if t.gens.isEmpty then genRecord s q t else t.gens })) p k 1
  debugSave (stop (stop (quiesce s p) .A) .X) p

/-! ## The safe point (R18, R113) -/

/-- Park the thread that has the turn: the GEN of every tag it holds is recorded (R309). A thread the debugger stops before its word
does not stop there again when it goes on (R339). -/
def haltAt (s : State) (h : Halt) (past : Bool) : State :=
  let s := if past then s.retire else s
  let q := s.pair s.me
  s.updThr s.me s.meK (fun t => { t with halt := h, gens := genRecord s q t, wait := .other, atSafe := t.atSafe || (h == .debug && !past) })

/-- Steps 1 to 3 of R18: the state in which the thread stands still, if an action that is due stops it. `past` says that a
thread saved or stopped here resumes after the word. -/
def safePoint (s : State) (past : Bool) : Option State :=
  match s.cur with
  | .thr p _ =>
    let q := s.pair p
    if !q.movePend.isEmpty then some (haltAt s .move false)
    else if (q.dbgPend = 1 ∨ q.dbgPend = 3) ∧ !s.thr.atSafe then
      -- where a save is due too, the thread comes back to this safe point for it (R113)
      some (debugSave (stopSlate (haltAt s .debug (past && !q.softPend)) p s.meK (if q.dbgPend = 3 then 2 else 0)) p)
    else if q.softPend then some (trySaveOf (haltAt s .preempt past) p)
    else none
  | _ => none

end Sys2Proof.Machine
end

