-- ==== Sys2Proof/Machine/VectorConf.lean ====
section
/-! DEFINITION. The instructions that shape strips and dispatch blocks (R162, R167, R169-R172). -/

namespace Sys2Proof.Machine

/-- A word that is illegal inside a cue (R321). -/
def noCue (i : Instr) (s : State) : Res Unit := if s.thr.incue then trapR 0x01#8 (wordOf i) else .ok ()

/-! ## setvl (R162) -/

/-- VL granted on g lane groups. -/
def grant (g : Nat) (sew : BitVec 3) (lmul : BitVec 2) (avl cap : Nat) : Nat :=
  let vlmax := 512 * g * 2 ^ lmul.toNat / (4 * 2 ^ sew.toNat)
  min avl (min vlmax (if cap = 0 then vlmax else cap))

/-- The counters of a pair as a kind-2 Slate holds them (R333). -/
def slips (q : Pair) : List Word := [q.slipS, q.slipV, q.slipM, q.slipO]

/-- The records of an X thread's `setvl`: kind 7 (R333), then the sample that MODE 1 asks for (R337). -/
def stripSlates (s : State) (avl : Nat) : State :=
  let p := s.me
  let t := s.thr
  let c := (s.die (dieOf p)).sampctl
  let s := threadSlate s p .X 7 [BitVec.ofNat 64 (t.vtype.toNat + t.rc.toNat * 2 ^ 8), BitVec.ofNat 64 avl]
  if bitsW c 1 0 = 1 ∧ t.strip.toNat % 2 ^ bitsW c 7 2 = 0 then threadSlate s p .X 2 (slips (s.pair p)) else s

/-- What `setvl` does once the actions of the safe point are done: the strip begins under the partition now in force. -/
def beginStrip (s : State) (d : XReg) (avl cap : Nat) (blk : BitVec 3) (lmul : BitVec 2) (sew : BitVec 3) : State :=
  let q := s.pair s.me
  let ord := s.thr.strip + 1#64
  let vl := grant (setFor q.parts ord.toNat).length sew lmul avl cap
  let pc := s.pc
  let s := s.updThr s.me s.meK (fun t =>
    { t with vl := BitVec.ofNat 14 vl, vtype := blk ++ lmul ++ sew, vstart := 0#13, strip := ord, strippc := pc,
             soff := pc.v.setWidth 52 - (s.region q.ctx.toNat pc.t.toNat).base })
  let s := if s.meK = .X then stripSlates (postNext s s.me) avl else s
  (s.wx d ⟨BitVec.ofNat 64 vl, untag⟩).retire

/-- Step 3 of R167 at the X thread's safe point before ordinal E: none when no change falls due; else the state in which the
groups given up are released, with those taken when all of them are free (true), or still waited for (false). -/
def applyPartition (s : State) : Option (State × Bool) :=
  let p := s.me
  let q := s.pair p
  match q.parts with
  | (e, set) :: _ =>
    if s.meK = .X ∧ q.pend ∧ e = s.thr.strip.toNat + 1 then
      if !q.blocks.isEmpty then some (s, false)
      else
        let cl := clusterOf p
        let drop := q.owned.filter (fun g => !set.contains g)
        let take := set.filter (fun g => !q.owned.contains g)
        let s := drop.foldl (fun s g => freeLpr s cl g) s
        let s := s.updPair p (fun q => { q with owned := q.owned.filter set.contains })
        let s := if drop.isEmpty then s else giveGroups s p
        let s := match q.lender with
          | some o => returnLent s o
          | none => s
        let works : Nat → Bool := fun g => (s.cluster cl).mask.getLsbD g
        let idle : Nat → Bool := fun g => (List.range 4).all (fun k => !((s.pair (4 * cl + k)).owned.contains g))
        -- a group that failed since the change was posted is taken, and given up at the next strip (R168)
        let free : Nat → Bool := fun g => groupFree s cl g || (idle g && (!works g || (match q.lender with
          | some o => (s.pair o).lent.contains g
          | none => false)))
        if take.all free then
          let s := take.foldl (fun s g => if (s.cluster cl).lpr.getD g 7#3 = 6#3 ∨ !works g then s else setLpr s cl g (BitVec.ofNat 3 (slotOf p))) s
          let changed := !drop.isEmpty || !take.isEmpty
          let f := s.fresh
          let s := s.updPair p (fun q => { q with owned := set, pend := false, lanes := if changed then
            { q.lanes with v := Vector.ofFn (fun i => Config.freeV f i.val), m := Vector.ofFn (fun i => Config.freeM f i.val),
                           z := Vector.ofFn (fun i => Config.freeZ f i.val) } else q.lanes })
          some ({ s with fresh := s.fresh + 1 }, true)
        else some (s, false)
    else none
  | [] => none

/-- R162: begin a strip. -/
def execSetvl (d a b : XReg) (blk : BitVec 3) (lmul : BitVec 2) (sew : BitVec 3) (s : State) : Out :=
  let i : Instr := .setvl d a b blk lmul sew
  let avl := (s.rx a).v.toNat
  let cap := (s.rx b).v.toNat
  scalar i s
    (match noCue i s with
     | .error e => .error e
     | .ok _ =>
       match safePoint s false with
       | some s' => .ok s'
       | none =>
         match applyPartition s with
         | none => .ok (beginStrip s d avl cap blk lmul sew)
         | some (s', true) => .ok (beginStrip s' d avl cap blk lmul sew)
         | some (s', false) => .ok (s'.stall .other))

/-- R169: set RC. -/
def execSetrc (n : BitVec 4) (s : State) : Out :=
  scalar (.setrc n) s (.ok (s.updThr s.me s.meK (fun t => { t with rc := n })).retire)

/-! ## Dispatching blocks (R170) -/

/-- Append a block to the block queue; none when VL is 0, which dispatches nothing. -/
def dispatch (s : State) (t : Val) : Res State := do
  let p := s.me
  let q := s.pair p
  let th := s.thr
  let e := s.region q.ctx.toNat t.t.toNat
  let n := th.rc.toNat * th.vl.toNat
  if t.v.toNat % 8 != 0 then trapR 0x06#8 t.v
  if t.t == untag || !e.covers t.v.toNat 1 || !(e.kind == 1#2 && e.px) then trapR 0x05#8 t.v
  if 1024 * (q.curSet .X).length < n then trapR 0x01#8 (BitVec.ofNat 64 n)
  if th.vl == 0#14 then return s
  if q.pl.slip ≤ q.blocks.length then stallR .queueVec
  let b : Blk :=
    { rgn := t.t, off := t.v.setWidth 52 - e.base, b := Vector.ofFn (fun i => (th.rd (BitVec.ofNat 5 (24 + i.val))).v), vl := th.vl,
      vtype := th.vtype, rc := th.rc, strip := th.strip, spc := th.strippc, soff := th.soff }
  return s.updPair p (fun q => { q with blocks := q.blocks ++ [b] })

/-- The target of a PC-relative dispatch: its offset counts block words of eight bytes (R28). -/
def target8 (s : State) (off : BitVec 20) : Val := { s.pc with v := s.pc.v + (sextW off <<< 3) }

/-- Dispatch and retire. -/
def dispatchWord (i : Instr) (s : State) (t : Val) : Res State := do
  noCue i s
  let s ← dispatch s t
  return s.retire

/-- R170: dispatch a block at a PC-relative target. -/
def execVfetch (off : BitVec 20) (s : State) : Out := scalar (.vfetch off) s (dispatchWord (.vfetch off) s (target8 s off))

/-- R170: dispatch a block at an address in a register. -/
def execVfetchr (a : XReg) (imm : BitVec 15) (s : State) : Out :=
  scalar (.vfetchr a imm) s (dispatchWord (.vfetchr a imm) s { s.rx a with v := (s.rx a).v + sextW imm })

/-- R172: wait until the block queue is empty. -/
def execVwait (s : State) : Out :=
  scalar .vwait s (if (s.pair s.me).blocks.isEmpty then .ok s.retire else stallR .queueVec)

/-- R46: `vfetch`, then `vwait`. The block is dispatched once; the word then waits. -/
def vfetchwRun (s : State) (off : BitVec 20) : Res State := do
  noCue (.vfetchw off) s
  let s ← if s.thr.fetched then pure s else dispatch s (target8 s off)
  if (s.pair s.me).blocks.isEmpty then return (deprecated s).retire
  else return (s.updThr s.me s.meK (fun t => { t with fetched := true })).stall .queueVec

/-- R46: a deprecated dispatch that waits. -/
def execVfetchw (off : BitVec 20) (s : State) : Out := scalar (.vfetchw off) s (vfetchwRun s off)

end Sys2Proof.Machine
end

