-- ==== Sys2Proof/Machine/Launch.lean ====
section
/-! DEFINITION. Rings, packets and launches (R259-R287): the control block, reading a ring, the checks of a packet, taking
groups into pairs, the start and the exit of a pair, and completion. -/

namespace Sys2Proof.Machine

/-! ## The control block (R259, R261) -/

def cbAddr (s : State) (r : Nat) : Nat := bitsW s.ringbase 51 19 * 2 ^ 19 + 128 * r
/-- Doubleword i of the control block of ring r. -/
def cbW (s : State) (r i : Nat) : Word := Mem.dw s.mem (cbAddr s r + 8 * i)
def setCbW (s : State) (r i : Nat) (w : Word) : State := s.setMem (Mem.setLE s.mem (cbAddr s r + 8 * i) 8 w.toNat)
def ringCap (s : State) (r : Nat) : Nat := bitsW (cbW s r 3) 8 0
def ringCtx (s : State) (r : Nat) : Nat := bitsW (cbW s r 4) 9 0
def ringPrioMax (s : State) (r : Nat) : Nat := bitsW (cbW s r 4) 12 10
def ringFast (s : State) (r : Nat) : Bool := (cbW s r 4).getLsbD 13
def ringHome (s : State) (r : Nat) : Nat := bitsW (cbW s r 4) 16 14
def ringSpan (s : State) (r : Nat) : Nat := bitsW (cbW s r 4) 31 24
def ringState (s : State) (r : Nat) : Nat := bitsW (cbW s r 4) 33 32
def ringErr (s : State) (r : Nat) : Nat := bitsW (cbW s r 4) 47 40

/-- The dies that fetch a ring, rising. -/
def spanDies (s : State) (r : Nat) : List Nat := (List.range 8).filter (fun d => (ringSpan s r).testBit d)

def State.ring (s : State) (d r : Nat) : RingSt := Tab.get {} (s.die d).rings r
def State.setRing (s : State) (d r : Nat) (x : RingSt) : State := s.updDie d (fun t => { t with rings := Tab.set t.rings r x })

/-- A ring's control block lets it run (R277). -/
def ringRuns (s : State) (r : Nat) : Bool := ringState s r == 0 && ringErr s r == 0

/-- A packet of a ring is held on a die: it comes after a packet that this die, or HOME, has rejected, and the ring has not been set
running and kicked since. Packets before that one go on (R277). -/
def ringHeld (s : State) (d r idx : Nat) : Bool :=
  let x := s.ring d r
  (x.stopped && decide (x.rejected ≤ idx)) || (x.bar != 0 && decide (x.bar ≤ idx))
    || (!ringRuns s r && decide ((s.ring (ringHome s r) r).rejected ≤ idx))

/-! ## Kicks (R260, R262) -/

/-- The checks of a ring's first kick (R262). -/
def ringOk (s : State) (r : Nat) : Bool :=
  let ds := spanDies s r
  !ds.isEmpty && ds.contains (ringHome s r) && ds.all (fun d => (List.range 40).any (fun c => (s.cluster (40 * d + c)).works))
    && (!ringFast s r || ds.length == 1)

/-- The error fields of a ring's control block, which the HOME die writes, and the report to the host (R277). -/
def writeRingError (s : State) (r err tag : Nat) : State :=
  let w := (cbW s r 4 &&& ~~~0xFFFFFF0300000000#64) ||| BitVec.ofNat 64 (2 ^ 32 + err * 2 ^ 40 + tag * 2 ^ 48)
  (setCbW s r 4 w).send (.ring (ringHome s r) r err)

/-- A ring that no die knows has its first kick fail on a configuration that R262 does not allow: no die fetches it. -/
def failKick (s : State) (r : Nat) : State :=
  let s := (List.range 8).foldl (fun s d => s.setRing d r { s.ring d r with stopped := true, go := false }) s
  writeRingError s r 1 0

/-- A write to KICK: the pending bit of every die in the ring's SPAN; the first kick is checked (R260, R262). -/
def kick (s : State) (r : Nat) : State :=
  if !(List.range 8).any (fun d => (s.ring d r).known) && !ringOk s r then
    if ringState s r == 0 && ringErr s r == 0 then failKick s r else s
  else (spanDies s r).foldl (fun s d => s.updDie d (fun t => { t with kicks := t.kicks ||| (1#4096 <<< r) })) s

/-- The host writes KICK: where it has set a stopped ring running again, the dies may go on with it (R277). -/
def hostKick (s : State) (r : Nat) : State :=
  let s := kick s r
  if ringRuns s r then (spanDies s r).foldl (fun s d =>
    if (s.ring d r).stopped || (s.ring d r).bar != 0 then s.setRing d r { s.ring d r with go := true } else s) s
  else s

def Pkt.type (k : Pkt) : Nat := bitsW (k.w.getD 0 0#64) 7 0
def Pkt.word (k : Pkt) (i : Nat) : Word := k.w.getD i 0#64
def Pkt.indep (k : Pkt) : Bool := (k.word 0).getLsbD 8
def Pkt.tag (k : Pkt) : Nat := bitsW (k.word 0) 31 16

/-- The packet's fields of word 0 are legal (R266). -/
def Pkt.word0Ok (k : Pkt) (ctx : Nat) : Bool :=
  let w := k.word 0
  bitsW w 63 45 == 0 && bitsW w 15 10 == 0 && decide (1 ≤ k.type) && decide (k.type ≤ 8) && bitsW w 41 32 == ctx

/-- Change a packet a die holds. -/
def setPkt (s : State) (d r idx : Nat) (f : Pkt → Pkt) : State :=
  let x := s.ring d r
  s.setRing d r { x with pkts := x.pkts.map (fun k => if k.idx = idx then f k else k) }

/-! ## What units ask of peers (R267, R270, R271, R363) -/

/-- What a peer has answered a unit about an address: the word, or a failure. -/
def unitAnswer (s : State) (who : UnitId) (a : Nat) : Option (Option Word) :=
  (s.unitGot.find? (fun g => g.1 == who && g.2.1 == a)).map (fun g => g.2.2)

/-- What it has answered the unit's one write or atomic, wherever that went: performed, or failed. -/
def unitDone (s : State) (who : UnitId) : Option Bool := (s.unitGot.find? (fun g => g.1 == who)).map (fun g => g.2.2.isSome)

/-- A request of the unit is on its way. -/
def unitOut (s : State) (who : UnitId) : Bool := s.peers.any (fun q => q.tag == 98 && q.who == some who)

/-- Unit `who` of die d asks a peer, unless it has asked about that address. -/
def unitAsk (s : State) (d : Nat) (who : UnitId) (a op : Nat) (sent : List Byte) (n : Nat := 8) : State :=
  if s.peers.any (fun q => q.tag == 98 && q.who == some who && q.addrs == [a]) || (unitAnswer s who a).isSome then s
  else { s with peers := s.peers ++ [{ p := d * 160, k := .F, addrs := [a], op := op, size := n, sent := sent, tag := 98, who := some who }] }

/-! ## Order and retirement (R272, R273) -/

/-- A packet may start on a die: no wait or barrier before it is open, and but for INDEP every packet before it has started. -/
def canStart (x : RingSt) (k : Pkt) : Bool :=
  let before := x.pkts.filter (fun j => decide (j.idx < k.idx))
  before.all (fun j => j.done || !(j.type == 3 || j.type == 6)) && (k.indep || before.all (fun j => j.started))

/-- The packet of an index that a die has taken from a ring, when it is of a type, not done, and may start. -/
def duePkt (s : State) (d r idx type : Nat) : Option Pkt :=
  let x := s.ring d r
  if ringHeld s d r idx then none
  else (x.pkts.find? (fun k => k.idx == idx && k.type == type && !k.done)).filter (canStart x)

/-- A slot of a ring has retired: every die of SPAN has passed it and is done with it. -/
def slotRetired (s : State) (r i : Nat) : Bool :=
  (spanDies s r).all (fun d =>
    match (s.ring d r).pkts.find? (fun k => k.idx == i) with
    | some k => k.done
    | none => false)

/-- Slots a die reads at one go. -/
def readFuel : Nat := 512

/-- The home die advances READ over retired slots, and a reel whose link has retired goes onto the free list (R264). -/
def advanceRead (r : Nat) : Nat → State → State
  | 0, s => s
  | fuel + 1, s =>
    let i := (cbW s r 1).toNat
    if !slotRetired s r i then s
    else
      let s := match (s.ring (ringHome s r) r).pkts.find? (fun k => k.idx == i) with
        | some k =>
          if k.type = 4 then
            let reel := k.at_ - 64 * 63
            let f := cbW s r 2
            let s := s.setMem (Mem.setLE s.mem reel 8 (bitsW f 51 12 * 4096))
            setCbW s r 2 (BitVec.ofNat 64 ((bitsW f 63 52 + 1) % 4096 * 2 ^ 52 + reel))
          else s
        | none => s
      let s := setCbW s r 1 (BitVec.ofNat 64 (i + 1))
      let s := (spanDies s r).foldl (fun s d =>
        let x := s.ring d r
        s.setRing d r { x with pkts := x.pkts.filter (fun k => decide (i < k.idx)) }) s
      advanceRead r fuel s

/-- A die is done with a packet. -/
def finishPkt (s : State) (d r idx : Nat) : State :=
  advanceRead r readFuel (setPkt (dropUnit s (.pkt d r idx)) d r idx (fun k => { k with started := true, done := true }))

/-- A die rejects a packet (R277): it stops fetching the ring, unless HOME has rejected the packet and the ring has been set running
since; the packet retires (R272). HOME writes the error, which stops every
die, and the host is told. -/
def reject (s : State) (d r idx err : Nat) : State :=
  let x := s.ring d r
  let home := ringHome s r
  let behind := d != home && decide (idx < (s.ring home r).rejected) && ringRuns s r
  let tag := ((x.pkts.find? (fun k => k.idx == idx)).map Pkt.tag).getD 0
  let s := finishPkt (s.setRing d r { x with stopped := !behind, go := x.go && behind, rejected := idx + 1 }) d r idx
  if d = home then
    let s := (spanDies s r).foldl (fun s e => s.setRing e r { s.ring e r with bar := idx + 1, go := false }) s
    writeRingError s r err tag
  else s

/-! ## Reading forward (R264) -/

/-- Read a ring forward from the die's cursor, to the first slot that is not valid or is torn, or to a link (R264). -/
def readRing (d r : Nat) : Nat → State → State
  | 0, s => s
  | fuel + 1, s =>
    let x := s.ring d r
    let a := x.reel + 64 * (x.cursor % 64)
    let w : Vector Word 8 := Vector.ofFn (fun i => Mem.dw s.mem (a + 8 * i.val))
    let k : Pkt := { idx := x.cursor, at_ := a, w := w }
    if x.stopped || x.bar != 0 || !ringRuns s r || k.type == 0 || k.tag != (x.cursor + 1) % 2 ^ 16 then s.setRing d r { x with torn := false }
    else if bitsW (k.word 7) 15 0 != k.tag then
      setCbW (s.setRing d r { x with torn := true }) r 5 (cbW s r 5 + 1#64)
    else if k.type = 4 then s.setRing d r { x with torn := false, pkts := x.pkts ++ [k] }
    else
      let s := s.setRing d r { x with torn := false, pkts := x.pkts ++ [k], cursor := x.cursor + 1 }
      if 8 < k.type then reject s d r k.idx 2 else readRing d r fuel s

/-- A die's cursor on a ring it has not read before: the oldest slot not retired, in the reel that REELMAP gives for it (log 76). -/
def firstCursor (s : State) (r : Nat) (x : RingSt) : RingSt :=
  let i := (cbW s r 1).toNat
  { x with known := true, cursor := i, reel := bitsW (cbW s r (8 + i / 64 % 8)) 51 12 * 4096 }

/-- A die waits at a link it has read and not followed. -/
def atLink (x : RingSt) : Bool := x.pkts.any (fun k => k.type == 4 && !k.done)

/-- `RING_FETCH` (R264): the Clapper clears a set kick bit and reads forward. A die that has stopped fetching the ring goes on once the
host has set it running and kicked it (R277). -/
def ringFetch (d : Nat) (ring : BitVec 12) (s : State) : State :=
  let r := ring.toNat
  if !((s.die d).kicks.getLsbD r) then s
  else
    let s := s.updDie d (fun t => { t with kicks := t.kicks &&& ~~~(1#4096 <<< r) })
    let x := s.ring d r
    if !ringRuns s r || (x.stopped && decide ((s.ring (ringHome s r) r).rejected < x.rejected)) then s
    else
      let x := if x.go then { x with stopped := false, bar := 0, go := false } else x
      if x.stopped || x.bar != 0 then s
      else if !x.known then
        if ringOk s r then
          readRing d r readFuel (s.setRing d r (firstCursor s r x))
        else failKick s r
      else if atLink x then s.setRing d r x
      else readRing d r readFuel (s.setRing d r x)

/-- `TORN_RETRY` (R264): the Clapper reads a torn packet again. -/
def tornRetry (d : Nat) (ring : BitVec 12) (s : State) : State :=
  if (s.ring d ring.toNat).torn then readRing d ring.toNat readFuel s else s

/-! ## Slot words in packets (R267) -/

/-- What keeps a unit from a word it reads: the region the word lies in is away or moving, or it lies in a peer that is to be asked. -/
inductive Away where
  | region (r : Nat)
  | peer (a : Nat)
deriving DecidableEq, Repr

/-- Read n doublewords through a resolved address for a unit: the words, what keeps it from them, or a failure. -/
def unitWords (s : State) (who : UnitId) (c : Nat) (v : Val) (n : Nat) : Except (Option Away) (List Word) :=
  (List.range n).foldl (fun acc i => match acc with
    | .error e => .error e
    | .ok ws => match unitAccess s c .load { v with v := v.v + BitVec.ofNat 64 (8 * i) } 8 with
      | .ok h => .ok (ws ++ [Mem.dw s.mem h])
      | .wait r => .error (some (.region r))
      | .bad => .error none
      | .peer a => match unitAnswer s who a with
        | some (some w) => .ok (ws ++ [w])
        | some none => .error none
        | none => .error (some (.peer a))) (.ok [])

/-- What a unit of die d does to come by a word: it posts a residency request at its priority, or asks the peer (R24, R96). -/
def seek (s : State) (d : Nat) (who : UnitId) (c prio : Nat) : Away → State
  | .region r => postRequest s c r prio
  | .peer a => unitAsk s d who a peerRead []

/-- The priority of a packet (R266). -/
def Pkt.prio (k : Pkt) (s : State) (r : Nat) : Nat := min (bitsW (k.word 0) 44 42) (ringPrioMax s r)

/-! ## The packets that act at once -/

/-- Words from..to of a packet are zero. -/
def Pkt.zero (k : Pkt) (l : List Nat) : Bool := l.all (fun i => k.word i == 0#64)
/-- Bits above the tag of word 7 are zero. -/
def Pkt.tail7 (k : Pkt) : Bool := bitsW (k.word 7) 63 16 == 0

/-- Run the packet of a type at an index of a ring on a die, once it may start and its word 0 is legal (R266, R273). `body` says
whether its body is legal; only the HOME die performs `act`, which answers none while it must wait (R267). -/
def runPkt (s : State) (d : Nat) (ring : BitVec 12) (idx type : Nat) (body : Pkt → Bool) (slot : Bool)
    (act : Nat → Pkt → Option State) (wait : State) : State :=
  let r := ring.toNat
  match duePkt s d r idx type with
  | none => s
  | some k =>
    let c := ringCtx s r
    if !(k.word0Ok c && k.tail7 && body k) then reject s d r idx 2
    else if slot && (resolveSlot s c (k.word 1)).isNone then reject s d r idx 5
    else if d != ringHome s r then finishPkt s d r idx
    else match act c k with
      | some s => finishPkt s d r idx
      | none => wait

/-- `SIGNAL_WRITE_PACKET` (R267): HOME performs a `sigadd` or `sigset` with release; at a peer it is performed once the peer has
answered (R272). -/
def signalWritePacket (d : Nat) (ring : BitVec 12) (idx : Nat) (s : State) : State :=
  let k? := duePkt s d ring.toNat idx 2
  let c := ringCtx s ring.toNat
  let who : UnitId := .pkt d ring.toNat idx
  let place := k?.bind (fun k => (resolveSlot s c (k.word 1)).map (fun v =>
    unitAccess s c (if (k.word 3).getLsbD 0 then .store else .atomic) v 8))
  let prio := (k?.map (fun k => k.prio s ring.toNat)).getD 0
  let waiting := match place, k? with
    | some (.wait r), _ => postRequest s c r prio
    | some (.peer a), some k =>
      if unitOut s who || slotMoving s c (k.word 1) then s
      else unitAsk s d who a (if (k.word 3).getLsbD 0 then peerWrite else peerAmo 0) (bytesOf (k.word 2).toNat 8)
    | _, _ => s
  runPkt s d ring idx 2 (fun k => decide ((k.word 3).toNat < 16) && decide (bitsW (k.word 3) 3 1 ≤ 4) && k.zero [4, 5, 6]) true
    (fun c k =>
      match unitDone s who, place with
      | some true, _ => some s
      | some false, _ => some (s.send (.context c 2))
      | none, place =>
        if slotMoving s c (k.word 1) || unitOut s who then none
        else match place with
        | some (.ok h) =>
          let new_ := if (k.word 3).getLsbD 0 then (k.word 2).toNat else Mem.getLE s.mem h 8 + (k.word 2).toNat
          some (s.setMem (Mem.setLE s.mem h 8 new_))
        | some (.peer _) => none
        | some (.wait _) => none
        | _ => some (s.send (.context c 2))) waiting

/-- The value a wait packet or a `sig` wait looks for. -/
def waitMet (eq : Bool) (v x : Nat) : Bool := if eq then v == x else decide (x ≤ v)

/-- `WAIT_PACKET` (R267, R273): a die is done with it once the signal's value satisfies it. One whose access R95 refuses waits for ever,
and nobody is told (log 31). -/
def waitPacket (d : Nat) (ring : BitVec 12) (idx : Nat) (s : State) : State :=
  let r := ring.toNat
  let c := ringCtx s r
  match duePkt s d r idx 3 with
  | none => s
  | some k =>
    if !(k.word0Ok c && k.tail7 && decide ((k.word 3).toNat < 2) && k.zero [4, 5, 6]) then reject s d r idx 2
    else match resolveSlot s c (k.word 1) with
      | none => reject s d r idx 5
      | some v =>
        let s := setPkt s d r idx (fun k => { k with started := true })
        if slotMoving s c (k.word 1) then s
        else match unitAccess s c .load v 8 with
          | .ok h =>
            if waitMet ((k.word 3).getLsbD 0) (Mem.getLE s.mem h 8) (k.word 2).toNat then finishPkt s d r idx else s
          | .wait r' => postRequest s c r' (k.prio s r)
          | .peer a =>
            let who : UnitId := .pkt d r idx
            match unitAnswer s who a with
            | some (some v) =>
              if waitMet ((k.word 3).getLsbD 0) v.toNat (k.word 2).toNat then finishPkt s d r idx
              else unitAsk (dropUnit s who) d who a peerRead []
            | some none => dropUnit s who
            | none => unitAsk s d who a peerRead []
          | .bad => s   -- it waits for ever, and nobody is told (log 31)

/-- `LINK_PACKET` (R264): the cursor moves to slot 0 of the reel it names, and reading goes on. -/
def linkPacket (d : Nat) (ring : BitVec 12) (idx : Nat) (s : State) : State :=
  let r := ring.toNat
  let x := s.ring d r
  match x.pkts.find? (fun k => k.idx == idx && k.type == 4 && !k.done) with
  | none => s
  | some k =>
    if ringHeld s d r idx then s
    else if !(k.word0Ok (ringCtx s r) && k.tail7 && bitsW (k.word 1) 63 52 == 0 && bitsW (k.word 1) 11 0 == 0 && k.zero [2, 3, 4, 5, 6]) then
      reject s d r idx 2
    else
      let s := s.setRing d r { x with cursor := k.idx + 1, reel := bitsW (k.word 1) 51 12 * 4096 }
      readRing d r readFuel (finishPkt s d r idx)

/-- The regions a hint lists. -/
def Pkt.hints (k : Pkt) : List Nat := (List.range (bitsW (k.word 1) 5 0)).map (fun i => bitsW (k.word (2 + i / 8)) (8 * (i % 8) + 7) (8 * (i % 8)))

/-- `RESIDENCY_HINT` (R282): requests for the listed regions, in order, at the packet's priority. -/
def residencyHint (d : Nat) (ring : BitVec 12) (idx : Nat) (s : State) : State :=
  let c := ringCtx s ring.toNat
  runPkt s d ring idx 5
    (fun k => decide (bitsW (k.word 1) 5 0 ≤ 32) && bitsW (k.word 1) 5 0 != 0 && bitsW (k.word 1) 63 6 == 0 && k.zero [6]
      && k.hints.all (fun r => r != 255 && (s.region c r).size != 0#48)) false
    (fun c k =>
      some (k.hints.foldl (fun s r => postHint s c r (k.prio s ring.toNat)) s)) s

/-- `RING_BARRIER` (R273): done once every packet before it has retired. -/
def ringBarrier (d : Nat) (ring : BitVec 12) (idx : Nat) (s : State) : State :=
  let r := ring.toNat
  match duePkt s d r idx 6 with
  | none => s
  | some k =>
    if !(k.word0Ok (ringCtx s r) && k.tail7 && k.zero [1, 2, 3, 4, 5, 6]) then reject s d r idx 2
    else
      let first := (cbW s r 1).toNat
      if (List.range (idx - first)).all (fun i => slotRetired s r (first + i)) then finishPkt s d r idx else s

/-- `NOP_PACKET` (R267). -/
def nopPacket (d : Nat) (ring : BitVec 12) (idx : Nat) (s : State) : State :=
  runPkt s d ring idx 7 (fun k => k.zero [1, 2, 3, 4, 5, 6]) false (fun _ _ => some s) s

/-- `JOB_CARD_PACKET` (R267): HOME's job scheduler takes the card, waiting while it is full. A card that fails the checks of
R154 has no thread to trap: it is dropped and the host told (log 27). -/
def jobCardPacket (d : Nat) (ring : BitVec 12) (idx : Nat) (s : State) : State :=
  let c := ringCtx s ring.toNat
  let who : UnitId := .pkt d ring.toNat idx
  let k? := duePkt s d ring.toNat idx 8
  let v? := k?.bind (fun k => resolveSlot s c (k.word 1))
  let prio := (k?.map (fun k => k.prio s ring.toNat)).getD 0
  let words := v?.map (fun v => unitWords s who c v 12)
  let waiting := match words with
    | some (.error (some a)) => seek s d who c prio a
    | _ => s
  runPkt s d ring idx 8 (fun k => k.zero [2, 3, 4, 5, 6]) true
    (fun c k => match v?, words with
      | some v, some (.ok ws) =>
        if slotMoving s c (k.word 1) then none
        else if v.v.toNat % 16 != 0 || (badCardDword (fun i => ws.getD i 0#64)).isSome then some (s.send (.card d c 0 v.v))
        else
          let r : Tag := if v.t = untag then 0#8 else v.t
          takeCard s d { p := none, ctx := BitVec.ofNat 10 c, prio := prio, j := Vector.ofFn (fun i => ws.getD i.val 0#64),
                         at_ := ⟨v.v - (s.region c r.toNat).base.zeroExtend 64, r⟩ }
      | some v, some (.error none) => some (s.send (.card d c 0 v.v))
      | _, _ => none) waiting

/-! ## Launches (R268-R270, R277, R283-R285) -/

/-- How many points a launch keeps (R269, R284). -/
def keptPoints (sym n0 n1 n2 shift : Nat) : Nat :=
  match sym with
  | 1 => n0 * (n0 + 1) / 2 * n2
  | 2 => ((n0 - 1) / 2 + 1) * n1 * n2
  | 3 => n0 * ((n1 - 1) / 2 + 1) * n2
  | 4 => Nat.gcd n0 shift * n1 * n2
  | _ => n0 * n1 * n2

/-- The kept point at a position of the list: row-major, i2 fastest (R269). -/
def pointAt (sym n1 n2 pos : Nat) : Nat × Nat × Nat :=
  match sym with
  | 1 =>
    let k := pos / n2
    let i0 := (isqrt (8 * k + 1) - 1) / 2
    (i0, k - i0 * (i0 + 1) / 2, pos % n2)
  | 3 =>
    let m := (n1 - 1) / 2 + 1
    (pos / (m * n2), pos / n2 % m, pos % n2)
  | _ => (pos / (n1 * n2), pos / n2 % n1, pos % n2)

/-- The requirements of a symmetry group (R284) and of the output descriptor (R283). -/
def symOk (sym n0 n1 shift : Nat) (o : List Word) : Bool :=
  let d1 := o.getD 1 0#64
  let d2 := o.getD 2 0#64
  let rows := bitsW d1 23 0
  let cols := bitsW d1 47 24
  let th := bitsW d2 15 0
  let tw := bitsW d2 47 32
  bitsW d1 63 52 == 0 && bitsW d1 50 48 < 4 && bitsW d2 31 16 == 0 && bitsW d2 63 48 == 0 && o.getD 3 0#64 == 0#64
    && decide (1 ≤ th) && decide (1 ≤ tw)
    && (match sym with
      | 1 => n0 == n1 && rows == cols && rows == n0 * th && th == tw
      | 2 => rows == n0 * th
      | 3 => cols == n1 * tw
      | 4 => rows == n0 * th && decide (1 ≤ shift) && decide (shift ≤ n0 - 1)
      | _ => false)

/-- The tensor lies in one region of kind data with PR and PW (R283). -/
def tensorOk (s : State) (c : Nat) (o : List Word) : Bool :=
  match resolveSlot s c (o.getD 0 0#64) with
  | none => false
  | some v =>
    let d1 := o.getD 1 0#64
    let e := s.region c v.t.toNat
    v.t != untag && e.kind == 0#2 && e.pr && e.pw && e.covers v.v.toNat (bitsW d1 23 0 * bitsW d1 47 24 * 2 ^ bitsW d1 50 48)

/-- The descriptor as it is kept, read once (R283): the tensor's base in offset form, so that it follows a move of its region (log 74). -/
def keepTensor (s : State) (c : Nat) : List Word → List Word
  | [] => []
  | w :: t => toOffset s c 0 w :: t

/-- STK: a thread's stack in region 0 (R270). -/
def stackSize (s : State) (c : Nat) : Nat := (s.region c 0).size.toNat / 2560 / 16 * 16

/-- An instruction address of a launch is right: in a code region with PX, four-byte aligned (R277). -/
def entryOk (s : State) (c : Nat) (v : Val) : Bool :=
  let e := s.region c v.t.toNat
  v.t != untag && e.kind == 1#2 && e.px && e.covers v.v.toNat 4 && v.v.toNat % 4 == 0

/-- The X thread's entry (R268, R270). -/
def xEntry (v : Val) (w7 : Word) : Val := { v with v := (v.v + (((w7 >>> 16).setWidth 32).signExtend 64)) &&& 0xFFFFFFFFFFFFF#64 }

/-- Why a launch is not taken: an error code of R277, or what it waits for (R96). -/
inductive NoLaunch where
  | err (e : Nat)
  | away (a : Away)
deriving DecidableEq, Repr

/-- The words a launch's check reads; one it cannot read is as one that does not resolve (R277). -/
def launchWords (s : State) (who : UnitId) (c : Nat) (v : Val) (n : Nat) : Except NoLaunch (List Word) :=
  match unitWords s who c v n with
  | .ok ws => .ok ws
  | .error (some a) => .error (.away a)
  | .error none => .error (.err 5)

/-- The checks of a launch packet on a die (R277), in the order of their codes, and the launch it makes. A tensor that R283 does not allow
is rejected with ERR 7 (log 108). -/
def checkLaunch (s : State) (d r : Nat) (k : Pkt) : Except NoLaunch Launch :=
  let c := ringCtx s r
  let w5 := k.word 5
  let w6 := k.word 6
  let w7 := k.word 7
  let n0 := bitsW w5 19 0 + 1
  let n1 := bitsW w5 39 20 + 1
  let n2 := bitsW w5 59 40 + 1
  let sym := bitsW w6 12 10
  let shift := bitsW w6 36 17
  let cs := 2 ^ bitsW w6 9 8
  let xoff := bitsW w7 47 16
  let who : UnitId := .pkt d r k.idx
  if !(k.word0Ok c) || bitsW w6 63 53 != 0 || bitsW w7 55 48 != 0 || decide (4 < bitsW w6 16 14) || (shift != 0 && sym != 4) then .error (.err 2)
  else if 7 < bitsW w5 63 60 ∨ bitsW w6 9 8 = 3 then .error (.err 3)
  else if 8 < cs * 2 ^ bitsW w6 1 0 then .error (.err 4)
  else match [k.word 1, k.word 2, k.word 4].find? (slotMoving s c) with
  | some w => .error (.away (.region (bitsW w 59 52)))
  | none =>
    match resolveSlot s c (k.word 1), resolveSlot s c (k.word 2), resolveSlot s c (k.word 4) with
    | some entry, some args, some _ =>
      if !(entryOk s c entry && entryOk s c (xEntry entry w7)) || xoff % 4 != 0 then .error (.err 5)
      else match launchWords s who c args 1 with
        | .error e => .error e
        | .ok ws =>
          if (resolveSlot s c (ws.getD 0 0#64)).isNone then .error (.err 5)
          else
            let outd : Except NoLaunch (List Word) :=
              if sym = 0 then .ok []
              else match resolveSlot s c (k.word 3) with
                | none => .error (.err 5)
                | some v =>
                  if v.v.toNat % 16 ≠ 0 then .error (.err (if stackSize s c < 4096 then 6 else 7))
                  else launchWords s who c v 4
            match outd with
            | .error e => .error e
            | .ok o =>
              if stackSize s c < 4096 then .error (.err 6)
              else if sym != 0 && !(symOk sym n0 n1 shift o && tensorOk s c o) then .error (.err 7)
              else
                let pts := keptPoints sym n0 n1 n2 shift
                let ds := spanDies s r
                let at_ := (ds.findIdx? (· == d)).getD 0
                let groups := (pts + cs - 1) / cs
                .ok { ring := r, idx := k.idx, ctx := BitVec.ofNat 10 c, at_ := k.at_, w := k.w, span := BitVec.ofNat 8 (ringSpan s r),
                      n0 := n0, n1 := n1, n2 := n2, stages := bitsW w5 63 60 + 1, lg := 2 ^ bitsW w6 1 0, slip := bitsW w6 7 2 + 1,
                      csz := bitsW w6 9 8, sym := sym, sign := w6.getLsbD 13, scope := bitsW w6 16 14, shift := shift,
                      inc := bitsW w6 52 37, prio := k.prio s r, matrix := (k.word 0).getLsbD 9,
                      indep := k.indep, outd := keepTensor s c o, since := s.cycle, pts := pts, mine := (groups + ds.length - 1 - at_) / ds.length }
    | _, _, _ => .error (.err 5)

/-! ## Admission (R274, R275) -/

def Launch.prioNow (l : Launch) : Nat := min 7 (l.prio + l.aged)

/-- `ADMISSION_AGING` (R274): each full millisecond of waiting raises the priority, by at most two. -/
def admissionAging (d : Nat) (ring : BitVec 12) (idx : Nat) (s : State) : State :=
  s.updDie d (fun t => { t with launches := t.launches.map (fun l =>
    if l.ring = ring.toNat ∧ l.idx = idx ∧ l.next < l.mine then
      { l with aged := min 2 ((s.cycle - l.since).toNat / 2400000) }
    else l) })

def pairFree (q : Pair) : Bool := q.st == .free || q.st == .exited

/-- Free pair slots and free working lane groups of a cluster. -/
def freeSlots (s : State) (cl : Nat) : List Nat := (List.range 4).filter (fun k => pairFree (s.pair (4 * cl + k)))
def freeGroups (s : State) (cl : Nat) : List Nat := (List.range 8).filter (groupSpare s cl)

/-- The groups each pair of a cluster holds beyond its launch's LG, highest first, with its slot; those that a parked pair has lent are to
go back, and are not counted (R25). -/
def excess (s : State) (cl : Nat) : List (Nat × List Nat) :=
  (List.range 4).filterMap (fun k =>
    let q := s.pair (4 * cl + k)
    let own := q.lastSet.filter (fun g => !(List.range 4).any (fun j => (s.pair (4 * cl + j)).lent.contains g))
    if q.holds && q.st != .posted && decide (q.pl.lg < own.length) then some (k, own.reverse.take (own.length - q.pl.lg)) else none)

/-- Take n of those groups: from the pair with the most, the lowest slot winning a tie, highest-numbered first (R398); what that pair
cannot give comes from the next. -/
def takeExcess (n : Nat) (l : List (Nat × List Nat)) : List Nat :=
  ((sortBy (fun a b => decide (b.2.length < a.2.length ∨ (a.2.length = b.2.length ∧ a.1 ≤ b.1))) l).flatMap (·.2)).take n

/-- A lane group of a cluster works, and no pair is to hold it once the changes posted or decided have been applied: an admission that has
taken it from a pair finds it so when its posting is repeated (R353, log 101). -/
def groupComing (s : State) (cl g : Nat) : Bool :=
  (s.cluster cl).mask.getLsbD g && (List.range 4).all (fun k =>
    let q := s.pair (4 * cl + k)
    !(q.holds && q.lastSet.contains g) && !q.lent.contains g && (q.holds || !q.owned.contains g))

/-- Free groups for an admission that needs n, at or above g0: those no pair owns, or that a pair is giving up, and, when they are too few,
those that pairs hold beyond their LG (R275, R398, log 101). -/
def groupsFor (s : State) (cl n g0 : Nat) : List Nat :=
  let free := (List.range 8).filter (fun x => (groupSpare s cl x || groupComing s cl x) && decide (g0 ≤ x))
  if n ≤ free.length then free.take n
  else
    let more := takeExcess (n - free.length) ((excess s cl).map (fun e => (e.1, e.2.filter (fun x => decide (g0 ≤ x)))))
    (List.range 8).filter (fun g => free.contains g || more.contains g)

/-- What a stage takes on its cluster: cluster, slots, lane groups. -/
abbrev Plan := List (Nat × List Nat × List Nat)

/-- Where a take group of C points, S stages and g lane groups a pair would stand with its stage 0 on cluster c (R275). -/
def planAt (s : State) (d c cs g stages : Nat) (matrix : Bool) (slot0 grp0 : Nat) : Option Plan :=
  let at_ : Nat → Option (Nat × List Nat × List Nat) := fun st =>
    let cl := 40 * d + (c + st) % 40
    let k := s.cluster cl
    let sl := (freeSlots s cl).filter (fun x => st != 0 || decide (slot0 ≤ x))
    let gr := groupsFor s cl (cs * g) (if st = 0 then grp0 else 0)
    if k.works && (!matrix || k.array) && decide (cs ≤ sl.length) && gr.length == cs * g then some (cl, sl.take cs, gr)
    else none
  (List.range stages).foldr (fun st acc => match at_ st, acc with
    | some x, some l => some (x :: l)
    | _, _ => none) (some [])

def Launch.cs (l : Launch) : Nat := 2 ^ l.csz

/-- Clusters of die d on which an interface has pairs (R364). -/
def vfClusters (s : State) (d v : Nat) : List Nat :=
  ((s.pairs.filter (fun e => decide (e.1 < 1280) && dieOf e.1 == d && vfOf s e.2.ctx.toNat == some v && !pairFree e.2)).map
    (fun e => clusterOf e.1)).eraseDups

/-- The interface that owns a context keeps its limits on die d: lane groups its pairs hold at once, and clusters (R364). -/
def vfWithin (s : State) (d c : Nat) : Bool :=
  match vfOf s c with
  | none => true
  | some v =>
    let lim := (s.vf v).rule 5
    decide (vfGroups s d v ≤ bitsW lim 15 0) && decide ((vfClusters s d v).length ≤ bitsW lim 31 16)

/-- A context may be admitted: no interface owns it, or one in RUN (R365). -/
def vfRuns (s : State) (c : Nat) : Bool := (vfOf s c).all (fun v => (s.vf v).st == .run)

/-- The clusters of a die in the order of the scan: after the one chosen last (R275). -/
def scanOrder (t : Die) : List Nat := (List.range 40).map (fun i => (t.scan + 1 + i) % 40)

/-- The take group a die is to admit next of a launch (R269). -/
def Launch.nextGroup (l : Launch) (d : Nat) : Nat :=
  let ds := (List.range 8).filter (fun i => l.span.getLsbD i)
  (ds.findIdx? (· == d)).getD 0 + ds.length * l.next

/-- A launch still waits for admission on its die. -/
def Launch.waiting (l : Launch) : Bool := decide (l.next < l.mine)

/-- A launch may have its next group admitted: its ring runs up to it, ring order allows it, and no group of it is saved (R273, R277,
R278). -/
def mayAdmit (s : State) (d : Nat) (l : Launch) : Bool :=
  let x := s.ring d l.ring
  l.waiting && (l.started || !ringHeld s d l.ring l.idx) && (x.pkts.any (fun k => k.idx == l.idx && (k.started || canStart x k)))
    && (s.die d).groups.all (fun g => !(g.ring == l.ring && g.idx == l.idx && g.st == .saved))

/-- The place of the pair of stage st, cohort position k, of take group t (R13, R16, R268). -/
def placeOf (l : Launch) (t st k : Nat) : Place :=
  let (i0, i1, i2) := pointAt l.sym l.n1 l.n2 (l.cs * t + k)
  { ring := l.ring, idx := l.idx, grp := t, i0 := i0, i1 := i1, i2 := i2, n0 := l.n0, n1 := l.n1, n2 := l.n2, stg := st,
    last := l.stages - 1, csz := l.csz, cpos := k, lg := l.lg, slip := l.slip, prio := l.prio, matrix := l.matrix, sym := l.sym,
    sign := l.sign, shift := l.shift, outd := l.outd }

/-- Pairs of a cluster lose the groups that a plan takes from them, by partition changes (R398). -/
def takeGroups (s : State) (cl : Nat) (gs : List Nat) : State :=
  (List.range 4).foldl (fun s k =>
    let q := s.pair (4 * cl + k)
    if q.holds && q.st != .posted && q.lastSet.any gs.contains then postChange s (4 * cl + k) (q.lastSet.filter (fun g => !gs.contains g))
    else s) s

/-- The pairs of the clusters of a plan lose what it takes from them, each change with its own record (R354). -/
def takeAll (s : State) (plan : Plan) : State := plan.foldl (fun s e => takeGroups s e.1 e.2.2) s

/-- Post every pair of a take group to the Clapper at a place (R275): STARTING. The group's priority is the one its launch is admitted at,
aged as it is then (log 13). -/
def placeGroup (s : State) (d : Nat) (l : Launch) (c : Nat) (plan : Plan) : State :=
  let t := l.nextGroup d
  let n := min l.cs (l.pts - l.cs * t)
  let x := (List.range plan.length).foldl (fun (acc : State × List Nat) st =>
    let (cl, sl, gr) := plan.getD st (0, [], [])
    (List.range n).foldl (fun (acc : State × List Nat) k =>
      let p := 4 * cl + sl.getD k 0
      let mine := (gr.drop (k * l.lg)).take l.lg
      let q : Pair := { st := .posted, ctx := l.ctx, pl := placeOf l t st k, owned := mine, parts := [(0, mine)], seq := s.steps }
      (acc.1.setPair p q, acc.2 ++ [p])) acc) (s, [])
  let g : Group := { ring := l.ring, idx := l.idx, t := t, st := .starting, members := x.2, prio := l.prioNow, seq := s.fresh }
  let s := x.1.updDie d (fun e => { e with
    groups := e.groups ++ [g], scan := c, postings := ((l.ring, l.idx, t) :: e.postings).take 256
    launches := e.launches.map (fun m => if m.ring = l.ring ∧ m.idx = l.idx then { m with next := m.next + 1, started := true } else m) })
  setPkt { s with fresh := s.fresh + 1 } d l.ring l.idx (fun k => { k with started := true })

/-- A take group is posted at a place, and what it takes from other pairs comes first. -/
def postGroup (s : State) (d : Nat) (l : Launch) (c : Nat) (plan : Plan) : State := placeGroup (takeAll s plan) d l c plan

/-- The first place a launch's next group fits, within the limits of its interface. -/
def findPlace (s : State) (d : Nat) (l : Launch) : Option (Nat × Plan) :=
  if !vfRuns s l.ctx.toNat then none
  else (scanOrder (s.die d)).findSome? (fun c => ((planAt s d c l.cs l.lg l.stages l.matrix 0 0).filter
    (fun p => vfWithin (postGroup s d l c p) d l.ctx.toNat)).map (fun p => (c, p)))

/-- The launches of a die in the order an admission decision goes through them (R274): current priority falling; within one,
rings after the one served last in it. -/
def admitOrder (t : Die) : List Launch :=
  let key : Launch → Nat := fun l => (7 - l.prioNow) * 4096 + (l.ring + 4096 - t.served.getD l.prioNow 4095 - 1) % 4096
  sortBy (fun a b => decide (key a < key b ∨ (key a = key b ∧ a.idx ≤ b.idx))) t.launches

/-- The record of an admission (R353 OP 1): the group, the stage-0 cluster, its first slot and its first lane group. -/
def admitRec (d : Nat) (l : Launch) (c : Nat) (plan : Plan) : JRec :=
  let (_, sl, gr) := plan.headD (0, [], [])
  { op := 1, ctx := l.ctx.toNat, ring := l.ring, idx := l.idx
    arg := BitVec.ofNat 64 (l.nextGroup d % 2 ^ 32 + c * 2 ^ 32 + sl.headD 0 * 2 ^ 38 + gr.headD 0 * 2 ^ 40) }

/-- R275 could use a cluster for a launch of the die, had it the room (R278). -/
def usable (s : State) (l : Launch) (cl : Nat) : Bool := (s.cluster cl).works && (!l.matrix || (s.cluster cl).array)

/-- The group that the Puppeteer pre-empts for a waiting launch (R278): a RUNNING one whose priority the launch's exceeds by two or
more, on a cluster that R275 could use; the lowest-priority such group, the most recently admitted among equals. -/
def preemptPick (s : State) (d : Nat) (l : Launch) : Option Group :=
  ((s.die d).groups.filter (fun g => g.st == .running && decide (g.prio + 2 ≤ l.prioNow)
    && g.members.any (fun p => usable s l (clusterOf p)))).foldl (fun (m : Option Group) g => match m with
      | none => some g
      | some x => if g.prio < x.prio ∨ (g.prio = x.prio ∧ x.seq ≤ g.seq) then some g else some x) none

/-- The Puppeteer makes room for the first waiting launch, in the order in which it would serve them, whose next group fits nowhere and for
which a group can be pre-empted: a soft pre-emption, unless one is under way (R278, log 13). -/
def makeRoom (s : State) (d : Nat) : State :=
  if (s.die d).groups.any (fun g => g.st == .saving) then s
  else match (admitOrder (s.die d)).findSome? (fun l =>
      if mayAdmit s d l && (findPlace s d l).isNone then preemptPick s d l else none) with
    | some g => postSoft s d g
    | none => s

/-- `ADMISSION` (R274, R275): the first launch in order whose next group fits is admitted, with its record (R354); for one that fits nowhere
the Puppeteer makes room (R278). -/
def admission (d : Nat) (s : State) : State :=
  if !puppeteerOn s d then s
  else
    let pick := (admitOrder (s.die d)).findSome? (fun l => if mayAdmit s d l then (findPlace s d l).map (fun p => (l, p)) else none)
    match pick with
    | none => makeRoom s d
    | some (l, c, plan) =>
      makeRoom ((journal d (admitRec d l c plan) (fun s => placeGroup s d l c plan) (takeAll s plan)).updDie d
        (fun t => { t with served := t.served.setIfInBounds l.prioNow l.ring })) d

/-! ## The fast path (R257, R287) -/

/-- A launch that an `enq` of the die itself has put on a FAST ring starts its first group at once, where ring order allows it and its
resources are free, while HOLD is clear (R356): neither the Puppeteer nor its order of admission is in the way, and it records the admission
afterwards (log 41). -/
def fastStart (s : State) (d : Nat) (l : Launch) : State :=
  let t := s.die d
  let s := s.updDie d (fun t => { t with quick := t.quick.filter (fun e => e != (l.ring, l.idx)) })
  if !t.quick.contains (l.ring, l.idx) || t.holdOn || l.next != 0 || !mayAdmit s d l then s
  else match findPlace s d l with
    | none => s
    | some (c, plan) =>
      if plan.all (fun e => e.2.2.all (groupSpare s e.1)) then
        (placeGroup s d l c plan).updDie d (fun t => { t with late := t.late ++ [admitRec d l c plan] })
      else s

/-- `LAUNCH_PACKET` (R268, R269, R277): a die checks a launch and takes its share of the groups; the fast path starts one at once (R257). -/
def launchPacket (d : Nat) (ring : BitVec 12) (idx : Nat) (s : State) : State :=
  let r := ring.toNat
  let x := s.ring d r
  match x.pkts.find? (fun k => k.idx == idx && k.type == 1 && !k.done) with
  | none => s
  | some k =>
    if ringHeld s d r idx || (s.die d).launches.any (fun l => l.ring == r && l.idx == idx) then s
    else match checkLaunch s d r k with
      | .ok l => fastStart ((dropUnit s (.pkt d r idx)).updDie d (fun t => { t with launches := t.launches ++ [l] })) d l
      | .error (.err e) => reject s d r idx e
      | .error (.away a) => seek s d (.pkt d r idx) (ringCtx s r) (k.prio s r) a

/-- IDLECL (R407): working clusters that hold no pair, own no group to any, and have no start posted; from reset until firmware has been
delivered to the die it reads its reset value (log 102). -/
def idleClusters (s : State) (d : Nat) : Nat :=
  let t := s.die d
  if !(t.f0.on || t.f1.on || t.lost) then 0
  else (List.range 40).foldl (fun n c =>
    let cl := 40 * d + c
    if (s.cluster cl).works && (freeSlots s cl).length == 4
      && (List.range 8).all (fun g => !((s.cluster cl).mask.getLsbD g) || (s.cluster cl).lpr.getD g 7#3 == 7#3) then n + 2 ^ c else n) 0

/-- The launch of a ring that awaits admission on a die: the earliest in list order that may still be admitted (R350). -/
def waitingLaunch (s : State) (d r : Nat) : Option Launch :=
  ((s.die d).launches.filter (fun l => l.ring == r && l.waiting)).foldl (fun (m : Option Launch) l => match m with
    | none => some l
    | some x => if l.idx < x.idx then some l else some x) none

/-- The posting of an admission to the Clapper (R353 OP 1, R408): what becomes of the machine, and the result: 0 started, 1 a repeat,
2 refused. `arg` has the layout of POSTB. -/
def postAt (s : State) (d ctx r idx : Nat) (arg : Word) : State × Nat :=
  let grp := bitsW arg 31 0
  if (s.die d).postings.any (fun x => x.1 == r && x.2.1 % 2 ^ 32 == idx && x.2.2 == grp) then (s, 1)
  else match waitingLaunch s d r with
    | none => (s, 2)
    | some l =>
      let c := bitsW arg 37 32
      if l.idx % 2 ^ 32 != idx || l.ctx.toNat != ctx || l.nextGroup d != grp || 40 ≤ c then (s, 2)
      else match planAt s d c l.cs l.lg l.stages l.matrix (bitsW arg 39 38) (bitsW arg 42 40) with
        | none => (s, 2)
        | some plan => (postGroup s d l c plan, 0)

/-- `ADMPOST_POST` (R408): a write to POSTB posts an admission, in a take-over too, where it repeats one (R357). On a die that no firmware
runs on, nobody writes it. Bits 63:43 are kept as written and mean nothing to the posting (log 107). -/
def admpostPost (d : Nat) (val : Word) (s : State) : State :=
  let t := s.die d
  let s := s.updDie d (fun t => { t with postb := val })
  if !(t.fcore t.act.toNat).on then s
  else
    let r := postAt s d (bitsW t.posta 19 10) (bitsW t.posta 31 20) (bitsW t.posta 63 32) val
    r.1.updDie d (fun t => { t with postst := BitVec.ofNat 2 r.2 })

/-! ## The start of a pair (R14, R270) -/

/-- The slot word at ARGS + 0 of a pair's launch, which becomes sl: zero when it cannot be read; what keeps the start from reading or
resolving it otherwise (R96, R107, R270). A start waits for a move of region 0 too, whose base sp takes. -/
def entrySlot (s : State) (p : Nat) (q : Pair) (l : Launch) : Except Away Word :=
  let c := q.ctx.toNat
  let moving : Word → Option Away := fun w => if slotMoving s c w then some (.region (bitsW w 59 52)) else none
  match [l.w.getD 1 0#64, l.w.getD 2 0#64, 0#64].findSome? moving with
  | some a => .error a
  | none => match unitWords s (.start p) c ((resolveSlot s c (l.w.getD 2 0#64)).getD {}) 1 with
    | .error (some a) => .error a
    | .error none => .ok 0x0FF0000000000000#64
    | .ok ws => match moving (ws.getD 0 0#64) with
      | some a => .error a
      | none => .ok (ws.getD 0 0#64)

/-- The entry registers of thread k of pair p, with the slot word that becomes sl. -/
def entryRegs (s : State) (p : Nat) (q : Pair) (l : Launch) (w : Word) (k : Kind) : Thread :=
  let c := q.ctx.toNat
  let none_ : Val := {}
  let entry := (resolveSlot s c (l.w.getD 1 0#64)).getD none_
  let args := (resolveSlot s c (l.w.getD 2 0#64)).getD none_
  let sl := (resolveSlot s c w).getD none_
  let n : Nat → Val := fun x => { v := BitVec.ofNat 64 x }
  let sp : Val := ⟨(s.region c 0).base.zeroExtend 64 + BitVec.ofNat 64 ((2 * p + (if k = .X then 2 else 1)) * stackSize s c), 0#8⟩
  let x : Vector Val 32 := Vector.replicate 32 {}
  let x := ((((((x.set 2 sp).set 3 sl).set 5 args).set 6 (n ((q.pl.i0 * q.pl.n1 + q.pl.i1) * q.pl.n2 + q.pl.i2))).set 7 (n q.pl.i0)).set 8
    (n q.pl.i1)).set 9 (n q.pl.i2)
  { x := x, pc := if k = .X then xEntry entry (l.w.getD 7 0#64) else entry }

/-- A pair of a stage below p's in its group has yet to start: pairs start in stage order (R275). -/
def waitsForStage (s : State) (p : Nat) : Bool :=
  (groupOf s p).any (fun g => g.members.any (fun m => (s.pair m).st == .posted && decide ((s.pair m).pl.stg < (s.pair p).pl.stg)))

/-- A pair as R14 resets it, with the partition changes posted to it since its admission (R167): its queues empty, its streams and its counters at zero, its vector state free, its threads at their entry. -/
def startedPair (s : State) (p : Nat) (q : Pair) (l : Launch) (w : Word) : Pair :=
  let f := s.fresh
  let cmd := Tab.get 0 (s.die (dieOf p)).dbgOn q.ctx.toNat
  { st := .running, ctx := q.ctx, pl := q.pl, owned := q.owned, parts := q.parts, pend := q.pend, later := q.later, seq := q.seq
    a := entryRegs s p q l w .A, x := entryRegs s p q l w .X, dbgPend := if cmd = 0 ∨ cmd = 2 then 0 else 1
    lanes := { v := Vector.ofFn (fun i => Config.freeV f i.val), m := Vector.ofFn (fun i => Config.freeM f i.val),
               z := Vector.ofFn (fun i => Config.freeZ f i.val) } }

/-- `PAIR_START` (R14): the Clapper resets a posted pair's state, loads the entry registers and releases both threads, once the
lane groups it is to have are released (R167), the stages before it have started (R275) and the words it resolves can be read (R96).
The cores it starts on keep no clean line, so that it sees what was done before its launch (R247, R249). -/
def pairStart (p : Nat) (s : State) : State :=
  let q := s.pair p
  let d := dieOf p
  let cl := clusterOf p
  match q.st, (s.die d).launches.find? (fun l => l.ring == q.pl.ring && l.idx == q.pl.idx) with
  | .posted, some l =>
    if q.owned.any (fun g => (s.cluster cl).lpr.getD g 7#3 != 7#3) || waitsForStage s p then s
    else match entrySlot s p q l with
    | .error a => seek s d (.start p) q.ctx.toNat l.prio a
    | .ok w =>
      let cmd := Tab.get 0 (s.die d).dbgOn q.ctx.toNat
      let q := startedPair s p q l w
      let s := q.owned.foldl (fun s g => setLpr s cl g (BitVec.ofNat 3 (slotOf p))) ((freshCores (dropUnit s (.start p)) p).setPair p q)
      let s := s.updDie d (fun t => { t with groups := t.groups.map (fun g =>
        if g.members.contains p && g.members.all (fun m => (s.pair m).st != .posted) then { g with st := .running } else g) })
      let s := { s with fresh := s.fresh + 1, rota := s.rota ++ [.thr p .A, .thr p .X, .lanes p, .engine p] }
      if cmd = 2 then debugHard s p else s
  | _, _ => s

/-! ## The end of a pair and of a launch (R271, R299) -/

/-- Both threads of a pair have stopped (R299): its banks become EMPTY, its slot is free, and its group may be EXITED. -/
def pairExited (s : State) (p : Nat) : State :=
  let q := s.pair p
  let d := dieOf p
  let s := releaseBanks s p
  let s := s.updPair p (fun q => { q with st := .exited })
  let s := { s with rota := s.rota.filter (fun a => match a with
    | .thr x _ => x != p
    | .lanes x => x != p
    | .engine x => x != p
    | _ => true) }
  let s := s.updDie d (fun t => { t with groups := t.groups.map (fun g => { g with members := g.members.filter (· != p) }) })
  let gone := (s.die d).groups.any (fun g => g.ring == q.pl.ring && g.idx == q.pl.idx && g.t == q.pl.grp && g.members.isEmpty)
  let s := s.updDie d (fun t => { t with
    groups := t.groups.filter (fun g => !g.members.isEmpty)
    launches := t.launches.map (fun l => if gone && l.ring == q.pl.ring && l.idx == q.pl.idx then { l with exited := l.exited + 1 } else l) })
  (s.die d).groups.foldl (fun s g => trySave s d g) s

/-- `SHARE_END` (R271): a die whose pairs have exited, or that has none and may start the launch, adds to DONE in the packet; the
last one takes the completion. -/
def shareEnd (d : Nat) (ring : BitVec 12) (idx : Nat) (s : State) : State :=
  let r := ring.toNat
  match (s.die d).launches.find? (fun l => l.ring == r && l.idx == idx) with
  | none => s
  | some l =>
    let x := s.ring d r
    let may := if l.mine = 0 then !ringHeld s d r idx && x.pkts.any (fun k => k.idx == idx && canStart x k) else decide (l.mine ≤ l.exited)
    if l.shareDone || !may then s
    else
      let a := l.at_ + 56
      let old := Mem.dw s.mem a
      let s := s.setMem (Mem.setLE s.mem a 8 (old + 0x0100000000000000#64).toNat)
      let s := s.updDie d (fun t => { t with launches := t.launches.map (fun m =>
        if m.ring = r ∧ m.idx = idx then { m with shareDone := true, started := true } else m) })
      let s := setPkt s d r idx (fun k => { k with started := true })
      if bitsW old 63 56 + 1 = (spanDies s r).length then
        s.updDie d (fun t => { t with compls := t.compls ++
          [{ ring := r, idx := idx, ctx := l.ctx, sigs := l.w.getD 4 0#64, inc := l.inc, scope := l.scope, prio := l.prio }] })
      else s

/-- A launch retires on every die (R272). -/
def retireLaunch (s : State) (r idx : Nat) : State :=
  let s := (spanDies s r).foldl (fun s d =>
    (setPkt (dropUnit s (.pkt d r idx)) d r idx (fun k => { k with started := true, done := true })).updDie d
      (fun t => { t with launches := t.launches.filter (fun l => !(l.ring == r && l.idx == idx)) })) s
  advanceRead r readFuel s

/-- Perform a completion write (R271): its launch retires when the write is performed, at a peer when the peer has answered; else
the state in which it waits, having asked for its region or the peer. -/
def complete (s : State) (d : Nat) (c : Compl) : Except State State :=
  let x := c.ctx.toNat
  let who : UnitId := .pkt d c.ring c.idx
  let done : State → State := fun s => retireLaunch (dropUnit s who) c.ring c.idx
  let drop := done (s.send (.context x 1))
  match unitDone s who with
  | some true => .ok (done s)
  | some false => .ok drop
  | none =>
    if slotMoving s x c.sigs || unitOut s who then .error s
    else match resolveSlot s x c.sigs with
      | none => .ok drop
      | some v => match unitAccess s x .atomic v 8 with
        | .bad => .ok drop
        | .wait r => .error (postRequest s x r c.prio)
        | .peer a => .error (unitAsk s d who a (peerAmo 0) (bytesOf c.inc 8))
        | .ok h => .ok (done (s.setMem (Mem.setLE s.mem h 8 (Mem.getLE s.mem h 8 + c.inc))))

/-- The completions of a die without those of one launch. -/
def dropCompl (s : State) (d : Nat) (c : Compl) : State :=
  s.updDie d (fun t => { t with compls := t.compls.filter (fun k => !(k.ring == c.ring && k.idx == c.idx)) })

/-- Perform one completion of a die, or leave it waiting. -/
def performCompl (s : State) (d : Nat) (c : Compl) : State :=
  match complete s d c with
  | .ok s => dropCompl s d c
  | .error s => s

/-- Perform the completions a die has held, in order, up to the first that must wait. -/
def performHeld (d : Nat) : Nat → State → State
  | 0, s => s
  | fuel + 1, s =>
    match (s.die d).compls with
    | [] => s
    | c :: _ => if !c.held then s else match complete s d c with
      | .ok s => performHeld d fuel (dropCompl s d c)
      | .error s => s

/-- `COMPLETION_SIGNAL_WRITE` (R271, R356): the named completion is performed, after those that were held before it. While HOLD is
set it goes to the hold queue of 256, if that has room; those released from it before and not yet performed are in it again, ahead of all. -/
def completionSignalWrite (d : Nat) (ring : BitVec 12) (idx : Nat) (s : State) : State :=
  let t := s.die d
  let named : Compl → Bool := fun c => c.ring == ring.toNat && c.idx == idx
  match t.compls.find? named with
  | none => s
  | some c =>
    if t.holdOn then
      if c.held then s
      else if t.hold.length + (t.compls.filter (·.held)).length < 256 then dropCompl (s.setDie d { t with hold := t.hold ++ [c] }) d c else s
    else if (t.compls.takeWhile (fun c => !named c)).any (·.held) then s
    else performCompl s d c

/-- HOLD is cleared (R356): the held writes are performed in queue order, before any new one. -/
def releaseHeld (d : Nat) (s : State) : State :=
  let t := s.die d
  if t.holdOn then
    let old := t.compls.filter (·.held)
    performHeld d (old.length + t.hold.length)
      (s.setDie d { t with holdOn := false, hold := []
                           compls := old ++ t.hold.map (fun c => { c with held := true }) ++ t.compls.filter (fun c => !c.held) })
  else s

/-! ## Pre-emption and restore (R276, R278) -/

/-- `PREEMPT_SOFT`: the Puppeteer's posting, or the host's, to any group of a context (R278). -/
def preemptSoft (d : Nat) (ring : BitVec 12) (idx grp : Nat) (s : State) : State :=
  match (s.die d).group ring.toNat idx grp with
  | some g => if puppeteerOn s d then postSoft s d g else s
  | none => s

/-- `PREEMPT_HARD_TIMEOUT`: a group still SAVING 100 µs after a soft pre-emption is hard pre-empted. -/
def preemptHardTimeout (d : Nat) (ring : BitVec 12) (idx grp : Nat) (s : State) : State :=
  match (s.die d).group ring.toNat idx grp with
  | some g => if puppeteerOn s d && g.st == .saving then postHard s d g 1 else s
  | none => s

/-- `PREEMPT_HARD`: the Puppeteer's posting, or the host's, to any group of a context (R278, R302). -/
def preemptHard (d : Nat) (ring : BitVec 12) (idx grp : Nat) (s : State) : State :=
  match (s.die d).group ring.toNat idx grp with
  | some g => if puppeteerOn s d then postHard s d g 1 else s
  | none => s

/-- The saved pairs of a stage of a group, by cohort position. -/
def savedOf (s : State) (g : Group) (st : Nat) : List Nat :=
  sortBy (fun a b => decide ((s.pair a).pl.cpos ≤ (s.pair b).pl.cpos)) (g.members.filter (fun p => (s.pair p).pl.stg == st))

/-- A cluster takes the saved pairs of a stage: slots, lane groups in number, and their banks EMPTY (R228, R302). -/
def restoreAt (s : State) (cl : Nat) (ps : List Nat) : Option (List (Nat × Nat × List Nat)) :=
  let sl := freeSlots s cl
  let gr := freeGroups s cl
  let need := ps.foldl (fun n p => n + (s.pair p).owned.length) 0
  let banksOk := ps.all (fun p => match (s.pair p).area with
    | some i => (List.range 4).all (fun b => bitsW (Mem.dw s.mem (areaBase s i + 0x1380 + 64 * b)) 1 0 == 0 || (s.bank cl b).st == .empty)
    | none => true)
  let k := s.cluster cl
  let matrix := ps.any (fun p => (s.pair p).pl.matrix)
  if k.works && (!matrix || k.array) && decide (ps.length ≤ sl.length) && decide (need ≤ gr.length) && banksOk then
    some (((List.range ps.length).foldl (fun (acc : List (Nat × Nat × List Nat) × List Nat) i =>
      let p := ps.getD i 0
      let n := (s.pair p).owned.length
      (acc.1 ++ [(p, 4 * cl + sl.getD i 0, acc.2.take n)], acc.2.drop n)) ([], gr)).1)
  else none

/-- `GROUP_RESTORE` (R276): a SAVED group is restored whole once resources are found on its die, within the limits of its interface
(R364). -/
def groupRestore (d : Nat) (ring : BitVec 12) (idx grp : Nat) (s : State) : State :=
  match (s.die d).group ring.toNat idx grp with
  | none => s
  | some g =>
    if !(puppeteerOn s d && g.st == .saved) then s
    else
      let stages := (g.members.foldl (fun n p => max n ((s.pair p).pl.last + 1)) 1)
      let found := (scanOrder (s.die d)).findSome? (fun c =>
        ((List.range stages).foldr (fun st acc => match restoreAt s (40 * d + (c + st) % 40) (savedOf s g st), acc with
          | some x, some l => some (x ++ l)
          | _, _ => none) (some [])).map (fun l => (c, l)))
      match found with
      | none => s
      | some (c, l) =>
        let s' := l.foldl (fun s e => restorePair s e.1 e.2.1 e.2.2) s
        if !g.members.all (fun p => vfWithin s' d (s.pair p).ctx.toNat) then s
        else (s'.updGroup d g.ring g.idx g.t (fun g => { g with st := .running })).updDie d (fun t => { t with scan := c })

end Sys2Proof.Machine
end

