-- ==== Sys2Proof/Machine/Regions.lean ====
section
/-! DEFINITION. The region table, residency, moves and retired code (R21, R93, R97, R280-R282, R307-R317): what the Puppeteer
does to a context's regions. -/

namespace Sys2Proof.Machine

/-! ## Ranges -/

def meets (a n b m : Nat) : Bool := decide (a < b + m) && decide (b < a + n) && n != 0 && m != 0

/-- A range lies inside one of the ranges regions may have (R21, R324). -/
def rangeOk (s : State) (a n : Nat) : Bool :=
  let within : Nat → Nat → Bool := fun lo hi => decide (lo ≤ a) && decide (a + n ≤ hi)
  within 0 s.caphbm.toNat || within Config.peerBase Config.hostBase || within Config.hostBase Config.hostTop

/-- The save-area pool (R303), the journals (R351) and the trace buffers (R331) that exist: a buffer is there,
recording or not, once the host has set it up by a write of TRBUF or of EN (log 99). -/
def poolRange (s : State) : Nat × Nat := (bitsW s.savepool 51 16 * 65536, 16 * Config.saveBytes * bitsW s.savepool 63 52)
def journalRange (t : Die) : Nat × Nat :=
  (bitsW t.jrnl 51 12 * 4096, if t.jrnlSet then 64 * (64 * 2 ^ min 10 (bitsW t.jrnl 3 0)) else 0)
def traceRange (t : Die) : Nat × Nat := (bitsW t.trbuf 51 12 * 4096, if t.trSet then 64 * t.trCap else 0)

def meetsPool (s : State) (a n : Nat) : Bool := meets a n (poolRange s).1 (poolRange s).2
def meetsJournal (s : State) (a n : Nat) : Bool := s.dies.any (fun e => meets a n (journalRange e.2).1 (journalRange e.2).2)
def meetsTrace (s : State) (a n : Nat) : Bool := s.dies.any (fun e => meets a n (traceRange e.2).1 (traceRange e.2).2)

/-- The carve-out of an interface and its host window: base and size (R364). -/
def Vf.carve (v : Vf) : Nat × Nat := ((v.rule 1).toNat, (v.rule 2).toNat)
def Vf.window (v : Vf) : Nat × Nat := (Config.hostBase + bitsW (v.rule 3) 51 12 * 4096, (v.rule 4).toNat)

/-- A range meets what a locked interface withholds from other contexts (R366). -/
def Vf.withholds (v : Vf) (a n : Nat) : Bool := v.st != .unlocked && (meets a n v.carve.1 v.carve.2 || meets a n v.window.1 v.window.2)

/-- The contexts of an interface have regions inside its carve-out or its host window only; a locked one keeps both from the regions
of every other context (R364, R366). -/
def vfRangeOk (s : State) (c a n : Nat) : Bool :=
  let within : Nat × Nat → Bool := fun r => decide (r.1 ≤ a) && decide (a + n ≤ r.1 + r.2)
  s.vfs.all (fun e => if e.2.owns c then within e.2.carve || within e.2.window else !e.2.withholds a n)

/-! ## Bytes that lie in a peer (R281, R308, R363) -/

/-- A range meets the peer windows: its bytes are copied piece by piece, each of what lies in one device. -/
def farRange (a n : Nat) : Bool := meets a n Config.peerBase (Config.hostBase - Config.peerBase)

/-- The copy of region r of context c that is under way. -/
def State.copyOf (s : State) (c r : Nat) : Option Copy := s.copies.find? (fun k => k.ctx == c && k.rgn == r)
def State.setCopy (s : State) (k : Copy) : State :=
  { s with copies := s.copies.filter (fun x => !(x.ctx == k.ctx && x.rgn == k.rgn)) ++ [k] }
/-- Nobody copies its bytes any more. -/
def dropCopy (s : State) (c r : Nat) : State :=
  { dropUnit s (.copy c r) with copies := s.copies.filter (fun x => !(x.ctx == c && x.rgn == r)) }

/-- A peer has answered a piece: what it has read is kept, what it has written is counted. A piece that failed is asked for again (log
100). -/
def copyAnswer (s : State) (c r : Nat) (q : PeerReq) (ok : Bool) (data : List Byte) : State :=
  match s.copyOf c r with
  | none => s
  | some k =>
    if !ok then s
    else if q.op = peerRead then s.setCopy { k with got := Mem.setBytes k.got k.rd (data.take q.size), rd := k.rd + q.size }
    else s.setCopy { k with wr := k.wr + q.sent.length }

/-- The copy k of n bytes goes on, from address `src` (none: they have been read) to `dst` (none: into the backing store), as far as no peer
is to be asked: the state, and the bytes once all have been copied. -/
def copyGo (d : Nat) (src dst : Option Nat) (n : Nat) : Nat → Copy → State → State × Option Mem
  | 0, k, s => (s.setCopy k, none)
  | fuel + 1, k, s =>
    let who : UnitId := .copy k.ctx k.rgn
    let wait := s.setCopy k
    if unitOut s who then (s, none)
    else match src, dst with
      | some a, _ =>
        if k.rd < n then
          let m := min (n - k.rd) (windowEnd (a + k.rd) n)
          match locate s 0 (a + k.rd) with
          | .peer x => (unitAsk wait d who x peerRead [] m, none)
          | l => match l.home with
            | some h => copyGo d src dst n fuel { k with got := Mem.paste k.got k.rd m (Mem.slice s.mem h m), rd := k.rd + m } s
            | none => (wait, none)
        else copyGo d none dst n fuel k s
      | none, some b =>
        if k.wr < n then
          let m := min (n - k.wr) (windowEnd (b + k.wr) n)
          match locate s 0 (b + k.wr) with
          | .peer x => (unitAsk wait d who x peerWrite (Mem.getBytes k.got k.wr m) m, none)
          | l => match l.home with
            | some h => copyGo d none dst n fuel { k with wr := k.wr + m } (s.setMem (Mem.paste s.mem h m (Mem.slice k.got k.wr m)))
            | none => (wait, none)
        else (dropCopy s k.ctx k.rgn, some k.got)
      | none, none => (dropCopy s k.ctx k.rgn, some k.got)

/-- The copy of the n bytes of region r of context c goes on, or begins: with what it has read, where they come from the backing store. -/
def copyFar (s : State) (c r : Nat) (src dst : Option Nat) (n : Nat) : State × Option Mem :=
  let fresh : Copy := { ctx := c, rgn := r, got := if src.isSome then [] else Tab.get [] (s.ctx c).back r }
  copyGo (workDie s) src dst n (2 * (n / 2 ^ 33 + 2) + 1) ((s.copyOf c r).getD fresh) s

/-! ## The region table (R93) -/

def stOf (n : Nat) : Option RSt :=
  match n with
  | 0 => some .absent
  | 1 => some .arriving
  | 2 => some .resident
  | 3 => some .evicting
  | 4 => some .moving
  | 5 => some .retired
  | _ => none

/-- An entry from its 256 bits; none for a reserved state. Reserved bits are ignored (R3). -/
def entryOf (b : BitVec 256) : Option Entry :=
  (stOf ((b >>> 52).toNat % 16)).map (fun st =>
    { req := b.getLsbD 192, prev := (b >>> 128).setWidth 52, gen := (b >>> 112).setWidth 16, size := (b >>> 64).setWidth 48,
      kind := (b >>> 62).setWidth 2, px := b.getLsbD 61, pw := b.getLsbD 60, pr := b.getLsbD 59, ecl := (b >>> 56).setWidth 3,
      st := st, base := b.setWidth 52 })

/-- The Puppeteer admits an entry (R21, R93, R303, R331, R351, R364). -/
def entryAdmitted (s : State) (c r : Nat) (e : Entry) : Bool :=
  let a := e.base.toNat
  let n := e.size.toNat
  r != 255 && a % 256 == 0 && n % 256 == 0 && (r != 0 || n == 0 || (e.kind == 0#2 && e.pr && e.pw))
    && (n == 0 || (rangeOk s a n && !meetsPool s a n && !meetsJournal s a n && !meetsTrace s a n && vfRangeOk s c a n))

def RSt.code : RSt → Nat
  | .absent => 0
  | .arriving => 1
  | .resident => 2
  | .evicting => 3
  | .moving => 4
  | .retired => 5

/-- The 256 bits of an entry. -/
def Entry.word (e : Entry) : Nat :=
  e.base.toNat + e.st.code * 2 ^ 52 + e.ecl.toNat * 2 ^ 56 + e.pr.toNat * 2 ^ 59 + e.pw.toNat * 2 ^ 60 + e.px.toNat * 2 ^ 61
    + e.kind.toNat * 2 ^ 62 + e.size.toNat * 2 ^ 64 + e.gen.toNat * 2 ^ 112 + e.prev.toNat * 2 ^ 128 + e.req.toNat * 2 ^ 192

/-- The record of a region-table update (R353 OP 3). -/
def updateRec (c r : Nat) (e : Entry) : JRec :=
  let w : Nat → Word := fun i => BitVec.ofNat 64 (e.word / 2 ^ (64 * i))
  { op := 3, ctx := c, arg := BitVec.ofNat 64 r, d4 := w 0, d5 := w 1, d6 := w 2, d7 := w 3 }

/-- The Puppeteer writes the entry of region r of context c, with its record (R93, R354). -/
def writeEntry (s : State) (c r : Nat) (e : Entry) : State :=
  journal (workDie s) (updateRec c r e) (fun s => s.setRegion c r e) s

/-- The relocation entries of the image in region r go with it (R315, R316). -/
def dropSites (s : State) (c r : Nat) : State := s.setCtx c { s.ctx c with relocs := (s.ctx c).relocs.filter (fun l => l.site != r) }

/-- `REGION_TABLE_UPDATE` (R93): write an entry; a region that leaves RESIDENT, or its place, is purged first (R97). -/
def regionTableUpdate (c : BitVec 10) (r : BitVec 8) (b : BitVec 256) (s : State) : State :=
  let old := s.region c.toNat r.toNat
  if !anyPuppeteer s then s
  else match entryOf b with
    | none => s.send (.update c.toNat r.toNat false)
    | some e =>
      if !entryAdmitted s c.toNat r.toNat e then s.send (.update c.toNat r.toNat false)
      else
        let leaves := old.st == .resident && !(e.st == .resident && e.base == old.base && e.size == old.size)
        let s := if leaves then purgeAll s old.base.toNat old.size.toNat else s
        let s := dropCopy (if e.size = 0#48 then dropSites s c.toNat r.toNat else s) c.toNat r.toNat
        (writeEntry s c.toNat r.toNat e).send (.update c.toNat r.toNat true)

/-! ## Work in flight on a region (R152, R280, R308) -/

/-- A running stream has a footprint in region r of context c; the streams of a saved or stopped pair stand still (R152, R302). -/
def streamOn (s : State) (c r : Nat) : Bool :=
  s.pairs.any (fun e => e.2.ctx.toNat == c && e.2.enginesRun && e.2.streams.toList.any (fun st => st.st == .running && st.regions.contains r))

/-- A request of a pair or a card of context c that is on its way to a peer names a byte of region r, or a thread has yet to go on with
the answer to one. -/
def askedIn (s : State) (c r : Nat) : Bool :=
  let e := s.region c r
  let inside : Nat → Bool := fun a => decide (e.base.toNat ≤ a) && decide (a < e.base.toNat + e.size.toNat)
  let holds : Thread → Bool := fun t => t.reply.isSome && t.sent.any inside
  s.pairs.any (fun x => x.2.ctx.toNat == c && (holds x.2.a || holds x.2.x)) || s.peers.any (fun q => q.tag != 99 && q.addrs.any inside
    && (if q.tag < 97 then (s.pair q.p).ctx.toNat == c
        else if 100 ≤ q.tag then ((s.die (q.p / 160)).cards[q.tag - 100]?).any (fun k => k.ctx.toNat == c) else true))

/-- A running stream or card has a footprint in region r of context c. -/
def engineOn (s : State) (c r : Nat) : Bool :=
  streamOn s c r || s.dies.any (fun e => e.2.cards.any (fun k => k.ctx.toNat == c && k.running && k.regions.contains r))

/-- The vector accesses of a context that are in flight are performed. -/
def settleAll (s : State) (c : Nat) : State :=
  (s.pairs.filter (fun e => e.2.ctx.toNat == c && !e.2.flights.isEmpty)).foldl (fun s e => settle s e.1) s

/-! ## Holders (R307) -/

/-- A thread's tags name region r, in a register of either bank, the PC or CUEPC. -/
def Thread.holds (t : Thread) (r : Nat) : Bool :=
  (t.x.toList ++ t.sh.toList ++ [t.pc, t.cuepc]).any (fun v => v.t.toNat == r)

/-- The PC lies in a code region that holds relocation sites of r (R307). -/
def siteHolds (x : Ctx) (t : Thread) (r : Nat) : Bool :=
  x.relocs.any (fun l => l.site == t.pc.t.toNat && (l.target == r || l.anchor == r))

def Pair.holder (q : Pair) (x : Ctx) (r : Nat) : Bool :=
  q.a.holds r || q.x.holds r || siteHolds x q.a r || siteHolds x q.x r

/-- The pairs of a context that hold a region and still live. -/
def holders (s : State) (c r : Nat) : List Nat :=
  (s.pairs.filter (fun e => e.2.ctx.toNat == c && (e.2.st == .running || e.2.st == .parked || e.2.st == .saved || e.2.st == .dbg)
    && e.2.holder (s.ctx c) r)).map (·.1)

/-- A thread counts as parked for a move of r: at a safe point, stopped, ended, or stalled on r (R96, R308). -/
def Thread.parkedFor (t : Thread) (r : Nat) : Bool := t.halt == .move || t.still || t.onRgn == some r

def Pair.parkedFor (q : Pair) (r : Nat) : Bool := q.st != .running || (q.a.parkedFor r && q.x.parkedFor r)

/-- Mark every holder (R308 step 3). -/
def markHolders (s : State) (c r : Nat) : State :=
  (holders s c r).foldl (fun s p =>
    s.updPair p (fun q => { q with movePend := if q.movePend.contains (c, r) then q.movePend else q.movePend ++ [(c, r)] })) s


/-- The pairs of a context that stand on the machine. -/
def pairsOf (s : State) (c : Nat) : List Nat :=
  (s.pairs.filter (fun x => x.2.ctx.toNat == c && x.2.st != .free && x.2.st != .exited)).map (·.1)

/-- The pairs that step 3 of R308 has marked for the move of region r. -/
def marked (s : State) (c r : Nat) : List Nat := (pairsOf s c).filter (fun p => (s.pair p).movePend.contains (c, r))

/-- Every one of them has parked. -/
def holdersParked (s : State) (c r : Nat) : Bool := (marked s c r).all (fun p => (s.pair p).parkedFor r)

/-! ## Relocation sites (R313-R315) -/

/-- A region's base when region r has base b. -/
def baseWith (s : State) (c r b x : Nat) : Nat := if x = r then b else (s.region c x).base.toNat

/-- V of an entry after a move of r to b (R314). -/
def Reloc.v (l : Reloc) (s : State) (c r b : Nat) : Int :=
  (baseWith s c r b l.target : Int) + l.add.toInt - (if l.kind = 5 then (baseWith s c r b l.anchor : Int) else 0)

/-- The bytes of a site: 8 for abs64, else 4. -/
def Reloc.bytes (l : Reloc) : Nat := if l.kind = 1 then 8 else 4

/-- The bytes of a site's region lie in the backing store. -/
def siteAway (s : State) (c : Nat) (l : Reloc) : Bool := (s.region c l.site).st == .absent || (s.region c l.site).st == .arriving

/-- The peer's address of a site that lies in a peer device. -/
def sitePeer (s : State) (c : Nat) (l : Reloc) : Option Nat :=
  if siteAway s c l then none
  else match locate s 0 ((s.region c l.site).base.toNat + l.off) with
    | .peer a => some a
    | _ => none

/-- A site's word, from memory or, while its region is away, from the backing copy; from a peer, which has been asked for the move of r;
none where that failed (log 100). -/
def siteWord (s : State) (c r : Nat) (l : Reloc) : Option Nat :=
  if siteAway s c l then some (Mem.getLE (Tab.get [] (s.ctx c).back l.site) l.off l.bytes)
  else match sitePeer s c l with
    | some a => ((unitAnswer s (.sites c r) a).getD none).map (·.toNat)
    | none => some (Mem.getLE s.mem (((locate s 0 ((s.region c l.site).base.toNat + l.off)).home).getD 0) l.bytes)

/-- A site can hold V (R314). -/
def siteHolds314 (l : Reloc) (v : Int) (w : Nat) : Bool :=
  if l.kind = 5 then decide (-16384 ≤ v) && decide (v ≤ 16383)
  else decide (0 ≤ v) && decide (v < ((2 ^ 52 : Nat) : Int)) && (l.kind != 4 || bits w 14 12 == 0)

/-- The word written at a site (R314). -/
def patched (l : Reloc) (v : Int) (w : Nat) : Nat :=
  let n := wrap 64 v
  let imm : Nat → Nat → Nat := fun k x => w - w % 2 ^ k + x % 2 ^ k
  match l.kind with
  | 1 => l.target * 2 ^ 52 + n % 2 ^ 52
  | 2 => imm 20 (n / 2 ^ 32)
  | 3 => imm 20 (n / 2 ^ 12)
  | 4 => imm 12 n
  | _ => imm 15 n

/-- The entries of a context that name region r, of the images that are still loaded (R316, R317). -/
def sitesOf (s : State) (c r : Nat) : List Reloc :=
  (s.ctx c).relocs.filter (fun l => (l.target == r || l.anchor == r) && (s.region c l.site).size != 0#48 && (s.region c l.site).st != .retired)

/-- The peers' words among them that have yet to be asked for or answered. -/
def sitesOpen (s : State) (c r : Nat) : List (Nat × Nat) :=
  (sitesOf s c r).filterMap (fun l => (sitePeer s c l).bind (fun a => if (unitAnswer s (.sites c r) a).isSome then none else some (a, l.bytes)))

/-- The Puppeteer asks for them. -/
def askSites (s : State) (c r : Nat) : State :=
  (sitesOpen s c r).foldl (fun s x => unitAsk s (workDie s) (.sites c r) x.1 peerRead [] x.2) s

/-- Every site holds its value after a move of r to b (R315). -/
def relocsOk (s : State) (c r b : Nat) : Bool := (sitesOf s c r).all (fun l => (siteWord s c r l).any (siteHolds314 l (l.v s c r b)))

/-- A site is patched in the backing copy of its region, where that has one: a code region's copy is not written when it is evicted. -/
def patchBack (s : State) (c : Nat) (l : Reloc) (v : Int) : State :=
  let x := s.ctx c
  if x.back.any (fun y => y.1 == l.site) || siteAway s c l then
    let m := Tab.get [] x.back l.site
    s.setCtx c { x with back := Tab.set x.back l.site (Mem.setLE m l.off l.bytes (patched l v (Mem.getLE m l.off l.bytes))) }
  else s

/-- Patch every site that names r (R308 step 6): a site in r itself is found at its new place b; one in a peer device is written there.
A copy of the site's region that is under way begins anew, so that the word it takes along is the patched one (log 100). -/
def patchSites (s : State) (c r b : Nat) : State :=
  (sitesOf s c r).foldl (fun s l =>
    let v := l.v s c r b
    let w := patched l v ((siteWord s c r l).getD 0)
    let away := l.site != r && siteAway s c l
    let s := patchBack (if l.site = r then s else dropCopy s c l.site) c l v
    if away then s
    else match locate s 0 (baseWith s c r b l.site + l.off) with
      | .peer a => tellPeer s (workDie s) a peerWrite l.bytes (bytesOf w l.bytes)
      | loc =>
        let a := loc.home.getD 0
        let s := purgeAll s a l.bytes
        s.setMem (Mem.setLE s.mem a l.bytes (patched l v (Mem.getLE s.mem a l.bytes)))) s

/-! ## Rebasing save areas and unparking (R308 steps 7 to 9, R310) -/

/-- Rebase the register records of a save area, and TRAPPC of a thread where it is to move (R308 step 7). -/
def rebaseArea (s : State) (b r : Nat) (old new_ : BitVec 16) (delta : Word) (tpcA tpcX : Bool) : State :=
  let recs := (List.range 42).map (fun i => 16 * i)
  let m := [0x100, 0x500].foldl (fun m blk => recs.foldl (fun m o =>
    let a := b + blk + o
    if (Mem.get m (a + 8)).toNat = r ∧ Mem.getLE m (a + 10) 2 = old.toNat then
      Mem.setLE (Mem.setLE m a 8 (Mem.dw m a + delta).toNat) (a + 10) 2 new_.toNat
    else m) m) s.mem
  let fix : Mem → Bool → Nat → Mem := fun m on a => if on then Mem.setLE m a 8 (Mem.dw m a + delta).toNat else m
  s.setMem (fix (fix m tpcA (b + 0x100 + 0x2F0)) tpcX (b + 0x500 + 0x2F0))

/-- The GEN a thread recorded for region r is not the current one: it has been parked through a move of it (R310). -/
def movedOnce (s : State) (c r : Nat) (t : Thread) : Bool := t.gens.any (fun g => g.1 == r && g.2 != (s.region c r).gen.toNat)

/-- A thread that a move has passed by is rebased where it stands, and its GENs are recorded anew (R309, R310). -/
def renote (s : State) (q : Pair) (t : Thread) : Thread :=
  let t := rebaseThread s q.ctx.toNat t
  { t with gens := genRecord s q t }

/-- A thread that has stood still since before another move of r. -/
def heldOver (s : State) (c r : Nat) (q : Pair) (t : Thread) : Bool := movedOnce s c r t && (q.st != .running || t.still)

/-- The pairs that a second move of region r finds where the first one left them: parked, stopped, or with a thread that stands still
(R310). Those that the machine keeps in their save areas alone are not among them. -/
def secondMove (s : State) (c r : Nat) : List Nat :=
  (holders s c r).filter (fun p =>
    let q := s.pair p
    (q.st == .running || q.st == .parked || (q.st == .dbg && q.area.isNone)) && (heldOver s c r q q.a || heldOver s c r q q.x))

/-- Each of them can be saved now: no fill of its banks runs, and there are areas for those that have none. -/
def canSaveForMove (s : State) (c r : Nat) : Bool :=
  let ps := secondMove s c r
  ps.all (fillsDone s) && (freeAreas s (ps.filter (fun p => (s.pair p).area.isNone)).length).isSome

/-- Before a second move, each of them is saved with REASON 3 and rebased to where its regions are now; from then on its area is rebased
with it (R310). -/
def saveForMove (s : State) (c r : Nat) : State :=
  (secondMove s c r).foldl (fun s p =>
    let s := s.updPair p (fun q => { q with a := if heldOver s c r q q.a then renote s q q.a else q.a
                                            x := if heldOver s c r q q.x then renote s q q.x else q.x })
    match (s.pair p).area, freeArea s with
    | none, some i => (writeArea (quiesce s p) p i 3).updPair p (fun q => { q with area := some i })
    | _, _ => s) s

/-- The move of region r is over: no thread waits for it any more, and those that wait for no other go on with rebased registers
(R308 step 9, R309). A parked pair's threads go on when it is resumed. -/
def unparkFor (s : State) (c r : Nat) : State :=
  (pairsOf s c).foldl (fun s p =>
    let left := (s.pair p).movePend.filter (· != (c, r))
    let s := s.updPair p (fun q => { q with movePend := left })
    let go : Thread → Thread := fun t =>
      if t.halt = .exited ∨ t.halt = .preempt ∨ t.halt = .debug then t
      else
        let t := rebaseThread s c t
        if left.isEmpty && t.halt == .move then { t with halt := .none } else t
    if (s.pair p).st = .running then freeStill (s.updPair p (fun q => { q with a := go q.a, x := go q.x })) p else s) s

/-- Step 7 of R308: every save area of the context has its records of r rebased. The PC that the machine keeps of a stored pair goes
with its record. A step done before changes nothing: every record and TRAPPC says at which generation it stands (R353). -/
def rebaseAreas (s : State) (c r : Nat) (old new_ : BitVec 16) (delta : Word) : State :=
  (pairsOf s c).foldl (fun s p =>
    let q := s.pair p
    match q.area with
    | some i =>
      let b := areaBase s i
      let due : Thread → Nat → Bool := fun t g => t.tpc.t.toNat == r && g == old.toNat
      let tpcA := due q.a q.tpcGenA
      let tpcX := due q.x q.tpcGenX
      let s' := (rebaseArea s b r old new_ delta tpcA tpcX).updPair p (fun q =>
        { q with tpcGenA := if tpcA then new_.toNat else q.tpcGenA, tpcGenX := if tpcX then new_.toNat else q.tpcGenX })
      let sync : Nat → Thread → Thread := fun o t => if recordAt s.mem (b + o) = t.pc then { t with pc := recordAt s'.mem (b + o) } else t
      if q.st = .saved ∨ q.st = .dbg then s'.updPair p (fun q => { q with a := sync 0x380 q.a, x := sync 0x780 q.x }) else s'
    | none => s) s

/-- The record of a step of a move of r from O to B at generation `gen` (R353 OP 6). -/
def moveRec (c r n b old : Nat) (gen : BitVec 16) : JRec :=
  { op := 6, ctx := c, arg := BitVec.ofNat 64 (r + n * 2 ^ 8), d4 := BitVec.ofNat 64 b, d5 := BitVec.ofNat 64 old, d6 := gen.zeroExtend 64 }

/-- A step of a move, journalled before it is taken (R308). The record's generation is the one the commit gives. -/
def moveStep (n c r b old : Nat) (gen : BitVec 16) (act : State → State) (s : State) : State :=
  journal (workDie s) (moveRec c r n b old gen) act s

/-- Steps 4 to 9 of R308: the bytes are at the new place and the region is RESIDENT there; every thread that parked for it goes
on with rebased registers. `copy` puts the region's bytes at the new base; none where steps 4 and 5 have been taken. -/
def commitMove (s : State) (c r b : Nat) (copy : Option (State → State)) : State :=
  let s := saveForMove s c r
  let e := s.region c r
  let old := e.base.toNat
  let delta : Word := BitVec.ofNat 64 b - e.base.zeroExtend 64
  let gen := e.gen + 1#16
  -- a thread stalled without having parked records its GENs now
  let note : Thread → State → Pair → Thread := fun t s q => if t.gens.isEmpty then { t with gens := genRecord s q t } else t
  let s := (pairsOf s c).foldl (fun s p => s.updPair p (fun q => if q.st = .running then { q with a := note q.a s q, x := note q.x s q } else q)) s
  let s := match copy with
    | some f => moveStep 5 c r b old gen f (moveStep 4 c r b old gen (fun s => settleAll s c) s)
    | none => s
  let s := moveStep 6 c r b old gen (fun s => patchSites s c r b) s
  let s := moveStep 7 c r b old gen (fun s => rebaseAreas s c r e.gen gen delta) s
  let s := moveStep 8 c r b old gen
    (fun s => s.setRegion c r { s.region c r with prev := e.base, base := BitVec.ofNat 52 b, gen := gen, st := .resident }) s
  moveStep 9 c r b old gen (fun s => unparkFor s c r) s

/-! ## Residency (R24, R280, R281) -/

/-- Another region of any context holds memory that a range meets (R311). -/
def occupied (s : State) (c r a n : Nat) : Bool :=
  s.ctxs.any (fun x => x.2.regions.any (fun e =>
    !(x.1 == c && e.1 == r) && (e.2.st == .resident || e.2.st == .arriving || e.2.st == .evicting || e.2.st == .moving)
      && (meets a n e.2.base.toNat e.2.size.toNat || (match x.2.nextBase.find? (fun b => b.1 == e.1) with
        | some b => (e.2.st == .arriving || e.2.st == .moving) && meets a n b.2 e.2.size.toNat
        | none => false))))

/-- A new base of a region is refused whatever regions hold memory there (R311). -/
def baseUnfit (s : State) (c r b : Nat) : Bool :=
  let n := (s.region c r).size.toNat
  b % 256 != 0 || !rangeOk s b n || !vfRangeOk s c b n || meetsPool s b n || meetsJournal s b n || meetsTrace s b n

/-- A new base of a region is refused (R311). -/
def baseRefused (s : State) (c r b : Nat) : Bool := baseUnfit s c r b || occupied s c r b (s.region c r).size.toNat

/-- The request served next: the highest priority, then the first to arrive, of those whose region is ABSENT (R24). -/
def nextRequest (s : State) : Option (Nat × Nat × Nat) :=
  (s.posted.filter (fun q => (s.region q.1 q.2.1).st == .absent)).foldl (fun (m : Option (Nat × Nat × Nat)) q => match m with
    | none => some q
    | some x => if x.2.2 < q.2.2 then some q else some x) none

/-- A context has a pair on the machine. -/
def admitted (s : State) (c : Nat) : Bool := s.pairs.any (fun e => e.2.ctx.toNat == c && e.2.st != .free && e.2.st != .exited)

/-- A region is still there to be evicted, now or once its move, its arrival or what runs on it has ended: it holds memory, and is not
region 0 of a context with an admitted pair (R280). -/
def remains (s : State) (c r : Nat) (e : Entry) : Bool :=
  (e.st == .resident || e.st == .evicting || e.st == .moving || e.st == .arriving) && e.size != 0#48 && !(r == 0 && admitted s c)

/-- A region of a lower class than `cls` remains to evict (R24). -/
def roomLeft (s : State) (cls : BitVec 3) : Bool :=
  s.ctxs.any (fun x => x.2.regions.any (fun e => remains s x.1 e.1 e.2 && decide (e.2.ecl < cls)))

/-- A region may stand at a base but for the regions that hold memory there: the ranges of R21 and the pools allow it, and its sites can
hold their values, which its own base does not change (R311, R315). -/
def baseFits (s : State) (c r b : Nat) : Bool :=
  !baseUnfit s c r b && (b == (s.region c r).base.toNat || relocsOk s c r b)

/-- The lowest bases at which the sites that name r begin to hold their values (R314). -/
def siteBases (s : State) (c r : Nat) : List Nat :=
  (sitesOf s c r).flatMap (fun l =>
    let v0 := l.v s c r 0
    let (lo, hi) : Int × Int := if l.kind = 5 then (-16384, 16383) else (0, 2 ^ 52 - 1)
    [(lo - v0).toNat, (v0 - hi).toNat])

/-- Bases among which there is one that serves if any does: where a range of R21, of an interface or of the sites begins, and where a
region or a pool ends, on the next multiple of 256; and the region's own. -/
def baseCandidates (s : State) (c r : Nat) : List Nat :=
  let ends : List (Nat × Nat) := [poolRange s] ++ s.dies.flatMap (fun e => [journalRange e.2, traceRange e.2])
    ++ s.vfs.flatMap (fun e => [e.2.carve, e.2.window])
    ++ s.ctxs.flatMap (fun x => x.2.regions.flatMap (fun e => [(e.2.base.toNat, e.2.size.toNat)]
      ++ (x.2.nextBase.filter (fun y => y.1 == e.1)).map (fun y => (y.2, e.2.size.toNat))))
  let starts := [0, Config.peerBase, Config.hostBase, (s.region c r).base.toNat] ++ s.vfs.flatMap (fun e => [e.2.carve.1, e.2.window.1])
  (starts ++ siteBases s c r ++ ends.map (fun e => e.1 + e.2)).map (fun a => (a + 255) / 256 * 256)

/-- Some base serves the return of a region now, or will once regions of a lower class have been evicted (R24, R311). -/
def servable (s : State) (c r : Nat) : Bool :=
  (baseCandidates s c r).any (fun b => baseFits s c r b && (!occupied s c r b (s.region c r).size.toNat || roomLeft s (s.region c r).ecl))

/-- A base cannot serve the return of region r: it is refused, or a site cannot hold its value (R311). -/
def baseFails (s : State) (c r b : Nat) : Bool := baseRefused s c r b || (b != (s.region c r).base.toNat && !relocsOk s c r b)

/-- The base that a move of an ABSENT region recorded cannot serve its return: the move ends with REL_RANGE or REFUSED, and the return is
made at another base (R311, log 104). -/
def recordedFails (s : State) (c r b : Nat) : State :=
  let x := s.ctx c
  let s := { s with moves := s.moves.filter (fun (m : Move) => !(m.ctx == c && m.rgn == r)) }
  (s.setCtx c { x with nextBase := Tab.del x.nextBase r }).send (.move c r (if baseRefused s c r b then 2 else 1))

/-- A request that cannot be served: the region stays ABSENT and the host is told (R24). -/
def dropRequest (s : State) (c r : Nat) : State :=
  let s := { s with posted := s.posted.filter (fun q => !(q.1 == c && q.2.1 == r)) }
  (writeEntry (dropUnit s (.sites c r)) c r { s.region c r with req := false }).send (.region c r)

/-- `RESIDENCY_REQUEST_SERVICE` (R24, R281): the Puppeteer accepts a request and starts the copy in, at the base an earlier move
recorded or else at the one it chooses. While that base cannot serve, the request waits for another, or for room that regions of a lower
class still take; when no base serves and none of those remains, the region stays ABSENT and the host is told. A return at a new base takes
steps 1 to 3 of a move (R308). -/
def residencyRequestService (c : BitVec 10) (r : BitVec 8) (base : BitVec 52) (s : State) : State :=
  match nextRequest s with
  | none => s
  | some q =>
    if q.1 ≠ c.toNat ∨ q.2.1 ≠ r.toNat ∨ !anyPuppeteer s then s
    else
      let rec_ := (s.ctx c.toNat).nextBase.find? (fun e => e.1 == r.toNat)
      let b := (rec_.map (·.2)).getD base.toNat
      let e := s.region c.toNat r.toNat
      let moves := b != e.base.toNat
      if (moves || baseFails s c.toNat r.toNat b) && !(sitesOpen s c.toNat r.toNat).isEmpty then askSites s c.toNat r.toNat
      else if baseFails s c.toNat r.toNat b then
        if rec_.isSome then (if baseFits s c.toNat r.toNat b && roomLeft s e.ecl then s else recordedFails s c.toNat r.toNat b)
        else if servable s c.toNat r.toNat then s
        else dropRequest s c.toNat r.toNat
      else
        let step : Nat → (State → State) → State → State := fun n f s =>
          if moves then moveStep n c.toNat r.toNat b e.base.toNat (e.gen + 1#16) f s else f s
        let s := step 1 id { s with posted := s.posted.filter (fun q => !(q.1 == c.toNat && q.2.1 == r.toNat)) }
        let x := s.ctx c.toNat
        let s := writeEntry (s.setCtx c.toNat { x with nextBase := Tab.set x.nextBase r.toNat b }) c.toNat r.toNat { e with req := false, st := .arriving }
        step 3 (fun s => if moves then markHolders s c.toNat r.toNat else s) (step 2 id s)

/-- The Puppeteer resumes a pair, with the record of it (R354); where its groups are lent, what it posts to the borrower has its record now,
and the resumption its own when it comes. -/
def resumeAct (s : State) (p : Nat) (skip : Bool) : State :=
  if (s.pair p).st ≠ .parked then s
  else if (s.pair p).lent.isEmpty && !(s.pair p).owes then journal (dieOf p) (resumeRec s p skip) (fun s => resumePair s p skip) s
  else resumePair s p skip

/-- The latest trap of a parked pair is a swap fault on region r (R301). -/
def Pair.parkedOn (q : Pair) (r : Nat) : Bool :=
  let t := q.thr q.trapK
  q.st == .parked && t.tcause.toNat % 256 == 7 && t.tval.toNat == r

/-- So is the scalar trap that waits under a block word's. -/
def Pair.underOn (q : Pair) (r : Nat) : Bool := q.st == .parked && q.owes && q.under.any (fun u => u.cause.toNat % 256 == 7 && u.val.toNat == r)

/-- Pairs parked for a swap fault on a region are resumed, where the die's Puppeteer works (R301, R358); a trap of the pair that is not that
fault waits for its own answer (R289). -/
def resumeFaulted (s : State) (c r : Nat) : State :=
  (s.pairs.filter (fun e => e.2.ctx.toNat == c && decide (e.1 < 1280) && (e.2.parkedOn r || e.2.underOn r) && puppeteerOn s (dieOf e.1))).foldl (fun s e =>
    let s := if e.2.underOn r then answerUnder s e.1 false else s
    if e.2.parkedOn r then resumeAct s e.1 false else s) s

/-- What a trap of a pair of context c with a cause, a value and a code region waits for is there: the region of its swap fault, which may
be RETIRED (R301), or code in the place of the RETIRED code it met (R317). -/
def State.mended (s : State) (c cause val code : Nat) : Bool :=
  let at_ : Nat → RSt := fun r => (s.region c r).st
  (cause == 7 && (at_ val == .resident || at_ val == .retired)) || (cause == 8 && at_ code == .resident)

/-- A parked pair goes on by itself from its latest trap. -/
def Pair.ready (q : Pair) (s : State) : Bool :=
  let t := q.thr q.trapK
  q.st == .parked && s.mended q.ctx.toNat (t.tcause.toNat % 256) t.tval.toNat t.tpc.t.toNat

/-- So does its thread from the scalar trap that waits under it. -/
def Pair.underReady (q : Pair) (s : State) : Bool :=
  q.st == .parked && q.owes && q.under.any (fun u => s.mended q.ctx.toNat (u.cause.toNat % 256) u.val.toNat (q.thr u.k).pc.t.toNat)

/-- The Puppeteers resume the pairs that are ready. -/
def resumeReady (s : State) : State :=
  (s.pairs.filter (fun e => (e.2.ready s || e.2.underReady s) && decide (e.1 < 1280) && puppeteerOn s (dieOf e.1))).foldl (fun s e =>
    let s := if e.2.underReady s then answerUnder s e.1 false else s
    if e.2.ready s then resumeAct s e.1 false else s) s

/-- Steps 4 and 5 of a move whose bytes go to or come from a peer: recorded when the copy begins (R308). -/
def beginFar (s : State) (c r b : Nat) : State :=
  let e := s.region c r
  if (s.copyOf c r).isSome then s
  else moveStep 5 c r b e.base.toNat (e.gen + 1#16) id (moveStep 4 c r b e.base.toNat (e.gen + 1#16) (fun s => settleAll s c) s)

/-- `REGION_ARRIVAL` (R281, R308): the copy in completes; at a new base it commits as a move once every holder has parked. -/
def regionArrival (c : BitVec 10) (r : BitVec 8) (s : State) : State :=
  let cn := c.toNat
  let rn := r.toNat
  let e := s.region cn rn
  if !anyPuppeteer s || e.st != .arriving then s
  else
    let x := s.ctx cn
    let b := match x.nextBase.find? (fun y => y.1 == rn) with
      | some y => y.2
      | none => e.base.toNat
    let n := e.size.toNat
    let far := farRange b n
    let bring : State → State := if far then id else fun s => s.setMem (Mem.paste s.mem b n (Tab.get [] x.back rn))
    -- the bytes that go to a peer: nothing follows until all have been written there
    let sent : State → (State → State) → State := fun s f =>
      if !far then f s
      else match copyFar s cn rn none (some b) n with
        | (s, none) => s
        | (s, some _) => f s
    let done : State → State := fun s => s.setCtx cn { s.ctx cn with nextBase := Tab.del (s.ctx cn).nextBase rn }
    let asked := s.moves.any (fun m => m.ctx == cn && m.rgn == rn)
    let rest : List Move := s.moves.filter (fun (m : Move) => !(m.ctx == cn && m.rgn == rn))
    if b = e.base.toNat then
      sent s (fun s =>
        let s := writeEntry { bring s with moves := rest } cn rn { e with st := .resident }
        resumeFaulted (done (if asked then s.send (.move cn rn 0) else s)) cn rn)
    else if !holdersParked s cn rn || !canSaveForMove s cn rn then s
    else
      sent (if far then beginFar s cn rn b else s) (fun s =>
        let s := dropUnit { commitMove s cn rn b (if far then none else some bring) with moves := rest } (.sites cn rn)
        let s := if asked then s.send (.move cn rn 0) else s
        resumeFaulted (done s) cn rn)

/-- A region may be evicted: it is RESIDENT, no running stream or card has a footprint in it, and it is not region 0 of a context
with an admitted pair (R152, R155, R280). -/
def evictable (s : State) (c r : Nat) : Bool :=
  (s.region c r).st == .resident && (s.region c r).size != 0#48 && !(r == 0 && admitted s c) && !engineOn s c r

/-- The Puppeteer may choose region r of context c for eviction (R280): the request it serves next asks for a region of a higher class,
no region of a lower class could be evicted, and none of its class that was accessed less recently (log 39). -/
def evictChoice (s : State) (c r : Nat) : Bool :=
  let cls := (s.region c r).ecl.toNat
  evictable s c r && (nextRequest s).any (fun q => decide (cls < (s.region q.1 q.2.1).ecl.toNat))
    && s.ctxs.all (fun x => x.2.regions.all (fun e => !evictable s x.1 e.1 || decide (cls < e.2.ecl.toNat)
      || (cls == e.2.ecl.toNat && decide (s.touchedAt c r ≤ s.touchedAt x.1 e.1))))

/-- `REGION_EVICT` (R280): a RESIDENT region is purged and becomes EVICTING; then, its accesses and cards drained and its bytes
written back where its kind allows writes, ABSENT. -/
def regionEvict (c : BitVec 10) (r : BitVec 8) (s : State) : State :=
  let cn := c.toNat
  let rn := r.toNat
  let e := s.region cn rn
  match e.st with
  | .resident =>
    if !anyPuppeteer s || !evictChoice s cn rn then s
    else writeEntry (purgeAll (settleAll s cn) e.base.toNat e.size.toNat) cn rn { e with st := .evicting }
  | .evicting =>
    if !anyPuppeteer s || engineOn s cn rn || askedIn s cn rn then s
    else
      let s := settleAll s cn
      let x := s.ctx cn
      let kept := x.back.any (fun y => y.1 == rn)
      let writes := e.kind == 0#2 || e.kind == 3#2
      let away : State → Ctx → State := fun s x => writeEntry (s.setCtx cn x) cn rn { s.region cn rn with st := .absent }
      let store : State → Mem → State := fun s m => away s { s.ctx cn with back := Tab.set (s.ctx cn).back rn m }
      if kept && !writes then away s x
      else if !farRange e.base.toNat e.size.toNat then store s (Mem.slice s.mem e.base.toNat e.size.toNat)
      else match copyFar s cn rn (some e.base.toNat) none e.size.toNat with
        | (s, none) => s
        | (s, some m) => store s m
  | _ => s

/-! ## Moves (R308, R311) -/

/-- Tell whoever asked for a move: 0 DONE, 1 REL_RANGE, 2 REFUSED (R311). What peers said of its sites is of no more use. -/
def moveStatus (s : State) (c r n : Nat) : State := (dropUnit s (.sites c r)).send (.move c r n)

/-- A move of region r to b is on its way; `back` for the return of an ABSENT region. -/
def recordMove (s : State) (c r b : Nat) (back : Bool) : State :=
  let mv : Move := { ctx := c, rgn := r, old := (s.region c r).base.toNat, new_ := b, step := 3, isReturn := back }
  let s := { s with moves := s.moves.filter (fun (m : Move) => !(m.ctx == c && m.rgn == r)) ++ [mv] }
  s.setCtx c { s.ctx c with nextBase := Tab.set (s.ctx c).nextBase r b }

/-- Step 2 of R308: the region is purged and MOVING. -/
def startMove (s : State) (c r : Nat) : State :=
  let e := s.region c r
  (purgeAll (settleAll s c) e.base.toNat e.size.toNat).setRegion c r { e with st := .moving }

/-- `MOVE_REQUEST` (R308, R311): a request is checked; a RESIDENT region is purged, set MOVING and its holders marked; an ABSENT
one has the base recorded for its return. For a region that is ARRIVING or EVICTING the request is kept; so it is until the peers in which
sites lie have said what these hold (R315). -/
def moveRequest (c : BitVec 10) (r : BitVec 8) (base : BitVec 52) (s : State) : State :=
  let cn := c.toNat
  let rn := r.toNat
  let e := s.region cn rn
  let b := base.toNat
  let gen := e.gen + 1#16
  if !anyPuppeteer s then s
  else if rn != 255 && e.size != 0#48 && (e.st == .arriving || e.st == .evicting) then
    { s with kept := s.kept.filter (fun k => !(k.1 == cn && k.2.1 == rn)) ++ [(cn, rn, b)] }
  else if !(sitesOpen s cn rn).isEmpty then
    askSites { s with kept := s.kept.filter (fun k => !(k.1 == cn && k.2.1 == rn)) ++ [(cn, rn, b)] } cn rn
  else
  let s := moveStep 1 cn rn b e.base.toNat gen id s
  if rn == 255 || e.size == 0#48 || e.st == .retired || e.st == .moving || baseRefused s cn rn b then moveStatus s cn rn 2
  else if !relocsOk s cn rn b then moveStatus s cn rn 1
  else
    let s := recordMove s cn rn b (e.st == .absent)
    if e.st = .absent then dropUnit s (.sites cn rn)
    else
      let s := moveStep 2 cn rn b e.base.toNat gen
        (fun s => startMove s cn rn) s
      moveStep 3 cn rn b e.base.toNat gen (fun s => markHolders s cn rn) s

/-- Requests kept for a region that is now RESIDENT or ABSENT, or gone, are treated by that state (R311), once its sites are known. -/
def takeKept (s : State) : State :=
  let due : Nat × Nat × Nat → Bool := fun k => (s.region k.1 k.2.1).st != .arriving && (s.region k.1 k.2.1).st != .evicting
    && (sitesOpen s k.1 k.2.1).all (fun x => !(s.peers.any (fun q => q.who == some (.sites k.1 k.2.1) && q.addrs == [x.1])))
  if !anyPuppeteer s then s
  else (s.kept.filter due).foldl (fun s k => moveRequest (BitVec.ofNat 10 k.1) (BitVec.ofNat 8 k.2.1) (BitVec.ofNat 52 k.2.2) s)
    { s with kept := s.kept.filter (fun k => !due k) }

/-- `MOVE_HOLDER_TIMEOUT` (R308): the take group of a holder that was marked and has not parked within 100 µs is hard pre-empted, by the
Puppeteer of its die. -/
def moveHolderTimeout (c : BitVec 10) (r : BitVec 8) (s : State) : State :=
  let cn := c.toNat
  let rn := r.toNat
  if !anyPuppeteer s then s
  else (marked s cn rn).foldl (fun s p =>
    if (s.pair p).parkedFor rn || !puppeteerOn s (dieOf p) then s
    else match groupOf s p with
      | some g => postHard s (dieOf p) g 1
      | none => s) s

/-- `MOVE_COMMIT` (R308): once every holder has parked, and been saved where R310 wants that, and nothing is in flight, the bytes move, sites are patched, save areas
rebased, and the region is RESIDENT at its new base. Bytes that a peer holds or takes are copied first, piece by piece. -/
def moveCommit (c : BitVec 10) (r : BitVec 8) (s : State) : State :=
  let cn := c.toNat
  let rn := r.toNat
  let e := s.region cn rn
  match s.moves.find? (fun m => m.ctx == cn && m.rgn == rn && !m.isReturn) with
  | none => s
  | some m =>
    if !anyPuppeteer s ∨ e.st ≠ .moving ∨ engineOn s cn rn ∨ askedIn s cn rn ∨ !holdersParked s cn rn ∨ !canSaveForMove s cn rn then s
    else
      let n := e.size.toNat
      let ends : Option (State → State) → State → State := fun copy s =>
        let s := commitMove s cn rn m.new_ copy
        let s := { s with moves := s.moves.filter (fun x => !(x.ctx == cn && x.rgn == rn)) }
        moveStatus (s.setCtx cn { s.ctx cn with nextBase := Tab.del (s.ctx cn).nextBase rn }) cn rn 0
      if !(farRange m.old n || farRange m.new_ n) then ends (some (fun s => s.setMem (Mem.copy s.mem m.old m.new_ n))) s
      else match copyFar (beginFar s cn rn m.new_) cn rn (some m.old) (some m.new_) n with
        | (s, none) => s
        | (s, some _) => ends none s

/-! ## Unloading and retiring code (R316, R317) -/

/-- A pair holds a code region (R316): in a PC, a tagged register of either bank, CUEPC, a queued block or a saved fragment. -/
def Pair.holdsCode (q : Pair) (r : Nat) : Bool := q.a.holds r || q.x.holds r || q.blocks.any (fun b => b.rgn.toNat == r)

def codeHeld (s : State) (c r : Nat) : Bool :=
  s.pairs.any (fun e => e.2.ctx.toNat == c && e.2.st != .free && e.2.st != .exited && e.2.holdsCode r)

/-- `UNLOAD_CODE` (R316). -/
def unloadCode (c : BitVec 10) (r : BitVec 8) (s : State) : State :=
  let e := s.region c.toNat r.toNat
  if !anyPuppeteer s || e.kind != 1#2 then s
  else if codeHeld s c.toNat r.toNat then s.send (.unload c.toNat r.toNat true)
  else
    (writeEntry (dropSites (purgeAll s e.base.toNat e.size.toNat) c.toNat r.toNat) c.toNat r.toNat { e with size := 0#48 }).send (.unload c.toNat r.toNat false)

/-- A region is purged and RETIRED; a move of it is over; holders are reported, and pairs that wait for it go on into its fault (R317). -/
def retireRegion (s : State) (c r : Nat) : State :=
  let e := s.region c r
  let s := dropCopy (purgeAll s e.base.toNat e.size.toNat) c r
  let s := writeEntry s c r { e with st := .retired, req := false }
  let asked := s.moves.any (fun m => m.ctx == c && m.rgn == r) || s.kept.any (fun k => k.1 == c && k.2.1 == r)
  let s := { s with posted := s.posted.filter (fun q => !(q.1 == c && q.2.1 == r)), moves := s.moves.filter (fun m => !(m.ctx == c && m.rgn == r))
                    kept := s.kept.filter (fun k => !(k.1 == c && k.2.1 == r)) }
  let s := s.setCtx c { s.ctx c with nextBase := Tab.del (s.ctx c).nextBase r }
  let s := unparkFor (if asked then moveStatus s c r 2 else s) c r
  let s := if codeHeld s c r then s.send (.context c 3) else s
  resumeFaulted s c r

/-- `FORCED_RETIRE` (R317). -/
def forcedRetire (c : BitVec 10) (r : BitVec 8) (s : State) : State :=
  if !anyPuppeteer s || (s.region c.toNat r.toNat).size == 0#48 then s else retireRegion s c.toNat r.toNat

/-! ## Lending lane groups (R25, R168) -/

/-- `LANE_LEND` (R168): the vector state of a swap-faulted pair is saved and its groups, those that work, go to a borrower of its cluster,
within the limits of the borrower's interface (R364). -/
def laneLend (p b : Nat) (s : State) : State :=
  let q := s.pair p
  let cl := clusterOf p
  if puppeteerOn s (dieOf p) && q.st == .parked && (q.thr q.trapK).tcause.toNat % 256 == 7 && !q.owned.isEmpty && q.lent.isEmpty
    && decide (p < 1280) && decide (b < 1280) && clusterOf b == cl && b != p && (s.pair b).st == .running && (s.pair b).lender.isNone
    && fillsDone s p && q.area.isNone then
    match freeArea s with
    | none => s
    | some i =>
      -- the area holds the registers as they read now (R306, R309)
      let s' := writeArea (quiesce (s.updPair p (fun q => { q with a := renote s q q.a, x := renote s q q.x })) p) p i 2
      let s' := s'.updPair p (fun q => { q with area := some i, lent := q.owned, owned := [] })
      let s' := q.owned.foldl (fun s g => setLpr s cl g 6#3) s'
      let s' := s'.updPair b (fun x => { x with lender := some p })
      let works : Nat → Bool := fun g => (s.cluster cl).mask.getLsbD g
      let s' := postChange s' b ((List.range 8).filter (fun g => (s.pair b).lastSet.contains g || (q.owned.contains g && works g)))
      if vfWithin s' (dieOf b) (s.pair b).ctx.toNat then s' else s
  else s

/-- `LEND_RETURN_TIMEOUT` (R25): a borrower that reaches no strip within 100 µs of its lender's becoming runnable is hard
pre-empted, and the groups go back. -/
def lendReturnTimeout (p : Nat) (s : State) : State :=
  if puppeteerOn s (dieOf p) && (s.pair p).resume.isSome && !(s.pair p).lent.isEmpty then
    match (List.range 4).find? (fun k => (s.pair (p / 4 * 4 + k)).lender == some p) with
    | some k => match groupOf s (p / 4 * 4 + k) with
      | some g => postHard s (dieOf p) g 1
      | none => s
    | none => returnLent s p
  else s

/-- `PARTITION_CHANGE_POST` (R167): the Puppeteer posts a new set of working lane groups for a pair, within the limits of its interface
(R364). -/
def partitionChangePost (p : Nat) (groups : BitVec 8) (s : State) : State :=
  let q := s.pair p
  let set := (List.range 8).filter (fun g => groups.getLsbD g)
  if puppeteerOn s (dieOf p) && decide (p < 1280) && (q.st == .running || q.st == .parked || q.st == .dbg)
    && set.all (fun g => (s.cluster (clusterOf p)).mask.getLsbD g) && q.lastSet != set then
    let s' := postChange s p set
    if vfWithin s' (dieOf p) q.ctx.toNat then s' else s
  else s

end Sys2Proof.Machine
end

