-- ==== Sys2Proof/Machine/Fetch.lean ====
section
/-! DEFINITION. A turn of each agent: the cycle a pair is charged (R329), faults of streams and cards delivered to the A thread
(R151, R155), cues (R318-R321), the checks of a fetch (R34, R35, R81, R413), convoys (R32, R176), and the turn of a pair's
engines. -/

namespace Sys2Proof.Machine

/-! ## Slip counters (R329) -/

/-- Add one cycle to the first class whose condition holds. -/
def slip (s : State) (p : Nat) : State :=
  s.updPair p (fun q =>
    if q.x.halt = .exited then q
    else if q.x.wait = .mem || q.lanes.memStall then { q with slipM := q.slipM + 1#64 }
    else if q.x.wait = .vec then { q with slipV := q.slipV + 1#64 }
    else if lanesIdle q then { q with slipS := q.slipS + 1#64 }
    else { q with slipO := q.slipO + 1#64 })

/-! ## Cues (R318-R321) -/

/-- The PC matches that a thread meets at its next instruction, lowest index first (R319). -/
def pcMatch (s : State) (p : Nat) (k : Kind) : List Nat :=
  let q := s.pair p
  let t := q.thr k
  let off := (t.pc.v - (s.region q.ctx.toNat t.pc.t.toNat).base.zeroExtend 64).toNat
  (List.range 16).filter (fun i =>
    let w := (s.ctx q.ctx.toNat).pcm.getD i 0#64
    w.getLsbD 63 && (w.getLsbD 62 == decide (k = .X)) && bitsW w 59 52 == t.pc.t.toNat && bitsW w 51 0 == off)

/-- Where the signal of CUESIG stands, if it can be read now. -/
def cueLoc (s : State) (p : Nat) (k : Kind) : Option Loc :=
  let q := s.pair p
  let t := q.thr k
  let e := s.region q.ctx.toNat (bitsW t.cuesig 59 52)
  let a := (e.base.zeroExtend 64 + BitVec.ofNat 64 (bitsW t.cuesig 51 0)).toNat
  if e.covers a 8 && e.admits .load && e.st == .resident && a % 8 == 0 then some (locate s (clusterOf p) a) else none

/-- The signal of CUESIG meets its condition (R318): as it stands at its home, or as a peer device last answered. -/
def cueSignal (s : State) (p : Nat) (k : Kind) : Bool :=
  let t := (s.pair p).thr k
  let met : Nat → Bool := fun v => waitMet (t.cuesig.getLsbD 63) v t.cueval.toNat
  match cueLoc s p k with
  | some (.peer a) => match unitAnswer s (.cue p k) a with
    | some (some w) => met w.toNat
    | _ => false
  | some l => (l.home.map (fun h => met (Mem.getLE s.mem h 8))).getD false
  | none => false

/-- The peer device that holds an armed signal is asked for it, again after each answer; nobody asks about one that is not armed. -/
def pollSignal (s : State) (p : Nat) (k : Kind) : State :=
  match (if ((s.pair p).thr k).cuearm.getLsbD 62 then cueLoc s p k else none) with
  | some (.peer a) =>
    let asked := s.peers.any (fun q => q.tag == 98 && q.who == some (.cue p k) && q.addrs == [a])
    if asked then s else unitAsk (dropUnit s (.cue p k)) (dieOf p) (.cue p k) a peerRead []
  | _ => dropUnit s (.cue p k)

/-- The stream of a channel: of those that have started on it, the latest. -/
def latestOn (q : Pair) (c : Nat) : Option Stream :=
  (q.streams.toList.filter (fun st => st.chu && st.chan.toNat == c && (st.st == .running || st.st == .done || st.st == .faulted))).foldl
    (fun b st => match b with
      | some x => if x.order < st.order then some st else b
      | none => some st) none

/-- The watermark of a channel has reached its stream's end: the end of the bytes the stream writes (R147, R318). -/
def cueMark (q : Pair) (c : Nat) : Bool :=
  (latestOn q c).any (fun st => st.st != .faulted
    && decide (Config.localBase + bitsW (st.dw 5) 21 0 + st.count * st.esz ≤ (q.chans.getD c {}).wm.toNat))

/-- The sources whose condition holds and whose arm bit is set, as (SRC, WHICH), in the order of R320. -/
def cueSources (s : State) (p : Nat) (k : Kind) : List (Nat × Nat) :=
  let q := s.pair p
  let t := q.thr k
  let arm : Nat → Bool := fun i => t.cuearm.getLsbD i
  let pcm := if arm 63 && t.wait == .none && !t.noMatch then (pcMatch s p k).map (fun i => (1, i)) else []
  let rel := ((List.range 16).filter (fun i => arm i && (q.streams.getD i {}).rel)).map (fun i => (2, i))
  let vis := ((List.range 16).filter (fun i => arm (16 + i) && (q.streams.getD i {}).vis)).map (fun i => (3, i))
  let wm := ((List.range 8).filter (fun i => arm (32 + i) && cueMark q i)).map (fun i => (4, i))
  let sig := if arm 62 && cueSignal s p k then [(5, bitsW t.cuesig 59 52)] else []
  let res := ((List.range 255).filter (fun r => arm 61 && t.svcRes.contains r && (s.region q.ctx.toNat r).st == .resident)).map (fun r => (6, r))
  pcm ++ rel ++ vis ++ wm ++ sig ++ res

/-- The arm bit of a source. -/
def armBit (src which : Nat) : Nat :=
  match src with
  | 1 => 63
  | 2 => which
  | 3 => 16 + which
  | 4 => 32 + which
  | 5 => 62
  | _ => 61

/-- One source comes before another (R320). -/
def cueBefore (a b : Nat × Nat) : Bool := decide (a.1 < b.1) || (a.1 == b.1 && decide (a.2 ≤ b.2))

/-- The fired sources of a thread: those that have fired and are still armed, and those that fire now. -/
def latchCues (s : State) (p : Nat) (k : Kind) : State :=
  if ((s.pair p).thr k).cuearm = 0#64 then (pollSignal s p k).updThr p k (fun t => { t with fired := [] })
  else
    let now := cueSources s p k
    (pollSignal s p k).updThr p k (fun t =>
      let old := t.fired.filter (fun f => t.cuearm.getLsbD (armBit f.1 f.2))
      { t with fired := sortBy cueBefore (old ++ now.filter (fun f => !old.contains f)) })

/-- The word at the PC is neither done nor not begun: what it has asked a peer to do is on its way or done, or it holds a ring's index. A
read of a `sig` wait is none of these. -/
def Thread.midway (t : Thread) : Bool := t.enqAt.isSome || (t.wait != .cue && (t.asked || t.reply.isSome))

/-- The thread stands where a cue may be delivered: at an instruction boundary, or in a `sig` wait, `racq` or `park`; not within a
vector instruction that is partly done. -/
def cueHere (t : Thread) : Bool := (t.wait == .none || t.wait == .cue) && !t.vmid && t.resv.isNone && !t.fetched && !t.midway

/-- Deliver the first fired source to a thread, when it takes one now (R320). -/
def deliverCue (s : State) (p : Nat) (k : Kind) : Option State :=
  let q := s.pair p
  let t := q.thr k
  match t.fired with
  | [] => none
  | (src, which) :: rest =>
    if !(t.cuevec.getLsbD 63 && !t.incue && cueHere t) then none
    else
      let r := bitsW t.cuevec 59 52
      let off := bitsW t.cuevec 51 0
      let e := s.region q.ctx.toNat r
      let h : Word := e.base.zeroExtend 64 + BitVec.ofNat 64 off
      if e.kind != 1#2 || !e.px || decide (e.size.toNat < off + 4) then some (pairTrap s p k false 0x05#8 h t.pc 0#32)
      else
        some ((orphan s p k 0).updThr p k (fun t =>
          { t with cuepc := if t.parkWait then { t.pc with v := t.pc.v + 4#64 } else t.pc
                   cuecause := BitVec.ofNat 16 (which * 256 + src)
                   cuearm := if src = 1 then t.cuearm else t.cuearm &&& ~~~(1#64 <<< armBit src which)
                   svcRes := if src = 6 then t.svcRes.filter (· != which) else t.svcRes
                   fired := rest, incue := true, pc := ⟨h, BitVec.ofNat 8 r⟩, wait := .none, stalls := 0, parkWait := false,
                   retired := if t.parkWait then t.retired + 1#64 else t.retired, atSafe := false, asked := false, reply := none, iword := none }))

/-- The PC matches that fire for the triggers in a thread's turn, armed or not (R335). -/
def matched (s : State) (p : Nat) (k : Kind) : List (Nat × Nat) :=
  let t := (s.pair p).thr k
  if t.wait == .none && !t.noMatch && (s.die (dieOf p)).selects (s.pair p).ctx.toNat then (pcMatch s p k).map (fun i => (2, i)) else []

/-- They open windows before anything the thread does in that turn is recorded (R336 step 1). -/
def matchTriggers (s : State) (p : Nat) (k : Kind) : State :=
  match matched s p k with
  | [] => s
  | ms => openTriggers s (dieOf p) ms

/-- And they close windows after it (R336 step 3). -/
def closeMatched (d : Nat) (ms : List (Nat × Nat)) : Out → Out
  | .next s => .next (match ms with
    | [] => s
    | ms => closeTriggers s d ms)
  | o => o

/-! ## Fetching (R81, R413) -/

/-- The checks of a fetch of n bytes at an address in a code region: where the bytes are, or why they do not come. -/
def fetchAt (s : State) (p : Nat) (a : Word) (tag : Tag) (n : Nat) : Res Loc :=
  let e := s.region (s.pair p).ctx.toNat tag.toNat
  if tag = untag ∨ !e.covers a.toNat n ∨ e.kind ≠ 1#2 ∨ !e.px then trapR 0x05#8 a
  else match e.st with
    | .resident => .ok (locate s (clusterOf p) a.toNat)
    | .retired => trapR 0x08#8 a
    | .moving => stallR (.move tag.toNat)
    | _ => stallR (.region tag.toNat)

/-- The word a thread goes on with, without fetching it again: one that has asked a peer for something, or that holds a ring's index
(log 50). -/
def Thread.heldWord (t : Thread) : Option Nat := if t.midway then t.iword else none

/-- The word of a thread's next instruction (log 80 for code in a peer device), with the state in which a peer's answer has been taken (R363). -/
def fetchScalar (s : State) (p : Nat) (k : Kind) : Res (State × Nat) :=
  let t := (s.pair p).thr k
  match t.heldWord with
  | some w => .ok (s, w)
  | none =>
  match fetchAt s p t.pc.v t.pc.t 4 with
  | .error e => .error e
  | .ok (.peer a) =>
    match t.iword with
    | some w => .ok (s, w)
    | none =>
      match askPeer s a peerRead 4 [] with
      | .error e => .error e
      | .ok w => .ok (s.updThr p k (fun t => { t with iword := some w, reply := none }), w)
  | .ok .loopOff => trapR 0x0A#8 peerUnit
  | .ok l => .ok (s, Mem.getLE s.mem (l.home.getD 0) 4)

/-- What a peer has answered the lanes of pair p about the block word at an offset: the word or a failure; it is asked first. -/
def peerWord (s : State) (p : Nat) (off : BitVec 52) (a : Nat) : Res (Option Nat) :=
  match (s.pair p).lanes.ahead.find? (fun w => w.1 == off) with
  | some w => .ok w.2
  | none => stallR (.peer { p := p, k := .F, addrs := [a], op := peerRead, size := 8, sent := [], tag := 1 })

/-- The word of the lanes' next place in the block (log 80 for code in a peer device). -/
def fetchBlock (s : State) (p : Nat) : Res Nat :=
  let q := s.pair p
  match fetchAt s p (blockAddr s p q.lanes.off) (q.blocks.headD {}).rgn 8 with
  | .error e => .error e
  | .ok (.peer a) =>
    match peerWord s p q.lanes.off a with
    | .ok (some w) => .ok w
    | .ok none => trapR 0x0A#8 peerUnit
    | .error e => .error e
  | .ok .loopOff => trapR 0x0A#8 peerUnit
  | .ok l => .ok (Mem.getLE s.mem (l.home.getD 0) 8)

/-! ## Convoys (R32, R176) -/

/-- The convoy classes of R45. -/
inductive Cls where
  | control | queue | integer | fma | special | permute | matrix
deriving DecidableEq, Repr

/-- The class of a block opcode (R45). -/
def classOf (op : Nat) : Cls :=
  if op < 4 then .control
  else if op < 7 then .queue
  else if op < 0x21 then .integer
  else if op = 0x34 ∨ op = 0x35 ∨ op = 0x3B ∨ op = 0x54 then .special
  else if op < 0x52 then .fma
  else if op < 0x54 then .permute
  else if op = 0x61 ∨ op = 0x62 then .queue
  else if op < 0x73 then .integer
  else if op < 0x7B then .permute
  else if op = 0x80 ∨ op = 0x81 then .matrix
  else .fma

/-- Places a convoy's words have taken: FMA, integer, special, permute, queue. -/
structure Places where
  fma : Nat := 0
  int : Nat := 0
  special : Nat := 0
  permute : Nat := 0
  queue : Nat := 0
deriving DecidableEq, Repr

/-- A word takes its places. -/
def Places.take (c : Places) (w : Nat) : Places :=
  let k := classOf (bits w 63 56)
  let n : Bool → Nat := fun b => if b then 1 else 0
  { fma := c.fma + n (k == .fma), int := c.int + n (k == .integer), special := c.special + n (k == .special),
    permute := c.permute + n (k == .permute),
    queue := c.queue + n (k == .queue || bits w 16 15 == 2 || bits w 14 13 == 2) }

/-- The limits of R176. -/
def Places.ok (c : Places) : Bool :=
  decide (c.fma ≤ 2) && decide (c.int ≤ 1) && decide (c.special ≤ 1) && decide (c.permute ≤ 1) && decide (c.queue ≤ 1)

/-- The block word at an offset, read ahead of the lanes: none where there is none to read. -/
def wordAhead (s : State) (p : Nat) (off : BitVec 52) : Res (Option Nat) :=
  let q := s.pair p
  let a := blockAddr s p off
  if !(s.region q.ctx.toNat (q.blocks.headD {}).rgn.toNat).covers a.toNat 8 then .ok none
  else match locate s (clusterOf p) a.toNat with
    | .peer a => peerWord s p off a
    | .loopOff => .ok none
    | l => .ok (some (Mem.getLE s.mem (l.home.getD 0) 8))

/-- What is wrong with a convoy (R32, R176): a word breaks its limits, or a cv bit stands on a control or matrix word. -/
inductive Breach where
  | limit (w : Nat)
  | misplaced (off : BitVec 52) (w : Nat)
deriving DecidableEq, Repr

/-- What is wrong with the convoy begun by words that have taken `c`, among its words from offset `off` on. A word without a cv bit,
or one of no class, ends it. -/
def breach (s : State) (p : Nat) : Nat → BitVec 52 → Places → Res (Option Breach)
  | 0, _, _ => .ok none
  | fuel + 1, off, c =>
    match wordAhead s p off with
    | .error e => .error e
    | .ok none => .ok none
    | .ok (some w) =>
      let k := classOf (bits w 63 56)
      if !bitOf w 28 then .ok none
      else if k = .control ∨ k = .matrix then .ok (some (.misplaced off w))
      else match decodeBlock w with
        | .error _ => .ok none
        | .ok _ => if (c.take w).ok then breach s p fuel (off + 8#52) (c.take w) else .ok (some (.limit w))

/-- What is wrong with the convoy that the word at hand leads. A control word leads none: no cv bit may follow it (R32). -/
def convoyBreach (s : State) (p w : Nat) : Res (Option Breach) :=
  if classOf (bits w 63 56) = .control then .ok none
  else
    let c : Places := Places.take {} w
    if !c.ok then .ok (some (.limit w)) else breach s p 8 ((s.pair p).lanes.off + 8#52) c

/-! ## Turns -/

/-! ### Accesses noted for eviction (R280, log 39) -/

/-- The register that holds the address a scalar word accesses memory at. -/
def memBase : Instr → Option XReg
  | .ldb _ a _ | .ldh _ a _ | .ldw _ a _ | .ldd _ a _ | .ldbu _ a _ | .ldhu _ a _ | .ldwu _ a _ | .stb _ a _ | .sth _ a _ | .stw _ a _
  | .std _ a _ | .ldslot _ a _ | .stslot _ a _ | .ldslot32 _ a _ | .sdef _ a _ | .jsub _ a _ | .wbfill _ a _ => some a
  | .ldo _ a _ _ _ | .sto a _ _ _ _ | .sigadd _ a _ _ _ | .sigset a _ _ _ | .sigwge _ a _ _ _ | .sigweq _ a _ _ _ | .enq _ a _ => some a
  | .amoAdd _ a _ _ _ _ | .amoAnd _ a _ _ _ _ | .amoOr _ a _ _ _ _ | .amoXor _ a _ _ _ _ | .amoMin _ a _ _ _ _ | .amoMax _ a _ _ _ _
  | .amoMinu _ a _ _ _ _ | .amoMaxu _ a _ _ _ _ | .amoSwap _ a _ _ _ _ | .amoCas _ a _ _ _ _ => some a
  | .vld _ a _ _ _ _ | .vlds _ a _ _ _ _ _ | .vldx _ a _ _ _ _ | .vst _ a _ _ _ _ | .vsti _ a _ _ _ _ | .vsts _ a _ _ _ _ _
  | .vstx _ a _ _ _ _ | .vsta _ a _ _ _ | .vstr _ a _ _ _ _ => some a
  | _ => none

/-- The region an access at a value is checked against, of a thread's kind: none for the local alias (R94, R95). -/
def usedBy (k : Kind) (v : Val) : Option Nat :=
  if v.t = untag then (if k = .A ∧ inLocal v.v.toNat 1 then none else some 0) else some v.t.toNat

/-- The region that accesses by a tag are checked against: region 0 where there is none. -/
def tagRegion (r : Nat) : Nat := if r = 255 then 0 else r

/-- The regions that accesses through slot words are checked against. -/
def usedSlots (l : List Word) : List Nat :=
  (l.filter (fun w => !(w.getLsbD 63 && bitsW w 59 52 == 255))).map (fun w => tagRegion (bitsW w 59 52))

/-- The regions that the end of a job card accesses: the card's own, and its signal's. -/
def Card.endUses (c : Card) : List Nat :=
  tagRegion c.at_.t.toNat :: (if (c.dw 0).getLsbD 12 then usedSlots [c.dw 8] else [])

/-- The regions, with their contexts, that the instruction or event i accesses: a word's code, the region its address lies in, those that
the slot words of a packet, a start, a completion or a card's signal name. -/
def uses (s : State) (i : Instr) : List (Nat × Nat) :=
  let pkt : Nat → BitVec 12 → Nat → List Nat → List (Nat × Nat) := fun d r idx l =>
    (((s.ring d r.toNat).pkts.find? (fun k => k.idx == idx)).map (fun k => (usedSlots (l.map k.word)).map (fun x => (ringCtx s r.toNat, x)))).getD []
  match s.cur with
  | .thr p k =>
    let c := (s.pair p).ctx.toNat
    ((((memBase i).bind (fun a => usedBy k (((s.pair p).thr k).rd a))).toList) ++ [((s.pair p).thr k).pc.t.toNat]).map (fun r => (c, r))
  | .lanes p => [((s.pair p).ctx.toNat, ((s.pair p).blocks.headD {}).rgn.toNat)]
  | _ => match i with
    | .signalWritePacket d r n | .waitPacket d r n | .jobCardPacket d r n => pkt d r n [1]
    | .launchPacket d r n =>
      pkt d r n [2] ++ (if (((s.ring d r.toNat).pkts.find? (fun k => k.idx == n)).map (fun k => bitsW (k.word 6) 12 10)).getD 0 = 0 then []
        else pkt d r n [3])
    | .pairStart p => (((s.die (dieOf p)).launches.find? (fun l => l.ring == (s.pair p).pl.ring && l.idx == (s.pair p).pl.idx)).map (fun l =>
        (usedSlots [l.w.getD 2 0#64]).map (fun x => ((s.pair p).ctx.toNat, x)))).getD []
    | .completionSignalWrite d r n => (((s.die d).compls.find? (fun c => c.ring == r.toNat && c.idx == n)).map (fun c =>
        (usedSlots [c.sigs]).map (fun x => (c.ctx.toNat, x)))).getD []
    | .jobCardComplete d i => (((s.die d).card i).map (fun c => c.endUses.map (fun x => (c.ctx.toNat, x)))).getD []
    | _ => []

/-- They are noted. -/
def noteUse (s : State) (i : Instr) : State := (uses s i).foldl State.touch s

/-- A running stream or card accesses the regions of its footprints all the while. -/
def noteEngines (s : State) : State :=
  let s := s.pairs.foldl (fun s e => if e.2.enginesRun then
    e.2.streams.toList.foldl (fun s st => if st.st = .running then st.regions.foldl (fun s r => s.touch (e.2.ctx.toNat, r)) s else s) s else s) s
  s.dies.foldl (fun s e => e.2.cards.foldl (fun s k => if k.running then k.regions.foldl (fun s r => s.touch (k.ctx.toNat, r)) s else s) s) s

/-- A scalar word of the agent that has the turn: the checks of R34 in their order, then its meaning. -/
def runScalar (exec : Instr → State → Out) (s : State) (k : Kind) (w : Nat) : Out :=
  match checkScalar k w with
  | .error c => .next (s.trap c (BitVec.ofNat 64 w) 0#32)
  | .ok i => exec i (noteUse s i)

/-- What follows a word w of thread k of pair p: where it is neither done nor not begun, the thread holds it. -/
def holdWord (p : Nat) (k : Kind) (w : Nat) : Out → Out
  | .next s =>
    let t := (s.pair p).thr k
    .next (if t.midway && t.iword.isNone then s.updThr p k (fun t => { t with iword := some w }) else s)
  | o => o

/-- A turn of thread k of pair p. -/
def threadTurn (exec : Instr → State → Out) (s : State) (p : Nat) (k : Kind) : Out :=
  if (s.pair p).st ≠ .running then .next s
  else
    let s := if k = .X then slip s p else s
    if (s.pair p).dbgPend = 2 then .next (debugHard s p)
    else if ((s.pair p).thr k).halt ≠ .none then .next s
    else
      match (if k = .A ∧ !(s.pair p).a.midway then pendingFault (s.pair p) else none) with
      | some (q, c, v, e) => .next (pairTrap (s.setPair p q) p .A false c v q.a.pc e)
      | none =>
        let ms := matched s p k
        let s := latchCues (matchTriggers s p k) p k
        closeMatched (dieOf p) ms <| match deliverCue s p k with
        | some s => .next s
        | none =>
          let t := (s.pair p).thr k
          -- what it has asked a peer for is on its way: it issues nothing, but a `sig` wait may stop at its safe point (R254, R363)
          if t.asked && t.reply.isNone && t.wait != .cue then .next s
          else match fetchScalar s p k with
          | .error e => finish s (.error e)
          | .ok (s, w) => holdWord p k w (runScalar exec s k w)

/-- The lanes of a pair have a word to run. -/
def lanesRun (q : Pair) : Bool :=
  !q.blocks.isEmpty && !q.owned.isEmpty && q.lent.isEmpty && !q.lanesHeld && !q.lanes.peerWait &&
    ((q.st == .running && !(q.a.still && q.x.still)) || q.st == .parked)

/-- The lanes begin the block at the head of the block queue: one fragment, its first word, the whole tile (R171, R178). -/
def beginBlock (s : State) (p : Nat) : State :=
  s.updPair p (fun q =>
    if q.lanes.busy then { q with lanes := { q.lanes with memStall := false } }
    else
      let b := q.blocks.headD {}
      { q with lanes := { q.lanes with busy := true, off := b.off, f := BitVec.ofNat 8192 (2 ^ (b.rc.toNat * b.vl.toNat) - 1), frags := [],
                                       flags := 0#5, barred := true, carry := none, memStall := false } })

/-- A block word: decoded, its cv bit checked where it stands, its convoy checked where it leads one, then its meaning. Neither the
convoy's breach nor a misplaced cv bit lets any of its words issue (R176). -/
def runBlock (exec : Instr → State → Out) (s : State) (p w : Nat) : Out :=
  match decodeBlock w with
  | .error _ => .next (s.trap 0x02#8 (BitVec.ofNat 64 w) 0#32)
  | .ok i =>
    if bitOf w 28 && (s.pair p).lanes.barred then .next (s.trap 0x02#8 (BitVec.ofNat 64 w) 0#32)
    else match (if bitOf w 28 then .ok none else convoyBreach s p w) with
      | .error e => finish s (.error e)
      | .ok (some (.limit b)) => .next (s.trap 0x03#8 (BitVec.ofNat 64 b) 0#32)
      | .ok (some (.misplaced off b)) =>
        .next (pairTrap s p .X true 0x02#8 (BitVec.ofNat 64 b) ⟨blockAddr s p off, ((s.pair p).blocks.headD {}).rgn⟩ 0#32)
      | .ok none => exec i (noteUse s i)

/-- A turn of the lanes of pair p. -/
def lanesTurn (exec : Instr → State → Out) (s : State) (p : Nat) : Out :=
  if !lanesRun (s.pair p) then .next s
  else
    let s := beginBlock s p
    match fetchBlock s p with
    | .error e => finish s (.error e)
    | .ok w => runBlock exec s p w

/-- The oldest admission of the fast path is recorded (R287). -/
def recordLate (s : State) (d : Nat) : State :=
  match (s.die d).late with
  | [] => s
  | r :: t => openRecord (s.updDie d (fun x => { x with late := t })) d r

/-- A turn of firmware core c of die d: the record of an action it has taken is closed (R354, log 78), or one that the fast path has taken is
recorded (R287); else the word at its PC, which
lies in its instruction SRAM (R343): the four bytes at it, aligned or not (log 105). -/
def fcoreTurn (exec : Instr → State → Out) (s : State) (d c : Nat) : Out :=
  let f := (s.die d).fcore c
  if !f.on then .next s
  else if (s.die d).jopen.isSome then .next (closeRecord s d)
  else if puppeteerOn s d && !(s.die d).late.isEmpty then .next (recordLate s d)
  else if !inIsram f.pc.toNat then .next (fTrap s d c 0x05#8 f.pc)
  else runScalar exec s .F (Mem.getLE f.isram (f.pc.toNat - Config.isramBase) 4)

/-- The fills of a pair's banks end, those that wait begin (R231, R232), and a save or a debugger's stop that waited for them is taken
(R228, R339). -/
def fillsTurn (s : State) (p : Nat) : State :=
  let cl := clusterOf p
  let s := (List.range 4).foldl (fun s b =>
    if (s.bank cl b).owner = some p ∧ (s.bank cl b).st = .filling then wbFillStart cl b (wbFillEnd cl b none s) else s) s
  debugSave (trySaveOf s p) p

/-- A turn of the engines of pair p: its oldest vector access, its streams and its bank fills move on. -/
def engineTurn (s : State) (p : Nat) : State :=
  let s := land1 s p
  let s := (List.range 16).foldl (fun s n =>
    streamVisible p n (streamReleased p n (streamTransfer p n (streamStart p n s)))) s
  fillsTurn s p

end Sys2Proof.Machine
end

