-- ==== Sys2Proof/Machine/Context.lean ====
section
/-! DEFINITION. What the host does to a context: resuming, skipping and terminating (R291), the debugger's commands (R338,
R339), and an assignable interface in ERROR (R365-R367). -/

namespace Sys2Proof.Machine

/-! ## Resume and skip (R288, R291, R327) -/

/-- Resume a parked pair as the host or `tret` asks: none when R291 refuses. A breakpoint and a service call are passed either way
(R289, R327). -/
def resumeChecked (s : State) (p : Nat) (skip : Bool) : Option State :=
  let q := s.pair p
  let tc := (q.thr q.trapK).tcause
  let cause := tc.toNat % 256
  if cause = 0x08 ∨ cause = 0x0A ∨ (skip && tc.getLsbD 9) then none
  else some (resumePair s p (skip || cause == 0x0C || cause == 0x0D))

/-- CTXCMD as it reads once a command has ended with status st (R362). -/
def ctxDone (s : State) (pr cmd c st : Nat) : State := { s with ctxcmd := BitVec.ofNat 64 (st * 2 ^ 32 + pr * 2 ^ 24 + cmd * 2 ^ 16 + c) }

/-- Resume (0) or Skip (1): done (1), with the record of it (R354), or refused (2) for a pair of another context, one not parked, or by
R291. -/
def ctxResume (s : State) (d c pr cmd : Nat) : State :=
  let p := d * 160 + pr
  let q := s.pair p
  if 160 ≤ pr ∨ q.st ≠ .parked ∨ q.ctx.toNat ≠ c then ctxDone s pr cmd c 2
  else if (resumeChecked s p (cmd == 1)).isNone then ctxDone s pr cmd c 2
  else
    let act : State → State := fun s => (resumeChecked s p (cmd == 1)).getD s
    ctxDone (if q.lent.isEmpty && !q.owes then journal d (resumeRec s p (cmd == 1)) act s else act s) pr cmd c 1

/-! ## Terminate (R291) -/

/-- Nobody runs on the groups of pair p any more. -/
def unlend (s : State) (p : Nat) : State :=
  let f : Pair → Pair := fun q => if q.lender = some p then { q with lender := none } else q
  { s with pairs := s.pairs.map (fun e => (e.1, f e.2)) }

/-- A pair stops at once: its accesses in flight are made no more, its lane groups, banks and save area are given up (R291). A save area of an interface in ERROR stays
taken until it has been zeroed (R367). -/
def dropPair (s : State) (p : Nat) : State :=
  let q := s.pair p
  let cl := clusterOf p
  let s := match q.area, vfOf s q.ctx.toNat with
    | some i, some v => if (s.vf v).st = VfSt.error then s.setVf v { s.vf v with held := i :: (s.vf v).held }
      else { s with areas := s.areas.filter (fun j => j != i) }
    | some i, none => { s with areas := s.areas.filter (fun j => j != i) }
    | none, _ => s
  let s := { s with
                    peers := s.peers.filter (fun r => !(r.p == p && decide (r.tag < 97)))
                    rota := s.rota.filter (fun a => match a with
                      | .thr x _ => x != p
                      | .lanes x => x != p
                      | .engine x => x != p
                      | _ => true) }
  let s := (dropCues s p).updPair p (fun q => { q with flights := [] })
  if p < 1280 then
    let s := releaseBanks (releaseGroups s p) p
    let s := s.updPair p (fun q => { q with lent := [] })
    let s := q.lent.foldl (fun s g =>
      setLpr s cl g (match (List.range 4).find? (fun k => (s.pair (4 * cl + k)).owned.contains g) with
        | some k => BitVec.ofNat 3 k
        | none => 7#3)) s
    let s := unlend s p
    let s := s.updPair p (fun q => { q with st := .exited, lent := [], lender := none })
    giveGroups (match q.lender with
      | some o => returnLent s o
      | none => s) p
  else s.updPair p (fun q => { q with st := .exited })

/-- Terminate a context: its pairs stop, its dirty lines are discarded, and its launches retire without their completions. -/
def terminate (s : State) (c : Nat) : State :=
  let ps := (s.pairs.filter (fun e => e.2.ctx.toNat == c && e.2.st != .free && e.2.st != .exited)).map (·.1)
  let s := ps.foldl dropPair s
  -- the ranges of ABSENT and RETIRED regions hold no memory (R311)
  let holds : Entry → Bool := fun e => e.size != 0#48 && e.st != .absent && e.st != .retired
  let s := (s.ctx c).regions.foldl (fun s e => if holds e.2 then discardAll s e.2.base.toNat e.2.size.toNat else s) s
  let s := ps.foldl (fun s p => dropUnit s (.start p)) s
  let s := (List.range 8).foldl (fun s d => (keepCards s d (fun _ k => k.ctx.toNat != c)).updDie d (fun t =>
    { t with groups := t.groups.filter (fun g => !(g.members.any (fun p => ps.contains p)))
             compls := t.compls.filter (fun k => k.ctx.toNat != c)
             hold := t.hold.filter (fun k => k.ctx.toNat != c) })) s
  let ls := (List.range 8).flatMap (fun d => ((s.die d).launches.filter (fun l => l.ctx.toNat == c)).map (fun l => (l.ring, l.idx)))
  ls.eraseDups.foldl (fun s l => retireLaunch s l.1 l.2) s

/-! ## CTXCMD (R362) -/

/-- A command through die d's window: ignored while one is in progress; Resume and Skip are the Puppeteer's to do, and wait in progress
until the die's works (R351, R358, R362). -/
def ctxIssue (s : State) (d c pr cmd : Nat) : State :=
  if bitsW s.ctxcmd 33 32 = 3 then s
  else if cmd = 3 then ctxDone s pr cmd c (bitsW s.ctxcmd 33 32)
  else if cmd = 2 then ctxDone (terminate s c) pr cmd c 1
  else if puppeteerOn s d then ctxResume s d c pr cmd
  else { ctxDone s pr cmd c 3 with ctxDie := d }

/-- A command in progress is done once the Puppeteer of its die works. -/
def ctxPending (s : State) : State :=
  if bitsW s.ctxcmd 33 32 = 3 && puppeteerOn s s.ctxDie then
    ctxResume s s.ctxDie (bitsW s.ctxcmd 9 0) (bitsW s.ctxcmd 31 24) (bitsW s.ctxcmd 17 16)
  else s

/-! ## Service calls (R292, R293) -/

/-- The service call that a pair is parked for, or was when it was saved or stopped: its thread and number. -/
def Pair.call (q : Pair) : Option (Kind × Nat) :=
  let parked := q.st == .parked || ((q.st == .saved || q.st == .dbg) && q.back == .parked)
  match q.under with
  | some u => if parked && u.cause.toNat % 256 == 0x0C then some (u.k, u.val.toNat) else none
  | none =>
    let t := q.thr q.trapK
    if parked && !q.trapBlk && t.tcause.toNat % 256 == 0x0C then some (q.trapK, t.tval.toNat) else none

/-- The service a parked thread asked for is done: a0, and a1 where given, are written, and it goes on past the `svc` (R293), the pair
with it unless a block word's trap keeps it parked (R289). -/
def serviceDone (s : State) (p : Nat) (k : Kind) (a0 : Word) (a1 : Option Word) : State :=
  let s := s.updThr p k (fun t =>
    let t := t.wr 5#5 ⟨a0, untag⟩
    match a1 with
    | some v => t.wr 6#5 ⟨v, untag⟩
    | none => t)
  if (s.pair p).owes then answerUnder s p true else resumeAct s p true

/-- Service 1: a residency request, posted without waiting (R293). -/
def serviceResidency (s : State) (p : Nat) (k : Kind) (r : Nat) : State :=
  let c := (s.pair p).ctx.toNat
  let e := s.region c r
  if r = 255 ∨ e.size = 0#48 ∨ e.st = .retired then serviceDone s p k 1#64 none
  else
    let s := postRequest s c r (s.pair p).pl.prio
    serviceDone (s.updThr p k (fun t => { t with svcRes := if t.svcRes.contains r then t.svcRes else t.svcRes ++ [r] })) p k 0#64 none

/-- The Puppeteer serves the call of thread k of pair p, which has trapped (R293); while it does not work, the call waits (R356). -/
def serve (s : State) (p : Nat) (k : Kind) (n : Nat) : State :=
  let t := (s.pair p).thr k
  let a : Nat → Word := fun i => (t.rd (BitVec.ofNat 5 (5 + i))).v
  if !puppeteerOn s (dieOf p) then s.updPair p (fun q => { q with svcDue := true })
  else if n = 0 then serviceDone s p k 0#64 none
  else if n = 1 then serviceResidency s p k (bitsW (a 0) 7 0)
  else if n = 2 then serviceDone (s.send (.message (s.pair p).ctx.toNat p [a 0, a 1, a 2, a 3])) p k 0#64 none
  else if 0x80000 ≤ n then s.send (.service (s.pair p).ctx.toNat p k n [a 0, a 1, a 2, a 3])
  else serviceDone s p k (BitVec.allOnes 64) none

/-- The calls of die d's parked pairs that have waited for its Puppeteer are served, and those that the host has answered meanwhile are
done. -/
def serveDue (d : Nat) (s : State) : State :=
  (s.pairs.filter (fun e => (e.2.svcDue || e.2.svcAns.isSome) && e.2.st == .parked && decide (e.1 < 1280) && dieOf e.1 == d && puppeteerOn s d)).foldl (fun s e =>
    match e.2.call, e.2.svcAns with
    | some (k, _), some (a0, a1) => serviceDone s e.1 k a0 (some a1)
    | some (k, n), none => serve (s.updPair e.1 (fun q => { q with svcDue := false })) e.1 k n
    | none, _ => s) s

/-- The host answers a forwarded call: a0 and a1 as it writes them (R293). An answer that comes while the Puppeteer does not work, or while
the pair is saved or stopped, waits. -/
def serviceReply (s : State) (p : Nat) (k : Kind) (a0 a1 : Word) : State :=
  let q := s.pair p
  match q.call with
  | some (k', n) =>
    if k' ≠ k ∨ n < 0x80000 ∨ q.svcDue ∨ q.svcAns.isSome then s
    else if q.st = .parked ∧ puppeteerOn s (dieOf p) then serviceDone s p k a0 (some a1)
    else s.updPair p (fun q => { q with svcAns := some (a0, a1) })
  | none => s

/-! ## The debugger (R338, R339) -/

/-- Threads that have stopped for the debugger before their pair has go on; those of a running pair, which issue again, rebased to where
their regions are now (R309). -/
def letGo (s : State) (q : Pair) : Pair :=
  let go : Thread → Thread := fun t =>
    if t.halt = .debug then { (if q.st = .running then rebaseThread s q.ctx.toNat t else t) with halt := .none } else t
  { q with a := go q.a, x := go q.x }

/-- Run (0) or step (3) a pair that has not stopped whole. An area that it was saved in where it stood (R310) is free again. -/
def letRun (s : State) (p pend : Nat) : State :=
  let s := s.updPair p (fun q => { letGo s q with dbgPend := pend })
  if (s.pair p).st = .running then freeStill s p else s

/-- A debugger command on one pair of its context. -/
def debugPair (s : State) (p cmd : Nat) : State :=
  -- a thread that has stopped already stands where it stands
  let anew : Thread → Thread := fun t => if t.halt = .debug then t else { t with atSafe := false }
  match (s.pair p).st with
  | .dbg => if cmd = 3 then debugResume s p 3 else if cmd = 4 then debugResume s p 0 else s
  | .running =>
    if cmd = 1 then s.updPair p (fun q => { q with dbgPend := 1, a := anew q.a, x := anew q.x })
    else if cmd = 2 then debugHard s p
    else if cmd = 3 then letRun s p 3
    else letRun s p 0
  | .parked =>
    if cmd = 2 then debugHard s p
    else if cmd = 1 then s.updPair p (fun q => { q with dbgPend := 1, a := anew q.a, x := anew q.x })
    else letRun s p (if cmd = 4 then 0 else 3)
  | .saved =>
    -- one that was saved as a stopped pair stays stopped, until it is told to run or to step: then its return sets it going
    if (s.pair p).dbgSaved then (if cmd = 3 ∨ cmd = 4 then s.updPair p (fun q => { q with dbgSaved := false, dbgPend := if cmd = 4 then 0 else 3 }) else s)
    else if cmd = 1 then s.updPair p (fun q => { q with dbgPend := 1, a := anew q.a, x := anew q.x })
    else s.updPair p (fun q => { q with dbgPend := if cmd = 4 then 0 else cmd })
  | _ => s

/-- The debugger acts on a context on a die: 1 stop, 2 hard stop, 3 step, 4 run; the other codes do nothing. -/
def debugCmd (s : State) (d c cmd : Nat) : State :=
  if cmd = 0 ∨ 4 < cmd then s
  else
    let s := s.updDie d (fun t =>
      { t with dbgctx := BitVec.ofNat 10 c, dbgOn := if cmd = 4 then Tab.del t.dbgOn c else Tab.set t.dbgOn c cmd })
    ((s.pairs.filter (fun e => e.2.ctx.toNat == c && dieOf e.1 == d)).map (·.1)).foldl (fun s p => debugPair s p cmd) s

/-- Pairs of a context on a die that have not stopped (R338). -/
def notStopped (s : State) (d c : Nat) : Nat :=
  (s.pairs.filter (fun e => e.2.ctx.toNat == c && dieOf e.1 == d && decide (e.1 < 1280) && (e.2.st == .running || e.2.st == .parked))).length

/-- DBGSTAT (R338). -/
def dbgStat (s : State) (d : Nat) : Word :=
  let t := s.die d
  let c := t.dbgctx.toNat
  let n := notStopped s d c
  let st := match Tab.get 0 t.dbgOn c with
    | 0 => 0
    | 3 => if n = 0 then 2 else 3
    | _ => if n = 0 then 2 else 1
  BitVec.ofNat 64 (n % 4096 * 2 ^ 16 + st * 2 ^ 10 + c)

/-! ## Assignable interfaces in ERROR (R365-R367) -/

/-- The contexts of an interface. -/
def Vf.ctxs (v : Vf) : List Nat :=
  (List.range (bitsW (v.rule 0) 25 16)).map (fun i => bitsW (v.rule 0) 9 0 + i)

/-- A context has something left to terminate. -/
def ctxLives (s : State) (c : Nat) : Bool :=
  s.pairs.any (fun e => e.2.ctx.toNat == c && e.2.st != .free && e.2.st != .exited)
    || s.dies.any (fun e => e.2.launches.any (fun l => l.ctx.toNat == c) || e.2.cards.any (fun k => k.ctx.toNat == c))

/-- IDE stream n uses no key set any more. -/
def stopIde (s : State) (n : Nat) : State :=
  { s with ides := s.ides.map (fun e => if e.1 = n then (e.1, { e.2 with go0 := false, go1 := false }) else e) }

/-- Every context of an interface in ERROR is terminated, and its IDE stream, which has its number, is stopped (R367 steps 2 and 3, log
81). -/
def sweepVfs (s : State) : State :=
  s.vfs.foldl (fun s e =>
    if e.2.st = .error then stopIde (e.2.ctxs.foldl (fun s c => if ctxLives s c then terminate s c else s) s) e.1 else s) s

/-- An interface enters ERROR (R367). -/
def vfError (s : State) (v : Nat) : State := sweepVfs (s.setVf v { s.vf v with st := .error, ide := false })

end Sys2Proof.Machine
end

