-- ==== Sys2Proof/Machine/Device.lean ====
section
/-! DEFINITION. The device registers and the Clapper's windows (R3, R5-R7, R259, R260, R303, R323, R331-R339, R346, R350, R351,
R355, R362, R364, R374, R407-R409): what a read of a die's window gives and what a write does. -/

namespace Sys2Proof.Machine

/-! ## Reading -/

/-- Doubleword n of a bitmap. -/
def mapWord (b : Nat → Bool) (n : Nat) : Word :=
  BitVec.ofNat 64 ((List.range 64).foldl (fun x i => if b (64 * n + i) then x + 2 ^ i else x) 0)

/-- Ring r has a launch on die d that awaits admission (ADMBM). -/
def awaits (s : State) (d r : Nat) : Bool := (s.die d).launches.any (fun l => l.ring == r && l.waiting)

/-- ADMINFO of ring r (R350). -/
def admInfo (s : State) (d r : Nat) : Word :=
  match waitingLaunch s d r with
  | some l => (l.since &&& ~~~0xFF#64) ||| BitVec.ofNat 64 (l.prio % 8)
  | none => 0#64

/-- ADMLAUNCH of ring r: its two doublewords (R407). -/
def admLaunch (s : State) (d r : Nat) (second : Bool) : Word :=
  match waitingLaunch s d r with
  | some l =>
    if second then BitVec.ofNat 64 (l.nextGroup d)
    else BitVec.ofNat 64 (l.idx % 2 ^ 32 * 2 ^ 32 + r * 2 ^ 20 + l.ctx.toNat * 2 ^ 10 + bitsW (l.w.getD 6 0#64) 1 0 * 2 ^ 8
      + (l.stages - 1) % 8 * 2 ^ 5 + l.csz * 2 ^ 3)
  | none => 0#64

/-- FWSTAT (R355). -/
def fwstat (t : Die) : Word :=
  BitVec.ofNat 64 (t.toCause.toNat * 2 ^ 8 + t.lost.toNat * 8 + t.holdOn.toNat * 4 + t.spare.toNat * 2 + t.act.toNat)

/-- The Traob links of a die: dies 0 and 4 have none, for the host's link stands in their place (R9, R10). -/
def traobLinks (s : State) (d : Nat) : Nat := if d % 4 = 0 then 0 else (s.die d).links.toNat

/-- CAPDIE (R323). -/
def capDie (s : State) (d : Nat) : Word :=
  BitVec.ofNat 64 (traobLinks s d * 2 ^ 43 + (s.die d).stackMask.toNat * 2 ^ 40)
    ||| mapWord (fun c => decide (c < 40) && (s.cluster (40 * d + c)).works) 0

/-- The doubleword at offset `off` (a multiple of 8) of a die's window. An address with no register reads 0 (R3); so do fields
that are write only. -/
def devRead (s : State) (d off : Nat) : Word :=
  let t := s.die d
  if off = 0 then Config.partId
  else if off = 8 then Config.revId
  else if off = 0x10 then ((Config.serial d).zeroExtend 64 <<< 16) ||| BitVec.ofNat 64 (d % 8)
  else if off = 0x100 then s.ringbase
  else if off = 0x300 then s.savepool
  else if off = 0x400 then capDie s d
  else if off = 0x408 then s.caphbm
  else if 0x480 ≤ off ∧ off < 0x480 + 8 * 72 then mapWord (fun c => !s.deadPch.contains c) ((off - 0x480) / 8)
  else if 0x800 ≤ off ∧ off < 0x800 + 8 * 40 then
    let c := s.cluster (40 * d + (off - 0x800) / 8)
    BitVec.ofNat 64 (c.array.toNat * 256 + c.mask.toNat)
  else if off = 0x1000 then t.trctl
  else if off = 0x1008 then t.trbuf
  else if off = 0x1010 then t.trwr
  else if off = 0x1018 then t.trlost
  else if off = 0x1020 then t.sampctl
  else if off = 0x1028 then t.trrd
  else if 0x1040 ≤ off ∧ off < 0x1060 then t.trig.getD ((off - 0x1040) / 8) 0#64
  else if off = 0x1088 then dbgStat s d
  else if off = 0x2000 then t.jrnl
  else if off = 0x2008 then fwstat t
  else if off = 0x2010 then t.errcnt
  else if off = 0x2018 then t.fwnote
  else if 0x3000 ≤ off ∧ off < 0x3200 then (t.kicks >>> (8 * (off - 0x3000))).setWidth 64
  else if 0x3200 ≤ off ∧ off < 0x3400 then mapWord (awaits s d) ((off - 0x3200) / 8)
  else if 0x3400 ≤ off ∧ off < 0x3440 then
    mapWord (fun p => decide (p < 160) && (s.pair (160 * d + p)).st == .parked) ((off - 0x3400) / 8)
  else if off = 0x3480 then BitVec.ofNat 64 (idleClusters s d)
  else if off = 0x3800 then t.posta
  else if off = 0x3808 then t.postb
  else if off = 0x3810 then t.postst.zeroExtend 64
  else if 0x4000 ≤ off ∧ off < 0xC000 then admInfo s d ((off - 0x4000) / 8)
  else if 0xC000 ≤ off ∧ off < 0x1C000 then admLaunch s d ((off - 0xC000) / 16) (off / 8 % 2 == 1)
  else if off = 0x20000 then s.expap
  else if off = 0x20008 then s.devnum
  else if off = 0x20010 then s.ctxcmd
  else if off = 0x20100 then s.pwrcap
  else if off = 0x20108 then BitVec.ofNat 64 ((Config.temp d s.steps).toNat * 2 ^ 16 + t.mhz)
  else if 0x21040 ≤ off ∧ off < 0x22000 then (s.vf ((off - 0x21000) / 64)).cfg.getD (off / 8 % 8) 0#64
  else 0#64

/-- n bytes at an offset of a die's window, within one doubleword. -/
def devBytes (s : State) (d off n : Nat) : Nat := (devRead s d (off / 8 * 8)).toNat / 256 ^ (off % 8) % 256 ^ n

/-! ## Writing -/

/-- A write to TRIGk (R335): clearing EN closes the window without a record; enabling may open it with one. -/
def trigWrite (d : Nat) (k : BitVec 2) (val : Word) (s : State) : State :=
  let t := s.die d
  let old := t.trig.getD k.toNat 0#64
  let new_ := val &&& 0x80FFFFFFFFFF0000#64
  let keep := if new_.getLsbD 63 then old &&& 0x4000000000000000#64 else 0#64
  let opens := new_.getLsbD 63 && !(old.getLsbD 63) && bitsW new_ 55 52 == 1
  let w := (new_ ||| keep) ||| (if opens then 0x4000000000000000#64 else 0#64)
  let s := s.setDie d { t with trig := t.trig.setIfInBounds k.toNat w }
  if opens then machineSlate s d 4 (k.zeroExtend 64) w else s

/-- A host write to TRWR sets the count only while EN is 0 (R331). -/
def trwrWrite (d : Nat) (val : Word) (s : State) : State :=
  if (s.die d).trctl.getLsbD 20 then s else s.updDie d (fun t => { t with trwr := val })

/-- A write to FWNOTE stores the value and tells the host (R409). -/
def fwnoteWrite (d : Nat) (val : Word) (s : State) : State := (s.updDie d (fun t => { t with fwnote := val })).send (.fwnote d val)

/-- A write to ERRCNT stores the counts (R346). -/
def errcntWrite (d : Nat) (val : Word) (s : State) : State := s.updDie d (fun t => { t with errcnt := val })

/-- What the Puppeteer of a die finds to do when it begins to work (R351, R357 step 3): changes that wait are posted (R167), pairs
give up the lane groups that have failed (R168), those that no pair owns go to the pairs that want more (R398), lent groups that are free go back
(R25), service calls that wait are served (R293), and pairs that are ready are resumed. -/
def giveAll (d : Nat) (s : State) : State :=
  let s := (List.range 160).foldl (fun s k => postNext s (160 * d + k)) s
  let s := (List.range 40).foldl (fun s c => giveSpare (dropFailed s (40 * d + c)) (40 * d + c) Config.contexts 0 0) s
  resumeReady (serveDue d ((List.range 160).foldl (fun s k => if (s.pair (160 * d + k)).resume.isSome then returnLent s (160 * d + k) else s) s))

/-- A write to JRNL; the host's first one creates the journal, and what waited for it is done (R351). -/
def jrnlWrite (host : Bool) (d : Nat) (val : Word) (s : State) : State :=
  let first := host && !(s.die d).jrnlSet
  let s := s.updDie d (fun t => { t with jrnl := val &&& 0xFFFFFFFFFF00F#64, jrnlSet := t.jrnlSet || host })
  if first then giveAll d s else s

/-- HOLD is cleared: the held writes are performed, and the host learns of the take-over (R356, R357 step 4). A die whose firmware is
LOST keeps HOLD (R358). -/
def holdClear (d : Nat) (s : State) : State :=
  if (s.die d).holdOn && !(s.die d).lost then (releaseHeld d s).send (.takeover d) else s

/-- A write of HOLD to FWSTAT clears it. A firmware core's own program has replayed the journal by then, and the Puppeteer works on (log 78). -/
def fwstatWrite (host : Bool) (d : Nat) (s : State) : State :=
  let s := holdClear d s
  if host || (s.die d).lost then s else giveAll d (s.updDie d (fun t => { t with replayDue := false }))

/-- A write to CTXCMD through die d's window (R362). -/
def ctxcmdWrite (d : Nat) (val : Word) (s : State) : State := ctxIssue s d (bitsW val 9 0) (bitsW val 31 24) (bitsW val 17 16)

/-- An interface's configuration is frozen (R366): what was in force then stays in force until the scrub. -/
def frozen (s : State) (v : Nat) : Bool := (s.vf v).st == .locked || (s.vf v).st == .run

/-- A write to a doubleword of VFCFG; when it is frozen the interface goes to ERROR (R364, R366). -/
def vfcfgWrite (v i : Nat) (val : Word) (s : State) : State :=
  if frozen s v then vfError s v
  else if i = 7 then s
  else s.setVf v { s.vf v with cfg := (s.vf v).cfg.setIfInBounds i val }

/-- A write to the doubleword at offset `off` of a die's window, by the host or by a firmware core. A register that is read only,
and an address with none, ignore it (R3); ADMPOST belongs to F level (R408), TRRD and TRWR to the host (R331). -/
def devWrite (host : Bool) (d off : Nat) (val : Word) (s : State) : State :=
  if off = 0x100 then { s with ringbase := val &&& 0xFFFFFFFF80000#64 }
  else if off = 0x200 then (if host then hostKick s (bitsW val 11 0) else kick s (bitsW val 11 0))
  else if off = 0x300 then { s with savepool := val &&& 0xFFFFFFFFFFFF0000#64 }
  else if off = 0x1000 then s.updDie d (fun t => { t with trctl := val &&& 0xFFFFFC00#64, trSet := t.trSet || val.getLsbD 20 })
  else if off = 0x1008 then s.updDie d (fun t => { t with trbuf := val &&& 0xFFFFFFFFFF01F#64, trSet := true })
  else if off = 0x1010 then (if host then trwrWrite d val s else s)
  else if off = 0x1018 then s.updDie d (fun t => { t with trlost := val })
  else if off = 0x1020 then s.updDie d (fun t => { t with sampctl := val &&& 0xFF#64 })
  else if off = 0x1028 then (if host then s.updDie d (fun t => { t with trrd := val }) else s)
  else if 0x1040 ≤ off ∧ off < 0x1060 then trigWrite d (BitVec.ofNat 2 ((off - 0x1040) / 8)) val s
  else if off = 0x1080 then debugCmd s d (bitsW val 9 0) (bitsW val 18 16)
  else if off = 0x2000 then jrnlWrite host d val s
  else if off = 0x2008 then (if val.getLsbD 2 then fwstatWrite host d s else s)
  else if off = 0x2010 then errcntWrite d val s
  else if off = 0x2018 then fwnoteWrite d val s
  else if off = 0x3800 then (if host then s else s.updDie d (fun t => { t with posta := val }))
  else if off = 0x3808 then (if host then s else admpostPost d val s)
  else if off = 0x20000 then { s with expap := val &&& 0x800FFFFE00000000#64 }
  else if off = 0x20008 then { s with devnum := val &&& 0x3FF#64 }
  else if off = 0x20010 then ctxcmdWrite d val s
  else if off = 0x20100 then { s with pwrcap := val &&& 0x1FFF#64 }
  else if 0x21040 ≤ off ∧ off < 0x22000 then vfcfgWrite ((off - 0x21000) / 64) (off / 8 % 8) val s
  else s

/-- A firmware core's store to a window of R350 or R407 raises 0x05. -/
def isWindow (off : Nat) : Bool :=
  (decide (0x3000 ≤ off) && decide (off < 0x3440)) || (decide (0x3480 ≤ off) && decide (off < 0x3488))
    || (decide (0x4000 ≤ off) && decide (off < 0x1C000))

/-- A store of n bytes to a register: the bytes it does not name keep what the register reads (log 21). -/
def devStore (host : Bool) (d off n v : Nat) (s : State) : State :=
  let b := off / 8 * 8
  let old := if b = 0x2008 then 0 else (devRead s d b).toNat
  let k := 256 ^ (off % 8)
  let part := old / k % 256 ^ n
  devWrite host d b (BitVec.ofNat 64 (old - part * k + v % 256 ^ n * k)) s

end Sys2Proof.Machine
end

