-- ==== Sys2Proof/Machine/ScalarMem.lean ====
section
/-! DEFINITION. Scalar memory instructions (R98-R113) on threads and on firmware cores (R341, R342): plain and ordered accesses,
atomics, fences, slot words, tags, region queries and residency waits. -/

namespace Sys2Proof.Machine

/-! ## Accesses of a firmware core (R341, R342) -/

/-- Where a firmware core's access goes. -/
inductive FLoc where
  | isram (off : Nat)
  | dsram (off : Nat)
  | dev (off : Nat)
  | out (l : Loc)
deriving DecidableEq, Repr

/-- The kinds of a firmware core's access; `wide` marks `amo` and `fvst`, which no device register admits. -/
inductive FKind where
  | load | store | wide
deriving DecidableEq, Repr

/-- The checks of R342: alignment, then one range that admits the access. -/
def fCheck (s : State) (k : FKind) (a : Word) (n : Nat) : Res FLoc :=
  let ad := a.toNat
  if ad % n ≠ 0 then trapR 0x06#8 a
  else if Config.isramBase ≤ ad ∧ ad + n ≤ Config.dsramBase then (if k = .load then .ok (.isram (ad - Config.isramBase)) else trapR 0x05#8 a)
  else if Config.dsramBase ≤ ad ∧ ad + n ≤ Config.dsramTop then .ok (.dsram (ad - Config.dsramBase))
  else if Config.devBase ≤ ad ∧ ad + n ≤ Config.devTop then
    (match k with
     | .load => .ok (.dev (ad - Config.devBase))
     | .store => if isWindow (ad - Config.devBase) then trapR 0x05#8 a else .ok (.dev (ad - Config.devBase))
     | .wide => trapR 0x05#8 a)
  else if mapped s ad n && !inLocal ad n then .ok (.out (locate s 0 ad))
  else trapR 0x05#8 a

/-- A peer's answer to firmware core c of die d: a wait until it comes, and 0x0A when it is a failure (R363). -/
def fAskPeer (s : State) (d c a op n : Nat) (sent : List Byte) : Res Nat :=
  let f := (s.die d).fcore c
  match f.reply with
  | some (true, l) => .ok (natOf l)
  | some (false, _) => trapR 0x0A#8 peerUnit
  | none =>
    if f.asked then stallR .other
    else stallR (.peer { p := d * 160 + c, k := .F, addrs := [a], op := op, size := n, sent := sent, tag := 97 })

/-- A load of n bytes. -/
def fLoad (s : State) (d c : Nat) (a : Word) (n : Nat) : Res Nat := do
  let f := (s.die d).fcore c
  let l ← fCheck s .load a n
  match l with
  | .isram o => return Mem.getLE f.isram o n
  | .dsram o => return Mem.getLE f.dsram o n
  | .dev o =>
    if n ≤ 8 then return devBytes s d o n
    else return (List.range (n / 8)).foldr (fun i v => (devRead s d (o + 8 * i)).toNat + 2 ^ 64 * v) 0
  | .out (.peer pa) => fAskPeer s d c pa peerRead n []
  | .out .loopOff => trapR 0x0A#8 peerUnit
  | .out l => return Mem.getLE s.mem (l.home.getD 0) n

/-- A store of the low n bytes of v. -/
def fStore (s : State) (d c : Nat) (k : FKind) (a : Word) (n v : Nat) : Res State := do
  let l ← fCheck s k a n
  match l with
  | .isram _ => trapR 0x05#8 a
  | .dsram o => return s.updF d c (fun f => { f with dsram := Mem.setLE f.dsram o n v })
  | .dev o => return devStore false d o n v s
  | .out (.peer pa) =>
    let _ ← fAskPeer s d c pa peerWrite n (bytesOf v n)
    return s
  | .out .loopOff => trapR 0x0A#8 peerUnit
  | .out l => return s.setMem (Mem.setLE s.mem (l.home.getD 0) n v)

/-- An atomic: the old value. -/
def fAtomic (s : State) (d c : Nat) (a : Word) (m n b cmp : Nat) : Res (State × Nat) := do
  let l ← fCheck s .wide a n
  match l with
  | .isram _ => trapR 0x05#8 a
  | .dev _ => trapR 0x05#8 a
  | .dsram o =>
    let old := Mem.getLE ((s.die d).fcore c).dsram o n
    return (s.updF d c (fun f => { f with dsram := Mem.setLE f.dsram o n (amoNew m n old b cmp) }), old)
  | .out l =>
    if l.isHost && !(n == 8 && (m == 0 || m == 8 || m == 9)) then trapR 0x05#8 a
    match l with
    | .peer pa =>
      let old ← fAskPeer s d c pa (peerAmo m) n (bytesOf b n ++ bytesOf cmp n)
      return (s, old)
    | .loopOff => trapR 0x0A#8 peerUnit
    | l =>
      let h := l.home.getD 0
      let old := Mem.getLE s.mem h n
      return (s.setMem (Mem.setLE s.mem h n (amoNew m n old b cmp)), old)

/-! ## Plain accesses (R98) -/

/-- A load of n bytes by the agent that has the turn. -/
def loadBytes (s : State) (a : Val) (n : Nat) : Res (State × Nat) :=
  match s.cur with
  | .fcore d c => (fLoad s d c a.v n).map (fun v => (s, v))
  | _ => plainLoad s a n

/-- A store of n bytes by the agent that has the turn. -/
def storeBytes (s : State) (a : Val) (n v : Nat) : Res State :=
  match s.cur with
  | .fcore d c => fStore s d c .store a.v n v
  | _ => plainStore s a n v

/-- The effective address xa + sext(imm), with the tag of xa. -/
def State.addr (s : State) (a : XReg) (imm : BitVec 15) : Val := ⟨(s.rx a).v + sextW imm, (s.rx a).t⟩

/-- n bytes as a register takes them, sign- or zero-extended. -/
def extend (sg : Bool) (n v : Nat) : Word :=
  if sg then BitVec.ofInt 64 (signed (8 * n) v) else BitVec.ofNat 64 (v % 2 ^ (8 * n))

/-- Write what a load gives to xd, untagged, and move past the word. -/
def loadTo (d : XReg) (f : Nat → Word) (r : Res (State × Nat)) : Res State :=
  match r with
  | .ok (s, v) => put s d (f v) untag
  | .error e => .error e

/-- A store moves past its word. -/
def stored (r : Res State) : Res State :=
  match r with
  | .ok s => .ok s.retire
  | .error e => .error e

/-- R98: load a sign-extended byte. -/
def execLdb (d a : XReg) (imm : BitVec 15) (s : State) : Out :=
  scalar (.ldb d a imm) s (loadTo d (extend true 1) (loadBytes s (s.addr a imm) 1))

/-- R98: load a sign-extended halfword. -/
def execLdh (d a : XReg) (imm : BitVec 15) (s : State) : Out :=
  scalar (.ldh d a imm) s (loadTo d (extend true 2) (loadBytes s (s.addr a imm) 2))

/-- R98: load a sign-extended word. -/
def execLdw (d a : XReg) (imm : BitVec 15) (s : State) : Out :=
  scalar (.ldw d a imm) s (loadTo d (extend true 4) (loadBytes s (s.addr a imm) 4))

/-- R98: load a doubleword. -/
def execLdd (d a : XReg) (imm : BitVec 15) (s : State) : Out :=
  scalar (.ldd d a imm) s (loadTo d (extend true 8) (loadBytes s (s.addr a imm) 8))

/-- R98: load a zero-extended byte. -/
def execLdbu (d a : XReg) (imm : BitVec 15) (s : State) : Out :=
  scalar (.ldbu d a imm) s (loadTo d (extend false 1) (loadBytes s (s.addr a imm) 1))

/-- R98: load a zero-extended halfword. -/
def execLdhu (d a : XReg) (imm : BitVec 15) (s : State) : Out :=
  scalar (.ldhu d a imm) s (loadTo d (extend false 2) (loadBytes s (s.addr a imm) 2))

/-- R98: load a zero-extended word. -/
def execLdwu (d a : XReg) (imm : BitVec 15) (s : State) : Out :=
  scalar (.ldwu d a imm) s (loadTo d (extend false 4) (loadBytes s (s.addr a imm) 4))

/-- R98: store the low byte of xs. -/
def execStb (xs a : XReg) (imm : BitVec 15) (s : State) : Out :=
  scalar (.stb xs a imm) s (stored (storeBytes s (s.addr a imm) 1 (s.rx xs).v.toNat))

/-- R98: store the low halfword of xs. -/
def execSth (xs a : XReg) (imm : BitVec 15) (s : State) : Out :=
  scalar (.sth xs a imm) s (stored (storeBytes s (s.addr a imm) 2 (s.rx xs).v.toNat))

/-- R98: store the low word of xs. -/
def execStw (xs a : XReg) (imm : BitVec 15) (s : State) : Out :=
  scalar (.stw xs a imm) s (stored (storeBytes s (s.addr a imm) 4 (s.rx xs).v.toNat))

/-- R98: store the low doubleword of xs. -/
def execStd (xs a : XReg) (imm : BitVec 15) (s : State) : Out :=
  scalar (.std xs a imm) s (stored (storeBytes s (s.addr a imm) 8 (s.rx xs).v.toNat))

/-! ## Ordered accesses and atomics (R100, R101) -/

/-- R40: on the local scratchpad alias a scope wider than cluster acts as cluster. -/
def clampScope (a : Val) (sc : Scope) : Scope :=
  if inLocal a.v.toNat 1 && !(sc == .pair || sc == .cluster) then .cluster else sc

/-- Bytes a size code of `ldo` loads: b, h, w, d, bu, hu, wu. -/
def ldoBytes (sz : BitVec 3) : Nat := if sz.toNat < 4 then 2 ^ sz.toNat else 2 ^ (sz.toNat - 4)

/-- R100: an ordered load. -/
def execLdo (d a : XReg) (sc : Scope) (ord : Order) (sz : BitVec 3) (s : State) : Out :=
  let n := ldoBytes sz
  scalar (.ldo d a sc ord sz) s (loadTo d (extend (decide (sz.toNat < 4)) n) (match s.cur with
    | .fcore _ _ => loadBytes s (s.rx a) n
    | _ => orderedLoad s (s.rx a) n (clampScope (s.rx a) sc) ord))

/-- R100: an ordered store. -/
def execSto (a b : XReg) (sc : Scope) (ord : Order) (sz : BitVec 3) (s : State) : Out :=
  let n := 2 ^ sz.toNat
  scalar (.sto a b sc ord sz) s (stored (match s.cur with
    | .fcore _ _ => storeBytes s (s.rx a) n (s.rx b).v.toNat
    | _ => orderedStore s (s.rx a) n (s.rx b).v.toNat (clampScope (s.rx a) sc) ord))

/-- An atomic of member m: xd takes the old value, a word sign-extended. -/
def amoRun (s : State) (m : Nat) (d a b : XReg) (sc : Scope) (ord : Order) (word : Bool) : Res State :=
  let n := if word then 4 else 8
  let x := (s.rx b).v.toNat % 2 ^ (8 * n)
  let cmp := (s.rx d).v.toNat % 2 ^ (8 * n)
  loadTo d (extend true n) (match s.cur with
    | .fcore e c => fAtomic s e c (s.rx a).v m n x cmp
    | _ => atomic s (s.rx a) m n x cmp (clampScope (s.rx a) sc) ord)

/-- R101: atomic add. -/
def execAmoAdd (d a b : XReg) (sc : Scope) (ord : Order) (word : Bool) (s : State) : Out :=
  scalar (.amoAdd d a b sc ord word) s (amoRun s 0 d a b sc ord word)

/-- R101: atomic and. -/
def execAmoAnd (d a b : XReg) (sc : Scope) (ord : Order) (word : Bool) (s : State) : Out :=
  scalar (.amoAnd d a b sc ord word) s (amoRun s 1 d a b sc ord word)

/-- R101: atomic or. -/
def execAmoOr (d a b : XReg) (sc : Scope) (ord : Order) (word : Bool) (s : State) : Out :=
  scalar (.amoOr d a b sc ord word) s (amoRun s 2 d a b sc ord word)

/-- R101: atomic exclusive or. -/
def execAmoXor (d a b : XReg) (sc : Scope) (ord : Order) (word : Bool) (s : State) : Out :=
  scalar (.amoXor d a b sc ord word) s (amoRun s 3 d a b sc ord word)

/-- R101: atomic signed minimum. -/
def execAmoMin (d a b : XReg) (sc : Scope) (ord : Order) (word : Bool) (s : State) : Out :=
  scalar (.amoMin d a b sc ord word) s (amoRun s 4 d a b sc ord word)

/-- R101: atomic signed maximum. -/
def execAmoMax (d a b : XReg) (sc : Scope) (ord : Order) (word : Bool) (s : State) : Out :=
  scalar (.amoMax d a b sc ord word) s (amoRun s 5 d a b sc ord word)

/-- R101: atomic unsigned minimum. -/
def execAmoMinu (d a b : XReg) (sc : Scope) (ord : Order) (word : Bool) (s : State) : Out :=
  scalar (.amoMinu d a b sc ord word) s (amoRun s 6 d a b sc ord word)

/-- R101: atomic unsigned maximum. -/
def execAmoMaxu (d a b : XReg) (sc : Scope) (ord : Order) (word : Bool) (s : State) : Out :=
  scalar (.amoMaxu d a b sc ord word) s (amoRun s 7 d a b sc ord word)

/-- R101: atomic swap. -/
def execAmoSwap (d a b : XReg) (sc : Scope) (ord : Order) (word : Bool) (s : State) : Out :=
  scalar (.amoSwap d a b sc ord word) s (amoRun s 8 d a b sc ord word)

/-- R101: atomic compare with xd and swap. -/
def execAmoCas (d a b : XReg) (sc : Scope) (ord : Order) (word : Bool) (s : State) : Out :=
  scalar (.amoCas d a b sc ord word) s (amoRun s 9 d a b sc ord word)

/-! ## Fences (R103) -/

/-- The streams, fills and job cards that pair p had issued by a step have made their accesses; one that has faulted makes no more. -/
def enginesIdle (s : State) (p : Nat) (at_ : Nat) : Bool :=
  (s.pair p).streams.toList.all (fun st => !st.busy || decide (at_ < st.issued))
    && (List.range 4).all (fun b =>
      let k := s.bank (clusterOf p) b
      k.owner != some p || ((k.st != .filling || decide (at_ < k.issued)) && (k.next.isNone || decide (at_ < k.nextIssued))))
    && (s.die (dieOf p)).cards.all (fun c => c.p != some p || c.faulted || decide (at_ < c.issued))

/-- When the `.eng` fence at the thread's PC began: now, unless it already waits. -/
def fenceBegan (s : State) : Nat := s.thr.engAt.getD s.steps

/-- The thread waits in a `.eng` fence for the engine work issued before it began (R103). -/
def fenceWait (s : State) : Res State :=
  .error (.hold (s.updThr s.me s.meK (fun t => { t with engAt := some (fenceBegan s) })) .other)

/-- A fence of a thread; with `.eng` it waits for the pair's engine work. On a firmware core it changes nothing (R342). -/
def fenceRun (s : State) (sc : Scope) (acq rel eng : Bool) : Res State :=
  match s.cur with
  | .fcore _ _ => .ok s.retire
  | _ => if eng && !enginesIdle s s.me (fenceBegan s) then fenceWait s else .ok (fenceOp s sc acq rel eng).retire

/-- R103: a full fence. -/
def execFence (sc : Scope) (eng : Bool) (s : State) : Out := scalar (.fence sc eng) s (fenceRun s sc true true eng)
/-- R103: an acquire fence. -/
def execFenceAcq (sc : Scope) (eng : Bool) (s : State) : Out := scalar (.fenceAcq sc eng) s (fenceRun s sc true false eng)
/-- R103: a release fence. -/
def execFenceRel (sc : Scope) (eng : Bool) (s : State) : Out := scalar (.fenceRel sc eng) s (fenceRun s sc false true eng)

/-- R46: a full fence at system scope with engines; a deprecated encoding. -/
def execSync (s : State) : Out :=
  scalar .sync s (match fenceRun s .sys true true true with
    | .ok s' => .ok (deprecated s')
    | .error e => .error e)

/-! ## Slot words (R106-R108) -/

/-- R107: load a slot word and yield a current address. -/
def ldslotRun (s : State) (d : XReg) (a : Val) : Res State := do
  let (s', w) ← plainLoad s a 8
  let x ← unslot s (s.pair s.me).ctx.toNat (BitVec.ofNat 64 w)
  put s' d x.v x.t

/-- R107. -/
def execLdslot (d a : XReg) (imm : BitVec 15) (s : State) : Out := scalar (.ldslot d a imm) s (ldslotRun s d (s.addr a imm))

/-- R108: store a slot word. -/
def stslotRun (s : State) (x a : Val) : Res State := do
  let _ ← checkMe s .store a 8
  let w ← slotWord s (s.pair s.me).ctx.toNat x
  stored (plainStore s a 8 w.toNat)

/-- R108. -/
def execStslot (xs a : XReg) (imm : BitVec 15) (s : State) : Out := scalar (.stslot xs a imm) s (stslotRun s (s.rx xs) (s.addr a imm))

/-- R46: a 32-bit YN5 slot, with the checks of `ldslot` on the result. -/
def ldslot32Run (s : State) (d : XReg) (a : Val) : Res State := do
  let (s', w) ← plainLoad s a 4
  let x ← unslot s (s.pair s.me).ctx.toNat (BitVec.ofNat 64 (2 ^ 63 + bits w 31 24 * 2 ^ 52 + bits w 23 0 * 256))
  put (deprecated s') d x.v x.t

/-- R46: the slot trap shows the 32-bit slot. -/
def slot32Trap (s : State) (a : Val) (r : Res State) : Res State :=
  match plainLoad s a 4, r with
  | .ok (_, w), .error (.trap c _ e) => .error (.trap c (BitVec.ofNat 64 w) e)
  | _, r => r

/-- R46: a deprecated load of a YN5 slot. -/
def execLdslot32 (d a : XReg) (imm : BitVec 15) (s : State) : Out :=
  scalar (.ldslot32 d a imm) s (slot32Trap s (s.addr a imm) (ldslot32Run s d (s.addr a imm)))

/-! ## Tags and region queries (R109-R111) -/

/-- R109: copy xa and give it a tag. -/
def execTagset (d a : XReg) (t : Tag) (s : State) : Out := scalar (.tagset d a t) s (put s d (s.rx a).v t)
/-- R110: the tag of xa. -/
def execTagrd (d a : XReg) (s : State) : Out := scalar (.tagrd d a) s (put s d ((s.rx a).t.zeroExtend 64) untag)

/-- A field of a region-table entry (R111). -/
def regionField (e : Entry) (sel : Nat) : Word :=
  match sel with
  | 0 => e.base.zeroExtend 64
  | 1 => e.size.zeroExtend 64
  | 2 => BitVec.ofNat 64 e.st.code
  | 3 => e.gen.zeroExtend 64
  | 4 => BitVec.ofNat 64 (e.kind.toNat * 64 + e.px.toNat * 32 + e.pw.toNat * 16 + e.pr.toNat * 8 + e.ecl.toNat)
  | _ => e.prev.zeroExtend 64

/-- R111: read a field; region 255, and an entry with SIZE 0, give 0. -/
def execRgnq (d : XReg) (sel : BitVec 4) (rgn : BitVec 8) (s : State) : Out :=
  let e := s.region (s.pair s.me).ctx.toNat rgn.toNat
  scalar (.rgnq d sel rgn) s (put s d (if rgn = 255#8 || e.size == 0#48 then 0#64 else regionField e sel.toNat) untag)

/-! ## Residency and safe points (R112, R113) -/

/-- A thread waits in `racq`: the stall is counted, and a cue may be delivered meanwhile (R320). -/
def racqStall (s : State) (r : Nat) : State :=
  let n := s.stall (.region r)
  if (n.pair s.me).st = .running then n.updThr s.me s.meK (fun t => { t with wait := .cue }) else n

/-- A wait on a region that is away: the actions of a safe point that are due, or its stall. -/
def awayStall (s : State) (r : Nat) : State :=
  match safePoint s false with
  | some s' => s'
  | none => racqStall s r

/-- R112: wait until a region is RESIDENT, then acquire its range. -/
def racqRun (s : State) (rgn : BitVec 8) : Res State :=
  let r := rgn.toNat
  let e := s.region (s.pair s.me).ctx.toNat r
  if rgn = 255#8 ∨ e.size = 0#48 ∨ e.st = .retired then trapR 0x05#8 (rgn.zeroExtend 64)
  else match e.st with
    | .resident => .ok (invalidateRange (settleMe s) s.core e.base.toNat e.size.toNat).retire
    | .moving => stallR (.move r)
    | _ => .ok (awayStall s r)

/-- R112. -/
def execRacq (rgn : BitVec 8) (s : State) : Out := scalar (.racq rgn) s (racqRun s rgn)

/-- R113: a safe point that begins no strip. -/
def execSafept (s : State) : Out :=
  scalar .safept s (match safePoint s true with
    | some s' => .ok s'
    | none => .ok s.retire)

end Sys2Proof.Machine
end

