-- ==== Sys2Proof/Machine/Sync.lean ====
section
/-! DEFINITION. Barriers (R250, R251), signals (R252-R255) and device-side enqueue (R256, R263). -/

namespace Sys2Proof.Machine

/-! ## Barriers -/

/-- The pairs whose threads take part in a barrier of pair p: its cohort at its stage. Those that have exited are not among them. -/
def cohort (s : State) (p : Nat) : List Nat :=
  match groupOf s p with
  | some g => g.members.filter (fun m => (s.pair m).pl.stg == (s.pair p).pl.stg)
  | none => [p]

/-- A participant has arrived at barrier n: it has counted n and, if its pair does not run, it no longer waits there (R251). -/
def arrived (q : Pair) (k : Kind) (n : Nat) : Bool :=
  let t := q.thr k
  t.halt == .exited || (decide (n ≤ t.barcount.toNat) && !(q.st != .running && t.inBar && t.barcount.toNat == n))

/-- The thread has counted this barrier and written its core's dirty lines back. -/
def enterBar (s : State) : State :=
  if s.thr.inBar then s
  else
    let s := settleMe s
    (writeBackAll s s.core).updThr s.me s.meK (fun t => { t with barcount := t.barcount + 1#32, inBar := true })

/-- R250: count, wait for the others, and invalidate the clean lines. -/
def barRun (s : State) : Res State :=
  let s := enterBar s
  let n := s.thr.barcount.toNat
  if (cohort s s.me).all (fun m => arrived (s.pair m) s.meK n) then .ok (invalidateClean s s.core).retire
  else match safePoint s false with
    | some s' => .ok s'
    | none => .ok (s.stall .other)

/-- R250. -/
def execBar (s : State) : Out := scalar .bar s (barRun s)

/-! ## Signals -/

/-- R253: add at the home. -/
def execSigadd (d a b : XReg) (sc : Scope) (ord : Order) (s : State) : Out :=
  scalar (.sigadd d a b sc ord) s (loadTo d (BitVec.ofNat 64) (atomic s (s.rx a) 0 8 (s.rx b).v.toNat 0 (clampScope (s.rx a) sc) ord))

/-- R253: set at the home, past the data cache. -/
def sigsetRun (s : State) (a : Val) (v : Nat) (sc : Scope) (ord : Order) : Res State := do
  let l ← checkMe s .store a 8
  stored (writeHome (before (dropLine (settleMe s) l) sc ord.hasRel) l 8 v)

/-- R253. -/
def execSigset (a b : XReg) (sc : Scope) (ord : Order) (s : State) : Out :=
  scalar (.sigset a b sc ord) s (sigsetRun s (s.rx a) (s.rx b).v.toNat (clampScope (s.rx a) sc) ord)

/-- A wait goes on: the actions of a safe point that are due, or one more read at the next turn (R254). A peer that has answered is
asked again. -/
def waitOn (s : State) : State :=
  match safePoint s false with
  | some s' => s'
  | none => (s.updThr s.me s.meK (fun t => { t with reply := none })).stall .cue

/-- A wait asks a peer for the signal's value; meanwhile it is a wait like any other (R254). -/
def waitAsk (s : State) (a : Nat) : State :=
  { s.updThr s.me s.meK (fun t => { t with asked := true, wait := .cue, onRgn := none }) with
    peers := s.peers ++ [{ p := s.me, k := s.meK, addrs := [a], op := peerRead, size := 8, sent := [] }] }

/-- A wait reads at the home until the value satisfies it; the order applies to that last read (R253). -/
def sigRead (s : State) (eq : Bool) (d : XReg) (x : Nat) (sc : Scope) (ord : Order) (l : Loc) : Res State :=
  let s := dropLine (settleMe s) l
  match readHome s l 8, l with
  | .ok v, _ =>
    if waitMet eq v x then put (after s sc ord.hasAcq) d (BitVec.ofNat 64 v) untag
    else .ok (waitOn s)
  | .error (.hold _ _), .peer pa => .ok (if s.thr.asked then waitOn s else waitAsk s pa)
  | .error e, _ => .error e

/-- R253, R254. While the signal's region is away the thread waits on at its safe point, and the stall of R96 counts (R254). -/
def sigWait (s : State) (eq : Bool) (d : XReg) (a : Val) (x : Nat) (sc : Scope) (ord : Order) : Res State :=
  match checkMe s .load a 8 with
  | .ok l => sigRead s eq d x sc ord l
  | .error (.stall (.region r _)) => .ok (awayStall s r)
  | .error e => .error e

/-- R253: wait until the signal is at least xb, unsigned. -/
def execSigwge (d a b : XReg) (sc : Scope) (ord : Order) (s : State) : Out :=
  scalar (.sigwge d a b sc ord) s (sigWait s false d (s.rx a) (s.rx b).v.toNat (clampScope (s.rx a) sc) ord)

/-- R253: wait until the signal equals xb. -/
def execSigweq (d a b : XReg) (sc : Scope) (ord : Order) (s : State) : Out :=
  scalar (.sigweq d a b sc ord) s (sigWait s true d (s.rx a) (s.rx b).v.toNat (clampScope (s.rx a) sc) ord)

/-! ## Enqueue (R256, R263) -/

/-- How a reservation ends: a slot's index and address, a full ring, or a wait for a reel that holds an index. -/
inductive Reserved where
  | slot (s : State) (i a : Nat)
  | full (s : State)
  | wait (s : State) (i : Nat)
deriving DecidableEq, Repr

/-- The packet that links a full reel to the next. -/
def writeLink (s : State) (a ctx next tag : Nat) : State :=
  let put : Mem → Nat → Nat → Mem := fun m i v => Mem.setLE m (a + 8 * i) 8 v
  let m := put s.mem 7 tag
  let m := [2, 3, 4, 5, 6].foldl (fun m i => put m i 0) (put m 1 next)
  s.setMem (put m 0 (4 + tag * 2 ^ 16 + ctx * 2 ^ 32))

/-- Before a producer's accesses at the homes, its core writes back and drops the lines they lie in, as for every access past the cache
(R100, R104): a later plain load sees no older write (R244, R248). -/
def dropRing (s : State) (a n : Nat) : State := purgeCore s s.core a n

/-- The index that WRITE gives a producer, unless the ring is full. -/
def takeIndex (s : State) (r : Nat) : Option (State × Nat) :=
  let s := dropRing s (cbAddr s r) 128
  let w := (cbW s r 0).toNat
  if ringCap s r ≤ w - (cbW s r 1).toNat then none else some (setCbW s r 0 (BitVec.ofNat 64 (w + 1)), w)

/-- What a producer does with the index w it holds; a link slot is written and passed, and stays written
where the ring then proves full (R263, log 50). Fuel: one link at most stands in the way. -/
def reserveSlot (r : Nat) : Nat → State → Nat → Reserved
  | 0, s, w => .wait s w
  | fuel + 1, s, w =>
    let b := w / 64
    let map := cbW s r (8 + b % 8)
    if bitsW map 11 0 ≠ b % 4096 then .wait s w
    else
      let reel := bitsW map 51 12 * 4096
      let tag := (w + 1) % 2 ^ 16
      if w % 64 = 63 then
        let head := cbW s r 2
        let n := bitsW head 51 12 * 4096
        if n = 0 then .wait s w
        else
          let s := setCbW s r 2 (BitVec.ofNat 64 ((bitsW head 63 52 + 1) % 4096 * 2 ^ 52 + bitsW (Mem.dw s.mem n) 51 12 * 4096))
          let s := setCbW s r (8 + (b + 1) % 8) (BitVec.ofNat 64 (n + (b + 1) % 4096))
          let s := writeLink (dropRing s (reel + 4032) 64) (reel + 4032) (ringCtx s r) n tag
          match takeIndex s r with
          | none => .full s
          | some (s, j) => reserveSlot r fuel s j
      else .slot s w (reel + 64 * (w % 64))

/-- Publish a packet in a reserved slot: words 1 to 6, word 7 with the tag, then word 0 with the context, the priority and the tag. -/
def publish (s : State) (r c i a : Nat) (ws : List Nat) : State :=
  let s := dropRing s a 64
  let tag := (i + 1) % 2 ^ 16
  let w0 := ws.getD 0 0
  let w0 := bits w0 9 0 + tag * 2 ^ 16 + c * 2 ^ 32 + min (bits w0 44 42) (ringPrioMax s r) * 2 ^ 42
  let w7 := ws.getD 7 0 / 2 ^ 16 * 2 ^ 16 + tag
  let put : Mem → Nat → Nat → Mem := fun m i v => Mem.setLE m (a + 8 * i) 8 v
  let m := [1, 2, 3, 4, 5, 6].foldl (fun m i => put m i (ws.getD i 0)) s.mem
  s.setMem (put (put m 7 w7) 0 w0)

/-- The eight doublewords of the packet at an address, read as loads of the thread. -/
def packetWords (s : State) (a : Val) : Res (State × List Nat) := do
  let l ← checkMe s .load a 8
  match l with
  | .peer pa =>
    let v ← askPeer s pa peerRead 64 []
    return (s, (List.range 8).map (fun i => v / 2 ^ (64 * i) % 2 ^ 64))
  | _ =>
    (List.range 8).foldlM (fun (acc : State × List Nat) i => do
      let (s, v) ← plainLoad acc.1 ⟨a.v + BitVec.ofNat 64 (8 * i), a.t⟩ 8
      return (s, acc.2 ++ [v])) (s, [])

/-- The packet goes into the slot that the index i leads to, and the ring is kicked; an `enq` that waits for a reel holds its index. -/
def enqSlot (s : State) (d : XReg) (r i : Nat) (ws : List Nat) : Res State :=
  match reserveSlot r 2 s i with
  | .full s => put s d 1#64 untag
  | .wait s i => .error (.hold (s.updThr s.me s.meK (fun t => { t with enqAt := some (i, ws) })) .other)
  | .slot s i at_ =>
    let s := publish s r (s.pair s.me).ctx.toNat i at_ ws
    let e := dieOf s.me
    -- the fast path of R257 is open to a launch on a FAST ring of the issuing die
    let fast := ringFast s r && ringHome s r == e && !(s.die e).holdOn && bits (ws.getD 0 0) 7 0 == 1
    let s := if fast then s.updDie e (fun t => { t with quick := t.quick ++ [(r, i)] }) else s
    put (kick s r) d 0#64 untag

/-- The checks of an `enq`, the release, and its first index. Status 4 answers type 0x00 too, which is no packet's (R256, R266, R267,
log 50). -/
def enqFirst (s : State) (d : XReg) (a : Val) (xb : Word) : Res State := do
  if a.v.toNat % 64 != 0 then trapR 0x06#8 a.v
  let (s, ws) ← packetWords s a
  let c := (s.pair s.me).ctx.toNat
  let r := bitsW xb 11 0
  let type := bits (ws.getD 0 0) 7 0
  if bitsW xb 63 15 != 0 then put s d 3#64 untag
  else if ringCtx s r != c then put s d 2#64 untag
  else if type == 0 || type == 4 || decide (8 < type) then put s d 4#64 untag
  else
    let s := settleMe s
    let s := writeBackAll s s.core
    match takeIndex s r with
    | none => put s d 1#64 untag
    | some (s, i) => enqSlot s d r i ws

/-- R256: copy the packet at xa onto the ring that xb names, and kick it. -/
def enqRun (s : State) (d : XReg) (a : Val) (xb : Word) : Res State :=
  match s.thr.enqAt with
  | some (i, ws) => enqSlot s d (bitsW xb 11 0) i ws
  | none => enqFirst s d a xb

/-- R256. -/
def execEnq (d a b : XReg) (s : State) : Out := scalar (.enq d a b) s (enqRun s d (s.rx a) (s.rx b).v)

end Sys2Proof.Machine
end

