-- ==== Sys2Proof/Machine/System.lean ====
section
/-! DEFINITION. Service calls (R292, R293), `tret` (R294), the CSRs (R295, R296, R344), cues' return and `park` (R297, R321),
`exit` (R299), `yield` (R298), `trc` and `brk` (R326, R327). -/

namespace Sys2Proof.Machine

/-! ## Service calls -/

/-- R292: trap 0x0C with the service number, which the Puppeteer then serves. -/
def execSvc (imm : BitVec 20) (s : State) : Out :=
  scalar (.svc imm) s (match s.cur with
    | .thr p k => .ok (serve (pairTrap s p k false 0x0C#8 (imm.zeroExtend 64) s.pc 0#32) p k imm.toNat)
    | _ => .ok s)

/-- R294: resume a parked pair of the die, or return from the core's own trap. -/
def tretRun (s : State) (d c : Nat) : State :=
  let f := (s.die d).fcore c
  let mark : State → Word → State := fun s b => s.updF d c (fun f => { f with tretsel := f.tretsel ||| b })
  if f.tretsel.getLsbD 63 then
    let pr := bitsW f.tretsel 7 0
    let p := 160 * d + pr
    if 160 ≤ pr ∨ (s.pair p).st ≠ .parked then (mark s 0x2000000000000000#64).retire
    else match resumeChecked s p (f.tretsel.getLsbD 62) with
      | none => (mark s 0x1000000000000000#64).retire
      | some s' => s'.retire
  else (s.updF d c (fun f => { f with ftcause := f.ftcause &&& 0xFF#9 })).retireTo { v := f.ftpc }

/-- R294: only a firmware core runs it. -/
def execTret (s : State) : Out :=
  scalar .tret s (match s.cur with
    | .fcore d c => .ok (tretRun s d c)
    | _ => .ok s)

/-! ## CSRs (R295, R296, R344) -/

/-- LPR of a cluster (R164). -/
def lprWord (c : Cluster) : Word := BitVec.ofNat 64 ((List.range 8).foldl (fun n k => n + (c.lpr.getD k 7#3).toNat * 8 ^ k) 0)

/-- The value of CSR n for thread k of pair p; none when it is unassigned or absent from that kind. -/
def csrRead (s : State) (p : Nat) (k : Kind) (n : Nat) : Option Word :=
  let q := s.pair p
  let t := q.thr k
  let c := s.cluster (clusterOf p)
  let x := s.ctx q.ctx.toNat
  match n with
  | 0x001 => some (t.vl.zeroExtend 64)
  | 0x002 => some (t.vtype.zeroExtend 64)
  | 0x003 => some (if k = .A then 1#64 else t.rc.zeroExtend 64)
  | 0x004 => some (t.vstart.zeroExtend 64)
  | 0x005 => some t.strip
  | 0x006 => some (t.strippc.v &&& 0xFFFFFFFFFFFFF#64)
  | 0x007 => some (t.fflags.zeroExtend 64)
  | 0x008 => some (coord p q k)
  | 0x009 => some (stageCsr q)
  | 0x00A => some (q.ctx.zeroExtend 64)
  | 0x00B => some (lprWord c)
  | 0x00C => some (q.want.zeroExtend 64)
  | 0x00D => some (c.mask.zeroExtend 64)
  | 0x00E => some (t.stallmax.zeroExtend 64)
  | 0x010 => some q.slipS
  | 0x011 => some q.slipV
  | 0x012 => some q.slipM
  | 0x013 => some q.slipO
  | 0x014 => some (x.depcnt.getD (dieOf p) 0#64)
  | 0x015 => some (if x.depadv.getLsbD (dieOf p) then 1#64 else 0#64)
  | 0x020 => some t.cuevec
  | 0x021 => some (t.cuecause.zeroExtend 64)
  | 0x022 => some (t.cuepc.v &&& 0xFFFFFFFFFFFFF#64)
  | 0x023 => some t.cuearm
  | 0x024 => some t.cuesig
  | 0x025 => some t.cueval
  | 0x040 => some (t.tcause.zeroExtend 64)
  | 0x041 => some t.tval
  | 0x042 => some (t.tpc.v &&& 0xFFFFFFFFFFFFF#64)
  | 0x043 => some (t.telem.zeroExtend 64)
  | 0x050 => if k = .A then some t.wberr else none
  | 0x060 => some s.cycle
  | 0x061 => some t.retired
  | n => if 0x030 ≤ n ∧ n ≤ 0x03F then some (x.pcm.getD (n - 0x030) 0#64) else none

/-- A thread may write CSR n (R296). -/
def csrWritable (k : Kind) (n : Nat) : Bool :=
  n == 0x004 || n == 0x007 || n == 0x00C || n == 0x00E || n == 0x020 || n == 0x023 || n == 0x024 || n == 0x025 || (n == 0x050 && k == .A)

/-- Arming the signal cue checks its signal as an 8-byte load, by steps 1 to 5 of R95 (R318). -/
def cueSigOk (s : State) (p : Nat) (sig : Word) : Bool :=
  let e := s.region (s.pair p).ctx.toNat (bitsW sig 59 52)
  let a := e.base.toNat + bitsW sig 51 0
  a % 8 == 0 && !touchesDev a 8 && e.covers a 8 && e.admits .load

/-- Write CSR n of thread k of pair p, field by field. -/
def csrWrite (s : State) (p : Nat) (k : Kind) (n : Nat) (v : Word) : Res State :=
  let upd : (Thread → Thread) → Res State := fun f => .ok (s.updThr p k f)
  match n with
  | 0x004 => upd (fun t => { t with vstart := v.setWidth 13 })
  | 0x007 => upd (fun t => { t with fflags := v.setWidth 5 })
  | 0x00C =>
    let s := s.updPair p (fun q => { q with want := v.setWidth 4 })
    .ok (giveGroups s p)
  | 0x00E => upd (fun t => { t with stallmax := if bitsW v 31 0 < 240 then 240#32 else v.setWidth 32 })
  | 0x020 => upd (fun t => { t with cuevec := v &&& cuevecMask })
  | 0x023 =>
    let v := v &&& cuearmMask k
    let sig := ((s.pair p).thr k).cuesig
    if v.getLsbD 62 && !cueSigOk s p sig then trapR 0x05#8 sig else upd (fun t => { t with cuearm := v })
  | 0x024 => upd (fun t => { t with cuesig := v &&& cuesigMask })
  | 0x025 => upd (fun t => { t with cueval := v })
  | 0x050 => upd (fun t => { t with wberr := v &&& wberrMask })
  | _ => .ok s

/-- The value of CSR n of a firmware core (R344). -/
def fcsrRead (s : State) (d c n : Nat) : Option Word :=
  let f := (s.die d).fcore c
  match n with
  | 0x007 => some (f.fflags.zeroExtend 64)
  | 0x060 => some s.cycle
  | 0x061 => some f.retired
  | 0x100 => some f.tretsel
  | 0x101 => some f.ftvec
  | 0x102 => some (f.ftcause.zeroExtend 64)
  | 0x103 => some f.ftval
  | 0x104 => some f.ftpc
  | 0x105 => some (BitVec.ofNat 64 (d % 8 * 2 + c % 2))
  | _ => none

def fcsrWritable (n : Nat) : Bool := n == 0x007 || (decide (0x100 ≤ n) && decide (n ≤ 0x104))

/-- Write CSR n of a firmware core. -/
def fcsrWrite (s : State) (d c n : Nat) (v : Word) : State :=
  s.updF d c (fun f => match n with
    | 0x007 => { f with fflags := v.setWidth 5 }
    | 0x100 => { f with tretsel := v &&& 0xF0000000000000FF#64 }
    | 0x101 => { f with ftvec := v &&& 0xFFFFFFFFFFFFC#64 }
    | 0x102 => { f with ftcause := v.setWidth 9 }
    | 0x103 => { f with ftval := v }
    | 0x104 => { f with ftpc := v &&& 0xFFFFFFFFFFFFF#64 }
    | _ => f)

/-- R295: read CSR n, write what `new_` makes of it where the member writes, and give the old value to xd. -/
def csrRun (s : State) (d : XReg) (n : BitVec 12) (new_ : Option (Word → Word)) : Res State :=
  let m := n.toNat
  let bad : Res State := trapR 0x01#8 (n.zeroExtend 64)
  match s.cur with
  | .fcore e c =>
    match fcsrRead s e c m, new_ with
    | none, _ => bad
    | some old, none => put s d old untag
    | some old, some f => if fcsrWritable m then put (fcsrWrite s e c m (f old)) d old untag else bad
  | _ =>
    match csrRead s s.me s.meK m, new_ with
    | none, _ => bad
    | some old, none => put s d old untag
    | some old, some f =>
      if !csrWritable s.meK m then bad
      else match csrWrite s s.me s.meK m (f old) with
        | .ok s => put s d old untag
        | .error e => .error e

/-- R295: read. -/
def execCsrr (d : XReg) (n : BitVec 12) (s : State) : Out := scalar (.csrr d n) s (csrRun s d n none)
/-- R295: write xa. -/
def execCsrw (d a : XReg) (n : BitVec 12) (s : State) : Out := scalar (.csrw d a n) s (csrRun s d n (some (fun _ => (s.rx a).v)))
/-- R295: set the bits of xa. -/
def execCsrs (d a : XReg) (n : BitVec 12) (s : State) : Out := scalar (.csrs d a n) s (csrRun s d n (some (fun o => o ||| (s.rx a).v)))
/-- R295: clear the bits of xa. -/
def execCsrc (d a : XReg) (n : BitVec 12) (s : State) : Out := scalar (.csrc d a n) s (csrRun s d n (some (fun o => o &&& ~~~(s.rx a).v)))

/-! ## Cues, park, exit, yield -/

/-- R321: return from a cue: the main bank is back, and no PC match fires at the instruction returned to. -/
def execCueret (s : State) : Out :=
  scalar .cueret s
    (if s.thr.incue then
       let pc := s.thr.cuepc
       .ok ((s.updThr s.me s.meK (fun t => { t with incue := false })).retireTo pc |>.updThr s.me s.meK (fun t => { t with noMatch := true }))
     else trapR 0x01#8 (wordOf .cueret))

/-- R297: the actions of a safe point, then wait for a cue. -/
def parkRun (s : State) : Res State :=
  match noCue .park s with
  | .error e => .error e
  | .ok _ =>
    let idle := !(s.thr.cuevec.getLsbD 63) || s.thr.cuearm == 0#64
    match safePoint s idle with
    | some s' => .ok s'
    | none =>
      if idle then .ok s.retire
      else .ok ((s.updThr s.me s.meK (fun t => { t with parkWait := true })).stall .cue)

/-- R297. -/
def execPark (s : State) : Out := scalar .park s (parkRun s)

/-- A queue whose consumer has exited holds nothing more (R119): q0-q3, sq and bq where the X thread has, s0, s1 and iq where the A
thread has. -/
def dropQueues (k : Kind) (q : Pair) : Pair :=
  if k = .X then { q with q := Vector.replicate 4 [], sq := [], bq := [], up := [] }
  else { q with sr := Vector.replicate 2 [], iq := [] }

/-- A thread stops for good (R299): it retires its `exit`. The X thread's lane groups are released and given on. -/
def threadExit (s : State) : State :=
  let p := s.me
  let s := (fenceOp s .sys true true true).retire
  let k := s.meK
  let s := (s.updThr p k (fun t => { t with halt := .exited })).updPair p (dropQueues k)
  let s := if s.meK = .X then
      (let lender := (s.pair p).lender
       let s := (releaseGroups s p).updPair p (fun q => { q with lender := none })
       let s := match lender with
         | some o => returnLent s o
         | none => s
       giveGroups s p)
    else s
  if (s.pair p).a.halt = .exited ∧ (s.pair p).x.halt = .exited then pairExited s p else debugSave (trySaveOf s p) p

/-- A thread may go on to the fence of its `exit` (R299): an A thread once every stream of the pair has ended, which one that has
faulted has not (R143, R152), an X thread once its block queue is empty. -/
def mayExit (q : Pair) (k : Kind) : Bool :=
  if k = .A then q.streams.toList.all (fun st => !st.live) else q.blocks.isEmpty

/-- R299: an A thread waits for the pair's streams, an X thread for its block queue; either then performs a full fence with `.eng`. -/
def execExit (s : State) : Out :=
  scalar .exit s
    (if !mayExit (s.pair s.me) s.meK then stallR .other
     else if !enginesIdle s s.me (fenceBegan s) then fenceWait s
     else .ok (threadExit s))

/-- A launch waits that could be placed if the take group of pair p gave up what it holds (R298). -/
def wantsPlace (s : State) (p : Nat) (g : Group) : Bool :=
  let d := dieOf p
  let freed := g.members.foldl (fun s m => (releaseBanks (releaseGroups s m) m).updPair m (fun q => { q with st := .free })) s
  puppeteerOn s d && (s.die d).launches.any (fun l =>
    mayAdmit s d l && decide (g.prio ≤ l.prioNow) && (findPlace s d l).isNone && (findPlace freed d l).isSome)

/-- R298: the actions of a safe point; then a soft pre-emption, when a launch needs the group's place. -/
def yieldRun (s : State) : State :=
  match safePoint s true with
  | some s' => s'
  | none =>
    match groupOf s s.me with
    | some g =>
      if wantsPlace s s.me g then
        let s := postSoft s (dieOf s.me) g
        match safePoint s true with
        | some s' => s'
        | none => s.retire
      else s.retire
    | none => s.retire

/-- R298. -/
def execYield (s : State) : Out := scalar .yield s (.ok (yieldRun s))

/-! ## trc and brk (R326, R327) -/

/-- What `trc` records: the event is offered to the triggers, then the value is written. With recording off there is no effect (R326). -/
def trcEvent (s : State) (a : XReg) (code : BitVec 15) : State :=
  if (s.die (dieOf s.me)).trctl.getLsbD 20 then
    observe s s.me s.meK [(3, code.toNat)] (some (1, [code.zeroExtend 64, (s.rx a).v]))
  else s

/-- R326. -/
def execTrc (a : XReg) (code : BitVec 15) (s : State) : Out := scalar (.trc a code) s (.ok (trcEvent s a code).retire)

/-- R327: a breakpoint trap. -/
def execBrk (code : BitVec 20) (s : State) : Out := scalar (.brk code) s (trapR 0x0D#8 (code.zeroExtend 64))

end Sys2Proof.Machine
end

