-- ==== Sys2Proof/Machine/Firmware.lean ====
section
/-! DEFINITION. The vector instructions of a firmware core (R347-R349). -/

namespace Sys2Proof.Machine

/-- fv register r of a core. -/
def FCore.fvGet (f : FCore) (r : BitVec 4) : BitVec 512 := f.fv[r.toNat]'r.isLt
def FCore.fvSet (f : FCore) (r : BitVec 4) (v : BitVec 512) : FCore := { f with fv := f.fv.set r.toNat v r.isLt }

/-- What an fv instruction does on the core that has the turn; no thread runs one (R44). -/
def onF (s : State) (r : Nat → Nat → FCore → Res State) : Res State :=
  match s.cur with
  | .fcore d c => r d c ((s.die d).fcore c)
  | _ => .ok s

/-- R347: load 64 bytes. -/
def execFvld (v : BitVec 4) (a : XReg) (imm : BitVec 15) (s : State) : Out :=
  scalar (.fvld v a imm) s (onF s (fun d c _ =>
    match fLoad s d c (s.addr a imm).v 64 with
    | .ok x => .ok (s.updF d c (fun f => f.fvSet v (BitVec.ofNat 512 x))).retire
    | .error e => .error e))

/-- R347: store 64 bytes. -/
def execFvst (v : BitVec 4) (a : XReg) (imm : BitVec 15) (s : State) : Out :=
  scalar (.fvst v a imm) s (onF s (fun d c f => stored (fStore s d c .wide (s.addr a imm).v 64 (f.fvGet v).toNat)))

/-- The value whose element e of w bits is f of the elements of a and b. -/
def fvMap (w : Nat) (f : Nat → Nat → Nat) (a b : BitVec 512) : BitVec 512 :=
  BitVec.ofNat 512 ((List.range (512 / w)).foldl (fun x e => x + f (a.toNat / 2 ^ (w * e) % 2 ^ w) (b.toNat / 2 ^ (w * e) % 2 ^ w) * 2 ^ (w * e)) 0)

/-- Element bits of a width code (R348). -/
def fvBits (ew : BitVec 2) : Nat := 8 * 2 ^ ew.toNat

/-- All ones where a comparison holds (R348). -/
def fvIf (w : Nat) (c : Bool) : Nat := if c then 2 ^ w - 1 else 0

/-- fvd takes what f makes of fva and fvb (R348). -/
def fvOp (s : State) (d a b : BitVec 4) (f : BitVec 512 → BitVec 512 → BitVec 512) : Res State :=
  onF s (fun e c g => .ok (s.updF e c (fun h => h.fvSet d (f (g.fvGet a) (g.fvGet b)))).retire)

/-- R348: a & b; the width changes nothing. -/
def execFvand (d a b : BitVec 4) (ew : BitVec 2) (s : State) : Out :=
  scalar (.fvand d a b ew) s (fvOp s d a b (fun x y => x &&& y))

/-- R348: a | b; the width changes nothing. -/
def execFvor (d a b : BitVec 4) (ew : BitVec 2) (s : State) : Out :=
  scalar (.fvor d a b ew) s (fvOp s d a b (fun x y => x ||| y))

/-- R348: a & ~b; the width changes nothing. -/
def execFvandn (d a b : BitVec 4) (ew : BitVec 2) (s : State) : Out :=
  scalar (.fvandn d a b ew) s (fvOp s d a b (fun x y => x &&& ~~~y))

/-- R348: a ^ b; the width changes nothing. -/
def execFvxor (d a b : BitVec 4) (ew : BitVec 2) (s : State) : Out :=
  scalar (.fvxor d a b ew) s (fvOp s d a b (fun x y => x ^^^ y))

/-- R348: all ones where a = b. -/
def execFvcmpeq (d a b : BitVec 4) (ew : BitVec 2) (s : State) : Out :=
  scalar (.fvcmpeq d a b ew) s (fvOp s d a b (fvMap (fvBits ew) (fun x y => fvIf (fvBits ew) (x == y))))

/-- R348: all ones where a ≠ b. -/
def execFvcmpne (d a b : BitVec 4) (ew : BitVec 2) (s : State) : Out :=
  scalar (.fvcmpne d a b ew) s (fvOp s d a b (fvMap (fvBits ew) (fun x y => fvIf (fvBits ew) (x != y))))

/-- R348: all ones where a < b unsigned. -/
def execFvcmplt (d a b : BitVec 4) (ew : BitVec 2) (s : State) : Out :=
  scalar (.fvcmplt d a b ew) s (fvOp s d a b (fvMap (fvBits ew) (fun x y => fvIf (fvBits ew) (decide (x < y)))))

/-- R348: all ones where a > b unsigned. -/
def execFvcmpgt (d a b : BitVec 4) (ew : BitVec 2) (s : State) : Out :=
  scalar (.fvcmpgt d a b ew) s (fvOp s d a b (fvMap (fvBits ew) (fun x y => fvIf (fvBits ew) (decide (y < x)))))

/-- R348: the low bits of xa in every element. -/
def execFvbcast (d : BitVec 4) (a : XReg) (ew : BitVec 2) (s : State) : Out :=
  scalar (.fvbcast d a ew) s (fvOp s d d d (fvMap (fvBits ew) (fun _ _ => (s.rx a).v.toNat % 2 ^ fvBits ew)))

/-- R349: the index of the lowest set bit, or 512. -/
def fvFirst (v : BitVec 512) : Nat := ((List.range 512).find? (fun i => v.getLsbD i)).getD 512
/-- R349: the number of set bits. -/
def fvCount (v : BitVec 512) : Nat := (List.range 512).countP (fun i => v.getLsbD i)

/-- R349: find the lowest set bit. -/
def execFvff (d : XReg) (a : BitVec 4) (s : State) : Out :=
  scalar (.fvff d a) s (onF s (fun _ _ f => put s d (BitVec.ofNat 64 (fvFirst (f.fvGet a))) untag))

/-- R349: count the set bits. -/
def execFvpopc (d : XReg) (a : BitVec 4) (s : State) : Out :=
  scalar (.fvpopc d a) s (onF s (fun _ _ f => put s d (BitVec.ofNat 64 (fvCount (f.fvGet a))) untag))

end Sys2Proof.Machine
end

