-- ==== Sys2Proof/Machine/Journal.lean ====
section
/-! DEFINITION. What the firmware of a die does with its journal at the end of a take-over (R352, R353, R357, R372). -/

namespace Sys2Proof.Machine

/-- The record at an address: SEQ, ST and what it says (R352). -/
def readRecord (m : Mem) (a : Nat) : Nat × Nat × JRec :=
  let w : Nat → Word := fun i => Mem.dw m (a + 8 * i)
  ((w 0).toNat, bitsW (w 1) 9 8,
    { op := bitsW (w 1) 7 0, ctx := bitsW (w 1) 19 10, ring := bitsW (w 1) 31 20, idx := bitsW (w 1) 63 32
      arg := w 2, aux := w 3, d4 := w 4, d5 := w 5, d6 := w 6, d7 := w 7 })

/-- The records of a die's journal that lie at their places: SEQ and ST. -/
def Die.records (t : Die) (m : Mem) : List (Nat × Nat) :=
  (List.range t.jCap).filterMap (fun i =>
    let (q, st, _) := readRecord m (bitsW t.jrnl 51 12 * 4096 + 64 * i)
    if q % t.jCap = i then some (q, st) else none)

/-- A step of a move is done again, to the same end; what the commit with the record's generation has ended stays (OP 6). -/
def redoMove (s : State) (c r n b old : Nat) (gen : BitVec 16) : State :=
  let e := s.region c r
  let open_ := e.gen + 1#16 == gen
  match n with
  | 2 => if open_ && (e.st == .resident || e.st == .moving) then startMove (recordMove s c r b false) c r else s
  | 3 => if open_ && (e.st == .moving || e.st == .arriving) then markHolders s c r else s
  | 4 => if open_ then settleAll s c else s
  | 5 =>
    -- a copy into or out of a peer goes on by itself
    if farRange old e.size.toNat && e.st == .moving || farRange b e.size.toNat then s
    else if open_ && e.st == .moving then s.setMem (Mem.copy s.mem old b e.size.toNat)
    else if open_ && e.st == .arriving then s.setMem (Mem.paste s.mem b e.size.toNat (Tab.get [] (s.ctx c).back r))
    else s
  | 6 => if open_ then patchSites s c r b else s
  | 7 => rebaseAreas s c r (gen - 1#16) gen (BitVec.ofNat 64 b - BitVec.ofNat 64 old)
  | 8 => if open_ then s.setRegion c r { e with prev := e.base, base := BitVec.ofNat 52 b, gen := gen, st := .resident } else s
  | 9 => if e.gen == gen && e.st == .resident then unparkFor s c r else s
  | _ => s

/-- The action of a record is performed again on die d, by the repeat rule of its operation (R353). -/
def redo (d : Nat) (r : JRec) (s : State) : State :=
  match r.op with
  | 1 => (postAt s d r.ctx r.ring r.idx r.arg).1
  | 2 =>
    let p := 160 * d + 4 * bitsW r.arg 5 0 + bitsW r.arg 7 6
    let set := (List.range 8).filter (fun g => r.arg.getLsbD (8 + g))
    if (s.pair p).holds && (s.pair p).ctx.toNat == r.ctx && (s.pair p).lastSet != set
        && (s.pair p).parts.head?.map (·.2) != some set then s.setPair p ((s.pair p).post set) else s
  | 3 =>
    match entryOf ((r.d7 ++ r.d6) ++ (r.d5 ++ r.d4)) with
    | some e => s.setRegion r.ctx (bitsW r.arg 7 0) e
    | none => s
  | 4 =>
    match (s.die d).groups.find? (fun g => g.ring == r.ring && g.idx % 2 ^ 32 == r.idx && g.t == bitsW r.arg 31 0) with
    | some g => if g.st == .saving || g.st == .saved then s else if r.aux = 0#64 then softAct s d g else hardAct s d g 1
    | none => s
  | 5 =>
    let p := 160 * d + bitsW r.arg 7 0
    let cause := ((s.pair p).thr (s.pair p).trapK).tcause.toNat % 256
    if (s.pair p).st == .parked && (s.pair p).ctx.toNat == r.ctx then resumePair s p (r.arg.getLsbD 8 || cause == 0x0C || cause == 0x0D) else s
  | _ => redoMove s r.ctx (bitsW r.arg 7 0) (bitsW r.arg 11 8) r.d4.toNat r.d5.toNat (r.d6.setWidth 16)

/-- An open record is replayed and closed; one of no operation is marked skipped and the host is told (R353, R357 step 2). -/
def replayRecord (d : Nat) (s : State) (seq : Nat) : State :=
  let t := s.die d
  let a := t.jAt (BitVec.ofNat 64 seq)
  let r := (readRecord s.mem a).2.2
  if r.op = 0 ∨ 6 < r.op then (s.setMem (setSt s.mem a 3)).send (.journal d seq)
  else closeRecord (redo d r (s.setDie d { t with jopen := some (BitVec.ofNat 64 seq) })) d

/-- Step 2 of R357: every open record is replayed in SEQ order; the records to come are numbered after those that are there. -/
def replay (d : Nat) (s : State) : State :=
  let recs := (s.die d).records s.mem
  let next := recs.foldl (fun n e => if e.2 = 0 then n else max n (e.1 + 1)) (s.die d).jseq.toNat
  let s := s.updDie d (fun t => { t with jseq := BitVec.ofNat 64 next })
  (sortBy (fun a b => decide (a < b)) ((recs.filter (fun e => e.2 == 1)).map (·.1))).foldl (replayRecord d) s

/-- Steps 2 to 4 of a take-over, which firmware reloaded onto a die performs too (R357, R372): the journal is replayed, HOLD is cleared, and
what the Puppeteer has found to do is done. -/
def standIn (d : Nat) (s : State) : State :=
  let t := s.die d
  if (t.holdOn || t.replayDue) && !t.lost && (t.fcore t.act.toNat).on then
    giveAll d (holdClear d ((if t.jrnlSet then replay d s else s).updDie d (fun t => { t with replayDue := false })))
  else s

end Sys2Proof.Machine
end

