-- ==== Sys2Proof/Machine/Events.lean ====
section
/-! DEFINITION. The steps of the machine that are no words of a program, one meaning for each: what the Puppeteer, the Clapper,
Dolly, the job scheduler, the debugger and the host's register writes do. What is more than one operation of the earlier files
stands first. -/

namespace Sys2Proof.Machine

/-- The debugger's command in force on a die holds for pairs that have just been restored (R339). -/
def debugRestored (d : Nat) (s : State) : State :=
  (s.pairs.filter (fun e => e.2.st == .running && e.2.dbgPend == 0 && decide (e.1 < 1280) && dieOf e.1 == d
    && e.2.a.halt != .debug && e.2.x.halt != .debug)).foldl (fun s e =>
      match Tab.get 0 (s.die d).dbgOn e.2.ctx.toNat with
      | 0 => s
      | 2 => debugHard s e.1
      | _ => s.updPair e.1 (fun q => { q with dbgPend := 1 })) s

/-- `PARTITION_CHANGE_POST` (R167). -/
def execPartitionChangePost (p : Nat) (groups : BitVec 8) (s : State) : Out := .next (partitionChangePost p groups s)

/-- `LANE_LEND` (R168). -/
def execLaneLend (p : Nat) (borrower : Nat) (s : State) : Out := .next (laneLend p borrower s)

/-- `LEND_RETURN_TIMEOUT` (R25). -/
def execLendReturnTimeout (p : Nat) (s : State) : Out := .next (lendReturnTimeout p s)

/-- `KICK` (R260): the ring's bit is set on every die in its SPAN, whichever window the write came through. -/
def execKick (die : Nat) (ring : BitVec 12) (s : State) : Out := .next (hostKick s ring.toNat)

/-- `RING_FETCH` (R264). -/
def execRingFetch (die : Nat) (ring : BitVec 12) (s : State) : Out := .next (ringFetch die ring s)

/-- `TORN_RETRY` (R264). -/
def execTornRetry (die : Nat) (ring : BitVec 12) (s : State) : Out := .next (tornRetry die ring s)

/-- `LAUNCH_PACKET` (R268). -/
def execLaunchPacket (die : Nat) (ring : BitVec 12) (idx : Nat) (s : State) : Out := .next (launchPacket die ring idx s)

/-- `SIGNAL_WRITE_PACKET` (R267). -/
def execSignalWritePacket (die : Nat) (ring : BitVec 12) (idx : Nat) (s : State) : Out := .next (signalWritePacket die ring idx s)

/-- `WAIT_PACKET` (R267). -/
def execWaitPacket (die : Nat) (ring : BitVec 12) (idx : Nat) (s : State) : Out := .next (waitPacket die ring idx s)

/-- `LINK_PACKET` (R264). -/
def execLinkPacket (die : Nat) (ring : BitVec 12) (idx : Nat) (s : State) : Out := .next (linkPacket die ring idx s)

/-- `RESIDENCY_HINT` (R282). -/
def execResidencyHint (die : Nat) (ring : BitVec 12) (idx : Nat) (s : State) : Out := .next (residencyHint die ring idx s)

/-- `RING_BARRIER` (R273). -/
def execRingBarrier (die : Nat) (ring : BitVec 12) (idx : Nat) (s : State) : Out := .next (ringBarrier die ring idx s)

/-- `NOP_PACKET` (R267). -/
def execNopPacket (die : Nat) (ring : BitVec 12) (idx : Nat) (s : State) : Out := .next (nopPacket die ring idx s)

/-- `JOB_CARD_PACKET` (R267). -/
def execJobCardPacket (die : Nat) (ring : BitVec 12) (idx : Nat) (s : State) : Out := .next (jobCardPacket die ring idx s)

/-- `ADMISSION` (R275). -/
def execAdmission (die : Nat) (s : State) : Out := .next (admission die s)

/-- `ADMISSION_AGING` (R274). -/
def execAdmissionAging (die : Nat) (ring : BitVec 12) (idx : Nat) (s : State) : Out := .next (admissionAging die ring idx s)

/-- `PAIR_START` (R14). -/
def execPairStart (p : Nat) (s : State) : Out := .next (pairStart p s)

/-- `SHARE_END` (R271). -/
def execShareEnd (die : Nat) (ring : BitVec 12) (idx : Nat) (s : State) : Out := .next (shareEnd die ring idx s)

/-- `COMPLETION_SIGNAL_WRITE` (R271). -/
def execCompletionSignalWrite (die : Nat) (ring : BitVec 12) (idx : Nat) (s : State) : Out := .next (completionSignalWrite die ring idx s)

/-- `PREEMPT_SOFT` (R278). -/
def execPreemptSoft (die : Nat) (ring : BitVec 12) (idx : Nat) (grp : Nat) (s : State) : Out := .next (preemptSoft die ring idx grp s)

/-- `PREEMPT_HARD_TIMEOUT` (R278). -/
def execPreemptHardTimeout (die : Nat) (ring : BitVec 12) (idx : Nat) (grp : Nat) (s : State) : Out := .next (preemptHardTimeout die ring idx grp s)

/-- `PREEMPT_HARD` (R302). -/
def execPreemptHard (die : Nat) (ring : BitVec 12) (idx : Nat) (grp : Nat) (s : State) : Out := .next (preemptHard die ring idx grp s)

/-- `GROUP_RESTORE` (R276): the debugger's command in force holds for the restored pairs, and those whose region came back meanwhile go on. -/
def execGroupRestore (die : Nat) (ring : BitVec 12) (idx : Nat) (grp : Nat) (s : State) : Out := .next (resumeReady (serveDue die (debugRestored die (groupRestore die ring idx grp s))))

/-- `REGION_TABLE_UPDATE` (R93). -/
def execRegionTableUpdate (ctx : BitVec 10) (rgn : BitVec 8) (entry : BitVec 256) (s : State) : Out := .next (takeKept (resumeReady (regionTableUpdate ctx rgn entry s)))

/-- `REGION_EVICT` (R280, R311). -/
def execRegionEvict (ctx : BitVec 10) (rgn : BitVec 8) (s : State) : Out := .next (takeKept (regionEvict ctx rgn s))

/-- `REGION_ARRIVAL` (R281, R311, R317). -/
def execRegionArrival (ctx : BitVec 10) (rgn : BitVec 8) (s : State) : Out := .next (takeKept (resumeReady (regionArrival ctx rgn s)))

/-- `MOVE_REQUEST` (R308). -/
def execMoveRequest (ctx : BitVec 10) (rgn : BitVec 8) (base : BitVec 52) (s : State) : Out := .next (moveRequest ctx rgn base s)

/-- `MOVE_HOLDER_TIMEOUT` (R308). -/
def execMoveHolderTimeout (ctx : BitVec 10) (rgn : BitVec 8) (s : State) : Out := .next (moveHolderTimeout ctx rgn s)

/-- `MOVE_COMMIT` (R308). -/
def execMoveCommit (ctx : BitVec 10) (rgn : BitVec 8) (s : State) : Out := .next (moveCommit ctx rgn s)

/-- `UNLOAD_CODE` (R316). -/
def execUnloadCode (ctx : BitVec 10) (rgn : BitVec 8) (s : State) : Out := .next (unloadCode ctx rgn s)

/-- `FORCED_RETIRE` (R317). -/
def execForcedRetire (ctx : BitVec 10) (rgn : BitVec 8) (s : State) : Out := .next (forcedRetire ctx rgn s)

/-- `RESIDENCY_REQUEST_SERVICE` (R24). -/
def execResidencyRequestService (ctx : BitVec 10) (rgn : BitVec 8) (base : BitVec 52) (s : State) : Out := .next (residencyRequestService ctx rgn base s)

/-- `STREAM_START` (R142). -/
def execStreamStart (p : Nat) (sm : BitVec 4) (s : State) : Out := .next (streamStart p sm.toNat s)

/-- `STREAM_TRANSFER` (R145). -/
def execStreamTransfer (p : Nat) (sm : BitVec 4) (s : State) : Out := .next (streamTransfer p sm.toNat s)

/-- `STREAM_RELEASED` (R149). -/
def execStreamReleased (p : Nat) (sm : BitVec 4) (s : State) : Out := .next (streamReleased p sm.toNat s)

/-- `STREAM_VISIBLE` (R149). -/
def execStreamVisible (p : Nat) (sm : BitVec 4) (s : State) : Out := .next (streamVisible p sm.toNat s)

/-- `STREAM_FAULT` (R151). -/
def execStreamFault (p : Nat) (sm : BitVec 4) (err : Bool) (s : State) : Out := .next (streamFault p sm.toNat err s)

/-- `STREAM_SWAP_FAULT` (R152). -/
def execStreamSwapFault (p : Nat) (sm : BitVec 4) (s : State) : Out := .next (streamSwapFault p sm.toNat s)

/-- `JOB_CARD_START` (R155). -/
def execJobCardStart (die : Nat) (card : Nat) (s : State) : Out := .next (jobCardStart die card s)

/-- `JOB_CARD_COMPLETE` (R155). -/
def execJobCardComplete (die : Nat) (card : Nat) (s : State) : Out := .next (jobCardComplete die card s)

/-- `JOB_CARD_FAULT` (R155). -/
def execJobCardFault (die : Nat) (card : Nat) (err : Bool) (s : State) : Out := .next (jobCardFault die card err s)

/-- `DBG_STOP` (R339). -/
def execDbgStop (die : Nat) (ctx : BitVec 10) (s : State) : Out := .next (debugCmd s die ctx.toNat 1)

/-- `DBG_HARD_STOP` (R339). -/
def execDbgHardStop (die : Nat) (ctx : BitVec 10) (s : State) : Out := .next (debugCmd s die ctx.toNat 2)

/-- `DBG_STEP` (R339). -/
def execDbgStep (die : Nat) (ctx : BitVec 10) (s : State) : Out := .next (debugCmd s die ctx.toNat 3)

/-- `DBG_RUN` (R339). -/
def execDbgRun (die : Nat) (ctx : BitVec 10) (s : State) : Out := .next (debugCmd s die ctx.toNat 4)

/-- `CTXCMD_RESUME` (R291, R362). -/
def execCtxcmdResume (die : Nat) (ctx : BitVec 10) (pr : BitVec 8) (s : State) : Out := .next (ctxIssue s die ctx.toNat pr.toNat 0)

/-- `CTXCMD_SKIP` (R291, R362). -/
def execCtxcmdSkip (die : Nat) (ctx : BitVec 10) (pr : BitVec 8) (s : State) : Out := .next (ctxIssue s die ctx.toNat pr.toNat 1)

/-- `CTXCMD_TERMINATE` (R291, R362). -/
def execCtxcmdTerminate (ctx : BitVec 10) (s : State) : Out := .next (ctxIssue s 0 ctx.toNat 0 2)

/-- `TRIG_WRITE` (R335). -/
def execTrigWrite (die : Nat) (k : BitVec 2) (val : Word) (s : State) : Out := .next (trigWrite die k val s)

/-- `TRWR_WRITE` (R331). -/
def execTrwrWrite (die : Nat) (val : Word) (s : State) : Out := .next (trwrWrite die val s)

/-- `FWNOTE_WRITE` (R409). -/
def execFwnoteWrite (die : Nat) (val : Word) (s : State) : Out := .next (fwnoteWrite die val s)

/-- `ERRCNT_WRITE` (R346). -/
def execErrcntWrite (die : Nat) (val : Word) (s : State) : Out := .next (errcntWrite die val s)

/-- `ADMPOST_POST` (R408). -/
def execAdmpostPost (die : Nat) (val : Word) (s : State) : Out := .next (admpostPost die val s)

/-- `JRNL_WRITE` (R351). -/
def execJrnlWrite (die : Nat) (val : Word) (s : State) : Out := .next (jrnlWrite true die val s)

/-- `FWSTAT_HOLD_CLEAR` (R356, R357, R372): the firmware ends a take-over. -/
def execFwstatHoldClear (die : Nat) (s : State) : Out := .next (standIn die s)

/-- `WB_FILL_START` (R231). -/
def execWbFillStart (cl : Nat) (bank : BitVec 2) (s : State) : Out := .next (wbFillStart cl bank.toNat s)

/-- `WB_FILL_END` (R232): a save or a stop that waited for the fill is taken (R228, R339). -/
def execWbFillEnd (cl : Nat) (bank : BitVec 2) (err : Option (Nat × Nat)) (s : State) : Out := .next (match (s.bank cl bank.toNat).owner with
  | some p => debugSave (trySaveOf (wbFillEnd cl bank.toNat err s) p) p
  | none => wbFillEnd cl bank.toNat err s)

end Sys2Proof.Machine
end

