-- ==== Sys2Proof/Machine/Platform.lean ====
section
/-! DEFINITION. The events of traps and errors (R240, R288, R301, R320, R345, R346, R357, R358), of samples (R337), of peers and
completions (R104, R117, R253, R363, R373), of the host's windows (R361-R368), of attestation (R360, R369, R370), and of boot,
power and cooling (R371, R372, R374). -/

namespace Sys2Proof.Machine

/-! ## Traps, faults and cues of a pair -/

/-- The A thread of pair p stands at a `vstr`. -/
def atVstr (s : State) (p : Nat) : Option Instr :=
  match fetchScalar s p .A with
  | .ok (_, w) =>
    match decodeScalar w with
    | .ok (.vstr q a sc ord ordd ew) => some (.vstr q a sc ord ordd ew)
    | _ => none
  | .error _ => none

/-- `PAIR_TRAP` (R288): thread k of a running pair traps at its instruction. A data error (0x0A) at a `vstr` is that of the train which
carries the element, if one does (R131). -/
def execPairTrap (p : Nat) (k : Kind) (cause : BitVec 8) (val : Word) (elem : BitVec 32) (s : State) : Out :=
  .next (if (s.pair p).st = .running ∧ k ≠ .F ∧ ((s.pair p).thr k).halt ≠ .exited then
    match (if cause = 0x0A#8 ∧ k = .A then atVstr s p else none) with
    | some i =>
      match vstrLost i { s with cur := .thr p .A } elem.toNat with
      | some (t, low) => pairTrap { t with cur := s.cur } p k false cause val ((s.pair p).thr k).pc (BitVec.ofNat 32 low)
      | none => s
    | none => pairTrap s p k false cause val ((s.pair p).thr k).pc elem
    else s)

/-- `SWAP_FAULT` (R301): a running thread's stall on an ABSENT, ARRIVING or EVICTING region becomes a swap fault. -/
def execSwapFault (p : Nat) (k : Kind) (s : State) : Out :=
  let q := s.pair p
  let t := q.thr k
  .next (match t.onRgn with
    | some r =>
      let st := (s.region q.ctx.toNat r).st
      if q.st = .running ∧ k ≠ .F ∧ t.halt = .none ∧ (st = .absent ∨ st = .arriving ∨ st = .evicting)
      then pairTrap s p k false 0x07#8 (BitVec.ofNat 64 r) t.pc (if t.onVec then t.vstart.zeroExtend 32 else 0#32) else s
    | none => s)

/-- `CUE_DELIVERY` (R320): the first fired source delivers its cue, if the thread takes one now. -/
def execCueDelivery (p : Nat) (k : Kind) (s : State) : Out :=
  .next (if (s.pair p).st = .running ∧ k ≠ .F ∧ ((s.pair p).thr k).halt = .none then
      let s := latchCues s p k
      (deliverCue s p k).getD s
    else s)

/-! ## Errors of lane, bank and array storage (R240, R241) -/

/-- The lanes of pair p pass the matrix word they are at: it reads its bank and the array. The lanes of a parked pair run on. -/
def matrixRuns (s : State) (p : Nat) : Out → Bool
  | .next s' => (s'.pair p).lanes.off != (s.pair p).lanes.off
  | _ => false

/-- The bank that the block word the lanes of pair p are at reads: a matrix word's that passes the checks of R236. -/
def bankRead (s : State) (p w : Nat) : Option Nat :=
  let s := { s with cur := .lanes p }
  match decodeBlock w with
  | .ok (.mrow w b acc) => if matrixRuns s p (execMrow w b acc s) then some b.toNat else none
  | .ok (.mrow64 w b acc) => if matrixRuns s p (execMrow64 w b acc s) then some b.toNat else none
  | _ => none

/-- A lane group fails: its LANEMASK bit falls and its LPR field reads 7 (R166). -/
def loseGroup (s : State) (cl g : Nat) : State := setLpr (s.setCluster cl { s.cluster cl with mask := (s.cluster cl).mask &&& ~~~(1#8 <<< g) }) cl g 7#3

/-- What an uncorrectable error of a unit does to the storage it is found in; none where the word at hand reads no such
storage. A unit-5 error lets the Puppeteer retire the array or keep it (`Config.choice`). -/
def failUnit (s : State) (p : Nat) (report : BitVec 20) (w : Nat) : Option State :=
  let cl := clusterOf p
  let unit := bits report.toNat 19 16
  let g := bits report.toNat 5 3
  let b := bits report.toNat 7 6
  if unit < 4 then
    if (s.pair p).owned.contains g then some (loseGroup s cl g) else none
  else if unit = 4 then
    if bankRead s p w = some b then some (s.setBank cl b { s.bank cl b with st := .bad, badWhy := 2 }) else none
  else if unit = 5 ∧ (bankRead s p w).isSome then
    let s' := if Config.choice s.fresh % 2 = 0 then s.setCluster cl { s.cluster cl with array := false } else s
    some { s' with fresh := s'.fresh + 1 }
  else none

/-- A report holds only the fields of its unit (R241). -/
def reportOf (r : BitVec 20) : BitVec 20 :=
  r &&& (if bits r.toNat 19 16 < 4 then 0xF073F#20 else if bits r.toNat 19 16 = 4 then 0xF07C0#20 else 0xF0700#20)

/-- `UNCORRECTABLE_DATA_ERROR` (R240): found at the block word the lanes of a pair are at, a block's first word among
them, which traps before it writes anything. The other pairs of the cluster give up a group that has failed at their next strips (R168). -/
def execUncorrectableDataError (p : Nat) (report : BitVec 20) (elem : BitVec 32) (s : State) : Out :=
  let q := s.pair p
  let begun := beginBlock s p
  .next (if lanesRun q then
      match fetchBlock begun p with
      | .ok w =>
        match failUnit begun p report w with
        | some s =>
          let b := q.blocks.headD {}
          dropFailed (pairTrap s p .X true 0x0A#8 ((reportOf report).zeroExtend 64) ⟨blockAddr s p (s.pair p).lanes.off, b.rgn⟩ elem) (clusterOf p)
        | none => s
      | .error _ => s
    else s)

/-- `CORRECTED_ERROR` (R240, R346): field 0 MEM, 1 MATRIX, 2 LANE, 3 FW of ERRCNT counts, holding at all ones. -/
def execCorrectedError (die : Nat) (field : BitVec 2) (s : State) : Out :=
  .next (s.updDie die (fun t =>
    let k := 16 * field.toNat
    if bits t.errcnt.toNat (k + 15) k = 0xFFFF then t else { t with errcnt := t.errcnt + BitVec.ofNat 64 (2 ^ k) }))

/-! ## The firmware complex -/

/-- The active core of a die runs. -/
def fwRuns (s : State) (d : Nat) : Bool := ((s.die d).fcore (s.die d).act.toNat).on

/-- `F_TRAP` (R345): the active core of a die traps at its instruction. -/
def execFTrap (die : Nat) (cause : BitVec 8) (val : Word) (s : State) : Out :=
  .next (if fwRuns s die then fTrap s die (s.die die).act.toNat cause val else s)

/-- `SRAM_ERROR_FOUND` (R346): in core `core`; cause 1 for the instruction SRAM, 2 for the data SRAM. -/
def execSramErrorFound (die : Nat) (core : Bool) (data : Bool) (s : State) : Out :=
  .next (if core = (s.die die).act then (if fwRuns s die then takeOver s die (if data then 2#8 else 1#8) else s)
    else s.updDie die (fun t => { t with spare := false }))

/-- `SCRUB_READ` (R346): the scrubber reads a word of a core's SRAM. Where it finds an error, `SRAM_ERROR_FOUND` or
`CORRECTED_ERROR` says what follows; the read itself changes nothing. -/
def execScrubRead (_die : Nat) (_core _data : Bool) (_off : BitVec 18) (s : State) : Out := .next s

/-- `TAKEOVER` (R357): hardware stops the active core and releases the Stand-in. -/
def execTakeover (die : Nat) (cause : BitVec 8) (s : State) : Out :=
  .next (if fwRuns s die && (s.die die).spare then takeOver s die cause else s)

/-- `FIRMWARE_LOST` (R358): with SPARE 0 the failure leaves the die without firmware. -/
def execFirmwareLost (die : Nat) (cause : BitVec 8) (s : State) : Out :=
  .next (if fwRuns s die && !(s.die die).spare then takeOver s die cause else s)

/-! ## Samples (R337) -/

/-- The X thread of a pair is counting cycles (R329): it has not exited, and the pair is not parked, stopped or saved. -/
def counting (q : Pair) : Bool := q.st == .running && q.x.halt != .exited

/-- `SAMPLE_CYCLES` (R337): in MODE 2, at a cycle whose low max(N, 12) bits are zero. -/
def execSampleCycles (die : Nat) (s : State) : Out :=
  let c := (s.die die).sampctl
  .next (if bitsW c 1 0 = 2 ∧ s.cycle.toNat % 2 ^ (max (bitsW c 7 2) 12) = 0 then
      (s.pairs.filter (fun e => decide (e.1 < 1280) && dieOf e.1 == die && counting e.2)).foldl
        (fun s e => threadSlate s e.1 .X 2 (slips e.2)) s
    else s)

/-! ## Caches, accesses in flight and rereads -/

/-- `DATA_CACHE_LINE_EVICTION` (R104): the line leaves the core's cache, its written bytes going home. -/
def execDataCacheLineEviction (core line : Nat) (s : State) : Out :=
  .next (match (s.cache core).find? (fun c => c.1 == line) with
    | some c => (s.setMem (flushLine s.mem line c.2)).setCache core (Tab.del (s.cache core) line)
    | none => s)

/-- `VECTOR_ACCESS_COMPLETION` (R117): the n oldest vector accesses of a pair complete. -/
def execVectorAccessCompletion (p n : Nat) (s : State) : Out :=
  .next ((List.range (min n (s.pair p).flights.length)).foldl (fun s _ => land1 s p) s)

/-- `HOST_SIGNAL_REREAD` (R253): a thread that waits on a signal reads it again at the next step. -/
def execHostSignalReread (p : Nat) (k : Kind) (s : State) : Out :=
  .next (if ((s.pair p).thr k).wait = .cue then { s with agenda := .run (.thr p k) :: s.agenda } else s)

/-! ## Peers (R363) -/

/-- A peer answers one request: the bytes it read, or that it failed. -/
def peerAnswer (s : State) (r : PeerReq) (ok : Bool) (data : List Byte) : State :=
  let d := r.p / 160
  let isRead := r.op == peerRead
  if r.tag = 0 then
    s.updThr r.p r.k (fun t => if t.asked then { t with asked := false, reply := some (ok, data), sent := r.addrs } else t)
  else if r.tag = 1 then
    let off := BitVec.ofNat 52 (r.addrs.headD 0) - blockBase s r.p
    s.updPair r.p (fun q => { q with lanes := { q.lanes with
      ahead := q.lanes.ahead ++ [(off, if ok then some (natOf data) else none)], peerWait := false } })
  else if r.tag < 18 then
    let sm := r.tag - 2
    let st := (s.pair r.p).str sm
    if !st.asked then s
    else if ok then
      if isRead then s.setStr r.p sm { st with got := some data, asked := false } else s.setStr r.p sm { st with ack := true }
    else faultStream (s.setStr r.p sm { st with asked := false }) r.p sm st.first 0x0E
      (BitVec.ofNat 64 (if isRead then st.srcElem st.first else st.dstElem st.first))
  else if r.tag = 97 then s.updF d (r.p % 160) (fun f => { f with asked := false, reply := some (ok, data) })
  else if r.tag = 98 then
    match r.who with
    | some (.copy c n) => copyAnswer s c n r ok data
    | some who => { s with unitGot := s.unitGot ++ [(who, r.addrs.headD 0, if ok then some (BitVec.ofNat 64 (natOf data)) else none)] }
    | none => s
  else if r.tag < 100 then s
  else
    let i := r.tag - 100
    match (s.die d).card i with
    | some c =>
      if isRead then s.setCard d i { c with got := some data, short := !ok, asked := false }
      else s.setCard d i { c with done := some (if ok then r.sent.length else data.length), short := !ok }
    | none => s

/-- `PEER_RESPONSE` (R363): the answer to the oldest request of a thread, or (kind F) of an engine, of pair p. -/
def execPeerResponse (p : Nat) (k : Kind) (ok : Bool) (data : List Byte) (s : State) : Out :=
  let mine : PeerReq → Bool := fun r => r.p == p && (if k = .F then r.tag != 0 else r.tag == 0 && r.k == k)
  .next (match s.peers.find? mine with
    | some r => peerAnswer { s with peers := s.peers.erase r } r ok data
    | none => s)

/-- What a peer's request reads and writes at address a; none when it asks for nothing the device performs. -/
def peerPerform (s : State) (op a n b cmp : Nat) : Option (Nat × State) :=
  let old := Mem.getLE s.mem a n
  let put : Nat → Option (Nat × State) := fun v => some (old, s.setMem (Mem.setLE s.mem a n v))
  if op = peerRead then some (old, s)
  else if op = peerWrite then put b
  else if op = peerBits then (if n = 1 then put ((old &&& (255 - cmp % 256)) ||| (b &&& cmp % 256)) else none)
  else if op < 12 then (if n = 4 ∨ n = 8 then put (amoNew (op - 2) n old (b % 256 ^ n) (cmp % 256 ^ n)) else none)
  else if 100 ≤ op ∧ addFormat (op - 100) ∧ n * 8 = fmtWidth (op - 100) then put (addBits (op - 100) old (b % 256 ^ n)).1
  else none

/-- `PEER_REQUEST` (R19, R363): a request at an offset of the export aperture: 0 reads, 1 writes, 2 to 11 are the members of `amo`
in their order, 98 writes the bits of a byte that `cmp` marks, 100 + f adds in format f. It fails while EN is 0 and where the device cannot perform it. -/
def execPeerRequest (op : Byte) (off : BitVec 33) (size : BitVec 4) (val cmp : Word) (s : State) : Out :=
  let a := bitsW s.expap 51 33 * 2 ^ 33 + off.toNat
  let n := size.toNat
  let fail := s.send (.peerReply false 0#64)
  .next (if !(s.expap.getLsbD 63 && (n == 1 || n == 2 || n == 4 || n == 8) && decide (a % n = 0)
      && decide (a + n ≤ bitsW s.caphbm 51 0)) then fail
    else match peerPerform s op.toNat a n val.toNat cmp.toNat with
      | some (v, s) => s.send (.peerReply true (BitVec.ofNat 64 v))
      | none => fail)

/-- `FLIT_REPLAY` (R373): the sender's buffer replays the flit; nothing that software sees changes. -/
def execFlitReplay (_link : BitVec 4) (s : State) : Out := .next s

/-! ## The host's windows (R3, R361, R364, R371) -/

/-- An HBM address that a locked interface withholds from BAR4, in ERROR too until its scrub (R366, R368). -/
def withheld (s : State) (a : Nat) : Bool :=
  s.vfs.any (fun e => e.2.st != .unlocked && decide (e.2.carve.1 ≤ a) && decide (a < e.2.carve.1 + e.2.carve.2))

/-- BAR4 reaches an address. -/
def bar4Open (s : State) (a : Nat) : Bool := decide (a < bitsW s.caphbm 51 0) && !withheld s a

/-- `HOST_BAR4_READ` (R361): one byte. -/
def execHostBar4Read (addr : BitVec 41) (s : State) : Out :=
  .next (s.send (.barRead addr.toNat (if bar4Open s addr.toNat then Mem.get s.mem addr.toNat else 0xFF#8)))

/-- `HOST_BAR4_WRITE` (R361): one byte. -/
def execHostBar4Write (addr : BitVec 41) (val : Byte) (s : State) : Out :=
  .next (if bar4Open s addr.toNat then s.setMem (Mem.set s.mem addr.toNat val) else s)

/-- A KICK through an interface's BAR0 (R364, R367): only its own rings, and none in ERROR. -/
def vfKickWrite (s : State) (v : Nat) (val : Word) : State :=
  let r := bitsW val 11 0
  let w := (s.vf v).rule 6
  if v = 0 ∨ (s.vf v).st = .error ∨ r < bitsW w 11 0 ∨ bitsW w 11 0 + bitsW w 27 16 ≤ r then s else hostKick s r

/-- A CTXCMD through an interface's BAR0 (R364, R367): only its own contexts. A pair is taken on die 0. -/
def vfCtxcmdWrite (s : State) (v : Nat) (val : Word) : State :=
  if v = 0 ∨ (s.vf v).st = .error ∨ !((s.vf v).ctxs.contains (bitsW val 9 0)) then s else ctxcmdWrite 0 val s

/-- `VF_KICK` (R364). -/
def execVfKick (vf : BitVec 6) (val : Word) (s : State) : Out := .next (vfKickWrite s vf.toNat val)

/-- `DEVICE_REGISTER_WRITE` (R3): a host's write to the window of die 0 to 7, to the boot mailbox of BAR2 (8; MBCTL has its own
event, R371), or to the BAR0 of VF v (64 + v). -/
def execDeviceRegisterWrite (die : Nat) (off : BitVec 25) (val : Word) (s : State) : Out :=
  let o := off.toNat / 8 * 8
  .next (if die < 8 then devWrite true die o val s
    else if die = 8 then
      if o = 0 then { s with mbaddr := val } else if o = 8 then { s with mblen := val &&& 0xFFFFFFFF#64 } else s
    else if 64 ≤ die ∧ die < 128 then
      if o = 0 then vfKickWrite s (die - 64) val else if o = 0x10 then vfCtxcmdWrite s (die - 64) val else s
    else s)

/-- A doubleword of BAR2, the boot mailbox (R371). -/
def mailWord (s : State) (off : Nat) : Word :=
  if off = 0 then s.mbaddr
  else if off = 8 then s.mblen
  else if off = 0x18 then (s.mbfail ++ s.mbready).zeroExtend 64
  else 0#64

/-- A doubleword of the BAR0 of VF v: all ones while it is in ERROR (R367); KICK is write only. -/
def vfWord (s : State) (v off : Nat) : Word :=
  if (s.vf v).st = .error then BitVec.allOnes 64
  else if off = 0x10 then s.ctxcmd
  else 0#64

/-- What the host reads: n bytes at an offset of a window (R361, R364). ADMPOST is F level's alone: it reads 0 (R408, log 82). -/
def hostBytes (s : State) (win off n : Nat) : Nat :=
  let part : Word → Nat := fun w => w.toNat / 256 ^ (off % 8) % 256 ^ n
  if win < 8 then (if off < 0x2000000 ∧ ¬ (0x3800 ≤ off ∧ off < 0x3818) then devBytes s win off n else 0)
  else if win = 8 then part (mailWord s (off / 8 * 8))
  else if win = 9 then (if bar4Open s off then Mem.getLE s.mem off n else 256 ^ n - 1)
  else part (vfWord s (win - 64) (off / 8 * 8))

/-- What a host's write does: n bytes at an offset of a window. The bytes of a register that it does not name keep what the register
reads (log 21). -/
def hostWrite (s : State) (win off n v : Nat) : State :=
  let b := off / 8 * 8
  let into : Word → Word := fun old =>
    let k := 256 ^ (off % 8)
    BitVec.ofNat 64 (old.toNat - old.toNat / k % 256 ^ n * k + v % 256 ^ n * k)
  if win < 8 then (if off < 0x2000000 then devStore true win off n v s else s)
  else if win = 8 then
    if b = 0 then { s with mbaddr := into s.mbaddr } else if b = 8 then { s with mblen := into s.mblen &&& 0xFFFFFFFF#64 } else s
  else if win = 9 then (if bar4Open s off then s.setMem (Mem.setLE s.mem off n v) else s)
  else if b = 0 then vfKickWrite s (win - 64) (into 0#64)
  else if b = 0x10 then vfCtxcmdWrite s (win - 64) (into s.ctxcmd)
  else s

/-- A window and an access the host makes: 1, 2, 4 or 8 bytes, aligned (log 82). -/
def hostAccess (win off n : Nat) : Bool :=
  (decide (win < 10) || (decide (64 < win) && decide (win < 128))) && (n == 1 || n == 2 || n == 4 || n == 8) && decide (off % n = 0)

/-- The host acts (R91, R319, R322, R361, R364, R367): a read is answered; a write is performed as one. -/
def hostAct (s : State) : HostAct → State
  | .read win off n => if hostAccess win off n then s.send (.hostRead win off n (hostBytes s win off n)) else s
  | .write win off n v => if hostAccess win off n then hostWrite s win off n v else s
  | .pcMatch c i v => s.setCtx c { s.ctx c with pcm := (s.ctx c).pcm.setIfInBounds i (v &&& 0xCFFFFFFFFFFFFFFC#64) }
  | .deprec c d n adv =>
    let x := s.ctx c
    let bit := 1#8 <<< d
    s.setCtx c { x with depcnt := x.depcnt.setIfInBounds d n, depadv := if adv then x.depadv ||| bit else x.depadv &&& ~~~bit }

/-! ## Assignable interfaces (R365-R368) -/

/-- n bytes that the manual leaves to cryptography (log 14). -/
def secretBytes (seed n : Nat) : List Byte := (List.range n).map (Config.secret seed)

/-- An answer whose content is free. -/
def State.drawn (s : State) : State := { s with fresh := s.fresh + 1 }

/-- A TDISP answer. -/
def tdispSend (s : State) (vf : BitVec 6) (code : Nat) (data : List Byte) : State := s.send (.tdisp vf.toNat code data)

/-- A TDISP error answer: its code, then four bytes of error data. -/
def tdispError (s : State) (vf : BitVec 6) (e : Nat) : State := tdispSend s vf 0x7F (bytesOf e 8)

def tdispInvalidState : Nat := 4
def tdispUnsupportedReq : Nat := 7
def tdispInvalidNonce : Nat := 0x102

def VfSt.code : VfSt → Nat
  | .unlocked => 0
  | .locked => 1
  | .run => 2
  | .error => 3

/-- VF 0 is no interface: the function has VF 1 to VF 63 (R360). -/
def isVf (vf : BitVec 6) : Bool := vf != 0#6

/-- A secured session is open (R369). -/
def secured (s : State) : Bool := s.spdm.session.isSome && s.spdm.ready

/-- `GET_TDISP_VERSION`: one version, 1.0. -/
def execGetTdispVersion (vf : BitVec 6) (s : State) : Out := .next (tdispSend s vf 0x01 [1#8, 0x10#8])

/-- `GET_TDISP_CAPABILITIES`: the content is left open. -/
def execGetTdispCapabilities (vf : BitVec 6) (s : State) : Out := .next (tdispSend s vf 0x02 (secretBytes s.fresh 28)).drawn

/-- What an interface that locks withholds from the regions of other contexts (R366): those that hold memory there, or
are on their way there, are retired (log 81). -/
def evictOthers (s : State) (v : Nat) : State :=
  s.ctxs.foldl (fun s x => if (s.vf v).owns x.1 then s
    else x.2.regions.foldl (fun s e =>
      let aim := x.2.nextBase.find? (fun y => y.1 == e.1)
      if e.2.size != 0#48 && e.2.st != .absent && e.2.st != .retired && ((s.vf v).withholds e.2.base.toNat e.2.size.toNat
        || ((e.2.st == .moving || e.2.st == .arriving) && aim.any (fun y => (s.vf v).withholds y.2 e.2.size.toNat)))
      then retireRegion s x.1 e.1 else s) s) s

/-- That is the Puppeteer's work: it waits until one works (R354, log 78). -/
def evictFor (s : State) (v : Nat) : State :=
  if anyPuppeteer s then evictOthers (s.setVf v { s.vf v with lockDue := false }) v else s.setVf v { s.vf v with lockDue := true }

/-- The interfaces whose locking waits for that. -/
def lockAll (s : State) : State := s.vfs.foldl (fun s e => if e.2.lockDue then evictFor s e.1 else s) s

/-- `LOCK_INTERFACE_REQUEST`: from CONFIG_UNLOCKED, in a secured session, with a nonce. -/
def execLockInterfaceRequest (vf : BitVec 6) (s : State) : Out :=
  let v := s.vf vf.toNat
  .next (if isVf vf && v.st == .unlocked && secured s then
      let n := Config.nonce s.fresh
      (tdispSend (evictFor (s.setVf vf.toNat { v with st := .locked, lcfg := v.cfg, nonce := n }) vf.toNat) vf 0x03 (bytesOf n.toNat 32)).drawn
    else tdispError s vf tdispInvalidState)

/-- DEVICE_SPECIFIC_INFO (R368). -/
def reportInfo (v : Nat) (x : Vf) : List Byte :=
  bytesOf 0x7A1E 2 ++ bytesOf 0x5908 2 ++ bytesOf v 4 ++ ((List.range 6).flatMap (fun i => bytesOf (x.rule i).toNat 8))

/-- The interface report: INTERFACE_INFO 0, one MMIO range of 16 pages, and the device's own part. -/
def interfaceReport (v : Nat) (x : Vf) : List Byte :=
  bytesOf 0 12 ++ bytesOf 1 4 ++ (bytesOf (x.bar0.toNat / 4096) 8 ++ bytesOf 16 4 ++ bytesOf 0 4) ++ bytesOf 56 4 ++ reportInfo v x

/-- `GET_DEVICE_INTERFACE_REPORT` (R368). -/
def execGetDeviceInterfaceReport (vf : BitVec 6) (s : State) : Out :=
  .next (if isVf vf && frozen s vf.toNat then tdispSend s vf 0x04 (interfaceReport vf.toNat (s.vf vf.toNat))
    else tdispError s vf tdispInvalidState)

/-- `GET_DEVICE_INTERFACE_STATE`. -/
def execGetDeviceInterfaceState (vf : BitVec 6) (s : State) : Out :=
  .next (tdispSend s vf 0x05 (bytesOf (VfSt.code (s.vf vf.toNat).st) 1))

/-- `START_INTERFACE_REQUEST`: from CONFIG_LOCKED with the nonce that locking issued. -/
def execStartInterfaceRequest (vf : BitVec 6) (nonce : BitVec 256) (s : State) : Out :=
  let v := s.vf vf.toNat
  .next (if !(isVf vf) || v.st != .locked then tdispError s vf tdispInvalidState
    else if v.nonce != nonce then tdispError s vf tdispInvalidNonce
    else tdispSend (s.setVf vf.toNat { v with st := .run, ide := true }) vf 0x06 [])

/-- The save areas that an interface's contexts leave behind (R367): those its terminated pairs still hold, and those that have held
state of theirs and that no other context's pair has taken since. -/
def leftAreas (s : State) (x : Vf) : List Nat := x.held ++ x.used.filter (fun i => !s.areas.contains i)

/-- The scrub of R367: the carve-out, the save areas and the region tables of an interface's contexts are zeroed, as locking froze them. -/
def scrubVf (s : State) (v : Nat) : State :=
  let x := s.vf v
  let (a, n) := x.carve
  let s := (discardAll s a n).setMem (Mem.clear s.mem a n)
  let s := (leftAreas s x).foldl (fun s i => s.setMem (Mem.clear s.mem (areaBase s i) Config.saveBytes)) s
  let s := x.ctxs.foldl (fun s c => s.setCtx c { s.ctx c with regions := [], back := [], nextBase := [], relocs := [] }) s
  let s := s.copies.foldl (fun s k => if x.ctxs.contains k.ctx then dropCopy s k.ctx k.rgn else s) s
  { s with areas := s.areas.filter (fun i => !x.held.contains i), moves := s.moves.filter (fun m => !x.ctxs.contains m.ctx)
           posted := s.posted.filter (fun r => !x.ctxs.contains r.1), kept := s.kept.filter (fun k => !x.ctxs.contains k.1) }

/-- `STOP_INTERFACE_REQUEST` (R365, R367): the interface's contexts stop, it is scrubbed, and it is CONFIG_UNLOCKED. -/
def execStopInterfaceRequest (vf : BitVec 6) (s : State) : Out :=
  let v := vf.toNat
  .next (if !(isVf vf) then tdispError s vf tdispInvalidState
    else
      let s := if (s.vf v).st = .unlocked then s.setVf v { s.vf v with lcfg := (s.vf v).cfg } else s
      let s := scrubVf (vfError s v) v
      tdispSend (s.setVf v { s.vf v with st := .unlocked, nonce := 0#256, ide := false, lockDue := false, held := [], used := [] }) vf 0x07 [])

/-- `TDISP_UNSUPPORTED`: every other request (R365). -/
def execTdispUnsupported (vf : BitVec 6) (_code : Byte) (s : State) : Out := .next (tdispError s vf tdispUnsupportedReq)

/-- `LOCKED_CONFIG_WRITE` (R366): a write to what locking freezes: 0 the VF's BAR0 address, 1 VF Enable, 2 the VF BAR registers, 3
Memory Space Enable; 4 to 7 name a doubleword of VFCFG, CTX to HOSTWIN. A frozen interface goes to ERROR whatever the value; VF
Enable and the VF BAR registers are frozen for every interface that is. Where nothing is frozen the value is stored. -/
def execLockedConfigWrite (vf : BitVec 6) (what : BitVec 3) (val : Word) (s : State) : Out :=
  let v := vf.toNat
  let x := s.vf v
  let anyFrozen := (s.vfs.map (·.1)).filter (frozen s)
  .next (match what.toNat with
    | 0 => if frozen s v then vfError s v else s.setVf v { x with bar0 := val }
    | 1 => if anyFrozen.isEmpty then { s with vfEnable := val.getLsbD 0 } else anyFrozen.foldl vfError s
    | 2 => if anyFrozen.isEmpty then { s with vfBar := val } else anyFrozen.foldl vfError s
    | 3 => if frozen s v then vfError s v else s.setVf v { x with memEn := val.getLsbD 0 }
    | n => vfcfgWrite v (n - 4) val s)

/-! ## Attestation (R369, R370) and link keys (R360) -/

/-- An SPDM answer. -/
def spdmSend (s : State) (code : Nat) (data : List Byte) : State := s.send (.spdm code data)
/-- An SPDM ERROR answer: 4 UnexpectedRequest, 5 UnspecifiedError, 2 InvalidSession, 10 SessionLimitExceeded. -/
def spdmError (s : State) (e : Nat) : State := spdmSend s 0x7F (bytesOf e 2)
def State.setSpdm (s : State) (x : Spdm) : State := { s with spdm := x }

/-- An answer of the responder once the algorithms are settled. -/
def spdmAfterAlgs (s : State) (r : State) : State := if s.spdm.algs then r else spdmError s 4
/-- An answer within session `id`. -/
def spdmInSession (s : State) (id : BitVec 32) (r : State) : State :=
  if s.spdm.session = some id ∧ s.spdm.ready then r else spdmError s 2

/-- `SPDM_GET_VERSION`: version 1.3; the negotiation begins again. -/
def execSpdmGetVersion (s : State) : Out :=
  .next (spdmSend (s.setSpdm { s.spdm with version := true, caps := false, algs := false, session := none, ready := false,
                                           transcript := s.spdm.transcript + 1 }) 0x04 [1#8, 0x00#8, 0x13#8])

/-- The capability bits of R369: CERT, CHAL, MEAS with signature, ENCRYPT, MAC, KEY_EX, HBEAT. -/
def spdmCaps : Nat := 2 ^ 1 + 2 ^ 2 + 2 ^ 4 + 2 ^ 6 + 2 ^ 7 + 2 ^ 9 + 2 ^ 13

/-- `SPDM_GET_CAPABILITIES`. -/
def execSpdmGetCapabilities (s : State) : Out :=
  .next (if s.spdm.version then spdmSend (s.setSpdm { s.spdm with caps := true }) 0x61 (bytesOf spdmCaps 4) else spdmError s 4)

/-- `SPDM_NEGOTIATE_ALGORITHMS`: the algorithms of R369 are the only ones: signature, hash, key exchange, cipher. -/
def execSpdmNegotiateAlgorithms (s : State) : Out :=
  .next (if s.spdm.caps then spdmSend (s.setSpdm { s.spdm with algs := true }) 0x63 [0x80#8, 0x02#8, 0x10#8, 0x02#8] else spdmError s 4)

/-- `SPDM_GET_DIGESTS`: the digest of slot 0's certificate chain. -/
def execSpdmGetDigests (s : State) : Out := .next (spdmAfterAlgs s (spdmSend s 0x01 (1#8 :: secretBytes s.fresh 48)).drawn)

/-- `SPDM_GET_CERTIFICATE`: only slot 0 holds a chain. -/
def execSpdmGetCertificate (slot : BitVec 3) (s : State) : Out :=
  .next (spdmAfterAlgs s (if slot = 0#3 then (spdmSend s 0x02 (secretBytes s.fresh 1024)).drawn else spdmError s 1))

/-- The opaque data element that carries an LMS signature (R369): the vendor's number and the signature's length, then the signature,
which begins with the number of its leaf, most significant byte first (log 14). -/
def lmsElement (leaf seed : Nat) : List Byte :=
  bytesOf 0x7A1E 2 ++ bytesOf 1140 2 ++ (bytesOf leaf 4).reverse ++ secretBytes seed 1136

/-- Two signatures over the transcript: ECDSA P-384, 96 bytes, and LMS, made with the leaf that the kept counter names and that is spent
with it (R369). -/
def spdmSign (s : State) : State × List Byte :=
  let s' := s.setSpdm { s.spdm with lms := s.spdm.lms + 1 }
  let s' := if s.spdm.lms + 1 = 2 ^ 20 then { s' with mbfail := 5#8 } else s'
  (s'.drawn.drawn, secretBytes s.fresh 96 ++ lmsElement s.spdm.lms (s.fresh + 1))

/-- An answer of code `code` that is signed. Once the 2^20 leaves are spent there is none, but ERROR UnspecifiedError, and FAIL says 5
(R369, R371). -/
def spdmSigned (s : State) (code : Nat) (data : List Byte) : State :=
  if s.spdm.lms < 2 ^ 20 then spdmSend (spdmSign s).1 code (data ++ (spdmSign s).2)
  else spdmError { s with mbfail := 5#8 } 5

/-- `SPDM_CHALLENGE`. -/
def execSpdmChallenge (_nonce : BitVec 256) (s : State) : Out :=
  .next (spdmAfterAlgs s (spdmSigned s 0x03 []))

/-- The bytes of some doublewords. -/
def wordBytes (l : List Word) : List Byte := l.flatMap (fun w => bytesOf w.toNat 8)

/-- PARTID, REVID and every capability register: the package's own, then each die's (R323, log 14). -/
def capWords (s : State) : List Word :=
  [Config.partId, Config.revId, devRead s 0 0x408] ++ (List.range 72).map (fun w => devRead s 0 (0x480 + 8 * w))
    ++ (List.range 8).flatMap (fun d => devRead s d 0x400 :: (List.range 40).map (fun c => devRead s d (0x800 + 8 * c)))

/-- The value of measurement block i (R370). Before a delivery has recorded an image, blocks 2 and 3 are free. -/
def measurement (s : State) (i : Nat) : List Byte :=
  if i = 1 then (List.range 48).map Config.romDigest
  else if i = 2 then (s.fwImage.map digest).getD (secretBytes s.fresh 48)
  else if i = 3 then (s.fwImage.map (fun l => bytesOf (Config.fwVersion l).toNat 8)).getD (secretBytes s.fresh 8)
  else if i = 4 then digest (wordBytes (capWords s))
  else if (s.vf (i - 5)).st = .unlocked then bytesOf 0 48
  else digest (wordBytes (s.vf (i - 5)).lcfg.toList)

/-- The DMTF type of a block's value (log 14): 0 the ROM's digest, 1 the firmware's, 0x86 its version as raw bytes, 2 the hardware's
configuration, 3 the firmware's. -/
def measurementType (i : Nat) : Nat :=
  if i = 1 then 0 else if i = 2 then 1 else if i = 3 then 0x86 else if i = 4 then 2 else 3

/-- A measurement block: index, specification 1 (DMTF), size; then the DMTF form, which is the value's type and size and the value. -/
def measurementBlock (s : State) (i : Nat) : List Byte :=
  let v := measurement s i
  bytesOf i 1 ++ [1#8] ++ bytesOf (v.length + 3) 2 ++ bytesOf (measurementType i) 1 ++ bytesOf v.length 2 ++ v

/-- The blocks that a measurement request names: 0xFF all of them, 0 none but their number. Block 5, of VF 0, which R364 does not
number, is counted and holds zeros (log 14). -/
def measurements (s : State) (index : Byte) : List Byte :=
  if index = 0#8 then bytesOf 68 1
  else if index = 0xFF#8 then (List.range 68).flatMap (fun i => measurementBlock s (i + 1))
  else if index.toNat ≤ 68 then measurementBlock s index.toNat
  else []

/-- `SPDM_GET_MEASUREMENTS` (R369, R370): signed twice when asked to. -/
def execSpdmGetMeasurements (index : Byte) (sign : Bool) (_nonce : BitVec 256) (s : State) : Out :=
  .next (spdmAfterAlgs s (
    if 68 < index.toNat ∧ index ≠ 0xFF#8 then spdmError s 1
    else if sign then spdmSigned s 0x60 (measurements s index)
    else (spdmSend s 0x60 (measurements s index)).drawn))

/-- `SPDM_KEY_EXCHANGE`: a session is begun; there is one at a time. -/
def execSpdmKeyExchange (_pub : BitVec 768) (s : State) : Out :=
  .next (spdmAfterAlgs s (if s.spdm.session.isSome then spdmError s 10
    else
      let id := BitVec.ofNat 32 s.spdm.nextId
      (spdmSend (s.setSpdm { s.spdm with session := some id, ready := false, nextId := s.spdm.nextId + 1, epoch := 0 }) 0x64
        (bytesOf id.toNat 4 ++ secretBytes s.fresh 192)).drawn))

/-- `SPDM_FINISH`: the session's handshake is complete. -/
def execSpdmFinish (session : BitVec 32) (s : State) : Out :=
  .next (if s.spdm.session = some session ∧ !s.spdm.ready then
      (spdmSend (s.setSpdm { s.spdm with ready := true }) 0x65 (secretBytes s.fresh 48)).drawn
    else spdmError s 2)

/-- `SPDM_HEARTBEAT`. -/
def execSpdmHeartbeat (session : BitVec 32) (s : State) : Out := .next (spdmInSession s session (spdmSend s 0x68 []))

/-- `SPDM_END_SESSION`. -/
def execSpdmEndSession (session : BitVec 32) (s : State) : Out :=
  .next (spdmInSession s session (spdmSend (s.setSpdm { s.spdm with session := none, ready := false }) 0x6C []))

/-- `SPDM_KEY_UPDATE`: the session's keys move to their next epoch. -/
def execSpdmKeyUpdate (session : BitVec 32) (s : State) : Out :=
  .next (spdmInSession s session (spdmSend (s.setSpdm { s.spdm with epoch := s.spdm.epoch + 1 }) 0x69 []))

/-- The keys of IDE stream n. -/
def State.ide (s : State) (n : Nat) : Ide := Tab.get {} s.ides n
def State.setIde (s : State) (n : Nat) (x : Ide) : State := { s with ides := Tab.set s.ides n x }

/-- An IDE_KM answer, which only a secured session carries. -/
def ideSend (s : State) (stream : BitVec 6) (code : Nat) (data : List Byte) (r : State) : State :=
  if secured s then r.send (.ide stream.toNat code data) else spdmError s 2

/-- `IDE_KM_QUERY`. -/
def execIdeKmQuery (stream : BitVec 6) (s : State) : Out := .next (ideSend s stream 1 (secretBytes s.fresh 4) s.drawn)

/-- `IDE_KM_KEY_PROG`: the key of one of the stream's two key sets. -/
def execIdeKmKeyProg (stream : BitVec 6) (set : Bool) (key : BitVec 256) (s : State) : Out :=
  let x := s.ide stream.toNat
  .next (ideSend s stream 3 [0#8] (s.setIde stream.toNat (if set then { x with key1 := some key } else { x with key0 := some key })))

/-- `IDE_KM_K_SET_GO`: the stream uses the key set, once it is programmed. -/
def execIdeKmKSetGo (stream : BitVec 6) (set : Bool) (s : State) : Out :=
  let x := s.ide stream.toNat
  .next (ideSend s stream 6 [] (s.setIde stream.toNat
    (if set then (if x.key1.isSome then { x with go1 := true, go0 := false } else x)
     else (if x.key0.isSome then { x with go0 := true, go1 := false } else x))))

/-- `IDE_KM_K_SET_STOP`. -/
def execIdeKmKSetStop (stream : BitVec 6) (set : Bool) (s : State) : Out :=
  let x := s.ide stream.toNat
  .next (ideSend s stream 6 [] (s.setIde stream.toNat (if set then { x with go1 := false } else { x with go0 := false })))

/-! ## Boot (R371, R372) -/

/-- Bytes of one of a firmware core's two SRAMs (R341). -/
def sramBytes : Nat := 0x40000

/-- Step 4 of R372: FAIL says why, unless it tells already that the LMS leaves are spent (log 61), and the die is not ready. -/
def deliveryFails (s : State) (d : Nat) (why : BitVec 8) : State :=
  { s with mbfail := if s.mbfail = 5#8 then 5#8 else why, mbready := s.mbready &&& ~~~(1#8 <<< d) }

/-- A die performs the steps of a delivery (R372) with the image at MBADDR and the outcomes of its three checks. Where there is a journal,
the firmware that is loaded replays it before it does anything else (R372). -/
def deliver (s : State) (okE okL okV : Bool) (d : Nat) : State :=
  let n := s.mblen.toNat
  if n = 0 ∨ sramBytes < n then deliveryFails s d 4#8
  else
    let img := Mem.slice s.mem (Config.hostBase + s.mbaddr.toNat / 4096 * 4096) n
    let sp := if (s.die d).act then 0 else 1
    let s := s.updF d sp (fun f => { f with dsram := img })
    if !okE then deliveryFails s d 1#8
    else if !okL then deliveryFails s d 2#8
    else if !okV then deliveryFails s d 3#8
    else
      let core : Bool → FCore := fun on => { on := on, isram := img, dsram := img, fv := Vector.ofFn (fun i => Config.freeFv s.fresh i.val) }
      let t := s.die d
      let t := { t with f0 := core true, f1 := core false, act := false, spare := true, lost := false, jopen := none, replayDue := t.jrnlSet }
      { s.setDie d t with mbready := s.mbready ||| (1#8 <<< d), fwImage := some ((List.range n).map (Mem.get img)), fresh := s.fresh + 1
                          mbfail := if s.mbfail = 5#8 then 5#8 else 0#8
                          rota := s.rota.filter (fun a => match a with
                            | .fcore x _ => x != d
                            | _ => true) ++ [.fcore d 0] }

/-- `FIRMWARE_DELIVERY` (R372): a write to MBCTL that names dies; each delivers for itself. -/
def execFirmwareDelivery (dies : Byte) (okE okL okV : Bool) (s : State) : Out :=
  .next ((List.range 8).foldl (fun s d => if dies.getLsbD d then deliver s okE okL okV d else s) s)

/-- What a reset leaves of a die: its fused sizes. -/
def freshDie (t : Die) : Die := { stackMask := t.stackMask, links := t.links }
/-- What a reset leaves of a cluster: what works of it. -/
def freshCluster (c : Cluster) : Cluster := { mask := c.mask, array := c.array, works := c.works }

/-- `PACKAGE_RESET` (R372): every register takes its reset value; the capability registers, CAPHBM by the pseudo-channels that work (R324),
the spent LMS leaves, the memory of
the host and what the outside world has sent and been sent remain. -/
def execPackageReset (s : State) : Out :=
  .next { State.reset with
    mem := s.mem.filter (fun c => decide (Config.hostBase ≤ c.1) && decide (c.1 < Config.hostTop))
    clusters := s.clusters.map (fun e => (e.1, freshCluster e.2))
    dies := s.dies.map (fun e => (e.1, freshDie e.2))
    spdm := { lms := s.spdm.lms }
    caphbm := BitVec.ofNat 64 (hbmSize s.deadPch), deadPch := s.deadPch, outbox := s.outbox, agenda := s.agenda, fresh := s.fresh, steps := s.steps }

/-! ## Power and cooling (R374) -/

/-- A die's clock is to be lowered: the package draws more than PWRCAP, of which what is above 5,000 acts as 5,000, or the die has reached
105 °C. -/
def gafferHot (s : State) (d : Nat) : Bool :=
  decide (min (bitsW s.pwrcap 12 0) 5000 < Config.power s.steps) || decide (105 ≤ (Config.temp d s.steps).toNat)

/-- `GAFFER_THROTTLE`: while a condition holds, one 100 MHz step down, to no less than 1.2 GHz. -/
def execGafferThrottle (die : Nat) (s : State) : Out :=
  .next (if gafferHot s die then s.updDie die (fun t => { t with mhz := max 1200 (t.mhz - 100) }) else s)

/-- `GAFFER_RESTORE`: when both conditions have cleared, one step up, to no more than 2.4 GHz. -/
def execGafferRestore (die : Nat) (s : State) : Out :=
  .next (if gafferHot s die then s else s.updDie die (fun t => { t with mhz := min 2400 (t.mhz + 100) }))

end Sys2Proof.Machine
end

