-- ==== Sys2Proof/Machine/Dispatch.lean ====
section
/-! DEFINITION. One arm for each instruction: a direct call of its meaning. -/

namespace Sys2Proof.Machine

def exec (i : Instr) (s : State) : Host.Outcome State Fault Refusal :=
  match i with
  | .add d a b => Sys2Proof.Machine.execAdd d a b s
  | .sub d a b => Sys2Proof.Machine.execSub d a b s
  | .and_ d a b => Sys2Proof.Machine.execAnd d a b s
  | .or_ d a b => Sys2Proof.Machine.execOr d a b s
  | .xor_ d a b => Sys2Proof.Machine.execXor d a b s
  | .sll d a b => Sys2Proof.Machine.execSll d a b s
  | .srl d a b => Sys2Proof.Machine.execSrl d a b s
  | .sra d a b => Sys2Proof.Machine.execSra d a b s
  | .slt d a b => Sys2Proof.Machine.execSlt d a b s
  | .sltu d a b => Sys2Proof.Machine.execSltu d a b s
  | .seq_ d a b => Sys2Proof.Machine.execSeq d a b s
  | .sne d a b => Sys2Proof.Machine.execSne d a b s
  | .min_ d a b => Sys2Proof.Machine.execMin d a b s
  | .max_ d a b => Sys2Proof.Machine.execMax d a b s
  | .minu d a b => Sys2Proof.Machine.execMinu d a b s
  | .maxu d a b => Sys2Proof.Machine.execMaxu d a b s
  | .andn d a b => Sys2Proof.Machine.execAndn d a b s
  | .orn d a b => Sys2Proof.Machine.execOrn d a b s
  | .clz d a => Sys2Proof.Machine.execClz d a s
  | .ctz d a => Sys2Proof.Machine.execCtz d a s
  | .popc d a => Sys2Proof.Machine.execPopc d a s
  | .sextb d a => Sys2Proof.Machine.execSextb d a s
  | .sexth d a => Sys2Proof.Machine.execSexth d a s
  | .sextw d a => Sys2Proof.Machine.execSextw d a s
  | .zextw d a => Sys2Proof.Machine.execZextw d a s
  | .rol d a b => Sys2Proof.Machine.execRol d a b s
  | .ror d a b => Sys2Proof.Machine.execRor d a b s
  | .mul_ d a b => Sys2Proof.Machine.execMul d a b s
  | .mulh d a b => Sys2Proof.Machine.execMulh d a b s
  | .mulhu d a b => Sys2Proof.Machine.execMulhu d a b s
  | .mulhsu d a b => Sys2Proof.Machine.execMulhsu d a b s
  | .div_ d a b => Sys2Proof.Machine.execDiv d a b s
  | .divu d a b => Sys2Proof.Machine.execDivu d a b s
  | .rem d a b => Sys2Proof.Machine.execRem d a b s
  | .remu d a b => Sys2Proof.Machine.execRemu d a b s
  | .addi d a imm => Sys2Proof.Machine.execAddi d a imm s
  | .andi d a imm => Sys2Proof.Machine.execAndi d a imm s
  | .ori d a imm => Sys2Proof.Machine.execOri d a imm s
  | .xori d a imm => Sys2Proof.Machine.execXori d a imm s
  | .slti d a imm => Sys2Proof.Machine.execSlti d a imm s
  | .sltiu d a imm => Sys2Proof.Machine.execSltiu d a imm s
  | .slli d a amt => Sys2Proof.Machine.execSlli d a amt s
  | .srli d a amt => Sys2Proof.Machine.execSrli d a amt s
  | .srai d a amt => Sys2Proof.Machine.execSrai d a amt s
  | .rori d a amt => Sys2Proof.Machine.execRori d a amt s
  | .lui d imm => Sys2Proof.Machine.execLui d imm s
  | .luh d imm => Sys2Proof.Machine.execLuh d imm s
  | .adpc d imm => Sys2Proof.Machine.execAdpc d imm s
  | .beq a b off => Sys2Proof.Machine.execBeq a b off s
  | .bne a b off => Sys2Proof.Machine.execBne a b off s
  | .blt a b off => Sys2Proof.Machine.execBlt a b off s
  | .bge a b off => Sys2Proof.Machine.execBge a b off s
  | .bltu a b off => Sys2Proof.Machine.execBltu a b off s
  | .bgeu a b off => Sys2Proof.Machine.execBgeu a b off s
  | .jl d off => Sys2Proof.Machine.execJl d off s
  | .jlr d a imm => Sys2Proof.Machine.execJlr d a imm s
  | .qbt off => Sys2Proof.Machine.execQbt off s
  | .qbf off => Sys2Proof.Machine.execQbf off s
  | .ldb d a imm => Sys2Proof.Machine.execLdb d a imm s
  | .ldh d a imm => Sys2Proof.Machine.execLdh d a imm s
  | .ldw d a imm => Sys2Proof.Machine.execLdw d a imm s
  | .ldd d a imm => Sys2Proof.Machine.execLdd d a imm s
  | .ldbu d a imm => Sys2Proof.Machine.execLdbu d a imm s
  | .ldhu d a imm => Sys2Proof.Machine.execLdhu d a imm s
  | .ldwu d a imm => Sys2Proof.Machine.execLdwu d a imm s
  | .stb xs a imm => Sys2Proof.Machine.execStb xs a imm s
  | .sth xs a imm => Sys2Proof.Machine.execSth xs a imm s
  | .stw xs a imm => Sys2Proof.Machine.execStw xs a imm s
  | .std xs a imm => Sys2Proof.Machine.execStd xs a imm s
  | .ldo d a sc ord sz => Sys2Proof.Machine.execLdo d a sc ord sz s
  | .sto a b sc ord sz => Sys2Proof.Machine.execSto a b sc ord sz s
  | .amoAdd d a b sc ord word => Sys2Proof.Machine.execAmoAdd d a b sc ord word s
  | .amoAnd d a b sc ord word => Sys2Proof.Machine.execAmoAnd d a b sc ord word s
  | .amoOr d a b sc ord word => Sys2Proof.Machine.execAmoOr d a b sc ord word s
  | .amoXor d a b sc ord word => Sys2Proof.Machine.execAmoXor d a b sc ord word s
  | .amoMin d a b sc ord word => Sys2Proof.Machine.execAmoMin d a b sc ord word s
  | .amoMax d a b sc ord word => Sys2Proof.Machine.execAmoMax d a b sc ord word s
  | .amoMinu d a b sc ord word => Sys2Proof.Machine.execAmoMinu d a b sc ord word s
  | .amoMaxu d a b sc ord word => Sys2Proof.Machine.execAmoMaxu d a b sc ord word s
  | .amoSwap d a b sc ord word => Sys2Proof.Machine.execAmoSwap d a b sc ord word s
  | .amoCas d a b sc ord word => Sys2Proof.Machine.execAmoCas d a b sc ord word s
  | .fence sc eng => Sys2Proof.Machine.execFence sc eng s
  | .fenceAcq sc eng => Sys2Proof.Machine.execFenceAcq sc eng s
  | .fenceRel sc eng => Sys2Proof.Machine.execFenceRel sc eng s
  | .ldslot d a imm => Sys2Proof.Machine.execLdslot d a imm s
  | .stslot xs a imm => Sys2Proof.Machine.execStslot xs a imm s
  | .tagset d a t => Sys2Proof.Machine.execTagset d a t s
  | .tagrd d a => Sys2Proof.Machine.execTagrd d a s
  | .safept => Sys2Proof.Machine.execSafept s
  | .racq rgn => Sys2Proof.Machine.execRacq rgn s
  | .rgnq d sel rgn => Sys2Proof.Machine.execRgnq d sel rgn s
  | .qpushSq a => Sys2Proof.Machine.execQpushSq a s
  | .qpushDownstream a => Sys2Proof.Machine.execQpushDownstream a s
  | .qpopSq d => Sys2Proof.Machine.execQpopSq d s
  | .qpopRq d => Sys2Proof.Machine.execQpopRq d s
  | .qpopUpstream d => Sys2Proof.Machine.execQpopUpstream d s
  | .bout a => Sys2Proof.Machine.execBout a s
  | .setvl d a b blk lmul sew => Sys2Proof.Machine.execSetvl d a b blk lmul sew s
  | .setrc n => Sys2Proof.Machine.execSetrc n s
  | .vfetch off => Sys2Proof.Machine.execVfetch off s
  | .vfetchr a imm => Sys2Proof.Machine.execVfetchr a imm s
  | .vwait => Sys2Proof.Machine.execVwait s
  | .vld q a sc ord ordd ew => Sys2Proof.Machine.execVld q a sc ord ordd ew s
  | .vlds q a b sc ord ordd ew => Sys2Proof.Machine.execVlds q a b sc ord ordd ew s
  | .vldx q a sc ord ordd ew => Sys2Proof.Machine.execVldx q a sc ord ordd ew s
  | .vst q a sc ord ordd ew => Sys2Proof.Machine.execVst q a sc ord ordd ew s
  | .vsti q a sc ord ordd ew => Sys2Proof.Machine.execVsti q a sc ord ordd ew s
  | .vsts q a b sc ord ordd ew => Sys2Proof.Machine.execVsts q a b sc ord ordd ew s
  | .vstx q a sc ord ordd ew => Sys2Proof.Machine.execVstx q a sc ord ordd ew s
  | .vsta q a sc ord fmt => Sys2Proof.Machine.execVsta q a sc ord fmt s
  | .vstr q a sc ord ordd ew => Sys2Proof.Machine.execVstr q a sc ord ordd ew s
  | .sdef sm a imm => Sys2Proof.Machine.execSdef sm a imm s
  | .sbind sm used ch port => Sys2Proof.Machine.execSbind sm used ch port s
  | .sgo sm => Sys2Proof.Machine.execSgo sm s
  | .sbarCfg => Sys2Proof.Machine.execSbarCfg s
  | .sbarPhase => Sys2Proof.Machine.execSbarPhase s
  | .sbarIft => Sys2Proof.Machine.execSbarIft s
  | .sbarIff => Sys2Proof.Machine.execSbarIff s
  | .wmwait a ch => Sys2Proof.Machine.execWmwait a ch s
  | .cpwaitRel sm => Sys2Proof.Machine.execCpwaitRel sm s
  | .cpwaitVis sm => Sys2Proof.Machine.execCpwaitVis sm s
  | .jsub d a imm => Sys2Proof.Machine.execJsub d a imm s
  | .sstat d sm => Sys2Proof.Machine.execSstat d sm s
  | .wbfill n a imm => Sys2Proof.Machine.execWbfill n a imm s
  | .wbwait d n => Sys2Proof.Machine.execWbwait d n s
  | .bar => Sys2Proof.Machine.execBar s
  | .sigadd d a b sc ord => Sys2Proof.Machine.execSigadd d a b sc ord s
  | .sigset a b sc ord => Sys2Proof.Machine.execSigset a b sc ord s
  | .sigwge d a b sc ord => Sys2Proof.Machine.execSigwge d a b sc ord s
  | .sigweq d a b sc ord => Sys2Proof.Machine.execSigweq d a b sc ord s
  | .enq d a b => Sys2Proof.Machine.execEnq d a b s
  | .symq d => Sys2Proof.Machine.execSymq d s
  | .svc imm => Sys2Proof.Machine.execSvc imm s
  | .tret => Sys2Proof.Machine.execTret s
  | .csrr d n => Sys2Proof.Machine.execCsrr d n s
  | .csrw d a n => Sys2Proof.Machine.execCsrw d a n s
  | .csrs d a n => Sys2Proof.Machine.execCsrs d a n s
  | .csrc d a n => Sys2Proof.Machine.execCsrc d a n s
  | .cueret => Sys2Proof.Machine.execCueret s
  | .park => Sys2Proof.Machine.execPark s
  | .exit => Sys2Proof.Machine.execExit s
  | .yield => Sys2Proof.Machine.execYield s
  | .trc a code => Sys2Proof.Machine.execTrc a code s
  | .brk code => Sys2Proof.Machine.execBrk code s
  | .fvld v a imm => Sys2Proof.Machine.execFvld v a imm s
  | .fvst v a imm => Sys2Proof.Machine.execFvst v a imm s
  | .fvand d a b ew => Sys2Proof.Machine.execFvand d a b ew s
  | .fvor d a b ew => Sys2Proof.Machine.execFvor d a b ew s
  | .fvandn d a b ew => Sys2Proof.Machine.execFvandn d a b ew s
  | .fvxor d a b ew => Sys2Proof.Machine.execFvxor d a b ew s
  | .fvcmpeq d a b ew => Sys2Proof.Machine.execFvcmpeq d a b ew s
  | .fvcmpne d a b ew => Sys2Proof.Machine.execFvcmpne d a b ew s
  | .fvcmplt d a b ew => Sys2Proof.Machine.execFvcmplt d a b ew s
  | .fvcmpgt d a b ew => Sys2Proof.Machine.execFvcmpgt d a b ew s
  | .fvbcast d a ew => Sys2Proof.Machine.execFvbcast d a ew s
  | .fvff d a => Sys2Proof.Machine.execFvff d a s
  | .fvpopc d a => Sys2Proof.Machine.execFvpopc d a s
  | .vfetchw off => Sys2Proof.Machine.execVfetchw off s
  | .ldslot32 d a imm => Sys2Proof.Machine.execLdslot32 d a imm s
  | .sync => Sys2Proof.Machine.execSync s
  | .qpopw d => Sys2Proof.Machine.execQpopw d s
  | .stop => Sys2Proof.Machine.execStop s
  | .vnop => Sys2Proof.Machine.execVnop s
  | .vbr mk mn off => Sys2Proof.Machine.execVbr mk mn off s
  | .vrejoin => Sys2Proof.Machine.execVrejoin s
  | .vret w => Sys2Proof.Machine.execVret w s
  | .vout w dst => Sys2Proof.Machine.execVout w dst s
  | .vidxq w => Sys2Proof.Machine.execVidxq w s
  | .vadd w sat => Sys2Proof.Machine.execVadd w sat s
  | .vsub w sat => Sys2Proof.Machine.execVsub w sat s
  | .vmul w sat => Sys2Proof.Machine.execVmul w sat s
  | .vmulh w => Sys2Proof.Machine.execVmulh w s
  | .vdiv w => Sys2Proof.Machine.execVdiv w s
  | .vrem w => Sys2Proof.Machine.execVrem w s
  | .vand w => Sys2Proof.Machine.execVand w s
  | .vor w => Sys2Proof.Machine.execVor w s
  | .vxor w => Sys2Proof.Machine.execVxor w s
  | .vsll w => Sys2Proof.Machine.execVsll w s
  | .vsrl w => Sys2Proof.Machine.execVsrl w s
  | .vsra w => Sys2Proof.Machine.execVsra w s
  | .vmin w => Sys2Proof.Machine.execVmin w s
  | .vmax w => Sys2Proof.Machine.execVmax w s
  | .vadc w ci co => Sys2Proof.Machine.execVadc w ci co s
  | .vsbc w ci co => Sys2Proof.Machine.execVsbc w ci co s
  | .vcmp w cond => Sys2Proof.Machine.execVcmp w cond s
  | .vfadd w => Sys2Proof.Machine.execVfadd w s
  | .vfsub w => Sys2Proof.Machine.execVfsub w s
  | .vfmul w => Sys2Proof.Machine.execVfmul w s
  | .vfma w mem => Sys2Proof.Machine.execVfma w mem s
  | .vfdiv w => Sys2Proof.Machine.execVfdiv w s
  | .vfsqrt w => Sys2Proof.Machine.execVfsqrt w s
  | .vfmin w => Sys2Proof.Machine.execVfmin w s
  | .vfmax w => Sys2Proof.Machine.execVfmax w s
  | .vfcmp w cond => Sys2Proof.Machine.execVfcmp w cond s
  | .vfclass w => Sys2Proof.Machine.execVfclass w s
  | .vfsgn w mode => Sys2Proof.Machine.execVfsgn w mode s
  | .vfsfn w fn => Sys2Proof.Machine.execVfsfn w fn s
  | .vcvt w => Sys2Proof.Machine.execVcvt w s
  | .vbfly w k tr => Sys2Proof.Machine.execVbfly w k tr s
  | .zld w => Sys2Proof.Machine.execZld w s
  | .zmv w => Sys2Proof.Machine.execZmv w s
  | .vrng w => Sys2Proof.Machine.execVrng w s
  | .mand w => Sys2Proof.Machine.execMand w s
  | .mor w => Sys2Proof.Machine.execMor w s
  | .mxor w => Sys2Proof.Machine.execMxor w s
  | .mandn w => Sys2Proof.Machine.execMandn w s
  | .mnot w => Sys2Proof.Machine.execMnot w s
  | .mfirst w => Sys2Proof.Machine.execMfirst w s
  | .mpopc w => Sys2Proof.Machine.execMpopc w s
  | .mshift w down n => Sys2Proof.Machine.execMshift w down n s
  | .mset w v => Sys2Proof.Machine.execMset w v s
  | .mmv w => Sys2Proof.Machine.execMmv w s
  | .vmv w => Sys2Proof.Machine.execVmv w s
  | .vmerge w => Sys2Proof.Machine.execVmerge w s
  | .vid w => Sys2Proof.Machine.execVid w s
  | .vslideup w n => Sys2Proof.Machine.execVslideup w n s
  | .vslidedn w n => Sys2Proof.Machine.execVslidedn w n s
  | .vrgather w => Sys2Proof.Machine.execVrgather w s
  | .vcompress w => Sys2Proof.Machine.execVcompress w s
  | .vredsum w => Sys2Proof.Machine.execVredsum w s
  | .vfredsum w seq => Sys2Proof.Machine.execVfredsum w seq s
  | .vredmm w mode => Sys2Proof.Machine.execVredmm w mode s
  | .vfredmm w max => Sys2Proof.Machine.execVfredmm w max s
  | .mrow w bank acc => Sys2Proof.Machine.execMrow w bank acc s
  | .mrow64 w bank acc => Sys2Proof.Machine.execMrow64 w bank acc s
  | .vfmacc w => Sys2Proof.Machine.execVfmacc w s
  | .partitionChangePost p groups => Sys2Proof.Machine.execPartitionChangePost p groups s
  | .laneLend p borrower => Sys2Proof.Machine.execLaneLend p borrower s
  | .lendReturnTimeout p => Sys2Proof.Machine.execLendReturnTimeout p s
  | .pairTrap p k cause val elem => Sys2Proof.Machine.execPairTrap p k cause val elem s
  | .swapFault p k => Sys2Proof.Machine.execSwapFault p k s
  | .uncorrectableDataError p report elem => Sys2Proof.Machine.execUncorrectableDataError p report elem s
  | .correctedError die field => Sys2Proof.Machine.execCorrectedError die field s
  | .ctxcmdResume die ctx pr => Sys2Proof.Machine.execCtxcmdResume die ctx pr s
  | .ctxcmdSkip die ctx pr => Sys2Proof.Machine.execCtxcmdSkip die ctx pr s
  | .ctxcmdTerminate ctx => Sys2Proof.Machine.execCtxcmdTerminate ctx s
  | .cueDelivery p k => Sys2Proof.Machine.execCueDelivery p k s
  | .kick die ring => Sys2Proof.Machine.execKick die ring s
  | .ringFetch die ring => Sys2Proof.Machine.execRingFetch die ring s
  | .tornRetry die ring => Sys2Proof.Machine.execTornRetry die ring s
  | .launchPacket die ring idx => Sys2Proof.Machine.execLaunchPacket die ring idx s
  | .signalWritePacket die ring idx => Sys2Proof.Machine.execSignalWritePacket die ring idx s
  | .waitPacket die ring idx => Sys2Proof.Machine.execWaitPacket die ring idx s
  | .linkPacket die ring idx => Sys2Proof.Machine.execLinkPacket die ring idx s
  | .residencyHint die ring idx => Sys2Proof.Machine.execResidencyHint die ring idx s
  | .ringBarrier die ring idx => Sys2Proof.Machine.execRingBarrier die ring idx s
  | .nopPacket die ring idx => Sys2Proof.Machine.execNopPacket die ring idx s
  | .jobCardPacket die ring idx => Sys2Proof.Machine.execJobCardPacket die ring idx s
  | .admission die => Sys2Proof.Machine.execAdmission die s
  | .admissionAging die ring idx => Sys2Proof.Machine.execAdmissionAging die ring idx s
  | .pairStart p => Sys2Proof.Machine.execPairStart p s
  | .shareEnd die ring idx => Sys2Proof.Machine.execShareEnd die ring idx s
  | .completionSignalWrite die ring idx => Sys2Proof.Machine.execCompletionSignalWrite die ring idx s
  | .preemptSoft die ring idx grp => Sys2Proof.Machine.execPreemptSoft die ring idx grp s
  | .preemptHardTimeout die ring idx grp => Sys2Proof.Machine.execPreemptHardTimeout die ring idx grp s
  | .preemptHard die ring idx grp => Sys2Proof.Machine.execPreemptHard die ring idx grp s
  | .groupRestore die ring idx grp => Sys2Proof.Machine.execGroupRestore die ring idx grp s
  | .regionTableUpdate ctx rgn entry => Sys2Proof.Machine.execRegionTableUpdate ctx rgn entry s
  | .regionEvict ctx rgn => Sys2Proof.Machine.execRegionEvict ctx rgn s
  | .regionArrival ctx rgn => Sys2Proof.Machine.execRegionArrival ctx rgn s
  | .moveRequest ctx rgn base => Sys2Proof.Machine.execMoveRequest ctx rgn base s
  | .moveHolderTimeout ctx rgn => Sys2Proof.Machine.execMoveHolderTimeout ctx rgn s
  | .moveCommit ctx rgn => Sys2Proof.Machine.execMoveCommit ctx rgn s
  | .unloadCode ctx rgn => Sys2Proof.Machine.execUnloadCode ctx rgn s
  | .forcedRetire ctx rgn => Sys2Proof.Machine.execForcedRetire ctx rgn s
  | .streamStart p sm => Sys2Proof.Machine.execStreamStart p sm s
  | .streamTransfer p sm => Sys2Proof.Machine.execStreamTransfer p sm s
  | .streamReleased p sm => Sys2Proof.Machine.execStreamReleased p sm s
  | .streamVisible p sm => Sys2Proof.Machine.execStreamVisible p sm s
  | .streamFault p sm err => Sys2Proof.Machine.execStreamFault p sm err s
  | .streamSwapFault p sm => Sys2Proof.Machine.execStreamSwapFault p sm s
  | .jobCardStart die card => Sys2Proof.Machine.execJobCardStart die card s
  | .jobCardComplete die card => Sys2Proof.Machine.execJobCardComplete die card s
  | .jobCardFault die card err => Sys2Proof.Machine.execJobCardFault die card err s
  | .wbFillStart cl bank => Sys2Proof.Machine.execWbFillStart cl bank s
  | .wbFillEnd cl bank err => Sys2Proof.Machine.execWbFillEnd cl bank err s
  | .peerRequest op off size val cmp => Sys2Proof.Machine.execPeerRequest op off size val cmp s
  | .flitReplay link => Sys2Proof.Machine.execFlitReplay link s
  | .dbgStop die ctx => Sys2Proof.Machine.execDbgStop die ctx s
  | .dbgHardStop die ctx => Sys2Proof.Machine.execDbgHardStop die ctx s
  | .dbgStep die ctx => Sys2Proof.Machine.execDbgStep die ctx s
  | .dbgRun die ctx => Sys2Proof.Machine.execDbgRun die ctx s
  | .trigWrite die k val => Sys2Proof.Machine.execTrigWrite die k val s
  | .trwrWrite die val => Sys2Proof.Machine.execTrwrWrite die val s
  | .sampleCycles die => Sys2Proof.Machine.execSampleCycles die s
  | .fTrap die cause val => Sys2Proof.Machine.execFTrap die cause val s
  | .sramErrorFound die core data => Sys2Proof.Machine.execSramErrorFound die core data s
  | .scrubRead die core data off => Sys2Proof.Machine.execScrubRead die core data off s
  | .takeover die cause => Sys2Proof.Machine.execTakeover die cause s
  | .firmwareLost die cause => Sys2Proof.Machine.execFirmwareLost die cause s
  | .fwstatHoldClear die => Sys2Proof.Machine.execFwstatHoldClear die s
  | .jrnlWrite die val => Sys2Proof.Machine.execJrnlWrite die val s
  | .admpostPost die val => Sys2Proof.Machine.execAdmpostPost die val s
  | .fwnoteWrite die val => Sys2Proof.Machine.execFwnoteWrite die val s
  | .errcntWrite die val => Sys2Proof.Machine.execErrcntWrite die val s
  | .deviceRegisterWrite die off val => Sys2Proof.Machine.execDeviceRegisterWrite die off val s
  | .hostBar4Read addr => Sys2Proof.Machine.execHostBar4Read addr s
  | .hostBar4Write addr val => Sys2Proof.Machine.execHostBar4Write addr val s
  | .vfKick vf val => Sys2Proof.Machine.execVfKick vf val s
  | .getTdispVersion vf => Sys2Proof.Machine.execGetTdispVersion vf s
  | .getTdispCapabilities vf => Sys2Proof.Machine.execGetTdispCapabilities vf s
  | .lockInterfaceRequest vf => Sys2Proof.Machine.execLockInterfaceRequest vf s
  | .getDeviceInterfaceReport vf => Sys2Proof.Machine.execGetDeviceInterfaceReport vf s
  | .getDeviceInterfaceState vf => Sys2Proof.Machine.execGetDeviceInterfaceState vf s
  | .startInterfaceRequest vf nonce => Sys2Proof.Machine.execStartInterfaceRequest vf nonce s
  | .stopInterfaceRequest vf => Sys2Proof.Machine.execStopInterfaceRequest vf s
  | .tdispUnsupported vf code => Sys2Proof.Machine.execTdispUnsupported vf code s
  | .lockedConfigWrite vf what val => Sys2Proof.Machine.execLockedConfigWrite vf what val s
  | .spdmGetCertificate slot => Sys2Proof.Machine.execSpdmGetCertificate slot s
  | .spdmChallenge nonce => Sys2Proof.Machine.execSpdmChallenge nonce s
  | .spdmGetMeasurements index sign nonce => Sys2Proof.Machine.execSpdmGetMeasurements index sign nonce s
  | .spdmKeyExchange pub => Sys2Proof.Machine.execSpdmKeyExchange pub s
  | .spdmHeartbeat session => Sys2Proof.Machine.execSpdmHeartbeat session s
  | .firmwareDelivery dies okE okL okV => Sys2Proof.Machine.execFirmwareDelivery dies okE okL okV s
  | .packageReset => Sys2Proof.Machine.execPackageReset s
  | .gafferThrottle die => Sys2Proof.Machine.execGafferThrottle die s
  | .gafferRestore die => Sys2Proof.Machine.execGafferRestore die s
  | .dataCacheLineEviction core line => Sys2Proof.Machine.execDataCacheLineEviction core line s
  | .vectorAccessCompletion p n => Sys2Proof.Machine.execVectorAccessCompletion p n s
  | .residencyRequestService ctx rgn base => Sys2Proof.Machine.execResidencyRequestService ctx rgn base s
  | .peerResponse p k ok data => Sys2Proof.Machine.execPeerResponse p k ok data s
  | .hostSignalReread p k => Sys2Proof.Machine.execHostSignalReread p k s
  | .spdmGetVersion => Sys2Proof.Machine.execSpdmGetVersion s
  | .spdmGetCapabilities => Sys2Proof.Machine.execSpdmGetCapabilities s
  | .spdmNegotiateAlgorithms => Sys2Proof.Machine.execSpdmNegotiateAlgorithms s
  | .spdmGetDigests => Sys2Proof.Machine.execSpdmGetDigests s
  | .spdmFinish session => Sys2Proof.Machine.execSpdmFinish session s
  | .spdmEndSession session => Sys2Proof.Machine.execSpdmEndSession session s
  | .spdmKeyUpdate session => Sys2Proof.Machine.execSpdmKeyUpdate session s
  | .ideKmQuery stream => Sys2Proof.Machine.execIdeKmQuery stream s
  | .ideKmKeyProg stream set key => Sys2Proof.Machine.execIdeKmKeyProg stream set key s
  | .ideKmKSetGo stream set => Sys2Proof.Machine.execIdeKmKSetGo stream set s
  | .ideKmKSetStop stream set => Sys2Proof.Machine.execIdeKmKSetStop stream set s

end Sys2Proof.Machine
end

