-- ==== Sys2Proof/Machine/Turns.lean ====
section
/-! DEFINITION. How the machine takes its steps: whose turn it is, what an agent does in its turn, and where the next step fetches
a word that is placed for it (logs 1, 2, 3). -/

namespace Sys2Proof.Machine

/-- The reference advances by what `Config.ticks` names, and the step is counted (R328, log 3). -/
def tick (s : State) : State := { s with cycle := s.cycle + BitVec.ofNat 64 (Config.ticks s.steps), steps := s.steps + 1 }

/-- The lane groups of the pairs that have just taken an uncorrectable data error go as at an exit (R168, R240). -/
def lanesBack (s : State) : State :=
  (s.pairs.filter (fun e => e.2.dead && decide (e.1 < 1280) && !e.2.parts.isEmpty)).foldl (fun s e =>
    let s := s.updPair e.1 (fun q => { q with parts := [], pend := false, later := [], lender := none })
    match e.2.lender with
    | some o => giveGroups (returnLent s o) e.1
    | none => giveGroups s e.1) s

/-- Service calls and answers that waited, for a Puppeteer or for their pair to be back, are dealt with (R293). -/
def serveAll (s : State) : State := (List.range 8).foldl (fun s d => serveDue d s) s

/-- What follows every turn: a dead pair's lane groups are given on, a command in progress is done where it can be (R362), service calls
that waited are served (R293), what an interface's locking left to a Puppeteer is done (R354, R366), the contexts
of an interface in ERROR are terminated (R367), moves that were kept are asked for (R311), and what engines access is noted (R280). -/
def afterTurn : Out → Out
  | .next s => .next (noteEngines (takeKept (sweepVfs (lockAll (serveAll (ctxPending (lanesBack s)))))))
  | o => o

/-- An agent takes its turn. -/
def runActor (exec : Instr → State → Out) (s : State) (a : Actor) : Out :=
  let s := { s with cur := a }
  match a with
  | .thr p .A => threadTurn exec s p .A
  | .thr p .X => threadTurn exec s p .X
  | .thr _ .F => .next s
  | .lanes p => lanesTurn exec s p
  | .fcore d c => fcoreTurn exec s d c
  | .engine p => .next (engineTurn s p)
  | .nobody => .next s

/-- An event: a word of a program is none. -/
def runEvent (exec : Instr → State → Out) (s : State) (i : Instr) : Out :=
  match encode i with
  | .none => exec i (noteUse s i)
  | _ => .next s

/-- One turn: the head of the agenda, else the head of the rota, which goes to its end, else nothing. -/
def turn (exec : Instr → State → Out) (s : State) : Out :=
  match s.agenda with
  | .run a :: t => runActor exec { s with agenda := t } a
  | .ev i :: t => runEvent exec { s with agenda := t, cur := .nobody } i
  | .reply p k a0 a1 :: t => .next (serviceReply { s with agenda := t, cur := .nobody } p k a0 a1)
  | .host h :: t => .next (hostAct { s with agenda := t, cur := .nobody } h)
  | [] =>
    match s.rota with
    | a :: t => runActor exec { s with rota := t ++ [a] } a
    | [] => .next { s with cur := .nobody }

/-! ## Placing a word (log 1) -/

/-- Where a placed program stands when the agent has no program of its own: region 1, from 0x100000. -/
def placeBase : Nat := 0x100000

/-- A RESIDENT code region of 256 bytes there. -/
def codeEntry : Entry := { size := 0x100#48, kind := 1#2, px := true, pr := true, st := .resident, base := 0x100000#52 }

/-- An address that the device itself serves. -/
def servedAt : Res Loc → Option Nat
  | .ok l => l.home
  | .error _ => none

/-- The agent runs at the next step. -/
def State.first (s : State) (a : Actor) : State := { s with agenda := .run a :: s.agenda }

/-- A thread issues: nothing has stopped it and no cue takes its place. -/
def Thread.issuing (t : Thread) : Thread :=
  { t with halt := .none, fired := [], cuearm := 0#64, iword := none, asked := false, reply := none, enqAt := none }

/-- Pair 0 runs, with no fault waiting for its A thread and no debugger at its heels. -/
def Pair.issuing (q : Pair) : Pair :=
  { q with st := .running, a := q.a.issuing, x := q.x.issuing, cardFaults := [], dbgPend := 0
           streams := mapV (fun st => { st with told := true }) q.streams }

/-- A scalar word for thread k of pair 0, at its PC where that can be fetched from, else in a code region of its own. -/
def placeScalar (s : State) (k : Kind) (w : Nat) : State :=
  let s := (s.setPair 0 (s.pair 0).issuing).first (.thr 0 k)
  let pc := ((s.pair 0).thr k).pc
  match servedAt (fetchAt s 0 pc.v pc.t 4) with
  | some h => s.setMem (Mem.setLE s.mem h 4 w)
  | none =>
    let s := (s.setRegion (s.pair 0).ctx.toNat 1 codeEntry).updThr 0 k (fun t => { t with pc := ⟨BitVec.ofNat 64 placeBase, 1#8⟩ })
    s.setMem (Mem.setLE s.mem placeBase 4 w)

/-- A block word for the lanes of pair 0: a queued block of that one word. -/
def placeBlock (s : State) (w : Nat) : State :=
  let q := (s.pair 0).issuing
  let q := { q with blocks := [{ rgn := 1#8, vl := 1#14 }], owned := if q.owned.isEmpty then [0] else q.owned, lent := []
                    lanesHeld := false, lanes := { q.lanes with busy := false, peerWait := false, ahead := [] } }
  let s := ((s.setPair 0 q).setRegion q.ctx.toNat 1 codeEntry).first (.lanes 0)
  s.setMem (Mem.setLE s.mem placeBase 8 w)

/-- A word for the active firmware core of die 0, at its PC where that lies in its instruction SRAM, else at its start. -/
def placeFirmware (s : State) (w : Nat) : State :=
  let c := (s.die 0).act.toNat
  (s.updF 0 c (fun f =>
    let pc := if inIsram f.pc.toNat && decide (f.pc.toNat % 4 = 0) then f.pc.toNat else Config.isramBase
    { f with on := true, pc := BitVec.ofNat 64 pc, isram := Mem.setLE f.isram (pc - Config.isramBase) 4 w })).first (.fcore 0 c)

/-- The agent that runs a scalar word: an A thread where the word may run on one, else an X thread, else a firmware core. -/
def runnerOf (w : Nat) : Kind :=
  match decodeTableWord 32 w with
  | some i => if i.runsOn .A then .A else if i.runsOn .X then .X else .F
  | none => .A

/-- Place an instruction of `nbits` bits for the next step. -/
def placeWord (s : State) (nbits w : Nat) : State :=
  if nbits ≤ 32 then
    match runnerOf (w % 2 ^ 32) with
    | .A => placeScalar s .A (w % 2 ^ 32)
    | .X => placeScalar s .X (w % 2 ^ 32)
    | .F => placeFirmware s (w % 2 ^ 32)
  else placeBlock s (w % 2 ^ 64)

end Sys2Proof.Machine
end

