-- ==== Sys2Proof/Machine/Step.lean ====
section
/-! DEFINITION. One step of the machine, and the state whose next step runs a given word. -/

namespace Sys2Proof.Machine

/-- One step: time passes, and one agent takes its turn or one event happens. -/
def step (s : State) : Host.Outcome State Fault Refusal := afterTurn (turn exec (tick s))

/-- The state s with an instruction placed where the next step fetches. -/
def State.withFetchWord (s : State) (nbits w : Nat) : State := placeWord s nbits w

end Sys2Proof.Machine
end

