-- ==== Sys2Proof/Safety.lean ====
section
/-! DEFINITION. The terms in which claims about the machine are stated: where a word may run, what it means that an instruction
has its own effect, and what a statement can say is unchanged. -/

namespace Sys2Proof.Safety

open Sys2Proof.Machine

/-- The agent that has the turn may run the scalar word i: steps 2 and 3 of R34 let it through. -/
def Issues (i : Instr) (s : State) : Prop := ∃ k, s.kind = some k ∧ i.runsOn k = true ∧ (k = .F ∨ fLevel i = false)

/-- The A thread, the X thread or the firmware core that has the turn. -/
def ThreadTurn (s : State) (p : Nat) (k : Kind) : Prop := s.cur = .thr p k

/-- The lanes of pair p have the turn. -/
def LanesTurn (s : State) (p : Nat) : Prop := s.cur = .lanes p

/-- The agent a has the turn and may run the scalar word i. -/
def Runs (i : Instr) (s : State) (a : Actor) : Prop := s.cur = a ∧ Issues i s

/-- Every byte of memory reads as before. -/
def SameMem (s t : State) : Prop := ∀ a, Mem.get t.mem a = Mem.get s.mem a

/-- Every byte of memory outside n bytes from a reads as before. -/
def SameMemBut (s t : State) (a n : Nat) : Prop := ∀ x, x < a ∨ a + n ≤ x → Mem.get t.mem x = Mem.get s.mem x

/-- What a word that touches only pairs and dies leaves alone: memory, caches, clusters, contexts, interfaces, queues of messages and
every other field. -/
def SameRest (s t : State) : Prop := t = { s with pairs := t.pairs, dies := t.dies }

end Sys2Proof.Safety
end

