-- ==== Sys2Proof/Certificates/Slice0/Obligations.lean ====
section
/-! DEFINITION. The statements for the provers. Each says what the manual's rules say of the machine, in terms of `exec`, `step`,
`encode` and the decoder. -/

namespace Sys2Proof.Claims

open Sys2Proof.Machine Sys2Proof.Safety

/-! ## What words compute, in whole numbers -/

/-- A register's value as a two's-complement number. -/
def sint (w : Word) : Int := if w.toNat < 2 ^ 63 then (w.toNat : Int) else (w.toNat : Int) - 2 ^ 64

/-- A whole number modulo 2^64. -/
def mod64 (x : Int) : Word := BitVec.ofNat 64 (x % 2 ^ 64).toNat

def one (b : Prop) [Decidable b] : Word := if b then 1#64 else 0#64

/-- The low k bits of a number, read as two's complement. -/
def sext (k n : Nat) : Int := if n % 2 ^ k < 2 ^ (k - 1) then (n % 2 ^ k : Nat) else (n % 2 ^ k : Nat) - 2 ^ k

/-- The results of R73 for two sources A and B. -/
def alu2 (A B : Word) : Instr → Option (XReg × XReg × XReg × Word)
  | .add d a b => some (d, a, b, mod64 (A.toNat + B.toNat))
  | .sub d a b => some (d, a, b, mod64 (A.toNat - B.toNat))
  | .and_ d a b => some (d, a, b, BitVec.ofNat 64 (A.toNat &&& B.toNat))
  | .or_ d a b => some (d, a, b, BitVec.ofNat 64 (A.toNat ||| B.toNat))
  | .xor_ d a b => some (d, a, b, BitVec.ofNat 64 (A.toNat ^^^ B.toNat))
  | .sll d a b => some (d, a, b, mod64 (A.toNat * 2 ^ (B.toNat % 64)))
  | .srl d a b => some (d, a, b, BitVec.ofNat 64 (A.toNat / 2 ^ (B.toNat % 64)))
  | .sra d a b => some (d, a, b, mod64 (sint A / 2 ^ (B.toNat % 64)))
  | .slt d a b => some (d, a, b, one (sint A < sint B))
  | .sltu d a b => some (d, a, b, one (A.toNat < B.toNat))
  | .seq_ d a b => some (d, a, b, one (A = B))
  | .sne d a b => some (d, a, b, one (A ≠ B))
  | .min_ d a b => some (d, a, b, mod64 (min (sint A) (sint B)))
  | .max_ d a b => some (d, a, b, mod64 (max (sint A) (sint B)))
  | .minu d a b => some (d, a, b, BitVec.ofNat 64 (min A.toNat B.toNat))
  | .maxu d a b => some (d, a, b, BitVec.ofNat 64 (max A.toNat B.toNat))
  | .andn d a b => some (d, a, b, BitVec.ofNat 64 (A.toNat &&& (2 ^ 64 - 1 - B.toNat)))
  | .orn d a b => some (d, a, b, BitVec.ofNat 64 (A.toNat ||| (2 ^ 64 - 1 - B.toNat)))
  | .rol d a b => some (d, a, b, mod64 (A.toNat * 2 ^ (B.toNat % 64) + A.toNat / 2 ^ (64 - B.toNat % 64)))
  | .ror d a b => some (d, a, b, mod64 (A.toNat / 2 ^ (B.toNat % 64) + A.toNat * 2 ^ (64 - B.toNat % 64)))
  | _ => none

/-- The results of the unary members of R73. -/
def alu1 (A : Word) : Instr → Option (XReg × XReg × Word)
  | .clz d a => some (d, a, BitVec.ofNat 64 (if A.toNat = 0 then 64 else 63 - Nat.log2 A.toNat))
  | .ctz d a => some (d, a, BitVec.ofNat 64 (if A.toNat = 0 then 64 else Nat.log2 (A.toNat &&& (2 ^ 64 - A.toNat))))
  | .popc d a => some (d, a, BitVec.ofNat 64 ((List.range 64).map (fun i => A.toNat / 2 ^ i % 2)).sum)
  | .sextb d a => some (d, a, mod64 (sext 8 A.toNat))
  | .sexth d a => some (d, a, mod64 (sext 16 A.toNat))
  | .sextw d a => some (d, a, mod64 (sext 32 A.toNat))
  | .zextw d a => some (d, a, BitVec.ofNat 64 (A.toNat % 2 ^ 32))
  | _ => none

/-- The results of the immediates of R75, with the immediate's fields as numbers. -/
def aluI (A : Word) : Instr → Option (XReg × XReg × Word)
  | .addi d a i => some (d, a, mod64 (A.toNat + sext 15 i.toNat))
  | .andi d a i => some (d, a, BitVec.ofNat 64 (A.toNat &&& (sext 15 i.toNat % 2 ^ 64).toNat))
  | .ori d a i => some (d, a, BitVec.ofNat 64 (A.toNat ||| i.toNat))
  | .xori d a i => some (d, a, BitVec.ofNat 64 (A.toNat ^^^ (sext 15 i.toNat % 2 ^ 64).toNat))
  | .slti d a i => some (d, a, one (sint A < sext 15 i.toNat))
  | .sltiu d a i => some (d, a, one ((A.toNat : Int) < sext 15 i.toNat % 2 ^ 64))
  | .slli d a n => some (d, a, mod64 (A.toNat * 2 ^ n.toNat))
  | .srli d a n => some (d, a, BitVec.ofNat 64 (A.toNat / 2 ^ n.toNat))
  | .srai d a n => some (d, a, mod64 (sint A / 2 ^ n.toNat))
  | .rori d a n => some (d, a, mod64 (A.toNat / 2 ^ n.toNat + A.toNat * 2 ^ (64 - n.toNat)))
  | _ => none

/-- The quotient of R74, rounded toward zero. -/
def quot (x y : Int) : Int := if (0 ≤ x) = (0 ≤ y) then x.natAbs / y.natAbs else -(x.natAbs / y.natAbs : Nat)

/-- The results of the mul family (R74). -/
def mul2 (A B : Word) : Instr → Option (XReg × XReg × XReg × Word)
  | .mul_ d a b => some (d, a, b, mod64 (A.toNat * B.toNat))
  | .mulh d a b => some (d, a, b, mod64 (sint A * sint B / 2 ^ 64))
  | .mulhu d a b => some (d, a, b, BitVec.ofNat 64 (A.toNat * B.toNat / 2 ^ 64))
  | .mulhsu d a b => some (d, a, b, mod64 (sint A * B.toNat / 2 ^ 64))
  | .div_ d a b => some (d, a, b, if B = 0#64 then mod64 (-1) else mod64 (quot (sint A) (sint B)))
  | .divu d a b => some (d, a, b, if B = 0#64 then mod64 (-1) else BitVec.ofNat 64 (A.toNat / B.toNat))
  | .rem d a b => some (d, a, b, if B = 0#64 then A else mod64 (sint A - quot (sint A) (sint B) * sint B))
  | .remu d a b => some (d, a, b, if B = 0#64 then A else BitVec.ofNat 64 (A.toNat % B.toNat))
  | _ => none

/-- The flags a word of the mul family sets (R74): DZ is bit 3, OF bit 2. -/
def mulFlags (A B : Word) : Instr → BitVec 5
  | .div_ _ _ _ => if B = 0#64 ∧ A ≠ 0#64 then 8#5 else if sint A = -2 ^ 63 ∧ sint B = -1 then 4#5 else 0#5
  | .divu _ _ _ => if B = 0#64 ∧ A ≠ 0#64 then 8#5 else 0#5
  | _ => 0#5

/-- The tag of a result of R73, R74 or R75 (R72). -/
def resultTag (ta tb : Tag) : Instr → Tag
  | .add _ _ _ => if tb = 255#8 then ta else if ta = 255#8 then tb else 255#8
  | .sub _ _ _ => if tb = 255#8 then ta else 255#8
  | .addi _ _ _ => ta
  | _ => 255#8

/-- The words that read and write scalar registers only, with the register they write. -/
def registerOnly (A B : Word) (i : Instr) : Option XReg :=
  match alu2 A B i, alu1 A i, aluI A i, mul2 A B i, i with
  | some x, _, _, _, _ => some x.1
  | _, some x, _, _, _ => some x.1
  | _, _, some x, _, _ => some x.1
  | _, _, _, some x, _ => some x.1
  | _, _, _, _, .lui d _ => some d
  | _, _, _, _, .luh d _ => some d
  | _, _, _, _, .adpc d _ => some d
  | _, _, _, _, .tagset d _ _ => some d
  | _, _, _, _, .tagrd d _ => some d
  | _, _, _, _, .rgnq d _ _ => some d
  | _, _, _, _, _ => none

end Sys2Proof.Claims

open Sys2Proof Sys2Proof.Machine Sys2Proof.Safety Sys2Proof.Claims

/-! ## Encoding -/

/-- R27, R29, R41-R43: the decoder reads from the word of a well-formed scalar instruction that instruction, every operand at
every value the encoding admits. -/
def Sys2Proof.Claims.ScalarDecodeOfEncode : Prop :=
  ∀ (i : Instr) (w : Nat), i.wf = true → encode i = .w32 w → w < 2 ^ 32 ∧ decodeScalar w = .ok i

/-- R30-R33, R45: the same of block words. -/
def Sys2Proof.Claims.BlockDecodeOfEncode : Prop :=
  ∀ (i : Instr) (w : Nat), i.wf = true → encode i = .w64 w → w < 2 ^ 64 ∧ decodeBlock w = .ok i

/-- R27, R29-R33, R41-R43, R45: the decoder reads from the word of every well-formed scalar or block instruction that instruction, with
every operand at every value the encoding admits. -/
def Obligations.WordsDecodeAsTheyEncode : Prop :=
  Claims.ScalarDecodeOfEncode ∧ Claims.BlockDecodeOfEncode

/-- R29, R31, R34, R35: a word that decodes is the one word of the instruction it decodes to, and that instruction is well formed;
so a word with a bit set that its row does not name decodes to nothing. -/
def Obligations.DecodedWordIsItsEncoding : Prop :=
  (∀ (w : Nat) (i : Instr), w < 2 ^ 32 → decodeScalar w = .ok i → i.wf = true ∧ encode i = .w32 w) ∧
  (∀ (w : Nat) (i : Instr), w < 2 ^ 64 → decodeBlock w = .ok i → i.wf = true ∧ encode i = .w64 w)

/-- Words that the manual writes out decode to the instructions it gives them (R73, R75, R79, R83, R98, R109, R162, R181,
R195, R250, R292, R327; the others are of R76, R82, R110 and R111). -/
def Obligations.ManualWordsDecode : Prop :=
  decodeTableWord 32 0x02531C00 = some (.add 5#5 6#5 7#5) ∧ decodeTableWord 32 0x06510020 = some (.addi 5#5 2#5 32#15) ∧
  decodeTableWord 32 0x1308C003 = some (.srai 16#5 17#5 3#6) ∧ decodeTableWord 32 0x22100040 = some (.jl 1#5 64#20) ∧
  decodeTableWord 32 0x36510010 = some (.ldd 5#5 2#5 16#15) ∧ decodeTableWord 32 0x46510010 = some (.std 5#5 2#5 16#15) ∧
  decodeTableWord 32 0x64048000 = some (.bout 9#5) ∧ decodeTableWord 32 0x26001FFE = some (.qbf 0xFFE#12) ∧
  decodeTableWord 32 0x55080005 = some (.tagset 16#5 16#5 5#8) ∧ decodeTableWord 32 0x56580000 = some (.tagrd 5#5 16#5) ∧
  decodeTableWord 32 0x5C500305 = some (.rgnq 5#5 3#4 5#8) ∧ decodeTableWord 32 0x6703C452 = some (.setvl 16#5 7#5 17#5 2#3 2#2 2#3) ∧
  decodeTableWord 32 0x98000000 = some .bar ∧ decodeTableWord 32 0xA0000001 = some (.svc 1#20) ∧ decodeTableWord 32 0xB2000042 = some (.brk 0x42#20) ∧
  decodeTableWord 64 0x200C414000020002 = some (.vcmp { vd := 3#6, sa := 4#6, sb := 5#6, fs := 1#3 } 2#3) ∧
  decodeTableWord 64 0 = some .stop ∧ decodeTableWord 64 0x0100000000000000 = some .vnop

/-! ## A step runs the decoded instruction -/

/-- The state in which thread k of pair p issues the word at its PC: its turn has counted slip (X), matched triggers and latched
cues. -/
def Sys2Proof.Claims.threadAt (s : State) (p : Nat) (k : Kind) : State :=
  latchCues (matchTriggers (if k = .X then slip s p else s) p k) p k

/-- R81, R34, R413: when the turn is a running thread's, no fault, debugger or cue comes first, and the four bytes at its PC, in a
RESIDENT code region in HBM, decode to an instruction that the thread may run, then the step is that instruction's meaning,
followed only by the PC matches that close windows (R336) and by what follows every turn (R168, R362, R367). The regions the word accesses
are noted first, for eviction (R280, log 39). Nothing the thread has asked a peer for is on its way (R363). A thread that has asked a peer for
something, or that holds a ring's index, goes on with the word it holds, wherever its PC stands (log 50). -/
def Sys2Proof.Claims.StepRunsThreadWord : Prop :=
  ∀ (s : State) (p : Nat) (k : Kind) (rest : List Actor) (i : Instr),
    let s1 := { tick s with rota := rest ++ [.thr p k], cur := .thr p k }
    let s2 := threadAt s1 p k
    let t := (s2.pair p).thr k
    let e := s2.region (s2.pair p).ctx.toNat t.pc.t.toNat
    k ≠ .F → s.agenda = [] → s.rota = .thr p k :: rest →
    (s1.pair p).st = .running →
    ((if k = .X then slip s1 p else s1).pair p).dbgPend ≠ 2 →
    (((if k = .X then slip s1 p else s1).pair p).thr k).halt = .none →
    (k = .A → (s1.pair p).a.midway = false → pendingFault (s1.pair p) = none) → deliverCue s2 p k = none → (t.asked && t.reply.isNone && t.wait != .cue) = false →
    let ran := fun w : Nat => checkScalar k w = .ok i →
      step s = afterTurn (closeMatched (dieOf p) (matched (if k = .X then slip s1 p else s1) p k) (holdWord p k w (exec i (noteUse s2 i))))
    (t.heldWord = none → t.pc.t ≠ 255#8 → e.covers t.pc.v.toNat 4 = true → e.kind = 1#2 → e.px = true → e.st = .resident →
      t.pc.v.toNat < Config.peerBase → ran (Mem.getLE s2.mem t.pc.v.toNat 4)) ∧
    (∀ w, t.heldWord = some w → ran w)

/-- R170, R177, R35, R32: the same for the lanes of a pair and the block word at their place, in a RESIDENT code region in HBM. -/
def Sys2Proof.Claims.StepRunsBlockWord : Prop :=
  ∀ (s : State) (p : Nat) (rest : List Actor) (i : Instr),
    let s1 := { tick s with rota := rest ++ [.lanes p], cur := .lanes p }
    let s2 := beginBlock s1 p
    let q := s2.pair p
    let b := q.blocks.headD {}
    let a := blockAddr s2 p q.lanes.off
    let e := s2.region q.ctx.toNat b.rgn.toNat
    let w := Mem.getLE s2.mem a.toNat 8
    s.agenda = [] → s.rota = .lanes p :: rest → lanesRun (s1.pair p) = true →
    b.rgn ≠ 255#8 → e.covers a.toNat 8 = true → e.kind = 1#2 → e.px = true → e.st = .resident → a.toNat < Config.peerBase →
    decodeBlock w = .ok i → (bitOf w 28 = true → q.lanes.barred = false) → (bitOf w 28 = false → convoyBreach s2 p w = .ok none) →
    step s = afterTurn (exec i (noteUse s2 i))

/-- R341, R343, R34: the same for a firmware core and the word at its PC in its instruction SRAM, while no record of the die's journal is
open and none of the fast path's is still to be written (R354, R287, log 78). -/
def Sys2Proof.Claims.StepRunsFirmwareWord : Prop :=
  ∀ (s : State) (d c : Nat) (rest : List Actor) (i : Instr),
    let s1 := { tick s with rota := rest ++ [.fcore d c], cur := .fcore d c }
    let f := (s1.die d).fcore c
    s.agenda = [] → s.rota = .fcore d c :: rest → f.on = true → (s1.die d).jopen = none → puppeteerOn s1 d = false ∨ (s1.die d).late = [] →
    Config.isramBase ≤ f.pc.toNat → f.pc.toNat + 4 ≤ Config.dsramBase →
    checkScalar .F (Mem.getLE f.isram (f.pc.toNat - Config.isramBase) 4) = .ok i →
    step s = afterTurn (exec i (noteUse s1 i))

/-- An event at the head of the agenda is the step's instruction, whatever the rota holds (the model's order of events, log 2). -/
def Sys2Proof.Claims.StepRunsAgendaEvent : Prop :=
  ∀ (s : State) (i : Instr) (rest : List Turn), s.agenda = .ev i :: rest → encode i = .none →
    step s = afterTurn (exec i (noteUse { tick s with agenda := rest, cur := .nobody } i))

/-- R34, R35, R81, R177, R341: a step at a thread, at lanes or at a firmware core whose word decodes is that instruction's meaning, and a
step with an event at the head of the agenda is that event's. -/
def Obligations.StepRunsDecodedInstruction : Prop :=
  Claims.StepRunsThreadWord ∧ Claims.StepRunsBlockWord ∧ Claims.StepRunsFirmwareWord ∧ Claims.StepRunsAgendaEvent

/-! ## Scalar words that read and write registers -/

/-- R71: x0 reads as zero and untagged and a write to it is discarded with its tag, for threads and firmware cores alike; a core's
registers carry no tag; every other register reads as what was last written to it, and a write leaves the others alone. -/
def Sys2Proof.Claims.ZeroRegisterAndRegisterFile : Prop :=
  ∀ (s : State) (r : XReg) (v : Val),
    s.rx 0#5 = ⟨0#64, 255#8⟩ ∧ s.wx 0#5 v = (s.wx 0#5 ⟨0#64, 255#8⟩) ∧
    (∀ r', (s.wx 0#5 v).rx r' = s.rx r') ∧
    (r ≠ 0#5 → s.kind.isSome → ((s.wx r v).rx r).v = v.v ∧ (s.kind ≠ some .F → (s.wx r v).rx r = v)) ∧
    (∀ r', r' ≠ r → (s.wx r v).rx r' = s.rx r') ∧
    (∀ d c, s.cur = .fcore d c → (s.rx r).t = 255#8)

/-- R73, R72: the members of the alu family complete wherever they may run, and write the result the manual gives, with the tag it
gives; the PC moves on. -/
def Sys2Proof.Claims.AluFamilyResults : Prop :=
  ∀ (i : Instr) (s : State), Issues i s →
    (∀ d a b v, alu2 (s.rx a).v (s.rx b).v i = some (d, a, b, v) →
      exec i s = .next ((s.wx d ⟨v, resultTag (s.rx a).t (s.rx b).t i⟩).retire)) ∧
    (∀ d a v, alu1 (s.rx a).v i = some (d, a, v) → exec i s = .next ((s.wx d ⟨v, 255#8⟩).retire))

/-- R74: the members of the mul family complete wherever they may run, with the fates of division by zero and of the most negative
value by -1, and set no other flag than DZ or OF. -/
def Sys2Proof.Claims.MulFamilyResults : Prop :=
  ∀ (i : Instr) (s : State) (d a b : XReg) (v : Word), Issues i s →
    mul2 (s.rx a).v (s.rx b).v i = some (d, a, b, v) →
    exec i s = .next (((s.orFlags (mulFlags (s.rx a).v (s.rx b).v i)).wx d ⟨v, 255#8⟩).retire)

/-- R75, R76, R72: the immediates complete wherever they may run, and only `addi` keeps the tag of its source. -/
def Sys2Proof.Claims.ImmediateResults : Prop :=
  ∀ (i : Instr) (s : State) (d a : XReg) (v : Word), Issues i s → aluI (s.rx a).v i = some (d, a, v) →
    exec i s = .next ((s.wx d ⟨v, resultTag (s.rx a).t 255#8 i⟩).retire)

/-- R77: the upper immediates. -/
def Sys2Proof.Claims.UpperImmediateResults : Prop :=
  ∀ (s : State) (d : XReg) (imm : BitVec 20),
    (Issues (.lui d imm) s → exec (.lui d imm) s = .next ((s.wx d ⟨mod64 (sext 32 (imm.toNat * 4096)), 255#8⟩).retire)) ∧
    (Issues (.luh d imm) s → ∃ v, exec (.luh d imm) s = .next ((s.wx d ⟨v, 255#8⟩).retire) ∧
      bits v.toNat 51 32 = imm.toNat ∧ bits v.toNat 31 0 = bits (s.rx d).v.toNat 31 0 ∧ bits v.toNat 63 52 = bits (s.rx d).v.toNat 63 52) ∧
    (Issues (.adpc d imm) s → exec (.adpc d imm) s = .next ((s.wx d ⟨mod64 (s.pc.v.toNat + sext 32 (imm.toNat * 4096)), s.pc.t⟩).retire))

/-- R109, R110, R111: `tagset` copies a register and gives it the tag; `tagrd` reads a tag; `rgnq` reads a field of a region-table
entry as it stands, 0 for region 255 or an unused entry. -/
def Sys2Proof.Claims.TagAndRegionQueryResults : Prop :=
  ∀ (s : State) (d a : XReg) (t : Tag) (sel : BitVec 4) (r : BitVec 8),
    let e := s.region (s.pair s.me).ctx.toNat r.toNat
    (Issues (.tagset d a t) s → exec (.tagset d a t) s = .next ((s.wx d ⟨(s.rx a).v, t⟩).retire)) ∧
    (Issues (.tagrd d a) s → exec (.tagrd d a) s = .next ((s.wx d ⟨BitVec.ofNat 64 (s.rx a).t.toNat, 255#8⟩).retire)) ∧
    (Issues (.rgnq d sel r) s → sel.toNat ≤ 5 → ∃ v : Word, exec (.rgnq d sel r) s = .next ((s.wx d ⟨v, 255#8⟩).retire) ∧
      (r = 255#8 ∨ e.size = 0#48 → v = 0#64) ∧
      (r ≠ 255#8 → e.size ≠ 0#48 →
        (sel = 0#4 → v.toNat = e.base.toNat) ∧ (sel = 1#4 → v.toNat = e.size.toNat) ∧
        (sel = 2#4 → v.toNat = (match e.st with | .absent => 0 | .arriving => 1 | .resident => 2 | .evicting => 3 | .moving => 4 | .retired => 5)) ∧
        (sel = 3#4 → v.toNat = e.gen.toNat) ∧
        (sel = 4#4 → bits v.toNat 7 6 = e.kind.toNat ∧ v.getLsbD 5 = e.px ∧ v.getLsbD 4 = e.pw ∧ v.getLsbD 3 = e.pr ∧
          bits v.toNat 2 0 = e.ecl.toNat ∧ v.toNat < 256) ∧
        (sel = 5#4 → v.toNat = e.prev.toNat)))

/-- R71-R77, R109-R111: the frame of the words that read and write scalar registers only. When one runs where it may, every other
register of the agent is unchanged, every byte of memory and every cached line, every other pair and die, every region and
message; of the thread, only the written register, the PC, the count of retired words and the marks of a stalled word may change,
and the flags only in `div` and `divu`. -/
def Sys2Proof.Claims.RegisterOnlyFrame : Prop :=
  ∀ (i : Instr) (s t : State) (A B : Word) (d : XReg), registerOnly A B i = some d → Issues i s → exec i s = .next t →
    (∀ r, r ≠ d → t.rx r = s.rx r) ∧ SameMem s t ∧ SameRest s t ∧
    (∀ p k, s.cur = .thr p k → t.dies = s.dies ∧ (∀ p', p' ≠ p → t.pair p' = s.pair p') ∧
      (∀ k', k' ≠ k → k' ≠ .F → k ≠ .F → (t.pair p).thr k' = (s.pair p).thr k') ∧
      (k ≠ .F → { (t.pair p).thr k with x := s.thr.x, sh := s.thr.sh, fflags := s.thr.fflags } =
        { s.thr.retireAt s.nextPc with fflags := s.thr.fflags }) ∧
      (i ≠ .div_ d (match i with | .div_ _ a _ => a | _ => 0#5) (match i with | .div_ _ _ b => b | _ => 0#5) →
       i ≠ .divu d (match i with | .divu _ a _ => a | _ => 0#5) (match i with | .divu _ _ b => b | _ => 0#5) →
        ((t.pair p).thr k).fflags = s.thr.fflags)) ∧
    (∀ e c, s.cur = .fcore e c → t.pairs = s.pairs ∧ (∀ e', e' ≠ e → t.die e' = s.die e'))

/-- R71: the register file, and that a word which reads and writes registers only changes its destination, its PC, what retiring
leaves, and no other thing. -/
def Obligations.RegisterFileAndFrame : Prop :=
  Claims.ZeroRegisterAndRegisterFile ∧ Claims.RegisterOnlyFrame

namespace Sys2Proof.Claims

/-- What a word that concerns only pair p leaves alone. -/
def OnlyPair (s t : State) (p : Nat) : Prop := SameRest s t ∧ t.dies = s.dies ∧ ∀ p', p' ≠ p → t.pair p' = s.pair p'

/-- The condition and offset of a branch (R78) for sources A and B. -/
def branchOf (A B : Word) : Instr → Option (XReg × XReg × BitVec 12 × Bool)
  | .beq a b o => some (a, b, o, decide (A = B))
  | .bne a b o => some (a, b, o, decide (A ≠ B))
  | .blt a b o => some (a, b, o, decide (sint A < sint B))
  | .bge a b o => some (a, b, o, decide (sint B ≤ sint A))
  | .bltu a b o => some (a, b, o, decide (A.toNat < B.toNat))
  | .bgeu a b o => some (a, b, o, decide (B.toNat ≤ A.toNat))
  | _ => none

/-- The address of the word at an offset counted in words. -/
def wordAt (s : State) (off : Int) : Val := ⟨mod64 (s.pc.v.toNat + 4 * off), s.pc.t⟩

/-- R81: a jump target lies in its region, or, for a firmware core, in the instruction SRAM (R343). -/
def targetOk (s : State) (t : Val) : Prop :=
  match s.cur with
  | .fcore _ _ => Config.isramBase ≤ t.v.toNat ∧ t.v.toNat + 4 ≤ Config.dsramBase
  | _ =>
    let e := s.region (s.pair s.me).ctx.toNat t.t.toNat
    t.t ≠ 255#8 ∧ e.size ≠ 0#48 ∧ e.base.toNat ≤ t.v.toNat ∧ t.v.toNat + 4 ≤ e.base.toNat + e.size.toNat

/-- R81: the region of a `jlr` target is code that may be executed; a firmware core has no regions. -/
def targetCode (s : State) (t : Val) : Prop :=
  match s.cur with
  | .fcore _ _ => True
  | _ => (s.region (s.pair s.me).ctx.toNat t.t.toNat).kind = 1#2 ∧ (s.region (s.pair s.me).ctx.toNat t.t.toNat).px = true

end Sys2Proof.Claims

/-! ## Branches, jumps and queues of outcomes -/

/-- R78, R81: a branch moves on when its condition fails, goes to its target when the condition holds and the target lies in its
code region, and takes a bounds trap that shows the target otherwise. Nothing else changes. The word is the manual's B format,
and the conditions 6 and 7 decode to nothing. -/
def Sys2Proof.Claims.BranchResults : Prop :=
  (∀ (i : Instr) (s : State) (a b : XReg) (o : BitVec 12) (c : Bool), Issues i s → branchOf (s.rx a).v (s.rx b).v i = some (a, b, o, c) →
    (c = false → exec i s = .next s.retire) ∧
    (c = true → targetOk s (wordAt s (sext 12 o.toNat)) → exec i s = .next (s.retireTo (wordAt s (sext 12 o.toNat)))) ∧
    (c = true → ¬ targetOk s (wordAt s (sext 12 o.toNat)) → exec i s = .next (s.trap 0x05#8 (wordAt s (sext 12 o.toNat)).v 0#32))) ∧
  (∀ (a b : XReg) (o : BitVec 12) (n : Nat), n < 8 →
    decodeScalar (0x10 * 2 ^ 25 + a.toNat * 2 ^ 20 + b.toNat * 2 ^ 15 + n * 2 ^ 12 + o.toNat) =
      (match n with
       | 0 => .ok (.beq a b o) | 1 => .ok (.bne a b o) | 2 => .ok (.blt a b o) | 3 => .ok (.bge a b o)
       | 4 => .ok (.bltu a b o) | 5 => .ok (.bgeu a b o) | _ => .error .member))

/-- R79, R80, R81: `jl` and `jlr` link and jump when the target passes its checks, and trap with the target otherwise, writing
nothing; the target of `jlr` is formed before the link is written. -/
def Sys2Proof.Claims.JumpResults : Prop :=
  ∀ (s : State) (d a : XReg) (off : BitVec 20) (imm : BitVec 15),
    let link : Val := ⟨mod64 (s.pc.v.toNat + 4), s.pc.t⟩
    let t := wordAt s (sext 20 off.toNat)
    let u : Val := ⟨mod64 ((s.rx a).v.toNat + sext 15 imm.toNat), (s.rx a).t⟩
    (Issues (.jl d off) s → targetOk s t → exec (.jl d off) s = .next ((s.wx d link).retireTo t)) ∧
    (Issues (.jl d off) s → ¬ targetOk s t → exec (.jl d off) s = .next (s.trap 0x05#8 t.v 0#32)) ∧
    (Issues (.jlr d a imm) s → u.v.toNat % 4 = 0 → targetOk s u → targetCode s u →
      exec (.jlr d a imm) s = .next ((s.wx d link).retireTo u)) ∧
    (Issues (.jlr d a imm) s → u.v.toNat % 4 ≠ 0 → exec (.jlr d a imm) s = .next (s.trap 0x06#8 u.v 0#32)) ∧
    (Issues (.jlr d a imm) s → u.v.toNat % 4 = 0 → ¬ (targetOk s u ∧ targetCode s u) →
      exec (.jlr d a imm) s = .next (s.trap 0x05#8 u.v 0#32)) ∧
    encode (.jl d off) = .w32 (0x11 * 2 ^ 25 + d.toNat * 2 ^ 20 + off.toNat) ∧
    encode (.jlr d a imm) = .w32 (0x12 * 2 ^ 25 + d.toNat * 2 ^ 20 + a.toNat * 2 ^ 15 + imm.toNat)

/-- R82, R83, R84, R144: `bout` pushes the outcome xa ≠ 0, and waits while bq holds 64; `qbt` and `qbf` pop it and branch when it is
true or false, wait while bq is empty and the A thread has not exited, trap 0x10 with code 1 when it has, and leave bq unpopped when
their target fails its check. Nothing else changes. -/
def Sys2Proof.Claims.OutcomeQueue : Prop :=
  ∀ (s : State) (p : Nat) (a : XReg) (off : BitVec 12) (want : Bool),
    let q := s.pair p
    let i : Instr := if want then .qbt off else .qbf off
    let t := wordAt s (sext 12 off.toNat)
    (Runs (.bout a) s (.thr p .A) → q.x.halt ≠ .exited → q.bq.length < 64 → ∃ n, exec (.bout a) s = .next n ∧ OnlyPair s n p ∧
      n.pair p = { q with bq := q.bq ++ [decide ((s.rx a).v ≠ 0#64)],
                          a := { q.a with bout := decide ((s.rx a).v ≠ 0#64) }.retireAt s.nextPc }) ∧
    (Runs (.bout a) s (.thr p .A) → q.x.halt ≠ .exited → 64 ≤ q.bq.length → ∃ n, exec (.bout a) s = .next n ∧ OnlyPair s n p ∧
      (n.pair p).bq = q.bq ∧ n.pc = s.pc ∧ n.thr.retired = s.thr.retired) ∧
    (Runs i s (.thr p .X) → ∀ b rest, q.bq = b :: rest →
      (b ≠ want → ∃ n, exec i s = .next n ∧ OnlyPair s n p ∧ n.pair p = { q with bq := rest, x := q.x.retireAt s.nextPc }) ∧
      (b = want → targetOk s t → ∃ n, exec i s = .next n ∧ OnlyPair s n p ∧ n.pair p = { q with bq := rest, x := q.x.retireAt t }) ∧
      (b = want → ¬ targetOk s t → exec i s = .next (s.trap 0x05#8 t.v 0#32))) ∧
    (Runs i s (.thr p .X) → q.bq = [] → q.a.halt = .exited → exec i s = .next (s.trap 0x10#8 1#64 0#32)) ∧
    (Runs i s (.thr p .X) → q.bq = [] → q.a.halt ≠ .exited → ∃ n, exec i s = .next n ∧ OnlyPair s n p ∧
      (n.pair p).bq = [] ∧ n.pc = s.pc ∧ n.thr.retired = s.thr.retired)

/-- R122, R123, R120, R119, R46: the words that push and pop scalars. A push appends xa to sq, or a one-element row to the next stage's
upstream queue; a pop takes the head of sq, of rq or of the upstream queue into xd, untagged (`qpopw` its low 32 bits, sign-extended,
counting a deprecated encoding). Nothing else changes. -/
def Sys2Proof.Claims.ScalarQueueWords : Prop :=
  ∀ (s : State) (p : Nat) (r : XReg) (w : Word),
    let q := s.pair p
    let into : Word → Thread := fun v => (q.x.wr r ⟨v, 255#8⟩).retireAt s.nextPc
    (Runs (.qpushSq r) s (.thr p .A) → q.x.halt ≠ .exited → q.sq.length < 32 → ∃ n, exec (.qpushSq r) s = .next n ∧ OnlyPair s n p ∧
      n.pair p = { q with sq := q.sq ++ [(s.rx r).v], a := q.a.retireAt s.nextPc }) ∧
    (Runs (.qpopSq r) s (.thr p .X) → ∀ rest, q.sq = w :: rest → ∃ n, exec (.qpopSq r) s = .next n ∧ OnlyPair s n p ∧
      n.pair p = { q with sq := rest, x := into w }) ∧
    (Runs (.qpopw r) s (.thr p .X) → ∀ rest, q.sq = w :: rest → ∃ n, exec (.qpopw r) s = .next n ∧ SameMem s n ∧ n.dies = s.dies ∧
      n.pair p = { q with sq := rest, x := into (mod64 (sext 32 w.toNat)) } ∧ (∀ p', p' ≠ p → n.pair p' = s.pair p') ∧
      ((n.ctx q.ctx.toNat).depcnt.getD (dieOf p) 0#64).toNat =
        min (2 ^ 64 - 1) (((s.ctx q.ctx.toNat).depcnt.getD (dieOf p) 0#64).toNat + 1)) ∧
    (Runs (.qpopRq r) s (.thr p .X) → ∀ rest, q.rq = w :: rest → ∃ n, exec (.qpopRq r) s = .next n ∧ OnlyPair s n p ∧
      n.pair p = { q with rq := rest, x := into w }) ∧
    (Runs (.qpopUpstream r) s (.thr p .X) → ∀ row rest, q.up = row :: rest → row.ready = true → row.vl = 1 → row.wc = 4 → row.els = [w.toNat] →
      ∃ n, exec (.qpopUpstream r) s = .next n ∧ OnlyPair s n p ∧ n.pair p = { q with up := rest, x := into w }) ∧
    (Runs (.qpushDownstream r) s (.thr p .X) → q.pl.stg ≠ q.pl.last → ∀ p', stageMate s p (q.pl.stg + 1) = some p' → (s.pair p').x.halt ≠ .exited →
      (s.pair p').st ≠ .posted → entsOf (s.pair p').up < 8 → ∃ n, exec (.qpushDownstream r) s = .next n ∧ SameRest s n ∧ n.dies = s.dies ∧
        n.pair p' = { s.pair p' with up := (s.pair p').up ++ [{ vl := 1, wc := 4, ents := 1, g := q.rowGroups, act := [true], els := [(s.rx r).v.toNat] }] } ∧
        n.pair p = { q with x := q.x.retireAt s.nextPc } ∧ ∀ p'', p'' ≠ p → p'' ≠ p' → n.pair p'' = s.pair p'')

/-- R119, R121, R118: what a scalar push or pop does when its queue is full or empty, or its head row has another shape: it waits
while the other end may still act, and traps 0x10 with the queue's code when it cannot, 0x0B on another shape. -/
def Sys2Proof.Claims.ScalarQueueWaitsAndTraps : Prop :=
  ∀ (s : State) (p : Nat) (r : XReg),
    let q := s.pair p
    let waits : Instr → Prop := fun i => ∃ n, exec i s = .next n ∧ OnlyPair s n p ∧ n.pc = s.pc ∧ n.thr.retired = s.thr.retired ∧
      n.pair p = q.setThr s.meK { s.thr with wait := (n.pair p |>.thr s.meK).wait, onRgn := none }
    (Runs (.qpushSq r) s (.thr p .A) → q.x.halt ≠ .exited → 32 ≤ q.sq.length → waits (.qpushSq r)) ∧
    (Runs (.qpopSq r) s (.thr p .X) → Runs (.qpopw r) s (.thr p .X) → q.sq = [] → q.a.halt ≠ .exited → waits (.qpopSq r) ∧ waits (.qpopw r)) ∧
    (Runs (.qpopSq r) s (.thr p .X) → Runs (.qpopw r) s (.thr p .X) → q.sq = [] → q.a.halt = .exited →
      exec (.qpopSq r) s = .next (s.trap 0x10#8 0#64 0#32) ∧ exec (.qpopw r) s = .next (s.trap 0x10#8 0#64 0#32)) ∧
    (Runs (.qpopRq r) s (.thr p .X) → q.rq = [] → (q.blocks ≠ [] ∨ q.lanes.busy = true) → waits (.qpopRq r)) ∧
    (Runs (.qpopRq r) s (.thr p .X) → q.rq = [] → q.blocks = [] → q.lanes.busy = false → exec (.qpopRq r) s = .next (s.trap 0x10#8 2#64 0#32)) ∧
    (Runs (.qpushDownstream r) s (.thr p .X) → q.pl.stg = q.pl.last → exec (.qpushDownstream r) s = .next (s.trap 0x10#8 3#64 0#32)) ∧
    (Runs (.qpopUpstream r) s (.thr p .X) → q.up = [] → q.pl.stg = 0 → exec (.qpopUpstream r) s = .next (s.trap 0x10#8 4#64 0#32)) ∧
    (Runs (.qpopUpstream r) s (.thr p .X) → ∀ row rest, q.up = row :: rest → row.ready = true → (row.vl ≠ 1 ∨ row.wc ≠ 4) →
      ∃ v, exec (.qpopUpstream r) s = .next (s.trap 0x0B#8 v 0#32) ∧ bits v.toNat 13 0 = row.vl % 2 ^ 14 ∧
        bits v.toNat 18 16 = row.wc % 8 ∧ bits v.toNat 45 32 = 1 ∧ bits v.toNat 50 48 = 4)

/-- R118-R123, R46: the words that push, pop and test the scalar queues, where they complete, wait and trap. -/
def Obligations.ScalarQueueResults : Prop :=
  Claims.ScalarQueueWords ∧ Claims.ScalarQueueWaitsAndTraps

/-! ## The words of these families -/

/-- R73-R77, R109-R111: the word of each instruction that computes in registers, from its fields, and the words of their opcodes that are
illegal: a member that does not exist, or a bit that must be zero and is not. -/
def Sys2Proof.Claims.RegisterWordEncodings : Prop :=
  (∀ (d a b : XReg) (m : Nat) (i : Instr),
    let w := d.toNat * 2 ^ 20 + a.toNat * 2 ^ 15 + b.toNat * 2 ^ 10
    ((m, i) ∈ [(0, Instr.add d a b), (1, .sub d a b), (2, .and_ d a b), (3, .or_ d a b), (4, .xor_ d a b), (5, .sll d a b), (6, .srl d a b), (7, .sra d a b),
      (8, .slt d a b), (9, .sltu d a b), (10, .seq_ d a b), (11, .sne d a b), (12, .min_ d a b), (13, .max_ d a b), (14, .minu d a b), (15, .maxu d a b),
      (16, .andn d a b), (17, .orn d a b), (25, .rol d a b), (26, .ror d a b)] → encode i = .w32 (1 * 2 ^ 25 + w + m)) ∧
    ((m, i) ∈ [(18, Instr.clz d a), (19, .ctz d a), (20, .popc d a), (21, .sextb d a), (22, .sexth d a), (23, .sextw d a), (24, .zextw d a)] →
      encode i = .w32 (1 * 2 ^ 25 + d.toNat * 2 ^ 20 + a.toNat * 2 ^ 15 + m)) ∧
    ((m, i) ∈ [(0, Instr.mul_ d a b), (1, .mulh d a b), (2, .mulhu d a b), (3, .mulhsu d a b), (4, .div_ d a b), (5, .divu d a b), (6, .rem d a b), (7, .remu d a b)] →
      encode i = .w32 (2 * 2 ^ 25 + w + m)) ∧
    encode (.tagrd d a) = .w32 (0x2B * 2 ^ 25 + d.toNat * 2 ^ 20 + a.toNat * 2 ^ 15)) ∧
  (∀ (d a : XReg) (imm : BitVec 15) (n : BitVec 6) (u : BitVec 20) (t : BitVec 8) (sel : BitVec 4) (op : Nat) (i : Instr),
    let w := d.toNat * 2 ^ 20 + a.toNat * 2 ^ 15
    ((op, i) ∈ [(3, Instr.addi d a imm), (4, .andi d a imm), (5, .ori d a imm), (6, .xori d a imm), (7, .slti d a imm), (8, .sltiu d a imm)] →
      encode i = .w32 (op * 2 ^ 25 + w + imm.toNat)) ∧
    ((op, i) ∈ [(0, Instr.slli d a n), (1, .srli d a n), (2, .srai d a n), (3, .rori d a n)] → encode i = .w32 (9 * 2 ^ 25 + w + op * 2 ^ 13 + n.toNat)) ∧
    ((op, i) ∈ [(10, Instr.lui d u), (11, .luh d u), (12, .adpc d u)] → encode i = .w32 (op * 2 ^ 25 + d.toNat * 2 ^ 20 + u.toNat)) ∧
    encode (.tagset d a t) = .w32 (0x2A * 2 ^ 25 + w + t.toNat) ∧
    encode (.rgnq d sel t) = .w32 (0x2E * 2 ^ 25 + d.toNat * 2 ^ 20 + sel.toNat * 2 ^ 8 + t.toNat)) ∧
  (∀ w < 2 ^ 32, (bits w 31 25 = 1 ∧ (27 ≤ bits w 4 0 ∨ bits w 9 5 ≠ 0 ∨ (18 ≤ bits w 4 0 ∧ bits w 4 0 ≤ 24 ∧ bits w 14 10 ≠ 0))) ∨
      (bits w 31 25 = 2 ∧ (8 ≤ bits w 4 0 ∨ bits w 9 5 ≠ 0)) ∨ (bits w 31 25 = 9 ∧ bits w 12 6 ≠ 0) ∨ (bits w 31 25 = 0x2A ∧ bits w 14 8 ≠ 0) ∨
      (bits w 31 25 = 0x2B ∧ bits w 14 0 ≠ 0) ∨ (bits w 31 25 = 0x2E ∧ (6 ≤ bits w 11 8 ∨ bits w 14 12 ≠ 0 ∨ bits w 19 15 ≠ 0)) →
    decodeTableWord 32 w = none)

/-- R72-R77, R109-R111: what the words that compute in registers write, with the tag. -/
def Obligations.RegisterWordResults : Prop :=
  Claims.AluFamilyResults ∧ Claims.MulFamilyResults ∧ Claims.ImmediateResults ∧ Claims.UpperImmediateResults ∧ Claims.TagAndRegionQueryResults ∧ Claims.RegisterWordEncodings

/-- R78-R80, R82, R83: the words of branches, jumps and the outcome queue, and those of their opcodes that are illegal. -/
def Sys2Proof.Claims.BranchWordEncodings : Prop :=
  (∀ (d a b : XReg) (off : BitVec 12) (j : BitVec 20) (imm : BitVec 15) (c : Nat) (i : Instr),
    ((c, i) ∈ [(0, Instr.beq a b off), (1, .bne a b off), (2, .blt a b off), (3, .bge a b off), (4, .bltu a b off), (5, .bgeu a b off)] →
      encode i = .w32 (0x10 * 2 ^ 25 + a.toNat * 2 ^ 20 + b.toNat * 2 ^ 15 + c * 2 ^ 12 + off.toNat)) ∧
    ((c, i) ∈ [(0, Instr.qbt off), (1, .qbf off)] → encode i = .w32 (0x13 * 2 ^ 25 + c * 2 ^ 12 + off.toNat)) ∧
    encode (.jl d j) = .w32 (0x11 * 2 ^ 25 + d.toNat * 2 ^ 20 + j.toNat) ∧
    encode (.jlr d a imm) = .w32 (0x12 * 2 ^ 25 + d.toNat * 2 ^ 20 + a.toNat * 2 ^ 15 + imm.toNat) ∧
    encode (.bout a) = .w32 (0x32 * 2 ^ 25 + a.toNat * 2 ^ 15)) ∧
  (∀ w < 2 ^ 32, (bits w 31 25 = 0x10 ∧ 6 ≤ bits w 14 12) ∨ (bits w 31 25 = 0x13 ∧ (2 ≤ bits w 14 12 ∨ bits w 24 15 ≠ 0)) ∨
    (bits w 31 25 = 0x32 ∧ (bits w 24 20 ≠ 0 ∨ bits w 14 0 ≠ 0)) → decodeTableWord 32 w = none)

/-- R78-R84: branches, jumps and the words of the outcome queue. -/
def Obligations.BranchJumpAndOutcomeWords : Prop :=
  Claims.BranchResults ∧ Claims.JumpResults ∧ Claims.OutcomeQueue ∧ Claims.BranchWordEncodings

namespace Sys2Proof.Claims

/-- The byte at an address as a core sees it through its data cache. -/
def coreByte (s : State) (core a : Nat) : Byte :=
  if (s.cache core).any (fun c => c.1 == a / 64) then (Tab.get {} (s.cache core) (a / 64)).byte (a % 64) else Mem.get s.mem a

/-- n bytes from an address, the least significant first (R2). -/
def leNat (f : Nat → Byte) (a : Nat) : Nat → Nat
  | 0 => 0
  | n + 1 => (f a).toNat + 256 * leNat f (a + 1) n

/-- From s to t memory changes only where bytes that the core has written in its cache are written back. -/
def WrittenBack (s t : State) (core : Nat) : Prop :=
  ∀ x, Mem.get t.mem x = Mem.get s.mem x ∨
    ∃ c ∈ s.cache core, c.1 = x / 64 ∧ c.2.dirty.getLsbD (x % 64) = true ∧ Mem.get t.mem x = c.2.byte (x % 64)

/-- The same outside n bytes from a. -/
def WrittenBackBut (s t : State) (core a n : Nat) : Prop :=
  ∀ x, x < a ∨ a + n ≤ x → Mem.get t.mem x = Mem.get s.mem x ∨
    ∃ c ∈ s.cache core, c.1 = x / 64 ∧ c.2.dirty.getLsbD (x % 64) = true ∧ Mem.get t.mem x = c.2.byte (x % 64)

/-- Every dirty byte of a core's cache has gone home, but those that a store of n bytes at a has covered. -/
def WroteAllBut (s t : State) (core a n : Nat) : Prop :=
  ∀ c ∈ s.cache core, ∀ j, c.2.dirty.getLsbD j = true → (64 * c.1 + j < a ∨ a + n ≤ 64 * c.1 + j) → Mem.get t.mem (64 * c.1 + j) = c.2.byte j

/-- What a thread's scalar access leaves alone beside memory and its core's cache: every register but the one it loads, its pair's other
thread and queues, but for the rows of the vector accesses before it, every other pair and every other field; and the PC has moved on. -/
def AccessFrame (s t : State) (p : Nat) (d : XReg) (v : Word) : Prop :=
  (∀ r, t.rx r = (s.wx d ⟨v, 255#8⟩).rx r) ∧ t.pc = s.nextPc ∧ t.thr.fflags = s.thr.fflags ∧ (∀ p', p' ≠ p → t.pair p' = s.pair p') ∧
  t = { s with mem := t.mem, pairs := t.pairs, caches := t.caches, fresh := t.fresh } ∧
  t.pair p = ((settleMe s).pair p).setThr s.meK ((s.thr.wr d ⟨v, 255#8⟩).retireAt s.nextPc)

/-- The forms of R98 that load: destination, base, offset, bytes, and whether the value is sign-extended. -/
def loadOf : Instr → Option (XReg × XReg × BitVec 15 × Nat × Bool)
  | .ldb d a o => some (d, a, o, 1, true)
  | .ldh d a o => some (d, a, o, 2, true)
  | .ldw d a o => some (d, a, o, 4, true)
  | .ldd d a o => some (d, a, o, 8, true)
  | .ldbu d a o => some (d, a, o, 1, false)
  | .ldhu d a o => some (d, a, o, 2, false)
  | .ldwu d a o => some (d, a, o, 4, false)
  | _ => none

/-- The forms of R98 that store: source, base, offset, bytes. -/
def storeOf : Instr → Option (XReg × XReg × BitVec 15 × Nat)
  | .stb x a o => some (x, a, o, 1)
  | .sth x a o => some (x, a, o, 2)
  | .stw x a o => some (x, a, o, 4)
  | .std x a o => some (x, a, o, 8)
  | _ => none

/-- n loaded bytes as a register takes them. -/
def fill (sg : Bool) (n v : Nat) : Word := if sg then mod64 (sext (8 * n) v) else BitVec.ofNat 64 v

/-- The effective address of an I-format or S-format word (R98). -/
def addrOf (s : State) (a : XReg) (o : BitVec 15) : Val := ⟨mod64 ((s.rx a).v.toNat + sext 15 o.toNat), (s.rx a).t⟩

/-- R101: registers, operand width and what an atomic writes, from the old value and, of the operand's width, xb and xd. -/
def amoOf (o b c : Nat) : Instr → Option (XReg × XReg × XReg × Scope × Order × Bool × Nat)
  | .amoAdd d a x sc r w => some (d, a, x, sc, r, w, (o + b) % 2 ^ (if w then 32 else 64))
  | .amoAnd d a x sc r w => some (d, a, x, sc, r, w, o &&& b)
  | .amoOr d a x sc r w => some (d, a, x, sc, r, w, o ||| b)
  | .amoXor d a x sc r w => some (d, a, x, sc, r, w, o ^^^ b)
  | .amoMin d a x sc r w => some (d, a, x, sc, r, w, if sext (if w then 32 else 64) o ≤ sext (if w then 32 else 64) b then o else b)
  | .amoMax d a x sc r w => some (d, a, x, sc, r, w, if sext (if w then 32 else 64) o ≤ sext (if w then 32 else 64) b then b else o)
  | .amoMinu d a x sc r w => some (d, a, x, sc, r, w, min o b)
  | .amoMaxu d a x sc r w => some (d, a, x, sc, r, w, max o b)
  | .amoSwap d a x sc r w => some (d, a, x, sc, r, w, b)
  | .amoCas d a x sc r w => some (d, a, x, sc, r, w, if o = c then b else o)
  | .sigadd d a x sc r => some (d, a, x, sc, r, false, (o + b) % 2 ^ 64)
  | _ => none

/-- R101: the members that host memory carries: doubleword add, swap and cas. -/
def hostAtomic : Instr → Bool
  | .amoAdd _ _ _ _ _ w => !w
  | .amoSwap _ _ _ _ _ w => !w
  | .amoCas _ _ _ _ _ w => !w
  | .sigadd _ _ _ _ _ => true
  | _ => false

end Sys2Proof.Claims

/-! ## Memory words -/

/-- R94, R95, R96: the checks of a pair's access in their order. A misaligned address is 0x06; one that meets the device registers is
0x0F; an untagged A-thread access to the local scratchpad alias passes; every other access needs a region (region 0 when untagged)
that covers it, admits it and is RESIDENT: outside it, or against its kind or permissions, or RETIRED, it is a bounds trap; a region
that is MOVING makes it wait for the move, and one that is ABSENT, ARRIVING or EVICTING makes it stall. -/
def Obligations.AccessChecksInOrder : Prop :=
  ∀ (s : State) (p : Nat) (k : Kind) (acc : Acc) (a : Word) (n : Nat) (tag : Tag) (el : BitVec 32),
    let r := if tag = 255#8 then 0 else tag.toNat
    let e := s.region (s.pair p).ctx.toNat r
    let c := checkPair s p k acc a n tag el
    let aligned := a.toNat % n = 0
    let dev := Config.devBase < a.toNat + n ∧ a.toNat < Config.devTop
    let alias_ := tag = 255#8 ∧ k = .A ∧ Config.localBase ≤ a.toNat ∧ a.toNat + n ≤ Config.localTop
    let inside := e.size ≠ 0#48 ∧ e.base.toNat ≤ a.toNat ∧ a.toNat + n ≤ e.base.toNat + e.size.toNat
    let admits := match acc with
      | .load => e.pr = true ∧ e.kind ≠ 3#2
      | .store => e.pw = true ∧ e.kind = 0#2
      | .atomic => e.pr = true ∧ e.pw = true ∧ e.kind = 0#2
    (¬ aligned → c = trapR 0x06#8 a el) ∧
    (aligned → dev → c = trapR 0x0F#8 a el) ∧
    (aligned → ¬ dev → alias_ → ∃ l, c = .ok l) ∧
    (aligned → ¬ dev → ¬ alias_ → ¬ (inside ∧ admits) → c = trapR 0x05#8 a el) ∧
    (aligned → ¬ dev → ¬ alias_ → inside → admits →
      (e.st = .resident → ∃ l, c = .ok l) ∧ (e.st = .retired → c = trapR 0x05#8 a el) ∧ (e.st = .moving → c = stallR (.move r)) ∧
      (e.st = .absent ∨ e.st = .arriving ∨ e.st = .evicting → c = stallR (.region r)))

/-- R98, R104: a thread's plain load whose access passes its checks completes: xd takes the bytes at the home, extended as the form
says, untagged. An HBM access reads what the core sees through its data cache; any other reads memory. Nothing else changes but
dirty bytes of the core's cache that are written back. -/
def Sys2Proof.Claims.PlainLoadResults : Prop :=
  ∀ (i : Instr) (s : State) (p : Nat) (k : Kind) (d a : XReg) (o : BitVec 15) (n : Nat) (sg : Bool) (l : Loc) (h : Nat),
    loadOf i = some (d, a, o, n, sg) → Runs i s (.thr p k) → k ≠ .F → Memory.wf s.mem = true →
    checkMe s .load (addrOf s a o) n = .ok l → l.home = some h →
    let s0 := settleMe s
    let v := if l.cached then leNat (coreByte s0 s.core) h n else Mem.getLE (dropLine s0 l).mem h n
    ∃ t, exec i s = .next t ∧ AccessFrame s t p d (fill sg n v) ∧ WrittenBack s0 t s.core

/-- R98, R104: a thread's plain store whose access passes its checks completes. In HBM the core then sees the bytes of xs at the
address, and its line unchanged elsewhere; anywhere else memory holds them. No other byte of memory changes, but dirty bytes that
are written back; no register changes. -/
def Sys2Proof.Claims.PlainStoreResults : Prop :=
  ∀ (i : Instr) (s : State) (p : Nat) (k : Kind) (x a : XReg) (o : BitVec 15) (n : Nat) (l : Loc) (h : Nat),
    storeOf i = some (x, a, o, n) → Runs i s (.thr p k) → k ≠ .F → Memory.wf s.mem = true →
    checkMe s .store (addrOf s a o) n = .ok l → l.home = some h →
    let s0 := settleMe s
    ∃ t, exec i s = .next t ∧ AccessFrame s t p 0#5 0#64 ∧
      (l.cached = true → WrittenBack s0 t s.core ∧ leNat (coreByte t s.core) h n = (s.rx x).v.toNat % 256 ^ n ∧
        ∀ b, b / 64 = h / 64 → b < h ∨ h + n ≤ b → coreByte t s.core b = coreByte s0 s.core b) ∧
      (l.cached = false → WrittenBackBut s0 t s.core h n ∧ Mem.getLE t.mem h n = (s.rx x).v.toNat % 256 ^ n)

/-- R98, R104: plain loads and stores. -/
def Obligations.PlainLoadAndStoreResults : Prop :=
  Claims.PlainLoadResults ∧ Claims.PlainStoreResults

/-- R100: an ordered access at scope cluster or wider passes the data cache: the load takes the bytes at the home after the core's own
line is written back, and an acquire then leaves no clean or partly dirty line; the store puts them there, a release after every dirty
line is written back. Nothing else changes. -/
def Obligations.OrderedAccessResults : Prop :=
  ∀ (s : State) (p : Nat) (k : Kind) (d a b : XReg) (sc : Scope) (ord : Order) (sz : BitVec 3) (l : Loc) (h : Nat),
    k ≠ .F → Memory.wf s.mem = true → sc ≠ .pair → l.home = some h →
    let n := if sz.toNat < 4 then 2 ^ sz.toNat else 2 ^ (sz.toNat - 4)
    let s0 := settleMe s
    (Runs (.ldo d a sc ord sz) s (.thr p k) → checkMe s .load (s.rx a) n = .ok l →
      ∃ t, exec (.ldo d a sc ord sz) s = .next t ∧ WrittenBack s0 t s.core ∧
        AccessFrame s t p d (fill (decide (sz.toNat < 4)) n (Mem.getLE (dropLine s0 l).mem h n)) ∧
        (ord.hasAcq = true → ∀ c ∈ t.cache s.core, c.2.dirty = BitVec.allOnes 64)) ∧
    (Runs (.sto a b sc ord sz) s (.thr p k) → sz.toNat < 4 → checkMe s .store (s.rx a) n = .ok l →
      ∃ t, exec (.sto a b sc ord sz) s = .next t ∧ AccessFrame s t p 0#5 0#64 ∧ WrittenBackBut s0 t s.core h n ∧
        Mem.getLE t.mem h n = (s.rx b).v.toNat % 256 ^ n ∧ (ord.hasRel = true → ∀ c ∈ t.cache s.core, c.2.dirty = 0#64) ∧
        (ord.hasRel = true → Tab.risingFrom 0 (s.cache s.core) = true → WroteAllBut s0 t s.core h n))

/-- R101, R253: an atomic whose access passes its checks completes at the home in one action: the home takes the member's result for
the old value and the operand, xd the old value (a word sign-extended). No other byte of memory changes, but dirty bytes that are
written back. On host memory a member that PCIe does not carry traps 0x05 with the address, and memory is unchanged. -/
def Obligations.AtomicResults : Prop :=
  ∀ (i : Instr) (s : State) (p : Nat) (k : Kind) (d a x : XReg) (sc : Scope) (ord : Order) (w : Bool) (new_ : Nat) (l : Loc) (h : Nat),
    let n := if w then 4 else 8
    let s1 := before (dropLine (settleMe s) l) (if inLocal (s.rx a).v.toNat 1 ∧ sc ≠ .pair then .cluster else sc) ord.hasRel
    let old := Mem.getLE s1.mem h n
    amoOf old ((s.rx x).v.toNat % 2 ^ (8 * n)) ((s.rx d).v.toNat % 2 ^ (8 * n)) i = some (d, a, x, sc, ord, w, new_) →
    Runs i s (.thr p k) → k ≠ .F → Memory.wf s.mem = true → checkMe s .atomic (s.rx a) n = .ok l → l.home = some h →
    (∀ c ∈ s.cache s.core, 64 * c.1 < Config.peerBase) →
    ((l.isHost = true → hostAtomic i = true) → ∃ t, exec i s = .next t ∧ AccessFrame s t p d (mod64 (sext (8 * n) old)) ∧
      WrittenBackBut (settleMe s) t s.core h n ∧ Mem.getLE t.mem h n = new_) ∧
    (l.isHost = true → hostAtomic i = false → exec i s = .next (s.trap 0x05#8 (s.rx a).v 0#32))

/-- R103, R46, R104: a fence writes every dirty byte of the core back when it releases at scope cluster or wider, or with `.eng`, and
leaves only lines that the core has written whole when it acquires there; with `.eng` it completes once the engine work that the pair had
issued when the fence began is done, and waits until then. `sync` is the full fence of them all, and counts as deprecated. No register changes, and no other byte
of memory. -/
def Sys2Proof.Claims.FenceEffects : Prop :=
  ∀ (i : Instr) (s : State) (p : Nat) (k : Kind) (sc : Scope) (eng acq rel : Bool),
    (i, acq, rel) ∈ [(.fence sc eng, true, true), (.fenceAcq sc eng, true, false), (.fenceRel sc eng, false, true)] ∨
      (i = .sync ∧ sc = .sys ∧ eng = true ∧ acq = true ∧ rel = true) →
    Runs i s (.thr p k) → k ≠ .F → Memory.wf s.mem = true → Tab.risingFrom 0 (s.cache s.core) = true →
    let s0 := settleMe s
    ((eng = true → enginesIdle s p (fenceBegan s) = true) → ∃ t, exec i s = .next t ∧ WrittenBack s0 t s.core ∧
      (∀ r, t.rx r = s.rx r) ∧ t.pc = s.nextPc ∧ (∀ p', p' ≠ p → t.pair p' = s.pair p') ∧ t.dies = s.dies ∧
      (rel = true → (eng = true ∨ sc ≠ .pair) → ∀ c ∈ s0.cache s.core, ∀ j, c.2.dirty.getLsbD j = true →
        Mem.get t.mem (64 * c.1 + j) = c.2.byte j) ∧
      (rel = true → (eng = true ∨ sc ≠ .pair) → ∀ c ∈ t.cache s.core, c.2.dirty = 0#64) ∧
      (acq = true → sc ≠ .pair → ∀ c ∈ t.cache s.core, c.2.dirty = BitVec.allOnes 64)) ∧
    (eng = true → enginesIdle s p (fenceBegan s) = false → ∃ t, exec i s = .next t ∧ t.pc = s.pc ∧ SameMem s t ∧ ∀ r, t.rx r = s.rx r)

/-- R106, R107, R108, R46: slot words. `ldslot` yields an absolute word's value with its region's tag, or the current base plus the
offset of an offset-form word; a reserved bit, or an offset form without a region, traps 0x05 with the word. `stslot` stores the
absolute form of an untagged value and the offset form of a tagged one. `ldslot32` does as `ldslot` with a 32-bit slot. -/
def Sys2Proof.Claims.SlotWordResults : Prop :=
  ∀ (s : State) (p : Nat) (k : Kind) (d a x : XReg) (o : BitVec 15) (s1 : State) (w : Nat),
    k ≠ .F →
    let c := (s.pair p).ctx.toNat
    let r := bits w 59 52
    let e := s.region c r
    let v := s.rx x
    let f := s.region c v.t.toNat
    let abs := 255 * 2 ^ 52 + v.v.toNat % 2 ^ 52
    let off := 2 ^ 63 + v.t.toNat * 2 ^ 52 + ((v.v.toNat : Int) - f.base.toNat) % 2 ^ 52
    (Runs (.ldslot d a o) s (.thr p k) → w < 2 ^ 64 → plainLoad s (addrOf s a o) 8 = .ok (s1, w) →
      (bits w 62 60 = 0 → bitOf w 63 = false →
        exec (.ldslot d a o) s = .next ((s1.wx d ⟨BitVec.ofNat 64 (w % 2 ^ 52), BitVec.ofNat 8 r⟩).retire)) ∧
      (bits w 62 60 = 0 → bitOf w 63 = true → r ≠ 255 → e.st ≠ .moving →
        exec (.ldslot d a o) s = .next ((s1.wx d ⟨BitVec.ofNat 64 ((e.base.toNat + w % 2 ^ 52) % 2 ^ 52), BitVec.ofNat 8 r⟩).retire)) ∧
      (bits w 62 60 ≠ 0 ∨ (bitOf w 63 = true ∧ r = 255) → exec (.ldslot d a o) s = .next (s.trap 0x05#8 (BitVec.ofNat 64 w) 0#32))) ∧
    (Runs (.stslot x a o) s (.thr p k) → (v.t = 255#8 ∨ f.st ≠ .moving) →
      plainStore s (addrOf s a o) 8 (if v.t = 255#8 then abs else off.toNat) = .ok s1 →
      exec (.stslot x a o) s = .next s1.retire) ∧
    (Runs (.ldslot32 d a o) s (.thr p k) → w < 2 ^ 32 → plainLoad s (addrOf s a o) 4 = .ok (s1, w) → bits w 31 24 ≠ 255 →
      (s.region c (bits w 31 24)).st ≠ .moving →
      ∃ t, exec (.ldslot32 d a o) s = .next t ∧ t.mem = s1.mem ∧ t.pc = s.nextPc ∧
        ∀ j, t.rx j = (s.wx d ⟨BitVec.ofNat 64 (((s.region c (bits w 31 24)).base.toNat + bits w 23 0 * 256) % 2 ^ 52),
          BitVec.ofNat 8 (bits w 31 24)⟩).rx j)

/-- R46, R103, R106-R108: fences, and the loads and stores of slot words. -/
def Obligations.FenceAndSlotWordResults : Prop :=
  Claims.FenceEffects ∧ Claims.SlotWordResults

namespace Sys2Proof.Claims

/-- R18, R113: no move, debugger's stop or soft pre-emption waits for the thread that has the turn. -/
def NothingDue (s : State) (p : Nat) : Prop :=
  (s.pair p).movePend = [] ∧ (s.pair p).softPend = false ∧
    (((s.pair p).dbgPend ≠ 1 ∧ (s.pair p).dbgPend ≠ 3) ∨ s.thr.atSafe = true)

/-- R167: no partition change takes effect at the next `setvl` of thread k. -/
def NoChangeDue (s : State) (p : Nat) (k : Kind) : Prop :=
  k = .X → (s.pair p).pend = true → ∀ e set rest, (s.pair p).parts = (e, set) :: rest → e ≠ s.thr.strip.toNat + 1

/-- R162: the grant on g lane groups. -/
def grantOf (g : Nat) (sew lmul avl xb : Nat) : Nat :=
  let vlmax := 512 * g * 2 ^ lmul / (4 * 2 ^ sew)
  min avl (min vlmax (if xb = 0 then vlmax else xb))

/-- R167: the lane groups in force for an ordinal: those of the latest change whose effective ordinal has come. -/
def groupsAt (parts : List (Nat × List Nat)) (n : Nat) : List Nat :=
  match parts.find? (fun e => decide (e.1 ≤ n)) with
  | some e => e.2
  | none => []

/-- R170: the entry a dispatch of the X thread appends for a block at address v of region r with base b. -/
def blockOf (t : Thread) (v : Word) (r : Tag) (b : BitVec 52) : Blk :=
  { rgn := r, off := BitVec.ofInt 52 ((v.toNat : Int) - b.toNat), b := Vector.ofFn (fun j => (t.rd (BitVec.ofNat 5 (24 + j.val))).v),
    vl := t.vl, vtype := t.vtype, rc := t.rc, strip := t.strip, spc := t.strippc, soff := t.soff }

end Sys2Proof.Claims

/-! ## Strips, blocks and safe points -/

/-- R162, R167, R161: `setvl`, when no action is due at its safe point, grants VL under the lane groups in force for the ordinal it
begins, sets VTYPE, VSTART, STRIP and STRIPPC, and writes VL to xd. No other register changes; and no memory when the die records no
trace and no further partition change waits to be posted. -/
def Sys2Proof.Claims.SetvlResults : Prop :=
  ∀ (s : State) (p : Nat) (k : Kind) (d a b : XReg) (blk : BitVec 3) (lmul : BitVec 2) (sew : BitVec 3),
    Runs (.setvl d a b blk lmul sew) s (.thr p k) → k ≠ .F → s.thr.incue = false → NothingDue s p → NoChangeDue s p k →
    let n := (s.thr.strip + 1#64).toNat
    let vl := grantOf (groupsAt (s.pair p).parts n).length sew.toNat lmul.toNat (s.rx a).v.toNat (s.rx b).v.toNat
    ∃ t, exec (.setvl d a b blk lmul sew) s = .next t ∧ (∀ r, t.rx r = (s.wx d ⟨BitVec.ofNat 64 vl, 255#8⟩).rx r) ∧
      t.thr.vl = BitVec.ofNat 14 vl ∧ t.thr.vtype.toNat = blk.toNat * 32 + lmul.toNat * 8 + sew.toNat ∧ t.thr.vstart = 0#13 ∧
      t.thr.strip = s.thr.strip + 1#64 ∧ t.thr.strippc = s.pc ∧ t.thr.rc = s.thr.rc ∧ t.thr.fflags = s.thr.fflags ∧ t.pc = s.nextPc ∧
      (∀ p', p' ≠ p → t.pair p' = s.pair p') ∧ (k = .A ∨ ((s.die (dieOf p)).trctl.getLsbD 20 = false ∧ (s.pair p).later = []) → SameMem s t) ∧
      (t.pair p).owned = (s.pair p).owned ∧ (t.pair p).blocks = (s.pair p).blocks

/-- R164, R167 step 3: an X thread whose partition change is due waits at its `setvl` while it has blocks in its queue; then it owns exactly
the new groups, when each group it must take is free; LPR names it for those it has taken, and nobody for those it has given up, or 6 for
one that a pair of the cluster has lent. The change is no longer pending. -/
def Sys2Proof.Claims.PartitionChangeAtSetvl : Prop :=
  ∀ (s : State) (p : Nat) (d a b : XReg) (blk : BitVec 3) (lmul : BitVec 2) (sew : BitVec 3) (e : Nat) (set : List Nat)
    (rest : List (Nat × List Nat)),
    Runs (.setvl d a b blk lmul sew) s (.thr p .X) → s.thr.incue = false → NothingDue s p →
    (s.pair p).pend = true → (s.pair p).parts = (e, set) :: rest → e = s.thr.strip.toNat + 1 →
    ((s.pair p).blocks ≠ [] → ∃ t, exec (.setvl d a b blk lmul sew) s = .next t ∧ OnlyPair s t p ∧ t.pc = s.pc ∧
      t.thr.strip = s.thr.strip ∧ (t.pair p).owned = (s.pair p).owned ∧ (t.pair p).pend = true) ∧
    ((s.pair p).blocks = [] → (s.pair p).lender = none →
      (∀ g ∈ set, g < 8 ∧ (g ∉ (s.pair p).owned → groupFree s (clusterOf p) g = true)) → s.thr.strip.toNat + 1 < 2 ^ 64 →
      ∃ t, exec (.setvl d a b blk lmul sew) s = .next t ∧ t.thr.strip = s.thr.strip + 1#64 ∧ t.pc = s.nextPc ∧
        (t.pair p).owned = set ∧ ((s.pair p).later = [] → (∀ g ∈ (s.pair p).owned, g ∈ set) → (t.pair p).pend = false) ∧
        (∀ g ∈ (s.pair p).owned, g < 8 → g ∉ set → (t.cluster (clusterOf p)).lpr.getD g 7#3 =
          if (List.range 4).any (fun k => (s.pair (4 * clusterOf p + k)).lent.contains g) && (s.cluster (clusterOf p)).mask.getLsbD g then 6#3 else 7#3) ∧
        ∀ g ∈ set, g ∉ (s.pair p).owned → ((t.cluster (clusterOf p)).lpr.getD g 7#3).toNat = slotOf p)

/-- R161, R162, R167: a `setvl` and the partition change that takes effect at it. -/
def Obligations.StripResults : Prop :=
  Claims.SetvlResults ∧ Claims.PartitionChangeAtSetvl

/-- R169, R172, R113, R297, R298, R112: the words that only pass a safe point or a wait. With nothing due, `safept`, `yield` (where no
launch needs the group's place) and `park` (where no cue could end it) move on; `setrc` sets RC and nothing else; `vwait` moves on
once the block queue is empty and waits until then; `racq` of a RESIDENT region moves on, leaving no line of the region in the core's
cache but those it has written whole. -/
def Sys2Proof.Claims.SafePointWords : Prop :=
  ∀ (s : State) (p : Nat) (k : Kind) (n : BitVec 4) (r : BitVec 8), k ≠ .F → NothingDue s p →
    let done := s.retire
    let e := s.region (s.pair p).ctx.toNat r.toNat
    (Runs .safept s (.thr p k) → exec .safept s = .next done) ∧
    (Runs .yield s (.thr p k) → groupOf s p = none ∨ (∀ g, groupOf s p = some g → wantsPlace s p g = false) → exec .yield s = .next done) ∧
    (Runs .park s (.thr p k) → s.thr.incue = false → (s.thr.cuevec.getLsbD 63 = false ∨ s.thr.cuearm = 0#64) →
      exec .park s = .next done) ∧
    (Runs .park s (.thr p k) → s.thr.incue = false → s.thr.cuevec.getLsbD 63 = true → s.thr.cuearm ≠ 0#64 →
      ∃ t, exec .park s = .next t ∧ OnlyPair s t p ∧ t.pc = s.pc ∧ t.thr.parkWait = true ∧ ∀ j, t.rx j = s.rx j) ∧
    (Runs (.setrc n) s (.thr p k) → ∃ t, exec (.setrc n) s = .next t ∧ OnlyPair s t p ∧ t.thr = { s.thr with rc := n }.retireAt s.nextPc ∧
      (t.pair p).blocks = (s.pair p).blocks) ∧
    (Runs .vwait s (.thr p k) → (s.pair p).blocks = [] → exec .vwait s = .next done) ∧
    (Runs .vwait s (.thr p k) → (s.pair p).blocks ≠ [] → ∃ t, exec .vwait s = .next t ∧ OnlyPair s t p ∧ t.pc = s.pc) ∧
    (Runs (.racq r) s (.thr p k) → r ≠ 255#8 → e.size ≠ 0#48 → e.st = .resident → Memory.wf s.mem = true →
      ∃ t, exec (.racq r) s = .next t ∧ WrittenBack (settleMe s) t s.core ∧ (∀ j, t.rx j = s.rx j) ∧ t.pc = s.nextPc ∧
        ∀ c ∈ t.cache s.core, c.2.dirty = BitVec.allOnes 64 ∨ 64 * c.1 + 64 ≤ e.base.toNat ∨ e.base.toNat + e.size.toNat ≤ 64 * c.1) ∧
    (Runs (.racq r) s (.thr p k) → (r = 255#8 ∨ e.size = 0#48 ∨ e.st = .retired) →
      exec (.racq r) s = .next (s.trap 0x05#8 (BitVec.ofNat 64 r.toNat) 0#32))

/-- R18, R113: at a safe point with a move pending the thread parks there, before its word, keeping its registers and its PC, whatever
else is due. -/
def Sys2Proof.Claims.SafePointParksForMove : Prop :=
  ∀ (i : Instr) (s : State) (p : Nat) (k : Kind), Runs i s (.thr p k) → k ≠ .F → (s.pair p).movePend ≠ [] →
    (i = .safept ∨ i = .yield ∨ (i = .park ∧ s.thr.incue = false) ∨ (∃ d a b blk lmul sew, i = .setvl d a b blk lmul sew ∧ s.thr.incue = false)) →
    ∃ t, exec i s = .next t ∧ OnlyPair s t p ∧ t.thr.halt = .move ∧ t.pc = s.pc ∧ t.thr.retired = s.thr.retired ∧
      t.thr.strip = s.thr.strip ∧ ∀ r, t.rx r = s.rx r

/-- R18, R112, R113, R169, R172, R297, R298: what the words at safe points do, and that a thread marked for a move parks there. -/
def Obligations.SafePointResults : Prop :=
  Claims.SafePointWords ∧ Claims.SafePointParksForMove

/-- R170, R46: a dispatch appends a block with the block scalars of x24 to x31 and the strip's shape, and moves on; with VL 0 it
dispatches nothing; a full block queue makes it wait; a target that is misaligned, outside its code region, or a tile too large for
the lane groups traps before any effect. `vfetchw` dispatches the block once, waits, and moves on when the block queue is empty. -/
def Obligations.BlockDispatchResults : Prop :=
  ∀ (s : State) (p : Nat) (a : XReg) (imm : BitVec 15) (off : BitVec 20),
    let q := s.pair p
    let t8 : Val := ⟨mod64 (s.pc.v.toNat + 8 * sext 20 off.toNat), s.pc.t⟩
    let ta := addrOf s a imm
    let runs : Instr → Val → Prop := fun i t =>
      let e := s.region q.ctx.toNat t.t.toNat
      let inside := t.t ≠ 255#8 ∧ e.size ≠ 0#48 ∧ e.base.toNat ≤ t.v.toNat ∧ t.v.toNat < e.base.toNat + e.size.toNat ∧ e.kind = 1#2 ∧ e.px = true
      let n := q.x.rc.toNat * q.x.vl.toNat
      let fits := n ≤ 1024 * (if q.lent = [] then groupsAt q.parts q.x.strip.toNat else []).length
      Runs i s (.thr p .X) → q.x.incue = false → q.x.fetched = false →
      (t.v.toNat % 8 ≠ 0 → exec i s = .next (s.trap 0x06#8 t.v 0#32)) ∧
      (t.v.toNat % 8 = 0 → ¬ inside → exec i s = .next (s.trap 0x05#8 t.v 0#32)) ∧
      (t.v.toNat % 8 = 0 → inside → ¬ fits → exec i s = .next (s.trap 0x01#8 (BitVec.ofNat 64 n) 0#32)) ∧
      (t.v.toNat % 8 = 0 → inside → fits → q.x.vl ≠ 0#14 → q.pl.slip ≤ q.blocks.length →
        ∃ u, exec i s = .next u ∧ OnlyPair s u p ∧ u.pc = s.pc ∧ (u.pair p).blocks = q.blocks) ∧
      (t.v.toNat % 8 = 0 → inside → fits → q.x.vl ≠ 0#14 → q.blocks.length < q.pl.slip →
        ∃ u, exec i s = .next u ∧ OnlyPair s u p ∧ (u.pair p).blocks = q.blocks ++ [blockOf q.x t.v t.t e.base] ∧
          (i ≠ .vfetchw off → u.pair p = { q with blocks := q.blocks ++ [blockOf q.x t.v t.t e.base], x := q.x.retireAt s.nextPc }) ∧
          (i = .vfetchw off → u.pc = s.pc ∧ u.thr.fetched = true))
    runs (.vfetch off) t8 ∧ runs (.vfetchr a imm) ta ∧ runs (.vfetchw off) t8 ∧
    (Runs (.vfetch off) s (.thr p .X) → q.x.incue = false → q.x.vl = 0#14 → t8.v.toNat % 8 = 0 → t8.t ≠ 255#8 →
      (s.region q.ctx.toNat t8.t.toNat).covers t8.v.toNat 1 = true → (s.region q.ctx.toNat t8.t.toNat).kind = 1#2 →
      (s.region q.ctx.toNat t8.t.toNat).px = true → exec (.vfetch off) s = .next s.retire) ∧
    (Runs (.vfetchw off) s (.thr p .X) → q.x.incue = false → q.x.fetched = true → q.blocks = [] →
      ∃ u, exec (.vfetchw off) s = .next u ∧ SameMem s u ∧ u.pair p = { q with x := q.x.retireAt s.nextPc } ∧
        ((u.ctx q.ctx.toNat).depcnt.getD (dieOf p) 0#64).toNat =
          min (2 ^ 64 - 1) (((s.ctx q.ctx.toNat).depcnt.getD (dieOf p) 0#64).toNat + 1))

/-- R253, R254: `sigset` puts xb at the signal's home, with release order at a scope wider than the pair after every dirty line of its
core is written back; a wait whose signal meets its condition takes the value and, with acquire order
at a scope wider than the pair, leaves no line but those the core has written whole; a wait that is not met stays where it is and
writes no register. No other byte of memory changes, but dirty bytes that are written back. -/
def Sys2Proof.Claims.SignalResults : Prop :=
  ∀ (s : State) (p : Nat) (k : Kind) (d a b : XReg) (sc : Scope) (ord : Order) (eq : Bool) (l : Loc) (h : Nat),
    k ≠ .F → Memory.wf s.mem = true → l.home = some h →
    let s0 := settleMe s
    let i : Instr := if eq then .sigweq d a b sc ord else .sigwge d a b sc ord
    let v := Mem.getLE (dropLine s0 l).mem h 8
    let x := (s.rx b).v.toNat
    (Runs (.sigset a b sc ord) s (.thr p k) → checkMe s .store (s.rx a) 8 = .ok l →
      ∃ t, exec (.sigset a b sc ord) s = .next t ∧ AccessFrame s t p 0#5 0#64 ∧ WrittenBackBut s0 t s.core h 8 ∧ Mem.getLE t.mem h 8 = x ∧
        (ord.hasRel = true → sc ≠ .pair → Tab.risingFrom 0 (s.cache s.core) = true → WroteAllBut s0 t s.core h 8 ∧ ∀ c ∈ t.cache s.core, c.2.dirty = 0#64)) ∧
    (Runs i s (.thr p k) → checkMe s .load (s.rx a) 8 = .ok l → (if eq then v = x else x ≤ v) →
      ∃ t, exec i s = .next t ∧ AccessFrame s t p d (BitVec.ofNat 64 v) ∧ WrittenBack s0 t s.core ∧
        (ord.hasAcq = true → sc ≠ .pair → ∀ c ∈ t.cache s.core, c.2.dirty = BitVec.allOnes 64)) ∧
    (Runs i s (.thr p k) → checkMe s .load (s.rx a) 8 = .ok l → ¬ (if eq then v = x else x ≤ v) → NothingDue s p →
      ∃ t, exec i s = .next t ∧ t.pc = s.pc ∧ (∀ r, t.rx r = s.rx r) ∧ t.thr.retired = s.thr.retired ∧ WrittenBack s0 t s.core)

/-- R250, R251: the first time a thread reaches a `bar` it counts it and writes its core's dirty lines back; once every participant
has arrived it moves on, its core's cache holding no line; until then it waits with the count it has reached. No other byte of memory and no
other pair changes. -/
def Sys2Proof.Claims.BarrierResults : Prop :=
  ∀ (s : State) (p : Nat) (k : Kind), k ≠ .F → Runs .bar s (.thr p k) → (s.pair p).st = .running → s.thr.inBar = false →
    Memory.wf s.mem = true →
    let n := (s.thr.barcount + 1#32).toNat
    let others := (cohort s p).all (fun m => m == p || arrived (s.pair m) k n)
    let wrote := fun t : State => WrittenBack (settleMe s) t s.core ∧ (Tab.risingFrom 0 (s.cache s.core) = true → WroteAllBut (settleMe s) t s.core 0 0)
    (others = true → ∃ t, exec .bar s = .next t ∧ t.thr.barcount = s.thr.barcount + 1#32 ∧ t.thr.inBar = false ∧ t.pc = s.nextPc ∧
      t.cache s.core = [] ∧ (∀ r, t.rx r = s.rx r) ∧ wrote t ∧ ∀ p', p' ≠ p → t.pair p' = s.pair p') ∧
    (others = false → NothingDue s p → ∃ t, exec .bar s = .next t ∧ t.thr.barcount = s.thr.barcount + 1#32 ∧ t.thr.inBar = true ∧
      t.pc = s.pc ∧ (∀ c ∈ t.cache s.core, c.2.dirty = 0#64) ∧ (∀ r, t.rx r = s.rx r) ∧ wrote t ∧ ∀ p', p' ≠ p → t.pair p' = s.pair p')

/-- R250, R251, R253, R254: the signal members and the barrier. -/
def Obligations.SignalAndBarrierResults : Prop :=
  Claims.SignalResults ∧ Claims.BarrierResults

namespace Sys2Proof.Claims

/-- R296: the CSRs a thread reads, with what each holds. -/
def csrTable (s : State) (p : Nat) (k : Kind) : List (Nat × Word) :=
  let q := s.pair p
  let t := q.thr k
  let c := s.ctx q.ctx.toNat
  let low := if q.lent = [] then ((List.range 8).find? (setFor q.parts t.strip.toNat).contains).getD 0 else 0
  [(0x008, BitVec.ofNat 64 (p % 4 * 4096 + low * 512 + p % 160 / 4 * 8 + p / 160 % 8)),
   (0x009, BitVec.ofNat 64 (q.pl.csz * 4096 + q.pl.cpos * 1024 + q.pl.last * 16 + q.pl.stg)),
   (0x00B, BitVec.ofNat 64 ((List.range 8).map (fun g => ((s.cluster (clusterOf p)).lpr.getD g 7#3).toNat * 8 ^ g)).sum),
   (0x015, if c.depadv.getLsbD (dieOf p) then 1#64 else 0#64),
   (0x001, BitVec.ofNat 64 t.vl.toNat), (0x002, BitVec.ofNat 64 t.vtype.toNat), (0x003, if k = .A then 1#64 else BitVec.ofNat 64 t.rc.toNat),
   (0x004, BitVec.ofNat 64 t.vstart.toNat), (0x005, t.strip), (0x006, BitVec.ofNat 64 (t.strippc.v.toNat % 2 ^ 52)),
   (0x007, BitVec.ofNat 64 t.fflags.toNat), (0x00A, BitVec.ofNat 64 q.ctx.toNat), (0x00C, BitVec.ofNat 64 q.want.toNat),
   (0x00D, BitVec.ofNat 64 (s.cluster (clusterOf p)).mask.toNat), (0x00E, BitVec.ofNat 64 t.stallmax.toNat), (0x010, q.slipS), (0x011, q.slipV),
   (0x012, q.slipM), (0x013, q.slipO), (0x014, (s.ctx q.ctx.toNat).depcnt.getD (dieOf p) 0#64), (0x020, t.cuevec),
   (0x021, BitVec.ofNat 64 t.cuecause.toNat), (0x022, BitVec.ofNat 64 (t.cuepc.v.toNat % 2 ^ 52)), (0x023, t.cuearm), (0x024, t.cuesig), (0x025, t.cueval),
   (0x040, BitVec.ofNat 64 t.tcause.toNat), (0x041, t.tval), (0x042, BitVec.ofNat 64 (t.tpc.v.toNat % 2 ^ 52)), (0x043, BitVec.ofNat 64 t.telem.toNat),
   (0x060, s.cycle), (0x061, t.retired)] ++ (if k = .A then [(0x050, t.wberr)] else []) ++
    (List.range 16).map (fun j => (0x030 + j, c.pcm.getD j 0#64))

/-- The bits of each CSR that a thread writes as they are given (R296): the others of a writable CSR are reserved. -/
def csrMasks (k : Kind) : List (Nat × Nat) :=
  [(0x004, 2 ^ 13 - 1), (0x007, 31), (0x020, 0x8FFFFFFFFFFFFFFC), (0x024, 0x8FFFFFFFFFFFFFFF), (0x025, 2 ^ 64 - 1)] ++
    (if k = .A then [(0x050, 0x7F0F000003FF)] else [])

/-- The CSR numbers that a thread may only read (R296). -/
def csrReadOnly (n : Nat) : Prop :=
  (1 ≤ n ∧ n ≤ 3) ∨ n = 5 ∨ n = 6 ∨ (8 ≤ n ∧ n ≤ 0xB) ∨ n = 0xD ∨ (0x10 ≤ n ∧ n ≤ 0x15) ∨ n = 0x21 ∨ n = 0x22 ∨ (0x30 ≤ n ∧ n ≤ 0x3F) ∨
    (0x40 ≤ n ∧ n ≤ 0x43) ∨ n = 0x60 ∨ n = 0x61

/-- R41, R44, R46: the kinds of thread that may run a scalar word, by its opcode and, for a push, its queue. -/
def kindsOf (op queue : Nat) : List Kind :=
  if op ∈ [0x13, 0x31, 0x34, 0x35, 0x36, 0x37, 0x60, 0x63] ∨ (op = 0x30 ∧ queue = 3) then [.X]
  else if (0x38 ≤ op ∧ op ≤ 0x49) ∨ op = 0x30 ∨ op = 0x32 then [.A]
  else if op = 0x51 ∨ (0x5C ≤ op ∧ op ≤ 0x5F) then [.F]
  else if (0x28 ≤ op ∧ op ≤ 0x2E) ∨ op = 0x33 ∨ (0x4C ≤ op ∧ op ≤ 0x50) ∨ (0x53 ≤ op ∧ op ≤ 0x56) ∨ op = 0x58 ∨ op = 0x61 then [.A, .X]
  else [.A, .X, .F]

/-- The bits of CUEARM that a thread holds (R318): those of streams and channels are an A thread's alone. -/
def cueArmBits (k : Kind) : Nat := if k = .A then 0xE00000FFFFFFFFFF else 0xE000000000000000

/-- From s to t memory changes only where bytes that the core has written in its cache are written back, or within the journal of d. -/
def WrittenBackOrJournal (s t : State) (core : Nat) (d : Die) : Prop :=
  let j := bits d.jrnl.toNat 51 12 * 4096
  ∀ x, x < j ∨ j + 64 * d.jCap ≤ x → Mem.get t.mem x = Mem.get s.mem x ∨
    ∃ c ∈ s.cache core, c.1 = x / 64 ∧ c.2.dirty.getLsbD (x % 64) = true ∧ Mem.get t.mem x = c.2.byte (x % 64)

/-- Element e of w bits of an fv register. -/
def fvEl (v : BitVec 512) (w e : Nat) : Nat := v.toNat / 2 ^ (w * e) % 2 ^ w

/-- R348: registers, width code and the value of an element of w bits for elements x and y. -/
def fvOf (w x y : Nat) : Instr → Option (BitVec 4 × BitVec 4 × BitVec 4 × BitVec 2 × Nat)
  | .fvand d a b c => some (d, a, b, c, x &&& y)
  | .fvor d a b c => some (d, a, b, c, x ||| y)
  | .fvandn d a b c => some (d, a, b, c, x &&& (2 ^ w - 1 - y))
  | .fvxor d a b c => some (d, a, b, c, x ^^^ y)
  | .fvcmpeq d a b c => some (d, a, b, c, if x = y then 2 ^ w - 1 else 0)
  | .fvcmpne d a b c => some (d, a, b, c, if x ≠ y then 2 ^ w - 1 else 0)
  | .fvcmplt d a b c => some (d, a, b, c, if x < y then 2 ^ w - 1 else 0)
  | .fvcmpgt d a b c => some (d, a, b, c, if y < x then 2 ^ w - 1 else 0)
  | _ => none

/-- What a word of firmware core c of die d leaves alone: everything but that core, whose PC has moved on. -/
def OnlyCore (s t : State) (d c : Nat) : Prop :=
  t = { s with dies := t.dies } ∧ (∀ d', d' ≠ d → t.die d' = s.die d') ∧
  t.die d = (s.die d).setFcore c ((t.die d).fcore c) ∧ ((t.die d).fcore c).pc = s.pc.v + 4#64

end Sys2Proof.Claims

/-! ## Traps, CSRs, cues and the end of a thread -/

/-- R34, R44: a word that the agent may not run has no effect but its trap: a firmware-only opcode or a CSR of 0x100 or above in a
thread is a privilege trap, a word of another kind of agent an illegal instruction; both show the word. Which kinds may run a word its opcode
says (R41, R46). -/
def Obligations.WordsOfOtherAgentsTrap : Prop :=
  ∀ (i : Instr) (s : State) (k : Kind) (w : Nat), encode i = .w32 w → s.kind = some k →
    (k ≠ .F → fLevel i = true → exec i s = .next (s.trap 0x0F#8 (BitVec.ofNat 64 w) 0#32)) ∧
    ((k = .F ∨ fLevel i = false) → i.runsOn k = false → exec i s = .next (s.trap 0x01#8 (BitVec.ofNat 64 w) 0#32)) ∧
    (∀ j, i.runsOn j = decide (j ∈ kindsOf (bits w 31 25) (bits w 3 0))) ∧
    (fLevel i = true ↔ bits w 31 25 ∈ [0x51, 0x5C, 0x5D, 0x5E, 0x5F] ∨ (bits w 31 25 = 0x52 ∧ 0x100 ≤ bits w 11 0))

/-- R288, R289, R290: a scalar trap of a thread, other than an uncorrectable data error, parks its pair, writes the four trap CSRs of
the trapping thread alone, tells the host when the cause is reported, and changes no register, no PC, no queue, no block, no other
pair and, when the die records no trace, no byte of memory. -/
def Sys2Proof.Claims.PairTrapEntry : Prop :=
  ∀ (s : State) (p : Nat) (k : Kind) (cause : BitVec 8) (val : Word) (elem : BitVec 32), s.cur = .thr p k → k ≠ .F → cause ≠ 0x0A#8 →
    let t := s.trap cause val elem
    let pc52 : Val := ⟨BitVec.ofNat 64 (s.pc.v.toNat % 2 ^ 52), s.pc.t⟩
    t.pair p = { s.pair p with st := .parked, trapK := k, trapBlk := false, a := (t.pair p).a, x := (t.pair p).x } ∧
    let w := if cause = 0x07#8 ∨ cause = 0x08#8 then s.thr else { s.thr with asked := false, reply := none, iword := none, engAt := none, enqAt := none }
    t.thr = { w with tcause := BitVec.ofNat 10 (cause.toNat + (if k = .X then 256 else 0)), tval := val, tpc := pc52, telem := elem,
                         stalls := 0, wait := .none, onRgn := none, gens := t.thr.gens } ∧
    (∀ k', k' ≠ k → k' ≠ .F → (t.pair p).thr k' = { (s.pair p).thr k' with gens := ((t.pair p).thr k').gens }) ∧
    (∀ p', p' ≠ p → t.pair p' = s.pair p') ∧ (∀ r, t.rx r = s.rx r) ∧ t.caches = s.caches ∧ t.ctxs = s.ctxs ∧ t.clusters = s.clusters ∧
    (cause ≠ 0x07#8 → cause ≠ 0x0C#8 → t.outbox = .trap (s.pair p).ctx.toNat p t.thr.tcause.toNat val pc52.v elem.toNat :: s.outbox) ∧
    (cause = 0x07#8 ∨ cause = 0x0C#8 → t.outbox = s.outbox) ∧ ((s.die (dieOf p)).trctl.getLsbD 20 = false → t.mem = s.mem)

/-- R35, R288, R290: a trap of a block word is the X thread's, with BLK set: it stops the lanes at the word, whose address TRAPPC
holds, and parks the pair. (That the X thread stands at no earlier park since which its code has moved is the premise of that address.)
A scalar trap of the pair that has yet to be answered goes on waiting under it, which is the model's reading (log 103). -/
def Sys2Proof.Claims.BlockTrapEntry : Prop :=
  ∀ (s : State) (p : Nat) (cause : BitVec 8) (val : Word) (elem : BitVec 32), s.cur = .lanes p → cause ≠ 0x0A#8 →
    let t := s.trap cause val elem
    let b := (s.pair p).blocks.headD {}
    (t.pair p).st = .parked ∧ (t.pair p).lanesHeld = true ∧ (t.pair p).trapBlk = true ∧ (t.pair p).lanes = (s.pair p).lanes ∧
    (t.pair p).blocks = (s.pair p).blocks ∧ (t.pair p).x.tcause = BitVec.ofNat 10 (cause.toNat + 256 + 512) ∧ (t.pair p).x.tval = val ∧
    ((∀ e ∈ (s.pair p).x.gens, e.2 = (s.region (s.pair p).ctx.toNat e.1).gen.toNat) →
      (t.pair p).x.tpc.v.toNat = ((s.region (s.pair p).ctx.toNat b.rgn.toNat).base.toNat + (s.pair p).lanes.off.toNat) % 2 ^ 52) ∧
    (t.pair p).under = (if (s.pair p).st = .parked ∧ (s.pair p).trapBlk = false then
      let th := (s.pair p).thr (s.pair p).trapK
      some { k := (s.pair p).trapK, cause := th.tcause, val := th.tval, elem := th.telem } else (s.pair p).under) ∧
    (t.pair p).x.telem = elem ∧ (t.pair p).a.tcause = (s.pair p).a.tcause ∧ (t.pair p).x.pc = (s.pair p).x.pc ∧
    ∀ p', p' ≠ p → t.pair p' = s.pair p'

/-- R35, R288-R290: taking a trap at a scalar word and at a block word. -/
def Obligations.TrapEntry : Prop :=
  Claims.PairTrapEntry ∧ Claims.BlockTrapEntry

/-- R327: `brk` raises trap 0x0D with its code, in a thread and on a firmware core. -/
def Sys2Proof.Claims.BreakpointTraps : Prop :=
  (∀ (s : State) (code : BitVec 20), Issues (.brk code) s → exec (.brk code) s = .next (s.trap 0x0D#8 (BitVec.ofNat 64 code.toNat) 0#32)) ∧
  decodeTableWord 32 0xB2000042 = some (.brk 0x42#20)

/-- R292, R293, R356: `svc` takes trap 0x0C with the service number. When the die's Puppeteer does not work, which leaves the call due, or forwards
it to the host, the pair stays parked there; a null call returns 0 in a0, an unassigned number all ones, and the thread goes on past the word.
(A thread that runs has recorded no GEN of a region that has moved.) That the call is served within the step of the word is the model's
choice (log 56). -/
def Sys2Proof.Claims.ServiceCallResults : Prop :=
  ∀ (s : State) (p : Nat) (k : Kind) (n : BitVec 20), Runs (.svc n) s (.thr p k) → k ≠ .F →
    let e := s.trap 0x0C#8 (BitVec.ofNat 64 n.toNat) 0#32
    (puppeteerOn s (dieOf p) = false → exec (.svc n) s = .next (e.updPair p (fun q => { q with svcDue := true }))) ∧
    (puppeteerOn s (dieOf p) = true → 0x80000 ≤ n.toNat →
      exec (.svc n) s = .next (e.send (.service (s.pair p).ctx.toNat p k n.toNat [(s.rx 5#5).v, (s.rx 6#5).v, (s.rx 7#5).v, (s.rx 8#5).v]))) ∧
    (puppeteerOn s (dieOf p) = true → (n = 0#20 ∨ (3 ≤ n.toNat ∧ n.toNat < 0x80000)) → (s.pair p).lent = [] → s.pc.v.toNat + 4 < 2 ^ 52 →
      (∀ e ∈ s.thr.gens, e.2 = (s.region (s.pair p).ctx.toNat e.1).gen.toNat) →
      ∃ t, exec (.svc n) s = .next t ∧ (t.pair p).st = .running ∧ t.pc = s.nextPc ∧ t.thr.tval.toNat = n.toNat ∧
        t.thr.tcause = (if k = .X then 0x10C#10 else 0x00C#10) ∧
        ∀ r, t.rx r = (s.wx 5#5 ⟨if n = 0#20 then 0#64 else mod64 (-1), 255#8⟩).rx r)

/-- R295, R296, R161: `csrr` gives a CSR and changes nothing else. `csrw`, `csrs` and `csrc` give the old value and put in what xa makes
of it, but for reserved bits; a CSR that the thread may only read, or that is unassigned, is an illegal instruction that shows the
number and changes nothing. A write of STALLMAX below 240 stores 240. A write of CUEARM that arms the signal cue checks the signal as an
8-byte load and traps 0x05 with CUESIG where that fails (R318). A write of LANEWANT takes four bits, the same for both threads (R165), and
where the Puppeteer works gives the pair spare groups of its cluster, the lowest first, as many as it wants (R398). -/
def Obligations.CsrWords : Prop :=
  ∀ (s : State) (p : Nat) (k : Kind) (d a : XReg) (n : BitVec 12), k ≠ .F →
    let A := (s.rx a).v.toNat
    let forms : List (Instr × (Nat → Nat)) :=
      [(.csrw d a n, fun _ => A), (.csrs d a n, fun o => o ||| A), (.csrc d a n, fun o => o &&& (2 ^ 64 - 1 - A))]
    (∀ v, (n.toNat, v) ∈ csrTable s p k → Runs (.csrr d n) s (.thr p k) → exec (.csrr d n) s = .next ((s.wx d ⟨v, 255#8⟩).retire)) ∧
    (∀ i f v m, (i, f) ∈ forms → (n.toNat, v) ∈ csrTable s p k → (n.toNat, m) ∈ csrMasks k → Runs i s (.thr p k) →
      ∃ t, exec i s = .next t ∧ OnlyPair s t p ∧ (∀ r, t.rx r = (s.wx d ⟨v, 255#8⟩).rx r) ∧ t.pc = s.nextPc ∧
        (n.toNat, BitVec.ofNat 64 (f v.toNat &&& m)) ∈ csrTable t p k ∧
        ∀ j u, j ≠ n.toNat → j ≠ 0x061 → (j, u) ∈ csrTable s p k → (j, u) ∈ csrTable t p k) ∧
    (∀ i f, (i, f) ∈ forms → n = 0x00E#12 → Runs i s (.thr p k) → ∃ t, exec i s = .next t ∧ OnlyPair s t p ∧ t.pc = s.nextPc ∧
      t.thr.stallmax.toNat = max 240 (f s.thr.stallmax.toNat % 2 ^ 32) ∧ (∀ r, t.rx r = (s.wx d ⟨BitVec.ofNat 64 s.thr.stallmax.toNat, 255#8⟩).rx r)) ∧
    (∀ i f, (i, f) ∈ forms → n = 0x023#12 → Runs i s (.thr p k) →
      let v := f s.thr.cuearm.toNat &&& cueArmBits k
      let e := s.region (s.pair p).ctx.toNat (bits s.thr.cuesig.toNat 59 52)
      let at_ := e.base.toNat + bits s.thr.cuesig.toNat 51 0
      let readable := at_ % 8 = 0 ∧ (at_ + 8 ≤ Config.devBase ∨ Config.devTop ≤ at_) ∧ e.size ≠ 0#48 ∧ e.base.toNat ≤ at_ ∧
        at_ + 8 ≤ e.base.toNat + e.size.toNat ∧ e.pr = true ∧ e.kind ≠ 3#2
      (v.testBit 62 = true → ¬ readable → exec i s = .next (s.trap 0x05#8 s.thr.cuesig 0#32)) ∧
      (v.testBit 62 = false ∨ readable → ∃ t, exec i s = .next t ∧ OnlyPair s t p ∧ t.pc = s.nextPc ∧ t.thr.cuearm = BitVec.ofNat 64 v ∧
        ∀ r, t.rx r = (s.wx d ⟨s.thr.cuearm, 255#8⟩).rx r)) ∧
    (∀ i f, (i, f) ∈ forms → n = 0x00C#12 → Runs i s (.thr p k) →
      let q := s.pair p
      let cl := clusterOf p
      let works := puppeteerOn s (cl / 40) = true
      let want := f q.want.toNat % 16
      let spare := (List.range 8).filter (fun g => groupSpare s cl g)
      let more := min 8 want - q.lastSet.length
      ∃ t, exec i s = .next t ∧ t.pc = s.nextPc ∧ (t.pair p).want.toNat = want ∧ (∀ r, t.rx r = (s.wx d ⟨BitVec.ofNat 64 q.want.toNat, 255#8⟩).rx r) ∧
        (¬ works → OnlyPair s t p ∧ (t.pair p).parts = q.parts ∧ (t.pair p).later = q.later) ∧
        (works → p < 1280 → vfOf s q.ctx.toNat = none → q.holds = true → q.st ≠ .posted → (∀ j < 4, 4 * cl + j ≠ p → (s.pair (4 * cl + j)).holds = false) →
          (t.pair p).lastSet = if more = 0 ∨ spare = [] then q.lastSet else (List.range 8).filter (fun g => q.lastSet.contains g || (spare.take more).contains g))) ∧
    (∀ i f, (i, f) ∈ forms → csrReadOnly n.toNat → Runs i s (.thr p k) → exec i s = .next (s.trap 0x01#8 (BitVec.ofNat 64 n.toNat) 0#32)) ∧
    (csrRead s p k n.toNat = none → Runs (.csrr d n) s (.thr p k) → exec (.csrr d n) s = .next (s.trap 0x01#8 (BitVec.ofNat 64 n.toNat) 0#32))

/-- R321, R320, R71: `cueret` in a cue clears INCUE, so that x16 to x23 name the main bank again, and sets the PC to CUEPC; outside a
cue it is an illegal instruction. `setvl`, the dispatches and `park` in a cue are illegal too. -/
def Sys2Proof.Claims.CueReturnResults : Prop :=
  ∀ (s : State) (p : Nat) (k : Kind), k ≠ .F →
    (Runs .cueret s (.thr p k) → s.thr.incue = true → ∃ t, exec .cueret s = .next t ∧ OnlyPair s t p ∧ t.pc = s.thr.cuepc ∧
      t.thr.incue = false ∧ t.thr.x = s.thr.x ∧ t.thr.sh = s.thr.sh ∧ t.thr.noMatch = true ∧
      ∀ r, 16 ≤ r.toNat → r.toNat < 24 → t.rx r = s.thr.x.getD r.toNat {}) ∧
    (Runs .cueret s (.thr p k) → s.thr.incue = false → exec .cueret s = .next (s.trap 0x01#8 0xA6000000#64 0#32)) ∧
    (∀ i w, Runs i s (.thr p k) → s.thr.incue = true → encode i = .w32 w →
      (∃ d a b blk lmul sew, i = .setvl d a b blk lmul sew) ∨ (∃ off, i = .vfetch off) ∨ (∃ a imm, i = .vfetchr a imm) ∨ i = .park →
      exec i s = .next (s.trap 0x01#8 (BitVec.ofNat 64 w) 0#32))

/-- R299, R103, R168: `exit` ends its thread once every stream of the pair has ended (A thread) or its block queue is empty (X thread)
and the engine work the pair had issued is done, and waits until then; every dirty byte of its core is written back, and nothing else
is written, but the journal of a die whose Puppeteer gives an X thread's lane groups on (R354). (The other thread still lives and has
not been stopped by a debugger, and the take group is not being saved.)
Which engine work an `exit` waits for is the model's reading (log 53). -/
def Sys2Proof.Claims.ExitResults : Prop :=
  ∀ (s : State) (p : Nat) (k : Kind), Runs .exit s (.thr p k) → k ≠ .F → Memory.wf s.mem = true →
    let o := if k = .A then (s.pair p).x else (s.pair p).a
    let ended := (if k = .A then ∀ st ∈ (s.pair p).streams.toList, st.live = false else (s.pair p).blocks = []) ∧
      enginesIdle s p (fenceBegan s) = true
    let jrn := bits (s.die (dieOf p)).jrnl.toNat 51 12 * 4096
    (ended → o.halt ≠ .exited → o.halt ≠ .debug → (∀ g, groupOf s p = some g → g.st ≠ .saving) → (s.pair p).lender = none →
      ∃ t, exec .exit s = .next t ∧ t.thr.halt = .exited ∧ t.thr.retired = s.thr.retired + 1#64 ∧ (t.pair p).st = (s.pair p).st ∧
        (∀ r, t.rx r = s.rx r) ∧ WrittenBackOrJournal (settleMe s) t s.core (s.die (dieOf p)) ∧
        (k = .A ∨ puppeteerOn s (dieOf p) = false → WrittenBack (settleMe s) t s.core) ∧ t.cache s.core = [] ∧ (k = .X → (t.pair p).owned = []) ∧
        (Tab.risingFrom 0 (s.cache s.core) = true → WroteAllBut (settleMe s) t s.core jrn (64 * (s.die (dieOf p)).jCap) ∧
          (k = .A ∨ puppeteerOn s (dieOf p) = false → WroteAllBut (settleMe s) t s.core 0 0))) ∧
    (¬ ended → ∃ t, exec .exit s = .next t ∧ OnlyPair s t p ∧ t.pc = s.pc ∧ t.thr.halt = s.thr.halt)

/-- R326, R332, R334: `trc` reads xa and writes no register. Where the die records nothing it only moves on, whatever triggers are armed;
where recording admits the thread's kind-1 record and there is room, the record goes to the next place of the die's buffer, with
CYCLE, STRIP, the code and xa, and TRWR counts it. -/
def Sys2Proof.Claims.TraceWordResults : Prop :=
  ∀ (s : State) (p : Nat) (k : Kind) (a : XReg) (code : BitVec 15), Runs (.trc a code) s (.thr p k) → k ≠ .F →
    let d := s.die (dieOf p)
    let at_ := bits d.trbuf.toNat 51 12 * 4096 + 64 * (d.trwr.toNat % d.trCap)
    (d.trctl.getLsbD 20 = false → exec (.trc a code) s = .next s.retire) ∧
    ((∀ j, j < 4 → (d.trig.getD j 0#64).getLsbD 63 = false) → d.trctl.getLsbD 20 = true → d.trctl.getLsbD 24 = true → d.trctl.getLsbD 22 = true →
      d.trctl.getLsbD 23 = false → d.lostSince = 0#64 → (d.trwr - d.trrd).toNat < d.trCap → Memory.wf s.mem = true →
      ∃ t, exec (.trc a code) s = .next t ∧ (∀ r, t.rx r = s.rx r) ∧ t.pc = s.nextPc ∧ SameMemBut s t at_ 64 ∧
        (t.die (dieOf p)).trwr = d.trwr + 1#64 ∧ Mem.getLE t.mem at_ 8 = s.cycle.toNat ∧ Mem.getLE t.mem (at_ + 8) 8 = s.thr.strip.toNat ∧
        Mem.getLE t.mem (at_ + 32) 8 = code.toNat ∧ Mem.getLE t.mem (at_ + 40) 8 = (s.rx a).v.toNat)

/-- R292, R293, R299, R320, R321, R326, R327: breakpoint, service call, return from a cue, exit and the trace word. -/
def Obligations.CallsReturnsAndEnds : Prop :=
  Claims.BreakpointTraps ∧ Claims.ServiceCallResults ∧ Claims.CueReturnResults ∧ Claims.ExitResults ∧ Claims.TraceWordResults

/-! ## Firmware cores -/

/-- R345, R294, R357, R358: a trap of a firmware core outside its handler saves the PC, the cause and the value, marks the handler and goes
to FTVEC, changing no register; `tret` with TRETSEL.SEL 0 returns to FTPC; with SEL 1 it resumes the parked pair of the die that TRETSEL
names, past the word by the Skip form, a service call or a breakpoint, refuses where R291 does, and leaves a pair alone that is not parked,
bits 60 and 61 saying so; a pair whose scalar trap still waits under a block word's stays parked for that one (log 103); a trap inside the handler is a take-over with cause 3, or, with no Stand-in, the loss of the
firmware (R358), which leaves the cause of the last take-over. -/
def Obligations.FirmwareTrapEntryAndReturn : Prop :=
  ∀ (s : State) (d c : Nat) (cause : BitVec 8) (val : Word) (elem : BitVec 32), s.cur = .fcore d c → c < 2 →
    let f := (s.die d).fcore c
    let t := s.trap cause val elem
    let g := (t.die d).fcore c
    (f.ftcause.getLsbD 8 = false → g = { f with ftpc := BitVec.ofNat 64 (f.pc.toNat % 2 ^ 52), ftcause := BitVec.ofNat 9 (256 + cause.toNat), ftval := val,
                                                pc := f.ftvec, asked := false, reply := none } ∧
      t = { s with dies := t.dies } ∧ ∀ d', d' ≠ d → t.die d' = s.die d') ∧
    (f.ftcause.getLsbD 8 = true → ((s.die d).spare = true → (t.die d).toCause = 3#8 ∧ (t.die d).lost = (s.die d).lost) ∧
      ((s.die d).spare = false → (t.die d).toCause = (s.die d).toCause ∧ (t.die d).lost = true) ∧ (t.die d).holdOn = true ∧ t.mem = s.mem ∧ t.pairs = s.pairs) ∧
    (Runs .tret s (.fcore d c) → f.tretsel.getLsbD 63 = false → ∃ u, exec .tret s = .next u ∧ u.pairs = s.pairs ∧
      (u.die d).fcore c = { f with pc := f.ftpc, ftcause := BitVec.ofNat 9 (f.ftcause.toNat % 256), retired := f.retired + 1#64,
                                   asked := false, reply := none }) ∧
    (Runs .tret s (.fcore d c) → f.tretsel.getLsbD 63 = true → bits f.tretsel.toNat 7 0 < 160 →
      (s.pair (160 * d + bits f.tretsel.toNat 7 0)).st ≠ .parked → ∃ u, exec .tret s = .next u ∧ u.pairs = s.pairs ∧
        ((u.die d).fcore c).tretsel = f.tretsel ||| 0x2000000000000000#64 ∧ ((u.die d).fcore c).pc = f.pc + 4#64) ∧
    (Runs .tret s (.fcore d c) → f.tretsel.getLsbD 63 = true → bits f.tretsel.toNat 7 0 < 160 →
      let p := 160 * d + bits f.tretsel.toNat 7 0
      let q := s.pair p
      let tr := q.thr q.trapK
      let cause := tr.tcause.toNat % 256
      let skip := f.tretsel.getLsbD 62
      let refused := cause = 8 ∨ cause = 10 ∨ (skip = true ∧ tr.tcause.getLsbD 9 = true)
      q.st = .parked →
      (refused → ∃ u, exec .tret s = .next u ∧ u.pairs = s.pairs ∧
        ((u.die d).fcore c).tretsel = f.tretsel ||| 0x1000000000000000#64 ∧ ((u.die d).fcore c).pc = f.pc + 4#64) ∧
      (¬ refused → ∀ w, q.trapBlk = true → q.under = some w → ∃ u, exec .tret s = .next u ∧ (u.pair p).st = .parked ∧ (u.pair p).trapK = w.k ∧
        (u.pair p).trapBlk = false ∧ (u.pair p).under = none ∧ (u.pair p).lanesHeld = false ∧ ((u.pair p).thr w.k).tcause = (if w.k = .X then w.cause else (q.thr w.k).tcause)) ∧
      (¬ refused → q.trapBlk = false ∨ q.under = none → q.lent = [] → ∃ u, exec .tret s = .next u ∧ (u.pair p).st = .running ∧ u.mem = s.mem ∧
        ((u.die d).fcore c).tretsel = f.tretsel ∧ ((u.die d).fcore c).pc = f.pc + 4#64 ∧ (∀ j, j ≠ p → u.pair j = s.pair j) ∧
        (q.trapBlk = false → q.trapK ≠ .F → (∀ e ∈ tr.gens, e.2 = (s.region q.ctx.toNat e.1).gen.toNat) →
          ((u.pair p).thr q.trapK).pc = { tr.tpc with v := tr.tpc.v + (if skip = true ∨ cause = 12 ∨ cause = 13 then 4#64 else 0#64) })))

/-- R341, R342, R347, R98: a firmware core's aligned access that lies in its data SRAM: a load gives its bytes, extended as the form
says, or 64 of them to an fv register; a store puts them there. Nothing else changes. -/
def Sys2Proof.Claims.FirmwareMemoryWords : Prop :=
  ∀ (i : Instr) (s : State) (d c : Nat) (x a : XReg) (v : BitVec 4) (o : BitVec 15) (n : Nat) (sg : Bool), Runs i s (.fcore d c) → c < 2 →
    let A := (addrOf s a o).v.toNat
    let f := (s.die d).fcore c
    Config.dsramBase ≤ A → A + n ≤ Config.dsramTop → A % n = 0 → Memory.wf f.dsram = true →
    (loadOf i = some (x, a, o, n, sg) → exec i s = .next ((s.wx x ⟨fill sg n (Mem.getLE f.dsram (A - Config.dsramBase) n), 255#8⟩).retire)) ∧
    (storeOf i = some (x, a, o, n) → ∃ t, exec i s = .next t ∧ OnlyCore s t d c ∧ ((t.die d).fcore c).x = f.x ∧
      Mem.getLE ((t.die d).fcore c).dsram (A - Config.dsramBase) n = (s.rx x).v.toNat % 256 ^ n ∧
      ∀ b, b < A - Config.dsramBase ∨ A - Config.dsramBase + n ≤ b → Mem.get ((t.die d).fcore c).dsram b = Mem.get f.dsram b) ∧
    (i = .fvld v a o → n = 64 → ∃ t, exec i s = .next t ∧ OnlyCore s t d c ∧ ((t.die d).fcore c).x = f.x ∧
      ((t.die d).fcore c).fv.getD v.toNat 0#512 = BitVec.ofNat 512 (Mem.getLE f.dsram (A - Config.dsramBase) 64) ∧
      (∀ r, r < 16 → r ≠ v.toNat → ((t.die d).fcore c).fv.getD r 0#512 = f.fv.getD r 0#512) ∧ ((t.die d).fcore c).dsram = f.dsram) ∧
    (i = .fvst v a o → n = 64 → ∃ t, exec i s = .next t ∧ OnlyCore s t d c ∧ ((t.die d).fcore c).x = f.x ∧ ((t.die d).fcore c).fv = f.fv ∧
      Mem.getLE ((t.die d).fcore c).dsram (A - Config.dsramBase) 64 = (f.fv.getD v.toNat 0#512).toNat ∧
      ∀ b, b < A - Config.dsramBase ∨ A - Config.dsramBase + 64 ≤ b → Mem.get ((t.die d).fcore c).dsram b = Mem.get f.dsram b)

/-- R348: each element of the destination takes what the member makes of the same elements of its sources; `fvbcast` gives every element
the low bits of xa. No other fv register changes, no scalar register, no flag and no memory. -/
def Sys2Proof.Claims.FirmwareVectorElements : Prop :=
  ∀ (s : State) (d c : Nat), s.cur = .fcore d c → c < 2 →
    let f := (s.die d).fcore c
    let writes : Instr → BitVec 4 → BitVec 2 → (Nat → Nat) → Prop := fun i r ew el => Issues i s → ∃ t, exec i s = .next t ∧ OnlyCore s t d c ∧
      ((t.die d).fcore c).x = f.x ∧ ((t.die d).fcore c).fflags = f.fflags ∧ ((t.die d).fcore c).dsram = f.dsram ∧
      (∀ j, j < 16 → j ≠ r.toNat → ((t.die d).fcore c).fv.getD j 0#512 = f.fv.getD j 0#512) ∧
      ∀ e, e < 512 / (8 * 2 ^ ew.toNat) → fvEl (((t.die d).fcore c).fv.getD r.toNat 0#512) (8 * 2 ^ ew.toNat) e = el e
    (∀ (i : Instr) (r a b : BitVec 4) (ew : BitVec 2), (∃ v, fvOf 0 0 0 i = some (r, a, b, ew, v)) →
      writes i r ew (fun e => let w := 8 * 2 ^ ew.toNat
        match fvOf w (fvEl (f.fv.getD a.toNat 0#512) w e) (fvEl (f.fv.getD b.toNat 0#512) w e) i with
        | some z => z.2.2.2.2
        | none => 0)) ∧
    (∀ (r : BitVec 4) (a : XReg) (ew : BitVec 2), writes (.fvbcast r a ew) r ew (fun _ => (s.rx a).v.toNat % 2 ^ (8 * 2 ^ ew.toNat)))

/-- R349: `fvff` gives the index of the lowest set bit of an fv register, or 512 when none is set; `fvpopc` the number of its set bits. -/
def Sys2Proof.Claims.FirmwareVectorScans : Prop :=
  ∀ (s : State) (d c : Nat) (r : XReg) (a : BitVec 4), s.cur = .fcore d c → c < 2 →
    let v := ((s.die d).fcore c).fv.getD a.toNat 0#512
    (Issues (.fvff r a) s → ∃ n : Nat, exec (.fvff r a) s = .next ((s.wx r ⟨BitVec.ofNat 64 n, 255#8⟩).retire) ∧
      (v = 0#512 → n = 512) ∧ (v ≠ 0#512 → n < 512 ∧ v.getLsbD n = true) ∧ ∀ j, j < n → v.getLsbD j = false) ∧
    (Issues (.fvpopc r a) s → exec (.fvpopc r a) s =
      .next ((s.wx r ⟨BitVec.ofNat 64 ((List.range 512).filter (fun j => v.getLsbD j)).length, 255#8⟩).retire))

/-- R341, R342, R347-R349: the memory and vector words of a firmware core. -/
def Obligations.FirmwareWordResults : Prop :=
  Claims.FirmwareMemoryWords ∧ Claims.FirmwareVectorElements ∧ Claims.FirmwareVectorScans

namespace Sys2Proof.Claims

/-- R125: of a load of whole elements into a queue: the queue, the register of the address, bytes of an element, and where element e
lies from xa; the SEW of the A thread gives the width of the indices at the head of iq. -/
def vloadOf (s : State) (p : Nat) : Instr → Option (Nat × XReg × Nat × (Nat → Int))
  | .vld q a _ _ _ ew => some (q.toNat, a, 2 ^ ew.toNat, fun e => (e : Int) * 2 ^ ew.toNat)
  | .vlds q a b _ _ _ ew => some (q.toNat, a, 2 ^ ew.toNat, fun e => (e : Int) * sint (s.rx b).v)
  | .vldx q a _ _ _ ew => some (q.toNat, a, 2 ^ ew.toNat, fun e =>
      sext (4 * 2 ^ bits (s.pair p).a.vtype.toNat 2 0) (((s.pair p).iq.headD {}).els.getD e 0))
  | _ => none

/-- The same of the stores. -/
def vstoreOf (s : State) (p : Nat) : Instr → Option (Nat × XReg × Nat × (Nat → Int))
  | .vst q a _ _ _ ew => some (q.toNat, a, 2 ^ ew.toNat, fun e => (e : Int) * 2 ^ ew.toNat)
  | .vsti q a _ _ _ ew => some (q.toNat, a, 2 ^ ew.toNat, fun e => (e : Int) * 2 ^ ew.toNat)
  | .vsts q a b _ _ _ ew => some (q.toNat, a, 2 ^ ew.toNat, fun e => (e : Int) * sint (s.rx b).v)
  | .vstx q a _ _ _ ew => some (q.toNat, a, 2 ^ ew.toNat, fun e =>
      sext (4 * 2 ^ bits (s.pair p).a.vtype.toNat 2 0) (((s.pair p).iq.headD {}).els.getD e 0))
  | .vstr q a _ _ _ ew => some (q.toNat, a, 2 ^ ew.toNat, fun e =>
      sext (4 * 2 ^ bits (s.pair p).a.vtype.toNat 2 0) (((s.pair p).iq.headD {}).els.getD e 0))
  | _ => none

/-- The forms whose indices come from iq. -/
def indexed : Instr → Bool
  | .vldx _ _ _ _ _ _ => true
  | .vstx _ _ _ _ _ _ => true
  | .vstr _ _ _ _ _ _ => true
  | .vsta _ _ _ _ _ => true
  | _ => false

/-- Elements 0 to vl - 1 of n bytes pass the checks of R95 and no watermark holds them; `home e` is where element e lies. -/
def Reaches (s : State) (p : Nat) (acc : Acc) (xa : Val) (n vl : Nat) (off : Nat → Int) (home : Nat → Nat) : Prop :=
  ∀ e, e < vl → ∃ l, checkPair s p .A acc (mod64 (xa.v.toNat + off e)) n xa.t (BitVec.ofNat 32 e) = .ok l ∧
    wmCheck s p .A (mod64 (xa.v.toNat + off e)).toNat n = .ok () ∧ l.home = some (home e)

/-- A row of vl elements of n bytes at the head of a queue, with every element active. -/
def HeadRow (rows : List Row) (vl wc : Nat) (els : List Nat) : Prop :=
  ∃ r rest, rows = r :: rest ∧ r.vl = vl ∧ r.wc = wc ∧ r.els = els ∧ els.length = vl ∧ r.act = List.replicate vl true

/-- The head of iq serves an indexed form of the A thread. -/
def IndexRow (s : State) (p : Nat) (i : Instr) : Prop :=
  indexed i = true → ∃ els, HeadRow (s.pair p).iq (s.pair p).a.vl.toNat (bits (s.pair p).a.vtype.toNat 2 0) els

/-- Code of an element of n bytes in a row (R125). -/
def codeOf (n : Nat) : Nat := Nat.log2 n + 1

end Sys2Proof.Claims

/-! ## Vector memory -/

/-- R126: every vector memory word with VL 0 completes without effect, but a load into q3 at stage 1 or later, which takes the
queue-protocol trap with code 11 whatever VL holds (R120, R121). -/
def Sys2Proof.Claims.VectorMemoryWithVlZero : Prop :=
  ∀ (i : Instr) (s : State) (p : Nat), Runs i s (.thr p .A) →
    ((vloadOf s p i).isSome = true ∨ (vstoreOf s p i).isSome = true ∨ ∃ q a sc o f, i = .vsta q a sc o f) →
    ((vloadOf s p i).map (·.1) = some 3 → (s.pair p).pl.stg ≠ 0 → exec i s = .next (s.trap 0x10#8 11#64 0#32)) ∧
    (((vloadOf s p i).map (·.1) ≠ some 3 ∨ (s.pair p).pl.stg = 0) → (s.pair p).a.vl = 0#14 → exec i s = .next s.retire)

/-- R125, R126, R116, R127: a vector load of whole elements that all pass their checks takes a row of the thread's VL at the end of its
queue, which is filled when its elements are read at their homes, pops the indices it used, leaves VSTART 0, and goes on: no register
changes, and memory only where the core's dirty bytes are written back. The row's entries are counted on the lane groups the pair has
(what they are where it has none is the model's choice, log 95). (The queue has room, no stream fills it, the X thread
has not exited, no earlier vector access of the pair is in flight.) -/
def Sys2Proof.Claims.VectorLoadIssue : Prop :=
  ∀ (i : Instr) (s : State) (p q : Nat) (a : XReg) (n : Nat) (off : Nat → Int) (home : Nat → Nat), vloadOf s p i = some (q, a, n, off) →
    n ≤ 8 → Runs i s (.thr p .A) → Memory.wf s.mem = true →
    let t0 := (s.pair p).a
    let vl := t0.vl.toNat
    let rows := (s.pair p).q.getD q []
    vl ≠ 0 → bits t0.vtype.toNat 2 0 ≠ 0 → t0.vstart = 0#13 → t0.resv = none → (s.pair p).x.halt ≠ .exited → (s.pair p).flights = [] → (q ≠ 3 ∨ (s.pair p).pl.stg = 0) →
    entsOf rows + rowEnts vl (8 * n) (s.pair p).rowGroups ≤ 8 →
    (∀ st ∈ (s.pair p).streams.toList, st.port.toNat = 8 + q → st.isBound = true → st.st ≠ .queued ∧ st.st ≠ .running) →
    IndexRow s p i → Reaches s p .load (s.rx a) n vl off home →
    ((s.pair p).lent = [] → (s.pair p).owned ≠ [] → (s.pair p).rowGroups = (s.pair p).owned.length) ∧
    ∃ t row fl, exec i s = .next t ∧ (t.pair p).q.getD q [] = rows ++ [row] ∧ row.vl = vl ∧ row.wc = codeOf n ∧ row.ready = false ∧
      (t.pair p).flights = [fl] ∧ fl.kind = .load q row.id ∧ fl.w = 8 * n ∧ fl.els.map (fun e => (e.i, e.a, e.n)) = (List.range vl).map (fun e => (e, home e, n)) ∧
      (t.pair p).iq = (if indexed i then (s.pair p).iq.tail else (s.pair p).iq) ∧ (t.pair p).a.vstart = 0#13 ∧ t.pc = s.nextPc ∧
      (∀ r, t.rx r = s.rx r) ∧ WrittenBack s t s.core ∧ ∀ p', p' ≠ p → t.pair p' = s.pair p'

/-- R125, R126, R118: the stores of a row at the head of s0 or s1 whose elements all pass their checks complete, pop the row and the
indices they used, leave VSTART 0 and change no register. `vst`, `vsts` and `vstx` then have their writes in flight, each element with
its home and its value; `vstr`, and `vsti` in a launch without symmetry, have made them: no byte of memory outside the elements
changes but dirty bytes written back, and an element that no other overlaps holds its value. -/
def Sys2Proof.Claims.VectorStoreResults : Prop :=
  ∀ (i : Instr) (s : State) (p q : Nat) (a : XReg) (n : Nat) (off : Nat → Int) (home : Nat → Nat) (els : List Nat),
    vstoreOf s p i = some (q, a, n, off) → n ≤ 8 → Runs i s (.thr p .A) → Memory.wf s.mem = true →
    let t0 := (s.pair p).a
    let vl := t0.vl.toNat
    vl ≠ 0 → bits t0.vtype.toNat 2 0 ≠ 0 → t0.vstart = 0#13 → (s.pair p).flights = [] → (s.pair p).pl.sym = 0 →
    HeadRow ((s.pair p).sr.getD q []) vl (codeOf n) els → IndexRow s p i → Reaches s p .store (s.rx a) n vl off home →
    (∀ c ∈ s.cache s.core, 64 * c.1 < Config.peerBase) →
    ∃ t, exec i s = .next t ∧ (t.pair p).sr.getD q [] = ((s.pair p).sr.getD q []).tail ∧
      (t.pair p).iq = (if indexed i then (s.pair p).iq.tail else (s.pair p).iq) ∧ (t.pair p).a.vstart = 0#13 ∧ t.pc = s.nextPc ∧
      (∀ r, t.rx r = s.rx r) ∧ (∀ p', p' ≠ p → t.pair p' = s.pair p') ∧
      ((∃ q a sc o d e, i = .vst q a sc o d e) ∨ (∃ q a b sc o d e, i = .vsts q a b sc o d e) ∨ (∃ q a sc o d e, i = .vstx q a sc o d e) →
        WrittenBack s t s.core ∧ ∃ fl, (t.pair p).flights = [fl] ∧ fl.kind = .store ∧ fl.w = 8 * n ∧
          fl.els = (List.range vl).map (fun e => { i := e, a := home e, n := n, sh := 0, v := some (els.getD e 0) })) ∧
      ((∃ q a sc o d e, i = .vstr q a sc o d e) ∨ (∃ q a sc o d e, i = .vsti q a sc o d e) → (t.pair p).flights = [] ∧
        (∀ x, (∀ e, e < vl → x < home e ∨ home e + n ≤ x) → Mem.get t.mem x = Mem.get s.mem x ∨
          ∃ c ∈ s.cache s.core, c.1 = x / 64 ∧ c.2.dirty.getLsbD (x % 64) = true ∧ Mem.get t.mem x = c.2.byte (x % 64)) ∧
        ∀ e, e < vl → (∀ e', e' < vl → e' ≠ e → home e + n ≤ home e' ∨ home e' + n ≤ home e) →
          Mem.getLE t.mem (home e) n = els.getD e 0 % 256 ^ n)

/-- R130, R104: a scatter with combining adds each element at its home, when no two elements lie at the same place: an element holds the sum
of its old value and the row's, in the format, integers wrapped and numbers rounded to nearest, even; its old value is what the core's
cache holds dirty of it, and memory's elsewhere; no other byte of memory changes, but dirty bytes written back. The flags of the adds reach
FFLAGS (R66). The row and the indices are popped; no register changes. At the lowest element that lies in host memory it traps 0x05, with
that element and its address, the elements below it added. -/
def Sys2Proof.Claims.ScatterAddResults : Prop :=
  ∀ (s : State) (p : Nat) (q : BitVec 1) (a : XReg) (sc : Scope) (ord : Order) (f : BitVec 5) (home : Nat → Nat) (els : List Nat),
    let i : Instr := .vsta q a sc ord f
    let t0 := (s.pair p).a
    let vl := t0.vl.toNat
    let w := fmtWidth f.toNat
    let n := w / 8
    let off : Nat → Int := fun e => sext (4 * 2 ^ bits t0.vtype.toNat 2 0) (((s.pair p).iq.headD {}).els.getD e 0)
    Runs i s (.thr p .A) → Memory.wf s.mem = true → addFormat f.toNat = true → vl ≠ 0 → bits t0.vtype.toNat 2 0 ≠ 0 →
    t0.vstart = 0#13 → (s.pair p).flights = [] → HeadRow ((s.pair p).sr.getD q.toNat []) vl (codeOf n) els → IndexRow s p i →
    (∀ c ∈ s.cache s.core, 64 * c.1 < Config.peerBase) → Tab.risingFrom 0 (s.cache s.core) = true →
    let byteAt : Nat → Byte := fun x => match (s.cache s.core).find? (fun c => c.1 == x / 64 && c.2.dirty.getLsbD (x % 64)) with
      | some c => c.2.byte (x % 64)
      | none => Mem.get s.mem x
    let oldOf : Nat → Nat := fun e => natOf ((List.range n).map (fun b => byteAt (home e + b)))
    let sum : Nat → Nat × Flg := fun e =>
      let x := els.getD e 0 % 2 ^ w
      if isInt f.toNat then ((oldOf e + x) % 2 ^ w, 0#5)
      else
        let r := addNum 0 (decodeNum f.toNat (oldOf e)) (decodeNum f.toNat x)
        let y := roundNum f.toNat 0 0 false false r.1
        (y.1 % 2 ^ w, r.2 ||| y.2)
    let addr : Nat → Word := fun e => mod64 ((s.rx a).v.toNat + off e)
    let host : Nat → Prop := fun e => ∃ l, checkPair s p .A .atomic (addr e) n (s.rx a).t (BitVec.ofNat 32 e) = .ok l ∧ l.isHost = true
    -- the first m elements reach memory that is not the host's, no two of them in one place
    let apart : Nat → Prop := fun m => (∀ e < m, ¬ host e) ∧ ∀ e e', e < m → e' < m → e' ≠ e → home e + n ≤ home e' ∨ home e' + n ≤ home e
    -- they are added, and no other byte changes but dirty bytes that are written back
    let added : Nat → State → Prop := fun m t => (∀ e, e < m → Mem.getLE t.mem (home e) n = (sum e).1) ∧
      (∀ x, (∀ e, e < m → x < home e ∨ home e + n ≤ x) → Mem.get t.mem x = Mem.get s.mem x ∨
        ∃ c ∈ s.cache s.core, c.1 = x / 64 ∧ c.2.dirty.getLsbD (x % 64) = true ∧ Mem.get t.mem x = c.2.byte (x % 64))
    (Reaches s p .atomic (s.rx a) n vl off home → apart vl →
      ∃ t, exec i s = .next t ∧ (t.pair p).sr.getD q.toNat [] = ((s.pair p).sr.getD q.toNat []).tail ∧ (t.pair p).iq = (s.pair p).iq.tail ∧
        t.pc = s.nextPc ∧ (∀ r, t.rx r = s.rx r) ∧ added vl t ∧
        (∀ b < 5, (t.pair p).a.fflags.getLsbD b = true ↔ t0.fflags.getLsbD b = true ∨ t0.vflags.getLsbD b = true ∨ ∃ e < vl, (sum e).2.getLsbD b = true)) ∧
    (∀ m, m < vl → Reaches s p .atomic (s.rx a) n (m + 1) off home → apart m → host m →
      ∃ t, exec i s = .next t ∧ (t.pair p).st = .parked ∧ (t.pair p).a.tcause = 5#10 ∧ (t.pair p).a.tval = addr m ∧
        (t.pair p).a.telem = BitVec.ofNat 32 m ∧ (t.pair p).a.vstart = BitVec.ofNat 13 m ∧ (t.pair p).sr = (s.pair p).sr ∧ (t.pair p).iq = (s.pair p).iq ∧
        (∀ r, t.rx r = s.rx r) ∧ ((s.die (dieOf p)).trctl.getLsbD 20 = false → added m t))

/-- R118, R125, R126, R130: vector stores, and scatters that combine. -/
def Obligations.VectorStoreAndScatterResults : Prop :=
  Claims.VectorStoreResults ∧ Claims.ScatterAddResults

/-- R117, R127, R128, R244, R245, R248: the completion of a pair's oldest vector access: a load gives its row each element's bytes at the home
and makes the row poppable; the core keeps no line of those bytes, and after an acquire load only lines it has written whole, and memory
changes by dirty bytes written back alone; a store puts each element's value at its home, a higher element over a lower one, leaves no line of those in the core's cache,
and changes no other byte but dirty bytes written back. -/
def Sys2Proof.Claims.VectorAccessCompletes : Prop :=
  ∀ (s : State) (p : Nat) (fl : Flight) (rest : List Flight), (s.pair p).flights = fl :: rest → Memory.wf s.mem = true →
    ∃ t, exec (.vectorAccessCompletion p 1) s = .next t ∧ (t.pair p).flights = rest ∧ (t.pair p).a = (s.pair p).a ∧ (t.pair p).x = (s.pair p).x ∧
      (∀ p', p' ≠ p → t.pair p' = s.pair p') ∧ t.dies = s.dies ∧
      (∀ c, c ≠ coreOf p .A → t.cache c = s.cache c) ∧
      (∀ q id row, q < 4 → fl.kind = .load q id → row ∈ (s.pair p).q.getD q [] → row.id = id →
        (∀ e ∈ fl.els, e.v = none ∧ e.sh = 0 ∧ 8 * e.n = fl.w ∧ e.i < row.els.length) → (fl.els.map (·.i)).Nodup →
        WrittenBack s t (coreOf p .A) ∧ (∀ c ∈ t.cache (coreOf p .A), c ∈ s.cache (coreOf p .A) ∧
          ∀ e ∈ fl.els, e.a < Config.hbmTop → e.a + e.n ≤ 64 * c.1 ∨ 64 * c.1 + 64 ≤ e.a) ∧
        (fl.acq = true → ∀ c ∈ t.cache (coreOf p .A), c.2.dirty = BitVec.allOnes 64) ∧ ∃ row' ∈ (t.pair p).q.getD q [], row'.id = id ∧ row'.ready = true ∧ row'.vl = row.vl ∧ row'.wc = row.wc ∧
          ∀ e ∈ fl.els, row'.els.getD e.i 0 = Mem.getLE t.mem e.a e.n) ∧
      (fl.kind = .store → (∀ e ∈ fl.els, e.sh = 0 ∧ 8 * e.n = fl.w) →
        (∀ x, (∀ e ∈ fl.els, x < e.a ∨ e.a + e.n ≤ x) → Mem.get t.mem x = Mem.get s.mem x ∨
          ∃ c ∈ s.cache (coreOf p .A), c.1 = x / 64 ∧ c.2.dirty.getLsbD (x % 64) = true ∧ Mem.get t.mem x = c.2.byte (x % 64)) ∧
        (∀ c ∈ t.cache (coreOf p .A), ∀ e ∈ fl.els, e.a < Config.hbmTop → e.a + e.n ≤ 64 * c.1 ∨ 64 * c.1 + 64 ≤ e.a) ∧
        ∀ l e r, fl.els = l ++ e :: r → (∀ e' ∈ r, e.a + e.n ≤ e'.a ∨ e'.a + e'.n ≤ e.a) → Mem.getLE t.mem e.a e.n = e.v.getD 0 % 256 ^ e.n)

/-- R116, R117, R120, R121, R125-R128: the vector memory words at VL 0, the issue of a vector load, and the completion of an access. -/
def Obligations.VectorLoadResults : Prop :=
  Claims.VectorMemoryWithVlZero ∧ Claims.VectorLoadIssue ∧ Claims.VectorAccessCompletes

/-! ## Streams, job cards, weight fills and enqueues -/

/-- R139, R137, R141, R144: defining a stream stores its descriptor, with absolute addresses in regions turned to offsets, unless a
doubleword fails its check (trap 0x0E with its address) or the stream is queued or runs (a wait). `sgo` queues a defined and bound
stream behind every earlier one, from element 0, or from where it faulted; the stream is SKIPPED when the condition asked for fails;
and traps 0x0E with its status word where R141 says.
The place of the wait among the checks, what `sgo` leaves of REL and VIS, a footprint of length 0 and the trap that comes first are the
model's (logs 86, 45, 85 and 87). -/
def Sys2Proof.Claims.StreamDefineAndQueue : Prop :=
  ∀ (s : State) (p : Nat) (sm : BitVec 4) (a : XReg) (imm : BitVec 15) (s1 : State) (ds : List Word),
    let q := s.pair p
    let st := q.streams.getD sm.toNat {}
    let A := addrOf s a imm
    let c := q.ctx.toNat
    let conv : Nat → Word → Word := fun k w => if k = 0 ∧ w.getLsbD 63 = false then
      BitVec.ofNat 64 (2 ^ 63 + bits w.toNat 59 52 * 2 ^ 52 + (((w.toNat % 2 ^ 52 : Nat) : Int) - (s1.region c (bits w.toNat 59 52)).base.toNat).emod (2 ^ 52) |>.toNat) else w
    let busy := st.st = .queued ∨ st.st = .running
    (Runs (.sdef sm a imm) s (.thr p .A) → A.v.toNat % 16 ≠ 0 → exec (.sdef sm a imm) s = .next (s.trap 0x06#8 A.v 0#32)) ∧
    (Runs (.sdef sm a imm) s (.thr p .A) → A.v.toNat % 16 = 0 → busy → ∃ t, exec (.sdef sm a imm) s = .next t ∧ OnlyPair s t p ∧ t.pc = s.pc ∧
      (t.pair p).streams = q.streams) ∧
    (Runs (.sdef sm a imm) s (.thr p .A) → A.v.toNat % 16 = 0 → ¬ busy → loadWords s A 10 = .ok (s1, ds) → ds.length = 10 →
      (∀ j, badDword (fun n => ds.getD n 0#64) = some j → exec (.sdef sm a imm) s = .next (s.trap 0x0E#8 (mod64 (A.v.toNat + 8 * j)) 0#32)) ∧
      (badDword (fun n => ds.getD n 0#64) = none → ∃ t, exec (.sdef sm a imm) s = .next t ∧ t.mem = s1.mem ∧ t.pc = s.nextPc ∧ (∀ r, t.rx r = s.rx r) ∧
        let st' := (t.pair p).streams.getD sm.toNat {}
        st'.st = .defined ∧ st'.isDef = true ∧ st'.first = 0 ∧ st'.isBound = st.isBound ∧ st'.port = st.port ∧ st'.chan = st.chan ∧ st'.chu = st.chu ∧
        (∀ j, j < 10 → j ≠ 4 → j ≠ 5 → st'.d.getD j 0#64 = ds.getD j 0#64) ∧
        st'.d.getD 4 0#64 = conv (bits (ds.getD 0 0#64).toNat 6 5) (ds.getD 4 0#64) ∧
        st'.d.getD 5 0#64 = conv (bits (ds.getD 0 0#64).toNat 8 7) (ds.getD 5 0#64) ∧
        ∀ m, m < 16 → m ≠ sm.toNat → (t.pair p).streams.getD m {} = (s1.pair p).streams.getD m {})) ∧
    (Runs (.sgo sm) s (.thr p .A) → ¬ busy → ¬ (q.pl.stg ≠ 0 ∧ st.port = 11#4 ∧ st.isBound = true) →
      let kind := bits (st.d.getD 0 0#64).toNat 8 7
      let good := st.isDef = true ∧ st.isBound = true ∧ (kind = 3 ↔ 8 ≤ st.port.toNat) ∧ (8 ≤ st.port.toNat → q.a.vl ≠ 0#14) ∧
        (st.chu = true → kind = 1 ∧ (st.d.getD 0 0#64).getLsbD 9 = false)
      (¬ good → exec (.sgo sm) s = .next (s.trap 0x0E#8 st.status 0#32)) ∧
      (good → ∃ t, exec (.sgo sm) s = .next t ∧ OnlyPair s t p ∧ t.pc = s.nextPc ∧ (∀ r, t.rx r = s.rx r) ∧
        (t.pair p).nextOrder = q.nextOrder + 1 ∧ (t.pair p).condNext = none ∧
        let st' := (t.pair p).streams.getD sm.toNat {}
        st'.st = (if q.condNext = some false then .skipped else .queued) ∧ st'.order = q.nextOrder ∧ st'.vls = q.a.vl.toNat ∧
        st'.first = (if st.st = .faulted then st.first else 0) ∧ st'.d = st.d ∧ st'.rel = false ∧ st'.vis = false ∧
        ∀ m, m < 16 → m ≠ sm.toNat → (t.pair p).streams.getD m {} = q.streams.getD m {}))

/-- R140, R144, R148, R149, R150: `sbind` records a port and a channel; the `sbar` forms order or condition later streams; `wmwait`
and `cpwait.rel` move on when what they wait for holds, and wait while it may come; `cpwait.vis` moves on as an acquire of the write
footprint; `sstat` gives the status word, field by field. -/
def Sys2Proof.Claims.StreamControlWords : Prop :=
  ∀ (s : State) (p : Nat) (sm : BitVec 4) (d a : XReg) (used : Bool) (ch : BitVec 3) (port : BitVec 4), Memory.wf s.mem = true →
    let q := s.pair p
    let st := q.streams.getD sm.toNat {}
    let ended := st.st = .free ∨ st.st = .skipped ∨ st.st = .done
    (Runs (.sbind sm used ch port) s (.thr p .A) → st.st ≠ .queued → st.st ≠ .running → ∃ t, exec (.sbind sm used ch port) s = .next t ∧
      OnlyPair s t p ∧ t.pc = s.nextPc ∧ (∀ r, t.rx r = s.rx r) ∧ (t.pair p).streams.getD sm.toNat {} =
        { st with isBound := true, port := port, chan := ch, chu := used, st := if st.st = .defined then .bound else st.st }) ∧
    (∀ i k, (i, k) ∈ [(Instr.sbarCfg, 0), (Instr.sbarPhase, 1)] → Runs i s (.thr p .A) → ∃ t, exec i s = .next t ∧ OnlyPair s t p ∧
      t.pair p = { q with sbars := (q.nextOrder, k, true) :: q.sbars, a := q.a.retireAt s.nextPc }) ∧
    (∀ i b, (i, b) ∈ [(Instr.sbarIft, true), (Instr.sbarIff, false)] → Runs i s (.thr p .A) → ∃ t, exec i s = .next t ∧ OnlyPair s t p ∧
      t.pair p = { q with condNext := some (q.condNext != some false && q.a.bout == b), a := q.a.retireAt s.nextPc }) ∧
    (Runs (.wmwait a ch) s (.thr p .A) → (∀ u ∈ q.streams.toList, u.chu = true → u.chan = ch → u.st ≠ .queued ∧ u.st ≠ .running ∧ u.st ≠ .faulted) →
      exec (.wmwait a ch) s = .next s.retire) ∧
    (Runs (.wmwait a ch) s (.thr p .A) → ∀ u ∈ q.streams.toList, u.chu = true → u.chan = ch → u.st = .running →
      (∀ v ∈ q.streams.toList, v.chu = true → v.chan = ch → v.st = .queued ∨ v.st = .running ∨ v.st = .faulted → v = u ∨ u.order < v.order) →
      let lo := Config.localBase + bits (u.d.getD 8 0#64).toNat 47 0
      let x := (s.rx a).v.toNat
      let wm := (q.chans.getD u.chan.toNat {}).wm.toNat
      (x < lo ∨ lo + bits (u.d.getD 9 0#64).toNat 47 0 ≤ x ∨ x < wm → exec (.wmwait a ch) s = .next s.retire) ∧
      (lo ≤ x → x < lo + bits (u.d.getD 9 0#64).toNat 47 0 → wm ≤ x → ∃ t, exec (.wmwait a ch) s = .next t ∧ OnlyPair s t p ∧ t.pc = s.pc)) ∧
    (Runs (.cpwaitRel sm) s (.thr p .A) → ended ∨ st.rel = true → exec (.cpwaitRel sm) s = .next s.retire) ∧
    (Runs (.cpwaitRel sm) s (.thr p .A) → ¬ ended → st.rel = false → st.st ≠ .faulted → ∃ t, exec (.cpwaitRel sm) s = .next t ∧ OnlyPair s t p ∧ t.pc = s.pc) ∧
    (Runs (.cpwaitVis sm) s (.thr p .A) → ended ∨ st.vis = true → ∃ t, exec (.cpwaitVis sm) s = .next t ∧ (∀ r, t.rx r = s.rx r) ∧ t.pc = s.nextPc ∧
      WrittenBack (settleMe s) t s.core ∧ (bits (st.d.getD 8 0#64).toNat 55 54 = 0 →
        let lo := (s.region q.ctx.toNat (bits (st.d.getD 8 0#64).toNat 63 56)).base.toNat + bits (st.d.getD 8 0#64).toNat 47 0
        ∀ c ∈ t.cache s.core, c.2.dirty = BitVec.allOnes 64 ∨ 64 * c.1 + 64 ≤ lo ∨ lo + bits (st.d.getD 9 0#64).toNat 47 0 ≤ 64 * c.1)) ∧
    (Runs (.sstat d sm) s (.thr p .A) → ∃ v : Word, exec (.sstat d sm) s = .next ((s.wx d ⟨v, 255#8⟩).retire) ∧
      bits v.toNat 63 32 = st.first % 2 ^ 32 ∧ bits v.toNat 31 16 = 0 ∧ bits v.toNat 15 12 = st.port.toNat ∧ bits v.toNat 11 9 = st.chan.toNat ∧
      v.getLsbD 8 = st.chu ∧ v.getLsbD 7 = st.vis ∧ v.getLsbD 6 = st.rel ∧ bits v.toNat 5 3 = 0 ∧
      bits v.toNat 2 0 = (match st.st with | .free => 0 | .defined => 1 | .bound => 2 | .queued => 3 | .running => 4 | .done => 5 | .faulted => 6 | .skipped => 7))

/-- R137, R139-R141, R144, R148-R150: the words that define, bind, queue, order and await streams. -/
def Obligations.StreamWordResults : Prop :=
  Claims.StreamDefineAndQueue ∧ Claims.StreamControlWords

/-- R154, R231, R233, R286, R256: `jsub` hands a sound card to its die's scheduler, with status 0, or gives 1 when its 256 entries are
full; `wbfill` starts a fill of a bank that no other pair owns and no fill occupies; `wbwait` gives the bank's state; `symq` the
point's symmetry; `enq` writes a whole packet to a slot of the ring it has reserved and kicks the ring, with status 0, waits for a
reel with the index it has taken (R263), and gives its other statuses where nothing is written.
That `enq` does all of this in one step, and that a faulted card submitted again enters anew at the end, its slot words resolved as it is
taken, are the model's (logs 50, 88 and 91). -/
def Obligations.EngineWords : Prop :=
  ∀ (s : State) (p : Nat) (k : Kind) (d a b : XReg) (imm : BitVec 15) (n : BitVec 2) (s1 : State) (ws : List Word), k ≠ .F →
    let A := addrOf s a imm
    let bank := ((s.cluster (clusterOf p)).banks.getD n.toNat {})
    let pl := (s.pair p).pl
    (Runs (.jsub d a imm) s (.thr p k) → A.v.toNat % 16 = 0 → loadWords s A 12 = .ok (s1, ws) → badCardDword (fun j => ws.getD j 0#64) = none →
      let kept := (s1.die (dieOf p)).cards.filter (fun u => !(u.faulted && u.ctx == (s1.pair p).ctx && u.at_ == cardPlace s1 p A))
      let conv : Nat → Word → Word := fun kd w => if kd = 0 ∧ w.getLsbD 63 = false then
        BitVec.ofNat 64 (2 ^ 63 + bits w.toNat 59 52 * 2 ^ 52 + (((w.toNat % 2 ^ 52 : Nat) : Int) -
          (s1.region (s1.pair p).ctx.toNat (bits w.toNat 59 52)).base.toNat).emod (2 ^ 52) |>.toNat) else w
      let w : Nat → Word := fun j => ws.getD j 0#64
      (kept.length < 256 → ∃ t c, exec (.jsub d a imm) s = .next t ∧ (∀ r, t.rx r = (s1.wx d ⟨0#64, 255#8⟩).rx r) ∧
        (t.die (dieOf p)).cards = kept ++ [c] ∧ c.p = some p ∧ c.ctx = (s1.pair p).ctx ∧ c.at_ = cardPlace s1 p A ∧
        (∀ j, j < 12 → j ≠ 2 → j ≠ 3 → c.j.getD j 0#64 = w j) ∧
        c.j.getD 2 0#64 = (if bits (w 0).toNat 3 0 = 1 then w 2 else conv (bits (w 4).toNat 55 54) (w 2)) ∧
        c.j.getD 3 0#64 = conv (bits (w 6).toNat 55 54) (w 3)) ∧
      (256 ≤ kept.length → exec (.jsub d a imm) s = .next ((s1.wx d ⟨1#64, 255#8⟩).retire))) ∧
    (Runs (.wbfill n a imm) s (.thr p .A) → A.v.toNat % 16 = 0 → loadWords s A 4 = .ok (s1, ws) → s1.clusters = s.clusters →
      Hdr.bad (Vector.ofFn (fun j => ws.getD j.val 0#64)) = none → (bank.owner = none ∨ bank.owner = some p) → bank.next = none → bank.st ≠ .filling →
      ∃ t, exec (.wbfill n a imm) s = .next t ∧ (∀ r, t.rx r = s1.rx r) ∧ t.mem = s1.mem ∧ t.pc = s1.nextPc ∧
        let bk := (t.cluster (clusterOf p)).banks.getD n.toNat {}
        bk.st = .filling ∧ bk.owner = some p ∧ (∀ j, j < 4 → bk.h.getD j 0#64 = ws.getD j 0#64) ∧
        ∀ m, m < 4 → m ≠ n.toNat → (t.cluster (clusterOf p)).banks.getD m {} = (s.cluster (clusterOf p)).banks.getD m {}) ∧
    (Runs (.wbwait d n) s (.thr p .A) → (bank.owner = none ∨ bank.owner = some p) → bank.st ≠ .filling → bank.next = none → (bank.st = .bad → bank.badWhy = 1 ∨ bank.badWhy = 2) →
      exec (.wbwait d n) s = .next ((s.wx d ⟨(match bank.st with | .ready => 0#64 | .bad => BitVec.ofNat 64 bank.badWhy | _ => 3#64), 255#8⟩).retire)) ∧
    (Runs (.wbwait d n) s (.thr p .A) → ∀ o, bank.owner = some o → o ≠ p → exec (.wbwait d n) s = .next ((s.wx d ⟨4#64, 255#8⟩).retire)) ∧
    (Runs (.symq d) s (.thr p k) → pl.sym < 8 → pl.n0 < 2 ^ 20 → ∃ v : Word, exec (.symq d) s = .next ((s.wx d ⟨v, 255#8⟩).retire) ∧ bits v.toNat 26 24 = pl.sym ∧
      v.getLsbD 27 = pl.sign ∧ (pl.sym = 0 → v.getLsbD 63 = false ∧ bits v.toNat 20 0 = 1) ∧ (pl.sym = 1 → v.getLsbD 63 = decide (pl.i0 = pl.i1) ∧
        bits v.toNat 20 0 = (if pl.i0 = pl.i1 then 1 else 2)) ∧ bits v.toNat 62 28 = 0 ∧ bits v.toNat 23 21 = 0) ∧
    (Runs (.enq d a b) s (.thr p k) →
    let r := bits (s.rx b).v.toNat 11 0
    let ends : State → Nat → List Nat → Prop := fun s' i wl =>
      (∀ s2, reserveSlot r 2 s' i = .full s2 → exec (.enq d a b) s = .next ((s2.wx d ⟨1#64, 255#8⟩).retire)) ∧
      (∀ s2 idx, reserveSlot r 2 s' i = .wait s2 idx →
        ∃ t, exec (.enq d a b) s = .next t ∧ t.mem = s2.mem ∧ t.pc = s.pc ∧ t.thr.enqAt = some (idx, wl) ∧ ∀ j, t.rx j = s.rx j) ∧
      ∀ s2 idx at_, reserveSlot r 2 s' i = .slot s2 idx at_ → Memory.wf s2.mem = true →
        ∃ t u, exec (.enq d a b) s = .next t ∧ t = ((kick u r).wx d ⟨0#64, 255#8⟩).retire ∧ SameMemBut s2 u at_ 64 ∧
          (∀ j, 1 ≤ j → j ≤ 6 → Mem.getLE u.mem (at_ + 8 * j) 8 = wl.getD j 0 % 2 ^ 64) ∧
          bits (Mem.getLE u.mem at_ 8) 9 0 = bits (wl.getD 0 0) 9 0 ∧ bits (Mem.getLE u.mem at_ 8) 31 16 = (idx + 1) % 2 ^ 16 ∧
          bits (Mem.getLE u.mem (at_ + 56) 8) 15 0 = (idx + 1) % 2 ^ 16 ∧ bits (Mem.getLE u.mem at_ 8) 41 32 = (s.pair p).ctx.toNat
    (∀ i wl, s.thr.enqAt = some (i, wl) → ends s i wl) ∧
    (s.thr.enqAt = none → ∀ wl, (s.rx a).v.toNat % 64 = 0 → packetWords s (s.rx a) = .ok (s1, wl) →
      let type := bits (wl.getD 0 0) 7 0
      (bits (s.rx b).v.toNat 63 15 ≠ 0 → exec (.enq d a b) s = .next ((s1.wx d ⟨3#64, 255#8⟩).retire)) ∧
      (bits (s.rx b).v.toNat 63 15 = 0 → ringCtx s1 r ≠ (s1.pair p).ctx.toNat → exec (.enq d a b) s = .next ((s1.wx d ⟨2#64, 255#8⟩).retire)) ∧
      (bits (s.rx b).v.toNat 63 15 = 0 → ringCtx s1 r = (s1.pair p).ctx.toNat → type = 0 ∨ type = 4 ∨ 8 < type →
        exec (.enq d a b) s = .next ((s1.wx d ⟨4#64, 255#8⟩).retire)) ∧
      (bits (s.rx b).v.toNat 63 15 = 0 → ringCtx s1 r = (s1.pair p).ctx.toNat → type ≠ 0 → type ≠ 4 → type ≤ 8 →
        let s0 := writeBackAll (settleMe s1) s1.core
        (takeIndex s0 r = none → exec (.enq d a b) s = .next ((s0.wx d ⟨1#64, 255#8⟩).retire)) ∧
        ∀ s' i, takeIndex s0 r = some (s', i) → ends s' i wl)))

namespace Sys2Proof.Claims

/-! ## Block words: what a tile's elements hold -/

/-- R162, R169, R170: the shape of a tile that a dispatch lets through. -/
def Shape (t : Tile) : Prop := 1 ≤ t.g ∧ t.g ≤ 8 ∧ t.sew ≤ 4 ∧ t.lmul ≤ 3 ∧ t.vl ≤ t.vlmax ∧ t.rc * t.vl ≤ 8192

/-- A width that an element can have (R47). -/
def Width (w : Nat) : Prop := w = 4 ∨ w = 8 ∨ w = 16 ∨ w = 32 ∨ w = 64

/-- R174: position q is that of an element of the tile that meets c. -/
def At (t : Tile) (c : Nat → Nat → Prop) (q : Nat) : Prop := ∃ j i, j < t.rc ∧ i < t.vl ∧ q = j * t.vl + i ∧ c j i

/-- Only these parts of the lanes differ: the vector registers, the masks, the scale registers and the block's flags. -/
def OnlyLanes (t u : Tile) : Prop := u = { t with L := { t.L with v := u.L.v, m := u.L.m, z := u.L.z, flags := u.L.flags } }

/-- R173, R188: in u, element (j, i) of the group at n of width w holds `new j i` where that is given; every other element of the
group, every bit past VL of its rows, and every register outside it are as in t. -/
def Elements (t u : Tile) (n w : Nat) (new : Nat → Nat → Option Nat) : Prop :=
  (∀ j i, j < t.rc → i < t.vl → u.vget n w j i = match new j i with | some x => x % 2 ^ w | none => t.vget n w j i) ∧
  (∀ j i, j < t.rc → t.vl ≤ i → i < t.regs w * perReg t.g w → u.vget n w j i = t.vget n w j i) ∧
  (∀ r, r < n ∨ n + t.rc * t.regs w ≤ r → u.L.v.getD r 0#4096 = t.L.v.getD r 0#4096)

/-- R66: the block's flags in u are those in t and those of the elements that meet c. -/
def Flagged (t u : Tile) (c : Nat → Nat → Prop) (fl : Nat → Nat → Flg) : Prop :=
  ∀ b < 5, u.L.flags.getLsbD b = true ↔ t.L.flags.getLsbD b = true ∨ ∃ j i, j < t.rc ∧ i < t.vl ∧ c j i ∧ (fl j i).getLsbD b = true

/-- Bit q of mask register m in u is `new q` where that is given, else as in t; every other mask register is as in t. -/
def MaskBits (t u : Tile) (m : Nat) (new : Nat → Nat → Option Bool) : Prop :=
  (∀ q < 8192, ∀ b, (∃ j i, j < t.rc ∧ i < t.vl ∧ q = j * t.vl + i ∧ new j i = some b) → u.mbit m q = b) ∧
  (∀ q < 8192, (∀ j i, j < t.rc → i < t.vl → q = j * t.vl + i → new j i = none) → u.mbit m q = t.mbit m q) ∧
  (∀ n < 8, n ≠ m → u.L.m.getD n 0#8192 = t.L.m.getD n 0#8192)

/-- The rows of a queue n at the lanes (R120). -/
abbrev rowsAt (s : State) (t : Tile) (n : Nat) : List Row := headRows (s.pair t.p) n

/-- R173, R118, R121: a source of width w can be read: a legal register group, a block scalar of a legal EMUL, or, at a legal EMUL, RC
rows of the strip's shape. -/
def Ready (s : State) (t : Tile) (n : VReg) (k : SrcKind) (w : Nat) : Prop :=
  match k with
  | .vreg => t.groupOk n.toNat w = true
  | .bscalar => t.emulOk w = true
  | .queue => t.emulOk w = true ∧ ∀ j < t.rc, ∃ r, (rowsAt s t n.toNat)[j]? = some r ∧ r.ready = true ∧ r.vl = t.vl ∧ r.wc = wcOf w

/-- R188: element i of row j of a source of width w. -/
def elOf (s : State) (t : Tile) (n : VReg) (k : SrcKind) (w j i : Nat) : Nat :=
  match k with
  | .vreg => t.vget n.toNat w j i
  | .bscalar => (t.b.getD n.toNat 0#64).toNat % 2 ^ w
  | .queue => (((rowsAt s t n.toNat).getD j {}).els.getD i 0) % 2 ^ w

/-- Width and value of an integer format's element (R47, R48). -/
def iwidth (f : Nat) : Nat := 8 * 2 ^ (f % 4)
def ival (f x : Nat) : Int := if f < 4 then sext (iwidth f) x else ((x % 2 ^ iwidth f : Nat) : Int)
def modN (n : Nat) (x : Int) : Nat := (x % (2 ^ n : Nat)).toNat
def ilow (f : Nat) : Int := if f < 4 then -((2 ^ (iwidth f - 1) : Nat) : Int) else 0
def ihigh (f : Nat) : Int := if f < 4 then ((2 ^ (iwidth f - 1) : Nat) : Int) - 1 else ((2 ^ iwidth f : Nat) : Int) - 1

/-- R192, R193: the result and the flags of an integer word for operands A and B, FD being f. -/
def intResult (f : Nat) (A B : Int) : Instr → Option (BlkW × Nat × Flg)
  | .vadd w sat => some (w, modN (iwidth f) (if sat then max (ilow f) (min (A + B) (ihigh f)) else A + B), 0#5)
  | .vsub w sat => some (w, modN (iwidth f) (if sat then max (ilow f) (min (A - B) (ihigh f)) else A - B), 0#5)
  | .vmul w sat => some (w, modN (iwidth f) (if sat then max (ilow f) (min (A * B) (ihigh f)) else A * B), 0#5)
  | .vmulh w => some (w, modN (iwidth f) (A * B / (2 ^ iwidth f : Nat)), 0#5)
  | .vdiv w => some (w, if B = 0 then 2 ^ iwidth f - 1 else modN (iwidth f) (quot A B),
      if B = 0 then (if A = 0 then 0#5 else 8#5) else if quot A B < ilow f ∨ ihigh f < quot A B then 4#5 else 0#5)
  | .vrem w => some (w, modN (iwidth f) (if B = 0 then A else A - quot A B * B), 0#5)
  | .vand w => some (w, modN (iwidth f) A &&& modN (iwidth f) B, 0#5)
  | .vor w => some (w, modN (iwidth f) A ||| modN (iwidth f) B, 0#5)
  | .vxor w => some (w, modN (iwidth f) A ^^^ modN (iwidth f) B, 0#5)
  | .vsll w => some (w, modN (iwidth f) (A * 2 ^ (B % (iwidth f)).toNat), 0#5)
  | .vsrl w => some (w, modN (iwidth f) A / 2 ^ (B % (iwidth f)).toNat, 0#5)
  | .vsra w => some (w, modN (iwidth f) (sext (iwidth f) (modN (iwidth f) A) / (2 ^ (B % (iwidth f)).toNat : Nat)), 0#5)
  | .vmin w => some (w, modN (iwidth f) (min A B), 0#5)
  | .vmax w => some (w, modN (iwidth f) (max A B), 0#5)
  | _ => none

/-- The six conditions of R195. -/
def holdsOn (c : Nat) (A B : Int) : Bool :=
  match c with
  | 0 => decide (A = B)
  | 1 => decide (A ≠ B)
  | 2 => decide (A < B)
  | 3 => decide (A ≤ B)
  | 4 => decide (B < A)
  | _ => decide (B ≤ A)

/-- The lanes of pair p run the word i on the tile t. -/
def OnTile (i : Instr) (s : State) (p : Nat) (t : Tile) : Prop := LanesTurn s p ∧ t = tileOf s p (wordOf i)

/-- R36, R57: the format word a block word names is f, legal in the fields r that the word reads. -/
def Formatted (t : Tile) (w : BlkW) (r : Reads) (f : Fmt) : Prop := fmtLegal r (t.b.getD w.fs.toNat 0#64) w.fs.toNat = true ∧ f = fmtOf (t.b.getD w.fs.toNat 0#64)

end Sys2Proof.Claims

/-! ## Block words -/

/-- R173, R174, R188, R191: what one sweep does. Active elements of vd take their results and every other bit keeps; the flags of
active elements are gathered; with xe the exception mask takes, at the positions of the fragment, whether an active element raised NV,
DZ, OF or UF, and else no mask changes. The sweep of a word whose result is a mask writes the active positions of that mask alone. -/
def Sys2Proof.Claims.SweepWritesActiveElements : Prop :=
  ∀ (t : Tile) (w : BlkW) (dw : Nat) (f : Nat → Nat → Nat × Flg) (g : Nat → Nat → Bool × Flg), Shape t → Width dw →
    let act : Nat → Nat → Prop := fun j i => t.act w j i = true
    (t.groupOk w.vd.toNat dw = true →
      let u := t.sweep w dw f
      OnlyLanes t u ∧ u.L.z = t.L.z ∧ Elements t u w.vd.toNat dw (fun j i => if t.act w j i then some (f j i).1 else none) ∧
      Flagged t u act (fun j i => (f j i).2) ∧ (w.xe = false → u.L.m = t.L.m) ∧
      (w.xe = true → MaskBits t u w.xm.toNat (fun j i => if t.fr j i then some (t.act w j i && decide ((f j i).2 &&& 30#5 ≠ 0#5)) else none))) ∧
    (w.vd.toNat < 8 →
      let u := t.maskSweep w g
      OnlyLanes t u ∧ u.L.z = t.L.z ∧ u.L.v = t.L.v ∧ Flagged t u act (fun j i => (g j i).2) ∧
      MaskBits t u w.vd.toNat (fun j i => if t.act w j i then some (g j i).1 else none))

/-- R171, R118, R121, R188: a block word that ends touches its own pair only: its lanes move to the next word, each queue that one of
its sources names gives up RC rows, and nothing else of the machine changes: no memory, no scalar register, no other queue. -/
def Sys2Proof.Claims.BlockWordFrame : Prop :=
  ∀ (s : State) (u : Tile) (w : BlkW),
    let t := commit s u w
    let named : Nat → Prop := fun n => (w.ka = .queue ∧ w.sa.toNat = n) ∨ (w.kb = .queue ∧ w.sb.toNat = n)
    OnlyPair s t u.p ∧
    t.pair u.p = { s.pair u.p with q := (t.pair u.p).q, up := (t.pair u.p).up, lanes := (t.pair u.p).lanes } ∧
    (t.pair u.p).lanes = { u.L with off := u.L.off + 8#52, barred := false, memStall := false, stalls := 0, ahead := u.L.ahead.filter (fun w => w.1 != u.L.off) } ∧
    (∀ n < 4, ¬ named n → headRows (t.pair u.p) n = headRows (s.pair u.p) n) ∧
    (∀ n < 4, named n → (w.ka = .queue → w.kb = .queue → w.sa ≠ w.sb) →
      headRows (t.pair u.p) n = (headRows (s.pair u.p) n).drop u.rc)

/-- R118, R121, R171, R173, R174, R188, R191: which elements a block word writes, and what it leaves alone. -/
def Obligations.SweepAndFrame : Prop :=
  Claims.SweepWritesActiveElements ∧ Claims.BlockWordFrame

/-- R189, R192, R193: the integer words, for every source the word may name. Sources are read as exact integers, the result is wrapped
(clamped by `.sat`), and vdiv sets DZ and OF. A format word that is illegal, or has a code that is no integer's, traps 0x02 with it; an
operand of an illegal register group or EMUL, queues and block scalars among them, traps 0x02 with the block word; a queue source that is empty makes the lanes wait, or traps once the A thread has exited, and a head row of another shape traps 0x0B. -/
def Sys2Proof.Claims.IntegerElementWords : Prop :=
  ∀ (i : Instr) (s : State) (p : Nat) (t : Tile) (w : BlkW) (f : Fmt), OnTile i s p t → (intResult 0 0 0 i).map (·.1) = some w →
    (Formatted t w { rm := false } f → f.fa < 8 → f.fb < 8 → f.fd < 8 → t.groupOk w.vd.toNat (iwidth f.fd) = true →
      Ready s t w.sa w.ka (iwidth f.fa) → Ready s t w.sb w.kb (iwidth f.fb) →
      exec i s = .next (commit s (t.sweep w (iwidth f.fd) (fun j e =>
        match intResult f.fd (ival f.fa (elOf s t w.sa w.ka (iwidth f.fa) j e)) (ival f.fb (elOf s t w.sb w.kb (iwidth f.fb) j e)) i with
        | some r => r.2
        | none => (0, 0#5))) w)) ∧
    (f = fmtOf (t.b.getD w.fs.toNat 0#64) → (¬ Formatted t w { rm := false } f ∨ 8 ≤ f.fa ∨ 8 ≤ f.fb ∨ 8 ≤ f.fd) →
      exec i s = .next (s.trap 0x02#8 (t.b.getD w.fs.toNat 0#64) 0#32)) ∧
    (Formatted t w { rm := false } f → f.fa < 8 → f.fb < 8 → f.fd < 8 →
      (t.groupOk w.vd.toNat (iwidth f.fd) = false ∨ t.srcOk w.sa w.ka (iwidth f.fa) = false ∨ t.srcOk w.sb w.kb (iwidth f.fb) = false) →
      exec i s = .next (s.trap 0x02#8 t.word 0#32)) ∧
    (Formatted t w { rm := false } f → f.fa < 8 → f.fb < 8 → f.fd < 8 → t.groupOk w.vd.toNat (iwidth f.fd) = true → w.ka = .queue →
      w.sa.toNat < 4 → (w.sa.toNat = 3 → (s.pair p).pl.stg = 0) → t.emulOk (iwidth f.fa) = true →
      t.srcOk w.sb w.kb (iwidth f.fb) = true → 0 < t.rc →
      let rows := (s.pair p).q.getD w.sa.toNat []
      (rows = [] → (s.pair p).a.halt = .exited → exec i s = .next (s.trap 0x10#8 (BitVec.ofNat 64 (8 + w.sa.toNat)) 0#32)) ∧
      (rows = [] → (s.pair p).a.halt ≠ .exited →
        exec i s = .next (s.updPair p (fun q => { q with lanes := { q.lanes with memStall := true } }))) ∧
      (∀ r l, rows = r :: l → r.ready = true → (r.vl ≠ t.vl ∨ r.wc ≠ wcOf (iwidth f.fa)) →
        exec i s = .next (s.trap 0x0B#8 (shapeVal r t.vl (wcOf (iwidth f.fa))) 0#32)))

/-- R194, R195: add and subtract with carry on unsigned patterns, the carry out at the active positions of its mask (with xe the
exception mask takes 0 at the positions of the fragment); compare of exact values into a mask. No flag is set. -/
def Sys2Proof.Claims.CarryAndCompareWords : Prop :=
  ∀ (s : State) (p : Nat) (t : Tile) (w : BlkW) (f : Fmt) (ci co c : BitVec 3) (sub : Bool), Formatted t w { rm := false } f → f.fa < 8 → f.fb < 8 → Shape t →
    let i : Instr := if sub then .vsbc w ci co else .vadc w ci co
    let n := iwidth f.fd
    let A := fun j e => elOf s t w.sa w.ka n j e
    let B := fun j e => elOf s t w.sb w.kb n j e
    let C := fun j e => (t.mbit ci.toNat (j * t.vl + e)).toNat
    (OnTile i s p t → f.fd < 8 → iwidth f.fa = n → iwidth f.fb = n → t.groupOk w.vd.toNat n = true →
      Ready s t w.sa w.ka n → Ready s t w.sb w.kb n →
      ∃ u, exec i s = .next (commit s u w) ∧ OnlyLanes t u ∧ u.L.flags = t.L.flags ∧ u.L.z = t.L.z ∧
        Elements t u w.vd.toNat n (fun j e => if t.act w j e then
          some (modN n (if sub then (A j e : Int) - B j e - C j e else A j e + B j e + C j e)) else none) ∧
        (∀ m < 8, ∀ q < 8192, t.rc * t.vl ≤ q → u.mbit m q = t.mbit m q) ∧
        ∀ m < 8, ∀ j e, j < t.rc → e < t.vl → u.mbit m (j * t.vl + e) =
          if w.xe = true ∧ m = w.xm.toNat ∧ t.fr j e = true then false
          else if m = co.toNat ∧ t.act w j e = true then
            (if sub then decide (A j e < B j e + C j e) else decide (2 ^ n ≤ A j e + B j e + C j e))
          else t.mbit m (j * t.vl + e)) ∧
    (OnTile (.vcmp w c) s p t → Ready s t w.sa w.ka (iwidth f.fa) → Ready s t w.sb w.kb (iwidth f.fb) →
      exec (.vcmp w c) s = .next (commit s (t.maskSweep w (fun j e =>
        (holdsOn c.toNat (ival f.fa (elOf s t w.sa w.ka (iwidth f.fa) j e)) (ival f.fb (elOf s t w.sb w.kb (iwidth f.fb) j e)), 0#5))) w))

/-- R189, R192-R195: the integer element words, carries and comparisons. -/
def Obligations.IntegerAndCarryWords : Prop :=
  Claims.IntegerElementWords ∧ Claims.CarryAndCompareWords

namespace Sys2Proof.Claims

/-! ## Floating words -/

/-- The value of a finite number. -/
def qv : Machine.Num → ℚ
  | .fin s m e _ => (if s then -1 else 1) * (m : ℚ) * (2 : ℚ) ^ e
  | _ => 0

/-- A finite number held exactly. -/
def Exact (x : Machine.Num) : Prop := ∃ s m e, x = .fin s m e false

/-- R61, R62, R188: a floating operand at an element. -/
def numOf (s : State) (t : Tile) (n : VReg) (k : SrcKind) (f : Nat) (ftz sc : Bool) (z j i : Nat) : Machine.Num :=
  let v := readNum f (elOf s t n k (fmtWidth f) j i) ftz
  if sc then scaleNum v (t.zget z (t.entry j i)) else v

/-- R58-R61, R70, R190: an exact result with its flags, rounded once into FD at an element. -/
def rounded (t : Tile) (f : Fmt) (j i : Nat) (x : Machine.Num × Flg) : Nat × Flg :=
  let u := if f.rm = 5 then randomWord (t.b.getD 7 0#64).toNat ((t.b.getD 6 0#64).toNat + (j * t.vl + i)) else 0
  let r := roundNum f.fd f.rm u f.sat f.ftz x.1
  (r.1, x.2 ||| r.2)

/-- R189: Float, and narrow-safe float. -/
def FloatFmt (narrow : Bool) (f : Nat) : Prop := (8 ≤ f ∧ f ≤ 0x0E ∨ f = 0x10 ∨ f = 0x11) ∧ (narrow = true → f ≠ 8)

/-- The words of R196 and R197 that round one exact result of one or two operands: whether they read sb, whether f64 is refused, and
the operation under a rounding mode. -/
def floatOp : Instr → Option (BlkW × Bool × Bool × (Nat → Machine.Num → Machine.Num → Machine.Num × Flg))
  | .vfadd w => some (w, true, false, addNum)
  | .vfsub w => some (w, true, false, fun rm a b => addNum rm a (negNum b))
  | .vfmul w => some (w, true, false, fun _ a b => mulNum a b)
  | .vfdiv w => some (w, true, true, fun _ a b => divNum a b)
  | .vfmin w => some (w, true, false, fun _ a b => minmaxNum false a b)
  | .vfmax w => some (w, true, false, fun _ a b => minmaxNum true a b)
  | .vfsqrt w => some (w, false, true, fun _ a _ => sqrtNum a)
  | .vfsfn w fn => some (w, false, true, fun _ a _ =>
      if fn.toNat = 0 then rcpNum a else if fn.toNat = 1 then rsqrtNum a else if fn.toNat = 2 then exp2Num a else log2Num a)
  | _ => none

/-- R198: a condition on two operands, and its flag. -/
def fholds (c : Nat) (a b : Machine.Num) : Bool × Flg :=
  if isNaN a || isNaN b then
    (c == 1 || c == 6, if c = 0 ∨ c = 1 ∨ c = 6 then (if isSig a || isSig b then 16#5 else 0#5) else 16#5)
  else
    (match c, cmpNum a b with
      | 0, o => o == .eq
      | 1, o => o != .eq
      | 2, o => o == .lt
      | 3, o => o != .gt
      | 4, o => o == .gt
      | 5, o => o != .lt
      | _, _ => false, 0#5)

/-- R59, R206: n rounds of Philox-4x32 on a counter of four words under a key of two (its published multipliers and key steps, log 19). -/
def philoxFrom : Nat → BitVec 32 × BitVec 32 × BitVec 32 × BitVec 32 → BitVec 32 × BitVec 32 → BitVec 32 × BitVec 32 × BitVec 32 × BitVec 32
  | 0, c, _ => c
  | n + 1, (a, b, c, d), (k, l) =>
    let p := 0xD2511F53#64 * a.setWidth 64
    let q := 0xCD9E8D57#64 * c.setWidth 64
    philoxFrom n ((q >>> 32).setWidth 32 ^^^ b ^^^ k, q.setWidth 32, (p >>> 32).setWidth 32 ^^^ d ^^^ l, p.setWidth 32) (k + 0x9E3779B9#32, l + 0xBB67AE85#32)

/-- R59, R206: word c of the random sequence of a key: word c & 3 of the block of counter c >> 2. -/
def philoxWord (key c : Word) : Nat :=
  let n := c >>> 2
  let o := philoxFrom 10 (n.setWidth 32, (n >>> 32).setWidth 32, 0#32, 0#32) (key.setWidth 32, (key >>> 32).setWidth 32)
  BitVec.toNat (match c.toNat % 4 with | 0 => o.1 | 1 => o.2.1 | 2 => o.2.2.1 | _ => o.2.2.2)

/-- R62: the scale entries of the operands that are scaled exist. -/
def Scaled (t : Tile) (used : Bool) : Prop := used = true → t.vl = 0 ∨ t.entry (t.rc - 1) (t.vl - 1) ≤ 511

end Sys2Proof.Claims

/-- R196: the exact operations. A sum or product of finite operands is the exact rational, its sign under a zero sum by R196; a NaN
operand gives NaN, with NV for a signalling one; opposite infinities and zero times infinity give NaN with NV; vfma is the sum of the
exact product and C; a quotient is held to 320 bits or more with a mark for what lies below (log 15). -/
def Sys2Proof.Claims.ExactOperations : Prop :=
  ∀ (rm : Nat) (a b c : Machine.Num),
    (Exact a → Exact b →
      (∃ s m e, addNum rm a b = (.fin s m e false, 0#5) ∧ qv (.fin s m e false) = qv a + qv b ∧
        (m = 0 → s = if qv a = 0 ∧ qv b = 0 ∧ isNeg a = isNeg b then isNeg a else decide (rm = 2))) ∧
      (∃ m e, mulNum a b = (.fin (isNeg a != isNeg b) m e false, 0#5) ∧ qv (.fin (isNeg a != isNeg b) m e false) = qv a * qv b) ∧
      (Exact c → ∃ s m e, fmaNum rm a b c = (.fin s m e false, 0#5) ∧ qv (.fin s m e false) = qv a * qv b + qv c) ∧
      (qv a ≠ 0 → qv b ≠ 0 → ∃ m e st, divNum a b = (.fin (isNeg a != isNeg b) m e st, 0#5) ∧ 2 ^ 320 ≤ m ∧
        (m : ℚ) * (2 : ℚ) ^ e ≤ |qv a / qv b| ∧ |qv a / qv b| < ((m : ℚ) + 1) * (2 : ℚ) ^ e ∧ (st = false ↔ |qv a / qv b| = (m : ℚ) * (2 : ℚ) ^ e)) ∧
      (qv a ≠ 0 → qv b = 0 → divNum a b = (.inf (isNeg a != isNeg b), 8#5)) ∧
      qv (minmaxNum false a b).1 = min (qv a) (qv b) ∧ qv (minmaxNum true a b).1 = max (qv a) (qv b)) ∧
    (isNaN a = true ∨ isNaN b = true →
      let fl : Flg := if isSig a = true ∨ isSig b = true then 16#5 else 0#5
      addNum rm a b = (.nan false, fl) ∧ mulNum a b = (.nan false, fl) ∧ divNum a b = (.nan false, fl)) ∧
    (isNaN a = true → isNaN b = false → minmaxNum false a b = (b, sigFlag a) ∧ minmaxNum true b a = (b, sigFlag a)) ∧
    (∀ n, addNum rm (.inf n) (.inf !n) = (.nan false, 16#5) ∧ addNum rm (.inf n) (.inf n) = (.inf n, 0#5) ∧
      divNum (.inf n) (.inf n) = (.nan false, 16#5)) ∧
    (∀ n s e, mulNum (.inf n) (.fin s 0 e false) = (.nan false, 16#5) ∧ mulNum (.fin s 0 e false) (.inf n) = (.nan false, 16#5) ∧
      (fmaNum rm (.inf n) (.fin s 0 e false) (.nan false)).2 = 16#5)

/-- R197: roots, reciprocals and powers. A reciprocal is the quotient of one by the operand. The root m · 2^e of a positive operand, and
its reciprocal root, are held to 319 bits or more as the greatest that do not pass the exact value, with a mark that says whether
something lies below. A power of two with a whole exponent, and the logarithm of a power of two, are exact; every other is marked as not
exact and lies within 2^-256 of the exact value, the power relatively, the logarithm absolutely (log 15: correct rounding of what is held).
Beyond 2^32768 and 2^-32768 a power with a whole exponent is given as that one, which every format of R197 rounds alike. Special operands are
those of the table. -/
def Sys2Proof.Claims.RootsAndPowers : Prop :=
  (∀ a, rcpNum a = divNum (.fin false 1 0 false) a) ∧
  (∀ s, let r : Machine.Num × Flg := (.nan false, if s then 16#5 else 0#5)
    sqrtNum (.nan s) = r ∧ rsqrtNum (.nan s) = r ∧ exp2Num (.nan s) = r ∧ log2Num (.nan s) = r) ∧
  (sqrtNum (.inf false) = (.inf false, 0#5) ∧ rsqrtNum (.inf false) = (.fin false 0 0 false, 0#5) ∧ exp2Num (.inf false) = (.inf false, 0#5) ∧
    log2Num (.inf false) = (.inf false, 0#5)) ∧
  (sqrtNum (.inf true) = (.nan false, 16#5) ∧ rsqrtNum (.inf true) = (.nan false, 16#5) ∧ exp2Num (.inf true) = (.fin false 0 0 false, 0#5) ∧
    log2Num (.inf true) = (.nan false, 16#5)) ∧
  ∀ a, Exact a →
    (qv a = 0 → sqrtNum a = (.fin (isNeg a) 0 0 false, 0#5) ∧ rsqrtNum a = (.inf (isNeg a), 8#5) ∧ log2Num a = (.inf true, 8#5)) ∧
    (qv a < 0 → sqrtNum a = (.nan false, 16#5) ∧ rsqrtNum a = (.nan false, 16#5) ∧ log2Num a = (.nan false, 16#5)) ∧
    (0 < qv a →
      (∃ m e st, sqrtNum a = (.fin false m e st, 0#5) ∧ 2 ^ 319 ≤ m ∧ ((m : ℚ) * (2 : ℚ) ^ e) ^ 2 ≤ qv a ∧
        qv a < (((m : ℚ) + 1) * (2 : ℚ) ^ e) ^ 2 ∧ (st = false ↔ ((m : ℚ) * (2 : ℚ) ^ e) ^ 2 = qv a)) ∧
      (∃ m e st, rsqrtNum a = (.fin false m e st, 0#5) ∧ 2 ^ 319 ≤ m ∧ ((m : ℚ) * (2 : ℚ) ^ e) ^ 2 * qv a ≤ 1 ∧
        1 < (((m : ℚ) + 1) * (2 : ℚ) ^ e) ^ 2 * qv a ∧ (st = false ↔ ((m : ℚ) * (2 : ℚ) ^ e) ^ 2 * qv a = 1)) ∧
      (∀ n : ℤ, qv a = (2 : ℚ) ^ n → log2Num a = (.fin (decide (n < 0)) n.natAbs 0 false, 0#5)) ∧
      ((∀ n : ℤ, qv a ≠ (2 : ℚ) ^ n) → ∃ s m, log2Num a = (.fin s m (-320) true, 0#5) ∧
        |((qv (.fin s m (-320) true) : ℚ) : ℝ) - Real.logb 2 ((qv a : ℚ) : ℝ)| ≤ (2 : ℝ) ^ (-256 : ℤ))) ∧
    (∀ n : ℤ, qv a = n → exp2Num a = (.fin false 1 (max (-32768) (min 32768 n)) false, 0#5)) ∧
    ((∀ n : ℤ, qv a ≠ n) → |qv a| ≤ 32768 → ∃ m, exp2Num a = (.fin false m (⌊qv a⌋ - 320) true, 0#5) ∧ 2 ^ 320 ≤ m ∧ m < 2 ^ 321 ∧
      |(m : ℝ) * (2 : ℝ) ^ (⌊qv a⌋ - 320) - (2 : ℝ) ^ ((qv a : ℚ) : ℝ)| ≤ (2 : ℝ) ^ (-256 : ℤ) * (2 : ℝ) ^ ((qv a : ℚ) : ℝ))

/-- R196, R197: the exact results that the floating words round: sums, products, quotients, roots, reciprocals and powers. -/
def Obligations.ExactArithmetic : Prop :=
  Claims.ExactOperations ∧ Claims.RootsAndPowers

namespace Sys2Proof.Claims

/-- R58: v is the one of the values V that mode rm picks for x: x itself if it is one; else a neighbour, toward zero, down or up by the
directed modes, the nearest by the other two, where a tie goes to the one whose code has bit 0 clear (`even`) or away from zero. -/
def Picks (rm : Nat) (V : ℚ → Prop) (x v : ℚ) (even : Prop) : Prop :=
  V v ∧ (rm = 1 → |v| ≤ |x|) ∧ (rm = 2 → v ≤ x) ∧ (rm = 3 → x ≤ v) ∧
  ∀ y, V y → (y = x → v = x) ∧ ¬ (v < y ∧ y < x) ∧ ¬ (x < y ∧ y < v) ∧ (rm = 0 ∨ rm = 4 → |v - x| ≤ |y - x|) ∧
    (y ≠ v → |y - x| = |v - x| → (rm = 0 → even) ∧ (rm = 4 → |y| ≤ |v|))

/-- The values a format holds. -/
def valueOf (f : Nat) (y : ℚ) : Prop := ∃ w < 2 ^ fmtWidth f, Exact (decodeNum f w) ∧ qv (decodeNum f w) = y

/-- R49, R50, R60: a format, its largest finite value, its infinity and its NaN; e4m3 has no infinity, and e2m1 neither. -/
def ieeeRows : List (Nat × Nat × Nat × Nat) :=
  [(0x08, 0x7FEFFFFFFFFFFFFF, 0x7FF0000000000000, 0x7FF8000000000000), (0x09, 0x7F7FFFFF, 0x7F800000, 0x7FC00000), (0x0A, 0x7BFF, 0x7C00, 0x7E00),
   (0x0B, 0x7F7F, 0x7F80, 0x7FC0), (0x0C, 0x7E, 0x7F, 0x7F), (0x0D, 0x7B, 0x7C, 0x7E), (0x0E, 7, 7, 0)]

/-- R60: a whole number placed in an integer format for the exact value x. -/
def placeInt (f : Nat) (x : ℚ) (v : Int) : Nat × Flg :=
  if v < ilow f then (modN (iwidth f) (ilow f), 16#5) else if ihigh f < v then (modN (iwidth f) (ihigh f), 16#5)
  else (modN (iwidth f) v, if (v : ℚ) = x then 0#5 else 1#5)

end Sys2Proof.Claims

/-- R58, R60, R61: rounding a finite value into an IEEE-based or narrow format without overflow gives a value of that format with the
same sign, the one that the mode picks; NX says that the two differ, and UF that they differ and the result lies below the smallest
normal value. -/
def Sys2Proof.Claims.RoundingToAValue : Prop :=
  ∀ (f rm u m : Nat) (s : Bool) (e : Int), 8 ≤ f → f ≤ 0x0E → rm ≤ 4 → m ≠ 0 →
    let r := roundNum f rm u false false (.fin s m e false)
    let x := qv (.fin s m e false)
    r.2 &&& 4#5 = 0#5 → ∃ m' e', r.1 < 2 ^ fmtWidth f ∧ decodeNum f r.1 = .fin s m' e' false ∧
      let v := qv (.fin s m' e' false)
      (r.2 &&& 1#5 = 0#5 ↔ v = x) ∧ (r.2 &&& 2#5 = 0#5 ↔ v = x ∨ (2 : ℚ) ^ (1 - ((ieee f).2.2 : Int)) ≤ |v|) ∧ r.2 &&& 24#5 = 0#5 ∧
      Picks rm (valueOf f) x v (r.1 % 2 = 0)

/-- R58, R60, R61, R59: a finite value overflows where its rounded magnitude passes the largest finite value, and is then placed by the
mode and SAT with OF and NX; SAT changes nothing else. Infinities and NaN are placed by the table. With FTZ a subnormal result is a zero of
its sign, with UF and NX. Under stochastic rounding the magnitude goes up exactly when the 32 bits below its last kept bit and the random
word carry. -/
def Sys2Proof.Claims.RoundingOverflowAndSpecials : Prop :=
  ∀ row ∈ ieeeRows, ∀ (rm u m : Nat) (s sat ftz : Bool) (e : Int),
    let f := row.1
    let big := row.2.1
    let signed_ : Nat → Nat := fun w => if s then 2 ^ (fmtWidth f - 1) + w else w
    let top := qv (decodeNum f big)
    let ulp := top - qv (decodeNum f (big - 1))
    let z : Machine.Num := .fin s m e false
    let x := qv z
    let passes : Prop := match rm with
      | 0 => top + ulp / 2 < |x| ∨ (top + ulp / 2 = |x| ∧ f ≠ 0x0C)
      | 1 => top + ulp ≤ |x|
      | 2 => if s then top < |x| else top + ulp ≤ |x|
      | 3 => if s then top + ulp ≤ |x| else top < |x|
      | _ => top + ulp / 2 ≤ |x|
    let toBig : Prop := sat = true ∨ f = 0x0E ∨ f ≠ 0x0C ∧ (rm = 1 ∨ (rm = 2 ∧ s = false) ∨ (rm = 3 ∧ s = true))
    (rm ≤ 4 → passes → roundNum f rm u sat ftz z = (open Classical in if toBig then signed_ big else if f = 0x0C then 0x7F else signed_ row.2.2.1, 5#5)) ∧
    (rm ≤ 4 → ¬ passes → (roundNum f rm u sat ftz z).2 &&& 4#5 = 0#5 ∧ roundNum f rm u sat ftz z = roundNum f rm u false ftz z) ∧
    (m ≠ 0 → roundNum f rm u sat true z =
      let r := roundNum f rm u sat false z
      if isSubnormal f r.1 then (signed_ 0, 3#5) else r) ∧
    (m = 0 → roundNum f rm u sat ftz z = (signed_ 0, 0#5)) ∧
    roundNum f rm u sat ftz (.inf s) =
      (if sat = true ∨ f = 0x0E then (signed_ big, 5#5) else if f = 0x0C then (0x7F, 16#5) else (signed_ row.2.2.1, 0#5)) ∧
    (∀ q, roundNum f rm u sat ftz (.nan q) = (row.2.2.2, if f = 0x0E then 16#5 else 0#5)) ∧
    (m ≠ 0 → |x| < top → u < 2 ^ 32 →
      let low := (roundNum f 1 u false false z).1
      let a := |qv (decodeNum f low)|
      let b := |qv (decodeNum f (low + 1))|
      (roundNum f 5 u false false z).1 = if a < |x| ∧ 2 ^ 32 ≤ ⌊(|x| - a) / (b - a) * 2 ^ 32⌋ + (u : Int) then low + 1 else low)

/-- R54, R60: a finite nonzero value into a tapered format is never zero and never NaR: above the largest value it is that with OF and NX,
below the smallest that with UF and NX, else the one the mode picks, with NX where they differ; infinities and NaN by the table. -/
def Sys2Proof.Claims.RoundingToTapered : Prop :=
  ∀ f, f = 0x10 ∨ f = 0x11 → ∀ (rm u m : Nat) (s sat ftz : Bool) (e : Int),
    let n := if f = 0x10 then 8 else 6
    let top := 2 ^ (n - 1) - 1
    let signed_ : Nat → Nat := fun c => if s then 2 ^ n - c else c
    let V : Nat → ℚ := fun c => qv (decodeNum f c)
    let x := qv (.fin s m e false)
    let r := roundNum f rm u sat ftz (.fin s m e false)
    (rm ≤ 4 → m ≠ 0 →
      (V top < |x| → r = (signed_ top, 5#5)) ∧ (|x| < V 1 → r = (signed_ 1, 3#5)) ∧
      (V 1 ≤ |x| → |x| ≤ V top → r.1 < 2 ^ n ∧ Exact (decodeNum f r.1) ∧ V r.1 ≠ 0 ∧ Picks rm (valueOf f) x (V r.1) (r.1 % 2 = 0) ∧
        r.2 = if V r.1 = x then 0#5 else 1#5)) ∧
    (m = 0 → r = (0, 0#5)) ∧
    roundNum f rm u sat ftz (.inf s) = (if sat then (signed_ top, 5#5) else (2 ^ (n - 1), 16#5)) ∧
    (∀ q, roundNum f rm u sat ftz (.nan q) = (2 ^ (n - 1), 0#5))

/-- R48, R52, R59, R60: a value into an integer format is the whole number the mode picks, clamped with NV where the format does not hold
it, NX saying that it differs; a NaN is 0 and an infinity the format's end, with NV. Into e8m0 the power of two that the mode picks is
placed as its exponent, with UF and NX below it and OF and NX above; zero, a negative value and a NaN give NaN with NV. -/
def Sys2Proof.Claims.RoundingToIntegersAndScales : Prop :=
  ∀ (rm u m : Nat) (s sat ftz : Bool) (e : Int),
    let x := qv (.fin s m e false)
    (∀ f < 8,
      (rm ≤ 4 → ∃ v : Int, Picks rm (fun y => ∃ n : Int, (n : ℚ) = y) x v (v % 2 = 0) ∧ roundNum f rm u sat ftz (.fin s m e false) = placeInt f x v) ∧
      (u < 2 ^ 32 →
        let w := ⌊|x|⌋ + if 2 ^ 32 ≤ ⌊(|x| - ⌊|x|⌋) * 2 ^ 32⌋ + (u : Int) then 1 else 0
        roundNum f 5 u sat ftz (.fin s m e false) = placeInt f x (if s then -w else w)) ∧
      roundNum f rm u sat ftz (.inf s) = (modN (iwidth f) (if s then ilow f else ihigh f), 16#5) ∧
      ∀ q, roundNum f rm u sat ftz (.nan q) = (0, 16#5)) ∧
    (rm ≤ 4 → m ≠ 0 → s = false → ∃ k : Int, Picks rm (fun y => ∃ n : Int, y = (2 : ℚ) ^ n) x ((2 : ℚ) ^ k) ((k + 127) % 2 = 0) ∧
      roundNum 0x0F rm u sat ftz (.fin s m e false) =
        if k < -127 then (0, 3#5) else if 127 < k then (if sat then 254 else 255, 5#5)
        else ((k + 127).toNat, if (2 : ℚ) ^ k = x then 0#5 else 1#5)) ∧
    (m = 0 ∨ s = true → roundNum 0x0F rm u sat ftz (.fin s m e false) = (255, 16#5)) ∧
    roundNum 0x0F rm u sat ftz (.inf s) = (if s = false ∧ sat = true then (254, 0#5) else (255, 16#5)) ∧
    ∀ q, roundNum 0x0F rm u sat ftz (.nan q) = (255, 16#5)

/-- R52, R54, R58-R61: rounding gives the value of the format that the mode picks, and where it overflows, saturates, flushes or clamps. -/
def Obligations.RoundingIsNearest : Prop :=
  Claims.RoundingToAValue ∧ Claims.RoundingOverflowAndSpecials ∧ Claims.RoundingToTapered ∧ Claims.RoundingToIntegersAndScales

/-- R189, R196, R197, R46: the floating words, for every source the word may name: the exact result of the operation on the decoded,
flushed and scaled operands, rounded once into FD. vfma reads C unscaled in format FD; the deprecated vfmacc reads the old element of
vd and counts one deprecated word. A format word that is illegal or of a code the word does not accept traps 0x02 with it. -/
def Sys2Proof.Claims.FloatElementWords : Prop :=
  ∀ (i : Instr) (s : State) (p : Nat) (t : Tile) (w : BlkW) (f : Fmt), OnTile i s p t → f = fmtOf (t.b.getD w.fs.toNat 0#64) →
    let a := fun j e => numOf s t w.sa w.ka f.fa f.ftz f.sa f.za j e
    let b := fun j e => numOf s t w.sb w.kb f.fb f.ftz f.sb f.zb j e
    (∀ two narrow op, floatOp i = some (w, two, narrow, op) →
      let codes := FloatFmt narrow f.fa ∧ FloatFmt narrow f.fd ∧ (two = true → FloatFmt narrow f.fb)
      (Formatted t w { sb := two } f → codes → t.groupOk w.vd.toNat (fmtWidth f.fd) = true → Scaled t (f.sa || two && f.sb) →
        Ready s t w.sa w.ka (fmtWidth f.fa) → (two = true → Ready s t w.sb w.kb (fmtWidth f.fb)) →
        exec i s = .next (commit s (t.sweep w (fmtWidth f.fd) (fun j e => rounded t f j e (op f.rm (a j e) (b j e)))) w)) ∧
      (¬ Formatted t w { sb := two } f ∨ ¬ codes → exec i s = .next (s.trap 0x02#8 (t.b.getD w.fs.toNat 0#64) 0#32))) ∧
    (∀ mem, i = .vfma w mem ∨ (i = .vfmacc w ∧ mem = 0#2) →
      let c : VReg := if i = .vfmacc w then w.vd else w.sc
      let sign : Bool → Machine.Num → Machine.Num := fun n x => if n then negNum x else x
      Formatted t w {} f → FloatFmt false f.fa → FloatFmt false f.fb → FloatFmt false f.fd → Scaled t (f.sa || f.sb) →
      t.groupOk w.vd.toNat (fmtWidth f.fd) = true → t.groupOk c.toNat (fmtWidth f.fd) = true →
      Ready s t w.sa w.ka (fmtWidth f.fa) → Ready s t w.sb w.kb (fmtWidth f.fb) →
      let n := commit s (t.sweep w (fmtWidth f.fd) (fun j e => rounded t f j e (fmaNum f.rm (sign (mem.getLsbD 1) (a j e)) (b j e)
        (sign (mem.getLsbD 0) (readNum f.fd (t.vget c.toNat (fmtWidth f.fd) j e) f.ftz))))) w
      exec i s = .next (if i = .vfmacc w then countDeprecated n (s.pair p).ctx.toNat (dieOf p) else n))

/-- R198, R199, R200: compare into a mask with NV by its condition; the class of an element as one bit of ten; the bits of A under a
sign taken from B. The last two set no flag. -/
def Sys2Proof.Claims.FloatCompareClassSign : Prop :=
  ∀ (s : State) (p : Nat) (t : Tile) (w : BlkW) (f : Fmt) (c : BitVec 3) (mode : BitVec 2), FloatFmt false f.fa →
    let a := fun j e => numOf s t w.sa w.ka f.fa f.ftz f.sa f.za j e
    let b := fun j e => numOf s t w.sb w.kb f.fb f.ftz f.sb f.zb j e
    let topBit : Nat → Nat → Bool := fun g x => x.testBit (fmtWidth g - 1)
    (OnTile (.vfcmp w c) s p t → Formatted t w { rm := false } f → c.toNat ≤ 6 → FloatFmt false f.fb → Scaled t (f.sa || f.sb) → Ready s t w.sa w.ka (fmtWidth f.fa) →
      Ready s t w.sb w.kb (fmtWidth f.fb) →
      exec (.vfcmp w c) s = .next (commit s (t.maskSweep w (fun j e => fholds c.toNat (a j e) (b j e))) w)) ∧
    (OnTile (.vfclass w) s p t → Formatted t w { sb := false, rm := false } f → f.fd < 8 → f.fd ≠ 0 → f.fd ≠ 4 → t.groupOk w.vd.toNat (iwidth f.fd) = true → Scaled t f.sa →
      Ready s t w.sa w.ka (fmtWidth f.fa) →
      exec (.vfclass w) s = .next (commit s (t.sweep w (iwidth f.fd) (fun j e => (2 ^ classBit f.fa (a j e), 0#5))) w)) ∧
    (∀ x, (x = .nan true → classBit f.fa x = 8) ∧ (x = .nan false → classBit f.fa x = 9) ∧ (x = .inf true → classBit f.fa x = 0) ∧
      (x = .inf false → classBit f.fa x = 7) ∧ (Exact x → qv x = 0 → classBit f.fa x = if isNeg x then 3 else 4) ∧
      (Exact x → qv x ≠ 0 → (f.fa ≤ 0x0E ∧ |qv x| < (2 : ℚ) ^ (1 - ((ieee f.fa).2.2 : Int))) → classBit f.fa x = if isNeg x then 2 else 5) ∧
      (Exact x → qv x ≠ 0 → ¬ (f.fa ≤ 0x0E ∧ |qv x| < (2 : ℚ) ^ (1 - ((ieee f.fa).2.2 : Int))) → classBit f.fa x = if isNeg x then 1 else 6)) ∧
    (OnTile (.vfsgn w mode) s p t → Formatted t w { rm := false } f → f.fa ≤ 0x0E → 8 ≤ f.fb → f.fb ≤ 0x0E → f.fd = f.fa → t.groupOk w.vd.toNat (fmtWidth f.fa) = true →
      Ready s t w.sa w.ka (fmtWidth f.fa) → Ready s t w.sb w.kb (fmtWidth f.fb) →
      exec (.vfsgn w mode) s = .next (commit s (t.sweep w (fmtWidth f.fa) (fun j e =>
        let x := elOf s t w.sa w.ka (fmtWidth f.fa) j e
        let y := topBit f.fb (elOf s t w.sb w.kb (fmtWidth f.fb) j e)
        let sg := if mode = 0#2 then y else if mode = 1#2 then !y else topBit f.fa x != y
        (x % 2 ^ (fmtWidth f.fa - 1) + sg.toNat * 2 ^ (fmtWidth f.fa - 1), 0#5))) w))

/-- R46, R189, R196-R200: the floating-point element words, comparisons, classes and signs. -/
def Obligations.FloatWords : Prop :=
  Claims.FloatElementWords ∧ Claims.FloatCompareClassSign

/-- R201, R63: vcvt of one kind to another; integers to integers wrap or, with SAT, clamp, everything else is rounded once, a
signalling NaN setting NV. With SD each block of a row that has an active element takes one scale entry, and its active elements are
placed under it. After a transient butterfly the word reads the values that one carried. -/
def Sys2Proof.Claims.ConvertWords : Prop :=
  ∀ (s : State) (p : Nat) (t : Tile) (w : BlkW) (f : Fmt), OnTile (.vcvt w) s p t → Formatted t w { sb := false, sd := true } f → w.ka = .vreg ∨ t.L.carry = none →
    t.groupOk w.vd.toNat (fmtWidth f.fd) = true → Scaled t (f.sa || f.sd) → Ready s t w.sa w.ka (fmtWidth f.fa) →
    let from_ : Tile := { t with L := { t.L with v := t.L.carry.getD t.L.v } }
    let t' : Tile := { t with L := { t.L with carry := none } }
    let x := fun j e => elOf s from_ w.sa w.ka (fmtWidth f.fa) j e
    let a := fun j e => numOf s from_ w.sa w.ka f.fa f.ftz f.sa f.za j e
    (f.sd = false → exec (.vcvt w) s = .next (commit s (t'.sweep w (fmtWidth f.fd) (fun j e =>
      if f.fa < 8 ∧ f.fd < 8 then
        (modN (iwidth f.fd) (if f.sat then max (ilow f.fd) (min (ival f.fa (x j e)) (ihigh f.fd)) else ival f.fa (x j e)), 0#5)
      else rounded t f j e (a j e, sigFlag (a j e)))) w)) ∧
    (f.sd = true → Shape t →
      let l := 2 ^ (t.blk + 3)
      let vals : Nat → Nat → List Machine.Num := fun j k =>
        (List.range t.vl).filterMap (fun e => if e / l = k ∧ t.act w j e = true then some (a j e) else none)
      let entry := fun j k => blockEntry f.fd (vals j k)
      ∃ u, exec (.vcvt w) s = .next (commit s u w) ∧
        (let v := t'.sweep w (fmtWidth f.fd) (fun j e => blockElem t f (entry j (e / l)) j e (a j e))
         u.L.v = v.L.v ∧ u.L.m = v.L.m ∧ u.L.flags = v.L.flags) ∧ u.L.off = t.L.off ∧ u.L.f = t.L.f ∧ u.L.frags = t.L.frags ∧
        (∀ z < 4, z ≠ f.zd → u.L.z.getD z 0#4096 = t.L.z.getD z 0#4096) ∧
        ∀ n < 512, (∀ j e, j < t.rc → e < t.vl → t.act w j e = true → t.entry j e = n → u.zget f.zd n = entry j (e / l)) ∧
          ((∀ j e, j < t.rc → e < t.vl → t.act w j e = true → t.entry j e ≠ n) → u.zget f.zd n = t.zget f.zd n)) ∧
    (∀ xs : List Machine.Num, (∀ y ∈ xs, Exact y) → ∀ y ∈ xs, qv y ≠ 0 → (∀ z ∈ xs, |qv z| ≤ |qv y|) →
      blockEntry f.fd xs = (max (-127) (min 127 (Int.log 2 |qv y| - emaxOf f.fd)) + 127).toNat)

/-- R202-R206: the butterfly of distance 2^k, every source element read first, its transient form leaving every register and handing
its values to the next word; the scale entries of a row loaded and read back, zeros past the last; and random bits fixed by position, each
32 of them a word of Philox-4x32-10 (its constants: log 19). -/
def Sys2Proof.Claims.ButterflyScaleAndRandomWords : Prop :=
  ∀ (s : State) (p : Nat) (t : Tile) (w : BlkW) (f : Fmt) (k : BitVec 4), Shape t →
    let q := (t.vlmax + 2 ^ (t.blk + 3) - 1) / 2 ^ (t.blk + 3)
    let entries := (t.rc - 1) * q + min t.vl q ≤ 512
    let a := fun j e => numOf s t w.sa w.ka f.fa f.ftz f.sa f.za j e
    let partner := fun e => Nat.xor e (2 ^ k.toNat)
    let u := t.sweep w (fmtWidth f.fd) (fun j e => rounded t f j e
      (if t.vl ≤ partner e then (a j e, sigFlag (a j e))
       else if e.testBit k.toNat then addNum f.rm (a j (partner e)) (negNum (a j e)) else addNum f.rm (a j e) (a j (partner e))))
    (∀ tr, OnTile (.vbfly w k tr) s p t → Formatted t w { sb := false } f → FloatFmt false f.fa → FloatFmt false f.fd →
      t.groupOk w.vd.toNat (fmtWidth f.fd) = true → Scaled t f.sa → Ready s t w.sa w.ka (fmtWidth f.fa) →
      (tr = true → cvtFollows s t w f.fd = true) →
      exec (.vbfly w k tr) s = .next (commit s (if tr then { u with L := { u.L with v := t.L.v, carry := some u.L.v } } else u) w)) ∧
    (∀ tr, OnTile (.vbfly w k tr) s p t → Formatted t w { sb := false } f → FloatFmt false f.fa → FloatFmt false f.fd → tr = true →
      cvtFollows s t w f.fd = false → exec (.vbfly w k tr) s = .next (s.trap 0x02#8 t.word 0#32)) ∧
    (OnTile (.zld w) s p t → entries → w.vd.toNat < 4 → Ready s t w.sa w.ka 8 →
      ∃ u, exec (.zld w) s = .next (commit s u w) ∧ u = { t with L := { t.L with z := u.L.z } } ∧
        ∀ z < 4, ∀ n < 512, (∀ j e, j < t.rc → e < t.vl → e < q → n = j * q + e → z = w.vd.toNat → t.act w j e = true →
          u.zget z n = elOf s t w.sa w.ka 8 j e) ∧
          ((∀ j e, j < t.rc → e < t.vl → e < q → n = j * q + e → z = w.vd.toNat → t.act w j e = false) → u.zget z n = t.zget z n)) ∧
    (OnTile (.zmv w) s p t → entries → t.groupOk w.vd.toNat 8 = true →
      ∃ u, exec (.zmv w) s = .next (commit s u w) ∧ u = { t with L := { t.L with v := u.L.v } } ∧
        Elements t u w.vd.toNat 8 (fun j e => if t.fr j e then some (if e < q then t.zget w.sa.toNat (j * q + e) else 0) else none)) ∧
    (∀ i, (i = .zld w ∨ i = .zmv w) → OnTile i s p t → ¬ entries →
      exec i s = .next (s.trap 0x02#8 t.word 0#32)) ∧
    (OnTile (.vrng w) s p t → t.groupOk w.vd.toNat t.sewBits = true →
      let key := (t.b.getD w.sb.toNat 0#64).toNat
      let at_ := fun j e => (t.b.getD w.sa.toNat 0#64).toNat + (if t.sew = 4 then 2 else 1) * (j * t.vl + e)
      exec (.vrng w) s = .next (commit s (t.sweep w t.sewBits (fun j e =>
        (if t.sew = 4 then randomWord key (at_ j e) + 2 ^ 32 * randomWord key (at_ j e + 1) else randomWord key (at_ j e) % 2 ^ t.sewBits, 0#5))) w)) ∧
    ∀ (key : Word) (c : Nat), randomWord key.toNat c = philoxWord key (BitVec.ofNat 64 c)

/-- R63, R201-R206: conversions, butterflies, scales and random bits. -/
def Obligations.ConvertAndScaleWords : Prop :=
  Claims.ConvertWords ∧ Claims.ButterflyScaleAndRandomWords

namespace Sys2Proof.Claims

/-- The bit of mask register m at an element. -/
def bitAt (t : Tile) (m : VReg) (j i : Nat) : Bool := t.mbit m.toNat (j * t.vl + i)

/-- R207, R208, R209: the bit a mask word gives an element. -/
def maskResult (t : Tile) (j i : Nat) : Instr → Option (BlkW × Bool)
  | .mand w => some (w, bitAt t w.sa j i && bitAt t w.sb j i)
  | .mor w => some (w, bitAt t w.sa j i || bitAt t w.sb j i)
  | .mxor w => some (w, bitAt t w.sa j i ^^ bitAt t w.sb j i)
  | .mandn w => some (w, bitAt t w.sa j i && !(bitAt t w.sb j i))
  | .mnot w => some (w, !(bitAt t w.sa j i))
  | .mset w v => some (w, v)
  | .mmv w => some (w, bitAt t w.sa j i)
  | .mshift w false n => some (w, decide (n.toNat ≤ i) && bitAt t w.sa j (i - n.toNat))
  | .mshift w true n => some (w, decide (i + n.toNat < t.vl) && bitAt t w.sa j (i + n.toNat))
  | _ => none

/-- R217: the amount of a slide: the whole block scalar, or the word's field. -/
def slide (t : Tile) (w : BlkW) (n : BitVec 13) : Nat := if w.kb = .bscalar then (t.b.getD w.sb.toNat 0#64).toNat else n.toNat

/-- R216-R219: what a move word writes to element i of row j, where it writes it; a and b read its sources. -/
def moveResult (t : Tile) (a b : Nat → Nat → Nat) (j i : Nat) : Instr → Option (BlkW × Bool × Option Nat)
  | .vmv w => some (w, false, if t.act w j i then some (a j i) else none)
  | .vmerge w => some (w, true, if t.fr j i then some (if bitAt t (w.m.zeroExtend 6) j i then a j i else b j i) else none)
  | .vid w => some (w, false, if t.act w j i then some i else none)
  | .vslideup w n => some (w, false, if t.act w j i && decide (slide t w n ≤ i) then some (a j (i - slide t w n)) else none)
  | .vslidedn w n => some (w, false,
      if t.act w j i then some (if i + slide t w n < t.vl then a j (i + slide t w n) else 0) else none)
  | .vrgather w => some (w, true, if t.act w j i then some (if b j i < t.vl then a j (b j i) else 0) else none)
  | .vcompress w => some (w, false, ((List.range t.vl).filter (fun e => t.fr j e && bitAt t (w.m.zeroExtend 6) j e))[i]?.map (a j))
  | _ => none

/-- R69: the pairwise tree over 2^k leaves from leaf i on. -/
def tree {α : Type} (op : α → α → α) (leaf : Nat → α) : Nat → Nat → α
  | 0, i => leaf i
  | k + 1, i => op (tree op leaf k i) (tree op leaf k (i + 2 ^ k))

/-- R222: one node of a floating sum: two numbers with the flags below them, added and rounded into FD, and read again. -/
def sumNode (f : Fmt) (x y : Machine.Num × Flg) : Machine.Num × Flg :=
  let r := addNum f.rm x.1 y.1
  let p := roundNum f.fd f.rm 0 f.sat f.ftz r.1
  (readNum f.fd p.1 f.ftz, x.2 ||| y.2 ||| r.2 ||| p.2)

/-- R69, R222: the floating sum of a row of leaves; the ordered form goes from left to right. -/
def sumRow (f : Fmt) (vl : Nat) (sq : Bool) (leaf : Nat → Option Machine.Num) : Nat × Flg :=
  let zero : Machine.Num × Flg := (.fin true 0 0 false, 0#5)
  let get : Nat → Machine.Num × Flg := fun i => match (if i < vl then leaf i else none) with | some x => (x, sigFlag x) | none => zero
  let r := if sq then (List.range vl).foldl (fun x i => if (leaf i).isSome then sumNode f x (get i) else x) zero else tree (sumNode f) get (Nat.clog 2 vl) 0
  let p := roundNum f.fd f.rm 0 f.sat f.ftz r.1
  (p.1, r.2 ||| p.2)

/-- R221: the active values of a row. -/
def activeOf (t : Tile) (w : BlkW) {α : Type} (x : Nat → Nat → α) (j : Nat) : List α :=
  ((List.range t.vl).filter (fun i => t.act w j i)).map (x j)

/-- R221-R224: what a reduction leaves: element 0 of each row that meets the fragment, and that row's exception bit. -/
def Reduced (s : State) (t : Tile) (i : Instr) (w : BlkW) (dw : Nat) (res : Nat → Nat × Flg) : Prop :=
  let row : Nat → Prop := fun j => ∃ e < t.vl, t.fr j e = true
  ∃ u, exec i s = .next (commit s u w) ∧ OnlyLanes t u ∧ u.L.z = t.L.z ∧
    (∀ j e, j < t.rc → e < t.regs dw * perReg t.g dw → (e = 0 ∧ row j → u.vget w.vd.toNat dw j 0 = (res j).1 % 2 ^ dw) ∧
      (e ≠ 0 ∨ ¬ row j → u.vget w.vd.toNat dw j e = t.vget w.vd.toNat dw j e)) ∧
    (∀ r, r < w.vd.toNat ∨ w.vd.toNat + t.rc * t.regs dw ≤ r → u.L.v.getD r 0#4096 = t.L.v.getD r 0#4096) ∧
    (∀ b < 5, u.L.flags.getLsbD b = true ↔ t.L.flags.getLsbD b = true ∨ ∃ j < t.rc, row j ∧ (res j).2.getLsbD b = true) ∧
    ∀ m < 8, ∀ q < 8192,
      (∀ j < t.rc, row j → q = j * t.vl → w.xe = true → m = w.xm.toNat → u.mbit m q = decide ((res j).2 &&& 30#5 ≠ 0#5)) ∧
      (w.xe = false ∨ m ≠ w.xm.toNat ∨ (∀ j < t.rc, row j → q ≠ j * t.vl) → u.mbit m q = t.mbit m q)

/-- R64, R67, R237: the product of element k of a row with weight (k, n), where both are present, operands flushed by FTZ; only bf16 and
f64 tell a signalling NaN. -/
def matrixProduct (f : Fmt) (wide : Bool) (h : Hdr) (im : Mem) (row : List (Option Nat)) (n k : Nat) : Option (Machine.Num × Flg) :=
  match row.getD k none, weightAt h im k n with
  | some x, some y =>
    let q : Machine.Num → Machine.Num := fun v => if isNaN v && !(f.fa == 0x0B || wide) then .nan false else v
    some (mulNum (q (readNum f.fa x f.ftz)) (q (readNum f.fb y f.ftz)))
  | _, _ => none

/-- R67: x cut toward zero to a multiple of 2^q. -/
def cut (q : Int) (x : ℚ) : ℚ := ((if x < 0 then -⌊-x / (2 : ℚ) ^ q⌋ else ⌊x / (2 : ℚ) ^ q⌋ : Int) : ℚ) * (2 : ℚ) ^ q

/-- R67: group i of g consecutive elements added to an f32 sum: its products' sum, under its two scales, rounded to nearest even. -/
def matrixGroup (f : Fmt) (h : Hdr) (im : Mem) (row : List (Option Nat)) (g : Nat) (scA : Nat → Nat) (n : Nat) (r : Nat × Flg) (i : Nat) : Nat × Flg :=
  let ps := (List.range g).filterMap (fun k => matrixProduct f false h im row n (i * g + k))
  let sum := groupSum (ps.map (·.1))
  let x := addNum 0 (decodeNum 0x09 r.1) (scaleNum (scaleNum sum.1 (scA (i * g))) (weightScale h im (i * g) n))
  let b := roundNum 0x09 0 0 false false x.1
  (b.1, ps.foldl (fun a p => a ||| p.2) r.2 ||| sum.2 ||| x.2 ||| b.2)

/-- R220: the rows that a `vout` or `vidxq` pushes. -/
def pushedRows (t : Tile) (w : BlkW) (a : Nat → Nat → Nat) : List Row :=
  (List.range t.rc).map (fun j =>
    { vl := t.vl, wc := t.sew, ents := rowEnts t.vl t.sewBits t.g, g := t.g,
      act := (List.range t.vl).map (t.act w j), els := (List.range t.vl).map (fun i => if t.act w j i then a j i else 0) })

end Sys2Proof.Claims

/-- R207-R210: mask words write the positions of the fragment and keep every other bit, reading every source bit first; `mfirst` and
`mpopc` push one value for each row to rq, whatever the fragment, and stall while it lacks room. -/
def Sys2Proof.Claims.MaskWords : Prop :=
  ∀ (i : Instr) (s : State) (p : Nat) (t : Tile) (w : BlkW), Shape t → OnTile i s p t →
    ((maskResult t 0 0 i).map (·.1) = some w → w.vd.toNat < 8 →
      ∃ u, exec i s = .next (commit s u w) ∧ u = { t with L := { t.L with m := u.L.m } } ∧
        MaskBits t u w.vd.toNat (fun j e => if t.fr j e then (maskResult t j e i).map (·.2) else none)) ∧
    (i = .mfirst w ∨ i = .mpopc w → (s.pair p).x.halt ≠ .exited →
      let hits : Nat → List Nat := fun j => (List.range t.vl).filter (fun e => t.fr j e && bitAt t w.sa j e)
      let vals := (List.range t.rc).map (fun j => BitVec.ofNat 64 (if i = .mfirst w then (hits j).headD t.vl else (hits j).length))
      ((s.pair p).rq.length + t.rc ≤ 16 →
        exec i s = .next (commit (s.updPair p (fun q => { q with rq := q.rq ++ vals })) t w)) ∧
      (16 < (s.pair p).rq.length + t.rc → exec i s = .next s)) ∧
    (i = .mfirst w ∨ i = .mpopc w → (s.pair p).x.halt = .exited → exec i s = .next (commit s t w))

/-- R216-R219: copies, selects, numbers, slides, gathers and compressions, for every source the word may name: each row on its own,
every source element read first, every other element kept, no flag set. -/
def Sys2Proof.Claims.MoveWords : Prop :=
  ∀ (i : Instr) (s : State) (p : Nat) (t : Tile) (w : BlkW), Shape t → OnTile i s p t →
    let a := fun j e => elOf s t w.sa w.ka t.sewBits j e
    let b := fun j e => elOf s t w.sb w.kb t.sewBits j e
    ∀ two x, moveResult t a b 0 0 i = some (w, two, x) → t.groupOk w.vd.toNat t.sewBits = true →
      (i ≠ .vid w → Ready s t w.sa w.ka t.sewBits) → (two = true → Ready s t w.sb w.kb t.sewBits) →
      ∃ u, exec i s = .next (commit s u w) ∧ u = { t with L := { t.L with v := u.L.v } } ∧
        Elements t u w.vd.toNat t.sewBits (fun j e => (moveResult t a b j e i).bind (·.2.2))

/-- R207-R210, R216-R219: the words over masks and the moves between lanes. -/
def Obligations.MaskAndMoveWords : Prop :=
  Claims.MaskWords ∧ Claims.MoveWords

/-- R69, R221-R224: the reductions. Integer sums are exact and wrapped; the least or greatest active value, or its identity; floating
sums by the pairwise tree or in order, -0 where inactive; floating minimum and maximum of the active leaves, NaN where there is none. -/
def Obligations.ReductionWords : Prop :=
  ∀ (s : State) (p : Nat) (t : Tile) (w : BlkW) (f : Fmt), Shape t → f.sb = false → f.sd = false →
    t.groupOk w.vd.toNat (fmtWidth f.fd) = true → Ready s t w.sa w.ka (fmtWidth f.fa) →
    let x := fun j e => elOf s t w.sa w.ka (fmtWidth f.fa) j e
    let v := fun j e => numOf s t w.sa w.ka f.fa f.ftz f.sa f.za j e
    (OnTile (.vredsum w) s p t → Formatted t w { rm := false } f → f.fa < 8 → f.fd < 8 →
      Reduced s t (.vredsum w) w (iwidth f.fd) (fun j => (modN (iwidth f.fd) (activeOf t w (fun j e => ival f.fa (x j e)) j).sum, 0#5))) ∧
    (∀ mode : BitVec 2, OnTile (.vredmm w mode) s p t → Formatted t w { rm := false } f → f.fa < 8 → f.fd = f.fa →
      let n := iwidth f.fa
      let l := fun j => activeOf t w (fun j e => if mode.toNat < 2 then ival f.fa (x j e) else (x j e : Int)) j
      Reduced s t (.vredmm w mode) w n (fun j => (modN n (
        if mode.toNat = 0 then (l j).foldl min (ihigh f.fa) else if mode.toNat = 1 then (l j).foldl max (ilow f.fa)
        else if mode.toNat = 2 then (l j).foldl min (2 ^ n - 1) else (l j).foldl max 0), 0#5))) ∧
    (∀ sq, OnTile (.vfredsum w sq) s p t → Formatted t w {} f → FloatFmt false f.fa → FloatFmt false f.fd → f.rm ≠ 5 → Scaled t f.sa →
      Reduced s t (.vfredsum w sq) w (fmtWidth f.fd) (fun j => sumRow f t.vl sq (fun e => if t.act w j e then some (v j e) else none))) ∧
    (∀ big, OnTile (.vfredmm w big) s p t → Formatted t w {} f → FloatFmt false f.fa → f.fd = f.fa → Scaled t f.sa →
      Reduced s t (.vfredmm w big) w (fmtWidth f.fd) (fun j =>
        let r := (activeOf t w v j).foldl (fun a y => ((minmaxNum big a.1 y).1, a.2 ||| (minmaxNum big a.1 y).2)) (.nan false, 0#5)
        rounded t f j 0 r))

/-- R227, R236, R237: a matrix word whose bank is READY for it writes, for each row that meets the fragment, one element for each
column of the bank's tile, packed from register vd + j·R on; it changes no mask, no other register and no memory. It checks, in this
order, that the launch set MATRIX, its format word, and that the bank is not EMPTY, is its own, and is not BAD; it waits for a fill. -/
def Sys2Proof.Claims.MatrixWordEffect : Prop :=
  ∀ (i : Instr) (s : State) (p : Nat) (t : Tile) (w : BlkW) (n : BitVec 2) (add wide : Bool), Shape t → OnTile i s p t →
    i = (if wide then Instr.mrow64 w n add else Instr.mrow w n add) →
    let f := fmtOf (t.b.getD w.fs.toNat 0#64)
    let bank := s.bank (clusterOf p) n.toNat
    let trap9 := fun k : Nat => exec i s = .next (s.trap 0x09#8 (BitVec.ofNat 64 (k * 16 + n.toNat)) 0#32)
    let legal := Formatted t w { sb := false, rm := !wide } f ∧ mrowFmt wide f = true ∧ t.srcOk w.sa w.ka (fmtWidth f.fa) = true ∧ Scaled t f.sa
    let cols := Hdr.n bank.h
    let wd := fmtWidth f.fd
    let rd := pow2Above ((cols * wd + 512 * t.g - 1) / (512 * t.g))
    let keff := min t.vl (Hdr.k bank.h)
    ((s.pair p).pl.matrix = false → trap9 7) ∧
    ((s.pair p).pl.matrix = true → ¬ (Formatted t w { sb := false, rm := !wide } f ∧ mrowFmt wide f = true) → exec i s = .next (s.trap 0x02#8 (t.b.getD w.fs.toNat 0#64) 0#32)) ∧
    ((s.pair p).pl.matrix = true → legal →
      (bank.st = .empty → trap9 1) ∧
      (bank.st ≠ .empty → bank.owner ≠ some p → trap9 2) ∧
      (bank.st = .bad → bank.owner = some p → trap9 3) ∧
      (bank.st = .ready → bank.owner = some p → f.fb ≠ Hdr.fmt bank.h ∨ pairingOk f.fb f.fa f.fd = false ∨ wide ≠ (Hdr.fmt bank.h == 8) → trap9 4) ∧
      (bank.st = .filling → bank.owner = some p → exec i s = .next s) ∧
      (bank.st = .ready → bank.owner = some p → f.fb = Hdr.fmt bank.h → pairingOk f.fb f.fa f.fd = true → wide = (Hdr.fmt bank.h == 8) →
        0 < cols → cols ≤ 256 → w.vd.toNat % rd = 0 → w.vd.toNat + t.rc * rd ≤ 64 → Ready s t w.sa w.ka (fmtWidth f.fa) →
        let gLen := min (min (if f.fa = 0x0B then 16 else 32) (if f.sa then 2 ^ (t.blk + 3) else 32)) (if Hdr.scaled bank.h then 2 ^ (Hdr.blk bank.h + 3) else 32)
        let el := fun (j c : Nat) => mrowElem f wide bank.h bank.image
          ((List.range keff).map (fun k => if t.act w j k then some (elOf s t w.sa w.ka (fmtWidth f.fa) j k) else none)) gLen
          (fun k => if f.sa then t.zget f.za (t.entry j k) else 127) c (if add then some (t.rowGet (w.vd.toNat + j * rd) wd c) else none)
        let row : Nat → Prop := fun j => ∃ e < t.vl, t.fr j e = true
        ∃ u, exec i s = .next (commit s u w) ∧ OnlyLanes t u ∧ u.L.m = t.L.m ∧ u.L.z = t.L.z ∧
          (∀ j c, j < t.rc → c < rd * perReg t.g wd →
            (row j → c < cols → u.rowGet (w.vd.toNat + j * rd) wd c = (el j c).1 % 2 ^ wd) ∧
            (¬ row j ∨ cols ≤ c → u.rowGet (w.vd.toNat + j * rd) wd c = t.rowGet (w.vd.toNat + j * rd) wd c)) ∧
          (∀ b < 5, u.L.flags.getLsbD b = true ↔ t.L.flags.getLsbD b = true ∨ ∃ j < t.rc, row j ∧ ∃ c < cols, (el j c).2.getLsbD b = true) ∧
          (∀ r, r < w.vd.toNat ∨ w.vd.toNat + t.rc * rd ≤ r → u.L.v.getD r 0#4096 = t.L.v.getD r 0#4096)))

/-- R64, R67, R68, R230, R237: the value of one element of a matrix word, from a row's present elements and column n of the tile.
`mrow` adds to the old element, or to +0, group by group, the sum of a group's products, each cut to a multiple of 2^(E-40) where 2^E is
the largest one's power of two, under the scales of the row and of the column, each addition rounded to f32 to nearest even; bf16 is
rounded once more, under RM, SAT and FTZ. A group with a NaN product or both infinities is NaN. `mrow64` adds each product in increasing k,
rounding into f64 each time; SAT and FTZ act on those roundings (log 79). i8 sums are exact and wrapped to 32 bits. Weight (k, n) of a
dense tile is value k·N + n of the image; a sparse tile stores two of each four, at the positions that its metadata nibble names. -/
def Sys2Proof.Claims.MatrixElementValue : Prop :=
  ∀ (f : Fmt) (h : Hdr) (im : Mem) (row : List (Option Nat)) (g n : Nat) (scA : Nat → Nat) (acc : Option Nat), 0 < g →
    (f.fa ≠ 0 →
      let start := if f.fd = 0x0B then acc.getD 0 * 2 ^ 16 else acc.getD 0
      let r := (List.range ((row.length + g - 1) / g)).foldl (matrixGroup f h im row g scA n) (start, 0#5)
      mrowElem f false h im row g scA n acc = if f.fd = 0x09 then r else
        let b := roundNum 0x0B f.rm 0 f.sat f.ftz (decodeNum 0x09 r.1)
        (b.1, r.2 ||| b.2)) ∧
    (f.fa = 8 → f.fb = 8 → mrowElem f true h im row g scA n acc = (List.range row.length).foldl (fun r k =>
      match matrixProduct f true h im row n k with
      | none => r
      | some p =>
        let x := addNum 0 (readNum 0x08 r.1 f.ftz) p.1
        let b := roundNum 0x08 0 0 f.sat f.ftz x.1
        (b.1, r.2 ||| p.2 ||| x.2 ||| b.2)) (acc.getD 0, 0#5)) ∧
    (f.fa = 0 → mrowElem f false h im row g scA n acc = (modN 32 (sext 32 (acc.getD 0) + ((List.range row.length).map (fun k =>
      match row.getD k none, weightAt h im k n with
      | some x, some y => sext 8 x * sext 8 y
      | _, _ => 0)).sum), 0#5)) ∧
    (∀ ps : List Machine.Num,
      (∀ b, .inf b ∈ ps → .inf (!b) ∈ ps → groupSum ps = (.nan false, 16#5)) ∧
      ((∀ b, .inf b ∈ ps → .inf (!b) ∉ ps) → (∃ x ∈ ps, isNaN x = true) → groupSum ps = (.nan false, 0#5)) ∧
      (∀ b, .inf b ∈ ps → .inf (!b) ∉ ps → (∀ x ∈ ps, isNaN x = false) → groupSum ps = (.inf b, 0#5)) ∧
      ((∀ x ∈ ps, Exact x ∧ qv x = 0) → groupSum ps = (.fin false 0 0 false, 0#5)) ∧
      ((∀ x ∈ ps, Exact x) → ∀ (E : Int) (y : Machine.Num), y ∈ ps → (2 : ℚ) ^ E ≤ |qv y| → (∀ x ∈ ps, |qv x| < (2 : ℚ) ^ (E + 1)) →
        ∃ s m e, groupSum ps = (.fin s m e false, 0#5) ∧ qv (.fin s m e false) = (ps.map (fun x => cut (E - 40) (qv x))).sum)) ∧
    (∀ k, let nib := fun i : Nat => (Mem.get im (Hdr.valLen h + i / 2)).toNat / 16 ^ (i % 2) % 16
      let q := k / 4 * Hdr.n h + n
      (Hdr.sparse h = false → weightAt h im k n = some (valueAt h im (k * Hdr.n h + n))) ∧
      (Hdr.sparse h = true → nib q % 4 < nib q / 4 →
        (k % 4 = nib q % 4 → weightAt h im k n = some (valueAt h im (k / 4 * 2 * Hdr.n h + n))) ∧
        (k % 4 = nib q / 4 → weightAt h im k n = some (valueAt h im ((k / 4 * 2 + 1) * Hdr.n h + n))) ∧
        (k % 4 ≠ nib q % 4 → k % 4 ≠ nib q / 4 → weightAt h im k n = none)) ∧
      ∀ i b, b < Hdr.valBits h → (valueAt h im i).testBit b = (Mem.get im ((i * Hdr.valBits h + b) / 8)).getLsbD ((i * Hdr.valBits h + b) % 8))

/-- R64, R67, R68, R227, R230, R236, R237: the matrix words: what they check, where they write, and the value of each element. -/
def Obligations.MatrixWords : Prop :=
  Claims.MatrixWordEffect ∧ Claims.MatrixElementValue

/-- R179-R182: the control words. `vnop` moves on; `vbr` splits the fragment, goes on with the positions that do not branch and parks
the others, or jumps when all branch; `vrejoin` parks the running positions at the next word, with those already parked there, and runs
the fragment of the lowest PC, which may be that one; `stop` runs it too or, when the buffer is empty, retires the block, giving its flags to FFLAGS; a ninth parked fragment traps before any effect. -/
def Sys2Proof.Claims.BlockControlWords : Prop :=
  ∀ (s : State) (p : Nat) (mk : BitVec 3) (mn : Bool) (off : BitVec 24), LanesTurn s p →
    let q := s.pair p
    let L := q.lanes
    let at_ := fun (n : State) (o : BitVec 52) (f : BitVec 8192) => OnlyPair s n p ∧
      n.pair p = { q with lanes := { L with off := o, f := f, frags := (n.pair p).lanes.frags, barred := true, memStall := false, stalls := 0, ahead := [] } }
    let next := L.off + 8#52
    let target := L.off + BitVec.ofInt 52 (8 * sext 24 off.toNat)
    let taken := L.f &&& (if mn then ~~~(L.m.getD mk.toNat 0#8192) else L.m.getD mk.toNat 0#8192)
    let holds := fun (fs : List Frag) (o : BitVec 52) (f : BitVec 8192) => ∀ o' (b : Nat), b < 8192 →
      ((∃ x ∈ fs, x.off = o' ∧ x.f.getLsbD b = true) ↔ (∃ x ∈ L.frags, x.off = o' ∧ x.f.getLsbD b = true) ∨ (o' = o ∧ f.getLsbD b = true))
    let full := fun o : BitVec 52 => 8 ≤ L.frags.length ∧ ∀ x ∈ L.frags, x.off ≠ o
    let pcOf := fun o : BitVec 52 => ((s.region q.ctx.toNat (q.blocks.headD {}).rgn.toNat).base + o).zeroExtend 64
    let least := fun (x : Frag) => ∀ y ∈ L.frags, (pcOf x.off).toNat ≤ (pcOf y.off).toNat
    (exec .vnop s = .next (goto_ s p next L.f L.frags)) ∧
    (taken = 0#8192 → ∃ n, exec (.vbr mk mn off) s = .next n ∧ at_ n next L.f ∧ (n.pair p).lanes.frags = L.frags) ∧
    (taken ≠ 0#8192 → taken = L.f → ∃ n, exec (.vbr mk mn off) s = .next n ∧ at_ n target L.f ∧ (n.pair p).lanes.frags = L.frags) ∧
    (taken ≠ 0#8192 → taken ≠ L.f → full target → exec (.vbr mk mn off) s = .next (s.trap 0x04#8 (pcOf target) 0#32)) ∧
    (taken ≠ 0#8192 → taken ≠ L.f → ¬ full target → ∃ n, exec (.vbr mk mn off) s = .next n ∧ at_ n next (L.f &&& ~~~taken) ∧
      holds (n.pair p).lanes.frags target taken) ∧
    (full next → exec .vrejoin s = .next (s.trap 0x04#8 (pcOf next) 0#32)) ∧
    (L.frags = [] → ∃ n, exec .vrejoin s = .next n ∧ at_ n next L.f ∧ (n.pair p).lanes.frags = []) ∧
    (¬ full next → L.frags.Pairwise (fun a b => a.off ≠ b.off) →
      let stands := fun o : BitVec 52 => o = next ∨ ∃ x ∈ L.frags, x.off = o
      let mask := fun (o : BitVec 52) (b : Nat) => (∃ x ∈ L.frags, x.off = o ∧ x.f.getLsbD b = true) ∨ (o = next ∧ L.f.getLsbD b = true)
      ∀ o, stands o → (∀ o', stands o' → (pcOf o).toNat ≤ (pcOf o').toNat) →
        ∃ n f, exec .vrejoin s = .next n ∧ at_ n o f ∧ (∀ b < 8192, f.getLsbD b = true ↔ mask o b) ∧
          ∀ o', ((∃ y ∈ (n.pair p).lanes.frags, y.off = o') ↔ o' ≠ o ∧ stands o') ∧
            ∀ b < 8192, (∃ y ∈ (n.pair p).lanes.frags, y.off = o' ∧ y.f.getLsbD b = true) ↔ o' ≠ o ∧ mask o' b) ∧
    (∀ x ∈ L.frags, least x → L.frags.Pairwise (fun a b => a.off ≠ b.off) →
      ∃ n, exec .stop s = .next n ∧ at_ n x.off x.f ∧ (n.pair p).lanes.frags = L.frags.filter (fun y => y.off != x.off)) ∧
    (L.frags = [] → ∃ n, exec .stop s = .next n ∧ OnlyPair s n p ∧ (n.pair p).blocks = q.blocks.tail ∧
      (n.pair p).x = { q.x with fflags := q.x.fflags ||| L.flags } ∧ (n.pair p).lanes.busy = false ∧ (n.pair p).lanes.flags = 0#5 ∧
      (n.pair p).lanes.v = L.v ∧ (n.pair p).lanes.m = L.m)

/-- R184, R220, R116, R119, R120: `vret` pushes element 0 of each row to rq; `vout` and `vidxq` push one row for each row of the tile,
with the block's VL and width, the active bits, and zero where they are clear; a queue without room makes the lanes wait, and what an
exited thread can no longer pop is discarded. `vout down` at the last stage traps first, and it waits for a pair that has yet to start
(R14). -/
def Sys2Proof.Claims.LanePushWords : Prop :=
  ∀ (s : State) (p : Nat) (t : Tile) (w : BlkW) (dst : BitVec 2), Ready s t w.sa w.ka t.sewBits →
    let q := s.pair p
    let a := fun j e => elOf s t w.sa w.ka t.sewBits j e
    let rows := pushedRows t w a
    let vals := (List.range t.rc).map (fun j => if w.ka = .bscalar then t.b.getD w.sa.toNat 0#64 else BitVec.ofNat 64 (a j 0))
    let waits := fun i : Instr => exec i s = .next s
    (OnTile (.vret w) s p t → q.x.halt ≠ .exited → q.rq.length + t.rc ≤ 16 →
      exec (.vret w) s = .next (commit (s.updPair p (fun q => { q with rq := q.rq ++ vals })) t w)) ∧
    (OnTile (.vret w) s p t → q.x.halt ≠ .exited → 16 < q.rq.length + t.rc → waits (.vret w)) ∧
    (OnTile (.vret w) s p t → q.x.halt = .exited → exec (.vret w) s = .next (commit s t w)) ∧
    (OnTile (.vidxq w) s p t → q.a.halt ≠ .exited → entsOf q.iq + entsOf rows ≤ 4 →
      exec (.vidxq w) s = .next (commit (s.updPair p (fun q => { q with iq := q.iq ++ rows })) t w)) ∧
    (OnTile (.vidxq w) s p t → q.a.halt ≠ .exited → 4 < entsOf q.iq + entsOf rows → waits (.vidxq w)) ∧
    (OnTile (.vidxq w) s p t → q.a.halt = .exited → exec (.vidxq w) s = .next (commit s t w)) ∧
    (OnTile (.vout w dst) s p t → dst.toNat < 2 → q.a.halt ≠ .exited → entsOf (q.sr.getD dst.toNat []) + entsOf rows ≤ 8 →
      exec (.vout w dst) s =
        .next (commit (s.updPair p (fun q => { q with sr := q.sr.setIfInBounds dst.toNat (q.sr.getD dst.toNat [] ++ rows) })) t w)) ∧
    (OnTile (.vout w dst) s p t → dst.toNat < 2 → q.a.halt ≠ .exited → 8 < entsOf (q.sr.getD dst.toNat []) + entsOf rows → waits (.vout w dst)) ∧
    (OnTile (.vout w dst) s p t → dst.toNat < 2 → q.a.halt = .exited → exec (.vout w dst) s = .next (commit s t w)) ∧
    (OnTile (.vout w 2#2) s p t → q.pl.stg = q.pl.last → exec (.vout w 2#2) s = .next (s.trap 0x10#8 3#64 0#32)) ∧
    (OnTile (.vout w 2#2) s p t → q.pl.stg ≠ q.pl.last → ∀ p', stageMate s p (q.pl.stg + 1) = some p' → p' ≠ p →
      ((s.pair p').x.halt = .exited → exec (.vout w 2#2) s = .next (commit s t w)) ∧
      ((s.pair p').x.halt ≠ .exited → (s.pair p').st = .posted → waits (.vout w 2#2)) ∧
      ((s.pair p').x.halt ≠ .exited → (s.pair p').st ≠ .posted → entsOf (s.pair p').up + entsOf rows ≤ 8 →
        exec (.vout w 2#2) s = .next (commit (s.updPair p' (fun q' => { q' with up := q'.up ++ rows })) t w)) ∧
      ((s.pair p').x.halt ≠ .exited → 8 < entsOf (s.pair p').up + entsOf rows → waits (.vout w 2#2)))

/-- R116, R119, R120, R179-R182, R184, R220: the control words of a block, and pushes from the lanes. -/
def Obligations.BlockControlAndPushWords : Prop :=
  Claims.BlockControlWords ∧ Claims.LanePushWords

namespace Sys2Proof.Claims

/-- The registers of a die's window that a host's write sets whole, with the bits that are not reserved (R3, R259, R303, R331, R337, R346,
R361, R363, R409). -/
def plainRegs : List (Nat × Nat) :=
  [(0x100, 0xFFFFFFFF80000), (0x300, 0xFFFFFFFFFFFF0000), (0x1000, 0xFFFFFC00), (0x1008, 0xFFFFFFFFFF01F), (0x1018, 2 ^ 64 - 1), (0x1020, 0xFF),
   (0x1028, 2 ^ 64 - 1), (0x2010, 2 ^ 64 - 1), (0x2018, 2 ^ 64 - 1), (0x20000, 0x800FFFFE00000000), (0x20008, 0x3FF), (0x20100, 0x1FFF)]

/-- Every offset of a window that a host's write can change anything through. -/
def writableOff (o : Nat) : Bool :=
  (plainRegs.any (fun e => e.1 == o)) || [0x200, 0x1010, 0x1080, 0x2000, 0x2008, 0x20010].contains o || (decide (0x1040 ≤ o) && decide (o < 0x1060))
    || (decide (0x21040 ≤ o) && decide (o < 0x22000))

/-- The state as thread k of pair p sees it in its turn. -/
def asThread (s : State) (p : Nat) (k : Kind) : State := { s with cur := .thr p k }

/-- The event i takes trap `cause` as the thread's own (R288). -/
def TrapsAs (i : Instr) (s : State) (p : Nat) (k : Kind) (cause : BitVec 8) (val : Word) (elem : BitVec 32) : Prop :=
  ∃ t, exec i s = .next t ∧ asThread t p k = (asThread s p k).trap cause val elem

/-- Memory from s to t is the same outside the journal of die d. -/
def OnlyJournal (s t : State) (d : Nat) : Prop :=
  let j := bits (s.die d).jrnl.toNat 51 12 * 4096
  ∀ x, x < j ∨ j + 64 * (s.die d).jCap ≤ x → Mem.get t.mem x = Mem.get s.mem x

/-- R355, R357, R358: what the stop of the active core leaves: HOLD; with a Stand-in that one runs from the SRAM's start and CAUSE says
why, else the die is LOST and CAUSE still tells of the last take-over. Memory does not change. -/
def CoreStopped (s t : State) (d : Nat) (cause : BitVec 8) : Prop :=
  let old := s.die d
  let new := t.die d
  SameMem s t ∧ new.holdOn = true ∧ (new.fcore (if old.act then 1 else 0)).on = false ∧
  (old.spare = true → new.toCause = cause ∧ new.act = !old.act ∧ new.spare = false ∧ new.lost = old.lost ∧ (new.fcore (if old.act then 0 else 1)).on = true ∧
    (new.fcore (if old.act then 0 else 1)).pc = 0xFFFFF8000000#64) ∧
  (old.spare = false → new.lost = true ∧ new.act = old.act ∧ new.toCause = old.toCause)

end Sys2Proof.Claims

/-! ## Events -/

/-- R3, R331, R335, R346, R351, R355, R356, R358, R364, R366, R374, R409: writes that reach a die's registers. A plain register then reads
as written but for its reserved bits, and every other register as before; an offset with no register a host may write does nothing. The
end of a take-over clears HOLD with one message, but never on a die whose firmware is LOST; VF Enable and the VF BAR registers are frozen
for every interface that is locked.
That a trigger opens only when EN rises, that a write of the shared VF Enable or VF BAR sends every locked interface to ERROR, and when
the Gaffer acts, one step at a time, are the model's (logs 73, 81 and 68), and so is when a trace buffer is set up (log 99). -/
def Obligations.RegisterWriteEvents : Prop :=
  ∀ (s : State) (d : Nat) (v : Word),
    (∀ off mask, (off, mask) ∈ plainRegs → d < 8 → ∃ t, exec (.deviceRegisterWrite d (BitVec.ofNat 25 off) v) s = .next t ∧ SameMem s t ∧
      (devRead t d off).toNat = v.toNat &&& mask ∧ ∀ d' o, o % 8 = 0 → o ≠ off → devRead t d' o = devRead s d' o) ∧
    (∀ off : BitVec 25, d < 8 → writableOff (off.toNat / 8 * 8) = false → exec (.deviceRegisterWrite d off v) s = .next s) ∧
    (∀ off : BitVec 25, d < 8 → off = 0x1008#25 ∨ (off = 0x1000#25 ∧ v.getLsbD 20 = true) →
      ∃ t, exec (.deviceRegisterWrite d off v) s = .next t ∧ (t.die d).trSet = true) ∧
    (exec (.fwnoteWrite d v) s = .next ((s.updDie d (fun t => { t with fwnote := v })).send (.fwnote d v))) ∧
    (exec (.errcntWrite d v) s = .next (s.updDie d (fun t => { t with errcnt := v }))) ∧
    (∃ t, exec (.jrnlWrite d v) s = .next t ∧ (t.die d).jrnl.toNat = bits v.toNat 51 12 * 4096 + bits v.toNat 3 0 ∧ (t.die d).jrnlSet = true ∧
      ((s.die d).jrnlSet = true → SameMem s t ∧ ∀ d', d' ≠ d → t.die d' = s.die d')) ∧
    ((s.die d).trctl.getLsbD 20 = false → exec (.trwrWrite d v) s = .next (s.updDie d (fun t => { t with trwr := v }))) ∧
    ((s.die d).trctl.getLsbD 20 = true → exec (.trwrWrite d v) s = .next s) ∧
    (∀ k : BitVec 2, let old := (s.die d).trig.getD k.toNat 0#64
      let opens := v.getLsbD 63 = true ∧ old.getLsbD 63 = false ∧ bits v.toNat 55 52 = 1
      ∃ t, exec (.trigWrite d k v) s = .next t ∧ (∀ j, j ≠ 62 → ((t.die d).trig.getD k.toNat 0#64).getLsbD j = (v.getLsbD j && (j == 63 || (decide (16 ≤ j) && decide (j ≤ 55))))) ∧
        (((t.die d).trig.getD k.toNat 0#64).getLsbD 62 = true ↔ v.getLsbD 63 = true ∧ (old.getLsbD 62 = true ∨ opens)) ∧
        (∀ j < 4, j ≠ k.toNat → (t.die d).trig.getD j 0#64 = (s.die d).trig.getD j 0#64) ∧
        (¬ opens ∨ (s.die d).trctl.getLsbD 20 = false → SameMem s t)) ∧
    ((s.die d).holdOn = false → (s.die d).replayDue = false → exec (.fwstatHoldClear d) s = .next s) ∧
    ((s.die d).lost = true → exec (.fwstatHoldClear d) s = .next s ∧ devWrite true d 0x2008 v s = s) ∧
    ((s.die d).holdOn = true → (s.die d).lost = false → ((s.die d).fcore (s.die d).act.toNat).on = true →
      ∃ t, exec (.fwstatHoldClear d) s = .next t ∧ (t.die d).holdOn = false ∧ (t.die d).replayDue = false ∧ (∃ u : State, t = giveAll d (u.send (.takeover d))) ∧
      ((s.die d).hold = [] → (s.die d).compls = [] → (s.die d).jrnlSet = false → (∀ p, (s.pair p).st ≠ .parked) →
        SameMem s t ∧ t.outbox = .takeover d :: s.outbox)) ∧
    ((s.die d).holdOn = true → (s.die d).lost = false → ∃ u : State, devWrite true d 0x2008 4#64 s = u.send (.takeover d) ∧ (u.die d).holdOn = false) ∧
    (d < 8 → ∀ off n, 0x3800 ≤ off → off < 0x3818 → hostBytes s d off n = 0) ∧
    (∀ f : BitVec 2, let n := bits (s.die d).errcnt.toNat (16 * f.toNat + 15) (16 * f.toNat)
      ∃ t, exec (.correctedError d f) s = .next t ∧ SameMem s t ∧ bits (t.die d).errcnt.toNat (16 * f.toNat + 15) (16 * f.toNat) = min 0xFFFF (n + 1) ∧
        ∀ g : BitVec 2, g ≠ f → bits (t.die d).errcnt.toNat (16 * g.toNat + 15) (16 * g.toNat) = bits (s.die d).errcnt.toNat (16 * g.toNat + 15) (16 * g.toNat)) ∧
    (let hot := min (bits s.pwrcap.toNat 12 0) 5000 < Config.power s.steps ∨ 105 ≤ (Config.temp d s.steps).toNat;
      exec (.gafferThrottle d) s = .next (if hot then s.updDie d (fun t => { t with mhz := max 1200 (t.mhz - 100) }) else s) ∧
      exec (.gafferRestore d) s = .next (if hot then s else s.updDie d (fun t => { t with mhz := min 2400 (t.mhz + 100) }))) ∧
    (∀ (vf : BitVec 6) (what : BitVec 3),
      let x := s.vf vf.toNat
      let shared := what = 1#3 ∨ what = 2#3
      let locks := fun n : Nat => (s.vf n).st = .locked ∨ (s.vf n).st = .run
      (¬ shared → locks vf.toNat → ∃ t, exec (.lockedConfigWrite vf what v) s = .next t ∧ (t.vf vf.toNat).st = .error ∧ (t.vf vf.toNat).cfg = x.cfg) ∧
      (shared → (∃ n, locks n) → ∃ t, exec (.lockedConfigWrite vf what v) s = .next t ∧ t.vfEnable = s.vfEnable ∧ t.vfBar = s.vfBar ∧
        ∀ n, locks n → (t.vf n).st = .error) ∧
      ((¬ shared ∧ ¬ locks vf.toNat) ∨ (shared ∧ ∀ n, ¬ locks n) →
        ∃ t, exec (.lockedConfigWrite vf what v) s = .next t ∧ SameMem s t ∧ (t.vf vf.toNat).st = x.st ∧
        (what = 0#3 → (t.vf vf.toNat).bar0 = v) ∧ (what = 1#3 → t.vfEnable = v.getLsbD 0) ∧ (what = 2#3 → t.vfBar = v) ∧
        (what = 3#3 → (t.vf vf.toNat).memEn = v.getLsbD 0) ∧
        (4 ≤ what.toNat → ∀ j < 8, (t.vf vf.toNat).cfg.getD j 0#64 = if j = what.toNat - 4 then v else x.cfg.getD j 0#64)))

/-- R338, R339: a debugger's command holds for its context on its die, and for no other pair. Stop and step reach a running pair at a
safe point, a hard stop stops it and saves it at once, or as soon as its bank fills have ended, run lets it go; a pair that is parked or saved keeps a
stop or a step for when it runs, and a parked one is stopped hard where it stands, and a stopped pair goes on by step and run alone, parked as before if it was;
one that was stopped when it was saved comes back stopped, unless it has been told to run or to step meanwhile, which is the model's reading (log 22). -/
def Obligations.DebuggerEvents : Prop :=
  ∀ (s : State) (d : Nat) (c : BitVec 10) (i : Instr) (cmd : Nat),
    (i, cmd) ∈ [(Instr.dbgStop d c, 1), (.dbgHardStop d c, 2), (.dbgStep d c, 3), (.dbgRun d c, 4)] → Tab.risingFrom 0 s.pairs = true →
    ∃ t, exec i s = .next t ∧ (t.die d).dbgctx = c ∧ Tab.get 0 (t.die d).dbgOn c.toNat = (if cmd = 4 then 0 else cmd) ∧
      (∀ p, ¬ ((s.pair p).ctx = c ∧ dieOf p = d) → t.pair p = s.pair p) ∧
      ∀ p, (s.pair p).ctx = c → dieOf p = d →
        let q := s.pair p
        (q.st = .saved → q.dbgSaved = false → cmd ≠ 1 → t.pair p = { q with dbgPend := if cmd = 4 then 0 else cmd }) ∧
        (q.st = .saved → q.dbgSaved = true → t.pair p = (if cmd = 3 ∨ cmd = 4 then { q with dbgSaved := false, dbgPend := if cmd = 4 then 0 else 3 } else q)) ∧
        (q.st = .running ∨ q.st = .parked ∨ (q.st = .saved ∧ q.dbgSaved = false) → cmd = 1 → let anew := fun th : Thread => if th.halt = .debug then th else { th with atSafe := false }
          t.pair p = { q with dbgPend := 1, a := anew q.a, x := anew q.x }) ∧
        (q.st = .running ∨ q.st = .parked → cmd = 2 → ((t.pair p).a.halt = .debug ∨ (t.pair p).a.halt = .exited) ∧ ((t.pair p).x.halt = .debug ∨ (t.pair p).x.halt = .exited) ∧
          (fillsDone s p = true → q.a.halt ≠ .exited ∨ q.x.halt ≠ .exited → (t.pair p).st = .dbg ∧ (t.pair p).dbgPend = 0)) ∧
        (q.st = .running ∨ q.st = .parked → cmd = 3 ∨ cmd = 4 → (t.pair p).dbgPend = (if cmd = 3 then 3 else 0) ∧ (t.pair p).st = q.st ∧
          (t.pair p).a.atSafe = q.a.atSafe ∧ (t.pair p).x.atSafe = q.x.atSafe ∧
          (t.pair p).a.halt = (if q.a.halt = .debug then .none else q.a.halt) ∧ (t.pair p).x.halt = (if q.x.halt = .debug then .none else q.x.halt)) ∧
        (q.st = .dbg → cmd = 3 ∨ cmd = 4 → (t.pair p).st = (if q.back = .parked then .parked else .running) ∧ (t.pair p).dbgPend = (if cmd = 3 then 3 else 0)) ∧
        (q.st = .dbg → cmd = 1 ∨ cmd = 2 → t.pair p = q) ∧
        (q.st = .free ∨ q.st = .posted ∨ q.st = .exited → t.pair p = q)

/-- R131, R288, R291, R301, R320, R240, R362: what traps a pair from outside its words is a trap of its thread (PairTrapEntry), and a data
error at a `vstr` traps at the lowest element of a train, the one that carries the element named (which trains were acknowledged before is
free: log 90); an uncorrectable
error of a lane group traps the block word and retires the group, which the other pairs of the cluster give up (R168), its report holding
only the fields of its unit (R241); Resume and Skip
let a parked pair go on where R291 allows, past a service call and a breakpoint, and tell CTXCMD; a pair whose scalar trap still waits under a block word's stays parked for that one (log 103); they wait in progress for a die whose
Puppeteer does not work, and no command is taken while one is in progress; Terminate stops every pair of the context; a cue that is due is delivered. -/
def Obligations.TrapAndCommandEvents : Prop :=
  ∀ (s : State) (p : Nat) (k : Kind), k ≠ .F →
    let q := s.pair p
    let th := q.thr k
    (∀ cause val elem, q.st = .running → th.halt ≠ .exited → cause ≠ 0x0A#8 ∨ k = .X ∨ atVstr s p = none → TrapsAs (.pairTrap p k cause val elem) s p k cause val elem) ∧
    (∀ val elem i, q.st = .running → th.halt ≠ .exited → k = .A → atVstr s p = some i →
      (vstrLost i (asThread s p k) elem.toNat = none → exec (.pairTrap p k 0x0A#8 val elem) s = .next s) ∧
      ∀ t low, vstrLost i (asThread s p k) elem.toNat = some (t, low) → low ≤ elem.toNat ∧ low < th.vl.toNat ∧
        ∃ u, exec (.pairTrap p k 0x0A#8 val elem) s = .next u ∧ asThread u p k = (asThread t p k).trap 0x0A#8 val (BitVec.ofNat 32 low)) ∧
    (∀ r, q.st = .running → th.halt = .none → th.onRgn = some r → (s.region q.ctx.toNat r).st ∈ [RSt.absent, .arriving, .evicting] →
      TrapsAs (.swapFault p k) s p k 0x07#8 (BitVec.ofNat 64 r) (if th.onVec = true then BitVec.ofNat 32 th.vstart.toNat else 0#32)) ∧
    (∀ (report : BitVec 20) elem w, lanesRun q = true → fetchBlock (beginBlock s p) p = .ok w → bits report.toNat 19 16 < 4 →
      q.owned.contains (bits report.toNat 5 3) = true →
      ∃ t, exec (.uncorrectableDataError p report elem) s = .next t ∧ (t.pair p).st = .parked ∧ (t.pair p).x.tcause = 0x30A#10 ∧
        (t.pair p).x.tval.toNat = report.toNat &&& 0xF073F ∧ (t.pair p).x.telem = elem ∧ (t.pair p).owned = [] ∧
        (t.cluster (clusterOf p)).lpr.getD (bits report.toNat 5 3) 0#3 = 7#3 ∧
        (∀ k < 4, let x := 4 * clusterOf p + k
          x ≠ p → puppeteerOn s (clusterOf p / 40) = true → (s.pair x).holds = true → (t.pair x).lastSet = (s.pair x).lastSet.filter (fun g => (t.cluster (clusterOf p)).mask.getLsbD g)) ∧
        ∀ g < 8, (t.cluster (clusterOf p)).mask.getLsbD g = ((s.cluster (clusterOf p)).mask.getLsbD g && g != bits report.toNat 5 3)) ∧
    (∀ d (c : BitVec 10) (pr : BitVec 8) (skip : Bool), p = d * 160 + pr.toNat → pr.toNat < 160 →
      let i : Instr := if skip then .ctxcmdSkip d c pr else .ctxcmdResume d c pr
      let word := fun n : Nat => BitVec.ofNat 64 (n * 2 ^ 32 + pr.toNat * 2 ^ 24 + (if skip then 1 else 0) * 2 ^ 16 + c.toNat)
      let tr := q.thr q.trapK
      let refused := q.st ≠ .parked ∨ q.ctx ≠ c ∨ tr.tcause.toNat % 256 = 8 ∨ tr.tcause.toNat % 256 = 10 ∨ (skip = true ∧ tr.tcause.getLsbD 9 = true)
      let busy := bits s.ctxcmd.toNat 33 32 = 3
      (busy → exec i s = .next s) ∧
      (¬ busy → puppeteerOn s d = false → exec i s = .next { s with ctxcmd := word 3, ctxDie := d }) ∧
      (¬ busy → puppeteerOn s d = true → refused → exec i s = .next { s with ctxcmd := word 2 }) ∧
      (¬ busy → puppeteerOn s d = true → ¬ refused → ∀ w, q.trapBlk = true → q.under = some w →
        ∃ t, exec i s = .next t ∧ t.ctxcmd = word 1 ∧ (t.pair p).st = .parked ∧ (t.pair p).trapK = w.k ∧ (t.pair p).under = none ∧ SameMem s t) ∧
      (¬ busy → puppeteerOn s d = true → ¬ refused → q.trapBlk = false ∨ q.under = none → q.lent = [] →
        ∃ t, exec i s = .next t ∧ t.ctxcmd = word 1 ∧ (t.pair p).st = .running ∧ OnlyJournal s t d ∧
        (q.trapBlk = false → q.trapK ≠ .F → (∀ e ∈ tr.gens, e.2 = (s.region c.toNat e.1).gen.toNat) →
          ((t.pair p).thr q.trapK).pc = { tr.tpc with v := tr.tpc.v + (if skip = true ∨ tr.tcause.toNat % 256 = 12 ∨ tr.tcause.toNat % 256 = 13 then 4#64 else 0#64) }))) ∧
    (∀ c : BitVec 10, Tab.risingFrom 0 s.pairs = true → bits s.ctxcmd.toNat 33 32 ≠ 3 → ∃ t, exec (.ctxcmdTerminate c) s = .next t ∧
      t.ctxcmd.toNat = 2 ^ 32 + 2 * 2 ^ 16 + c.toNat ∧ ∀ p', (s.pair p').ctx = c → (s.pair p').st ≠ .free → (s.pair p').st ≠ .exited → (t.pair p').st = .exited) ∧
    (∀ src which rest, q.st = .running → th.halt = .none → ((latchCues s p k).pair p).thr k = { th with fired := (src, which) :: rest } →
      th.cuevec.getLsbD 63 = true → th.incue = false → cueHere th = true →
      let e := s.region q.ctx.toNat (bits th.cuevec.toNat 59 52)
      e.kind = 1#2 → e.px = true → bits th.cuevec.toNat 51 0 + 4 ≤ e.size.toNat →
      ∃ t, exec (.cueDelivery p k) s = .next t ∧ SameMem s t ∧ ((t.pair p).thr k).incue = true ∧ ((t.pair p).thr k).x = th.x ∧ ((t.pair p).thr k).sh = th.sh ∧
        ((t.pair p).thr k).pc = ⟨BitVec.ofNat 64 (e.base.toNat + bits th.cuevec.toNat 51 0), BitVec.ofNat 8 (bits th.cuevec.toNat 59 52)⟩ ∧
        ((t.pair p).thr k).cuepc = (if th.parkWait then { th.pc with v := th.pc.v + 4#64 } else th.pc) ∧
        ((t.pair p).thr k).cuecause = BitVec.ofNat 16 (which * 256 + src))

/-- R345, R346, R357, R358, R373: a trap of the firmware is the active core's own; a data error of its SRAM, a failure of the core or a
double trap hands over to the Stand-in, and with none leaves the die without firmware; an error in the idle core's SRAM takes the
Stand-in away; a scrub's read and a replayed flit change nothing. -/
def Obligations.FirmwareComplexEvents : Prop :=
  ∀ (s : State) (d : Nat),
    let old := s.die d
    let runs := (old.fcore (if old.act then 1 else 0)).on = true
    (∀ cause val, runs → ∃ t, exec (.fTrap d cause val) s = .next t ∧
      { t with cur := .fcore d (if old.act then 1 else 0) } = ({ s with cur := .fcore d (if old.act then 1 else 0) }).trap cause val 0#32) ∧
    (∀ cause, runs → old.spare = true → ∃ t, exec (.takeover d cause) s = .next t ∧ CoreStopped s t d cause) ∧
    (∀ cause, runs → old.spare = false → ∃ t, exec (.firmwareLost d cause) s = .next t ∧ CoreStopped s t d cause) ∧
    (∀ data : Bool, runs → ∃ t, exec (.sramErrorFound d old.act data) s = .next t ∧ CoreStopped s t d (if data then 2#8 else 1#8)) ∧
    (∀ data : Bool, exec (.sramErrorFound d (!old.act) data) s = .next (s.updDie d (fun t => { t with spare := false }))) ∧
    (∀ core data off, exec (.scrubRead d core data off) s = .next s) ∧ (∀ link, exec (.flitReplay link) s = .next s)

/-- R351-R354, R357: a record of the journal of a die whose Puppeteer works, no take-over being in progress, lies at its place and says, open, what is to be done, before
it is done; closing it changes its ST alone, and no record is opened while another is open. An admission on ring 300 at slot index 5 for context
0x2A gives the manual's two D1. Replay performs the open records in SEQ order and closes them; one that holds no operation is marked skipped
and the host is told. When the core closes a record is the model's (log 78). -/
def Obligations.JournalRecords : Prop :=
  ∀ (s : State) (d : Nat) (r : JRec) (act : State → State), Memory.wf s.mem = true → Tab.risingFrom 0 s.dies = true →
    let t := s.die d
    let works := t.jrnlSet = true ∧ t.lost = false ∧ (t.fcore (if t.act then 1 else 0)).on = true ∧ t.holdOn = false ∧ t.replayDue = false
    let cap := 64 * 2 ^ min 10 (bits t.jrnl.toNat 3 0)
    let base := bits t.jrnl.toNat 51 12 * 4096
    let place : Nat → Nat := fun q => base + 64 * (q % cap)
    let word : State → Nat → Nat → Nat := fun u a i => Mem.getLE u.mem (a + 8 * i) 8
    let d1 : Nat → Nat := fun st => r.op % 256 + st * 2 ^ 8 + r.ctx % 1024 * 2 ^ 10 + r.ring % 4096 * 2 ^ 20 + r.idx % 2 ^ 32 * 2 ^ 32
    let is : Nat → Nat → Prop := fun q st => ∃ i < cap, word s (base + 64 * i) 0 = q ∧ q % cap = i ∧ bits (word s (base + 64 * i) 1) 9 8 = st
    (¬ works → openRecord s d r = s) ∧
    (works → let u := openRecord s d r
      let a := place t.jseq.toNat
      [word u a 0, word u a 1, word u a 2, word u a 3, word u a 4, word u a 5, word u a 6, word u a 7] =
        [t.jseq.toNat, d1 1, r.arg.toNat, r.aux.toNat, r.d4.toNat, r.d5.toNat, r.d6.toNat, r.d7.toNat] ∧
      SameMemBut s u a 64 ∧ (u.die d).jopen = some t.jseq ∧ (u.die d).jseq = t.jseq + 1#64 ∧
      word (closeRecord u d) a 1 = d1 2 ∧ SameMemBut u (closeRecord u d) (a + 9) 1 ∧ ((closeRecord u d).die d).jopen = none) ∧
    (t.jopen = none → closeRecord s d = s) ∧ ((closeRecord s d).die d).jopen = none ∧
    (works → journal d r act s = act (openRecord (closeRecord s d) d r)) ∧ (¬ works → journal d r act s = act s) ∧
    JRec.d1 { op := 1, ctx := 0x2A, ring := 300, idx := 5 } 1 = 0x0000000512C0A901 ∧
    JRec.d1 { op := 1, ctx := 0x2A, ring := 300, idx := 5 } 2 = 0x0000000512C0AA01 ∧
    (∀ q < 2 ^ 64, let op := bits (word s (place q) 1) 7 0
      (op = 0 ∨ 6 < op → ∃ u, replayRecord d s q = u.send (.journal d q) ∧ bits (word u (place q) 1) 9 8 = 3 ∧ SameMemBut s u (place q + 9) 1 ∧
        u = { s with mem := u.mem }) ∧
      (1 ≤ op → op ≤ 6 → ((replayRecord d s q).die d).jopen = none ∧ ∃ rec : JRec, rec.op = op ∧ rec.ctx = bits (word s (place q) 1) 19 10 ∧
        rec.ring = bits (word s (place q) 1) 31 20 ∧ rec.idx = bits (word s (place q) 1) 63 32 ∧ rec.arg.toNat = word s (place q) 2 ∧
        replayRecord d s q = closeRecord (redo d rec (s.setDie d { t with jopen := some (BitVec.ofNat 64 q) })) d)) ∧
    (∃ (l : List Nat) (next : Nat), l.Pairwise (· < ·) ∧ (∀ q, q ∈ l ↔ is q 1) ∧ (∀ q st, st ≠ 0 → is q st → q < next) ∧ t.jseq.toNat ≤ next ∧
      replay d s = l.foldl (replayRecord d) (s.setDie d { t with jseq := BitVec.ofNat 64 next }))

namespace Sys2Proof.Claims

/-- The packet that stands at the cursor of a ring on a die (R264, R265). -/
def nextPkt (s : State) (d r : Nat) : Pkt :=
  let x := s.ring d r
  { idx := x.cursor, at_ := x.reel + 64 * (x.cursor % 64), w := Vector.ofFn (fun i => Mem.dw s.mem (x.reel + 64 * (x.cursor % 64) + 8 * i.val)) }

/-- R264: the packet at the cursor is there: its type is not 0 and its tag is the slot's. -/
def Valid (s : State) (d r : Nat) : Prop := (nextPkt s d r).type ≠ 0 ∧ (nextPkt s d r).tag = ((s.ring d r).cursor + 1) % 2 ^ 16

/-- R264: the whole packet has been written: its last doubleword repeats the tag. -/
def Whole (s : State) (d r : Nat) : Prop := bits ((nextPkt s d r).word 7).toNat 15 0 = (nextPkt s d r).tag

/-- R266: the fields of a packet that every type has are legal for a ring of context c. -/
def Legal (k : Pkt) (c : Nat) : Prop := k.word0Ok c = true ∧ bits (k.word 7).toNat 63 16 = 0

end Sys2Proof.Claims

/-- R260, R262, R264: a kick marks the ring on every die of its SPAN and touches no memory, unless its first one finds a configuration
that is not allowed, which stops the ring with error 1; a fetch clears the mark and takes the valid, whole packets from the cursor on,
which the first fetch of a ring puts at READ (log 76); a torn one is counted and read again later. A ring whose control block does not let
it run is not read, and a die that has stopped fetching one goes on only once the host has set it running and kicked it (R277). -/
def Obligations.RingReadingEvents : Prop :=
  ∀ (s : State) (d : Nat) (ring : BitVec 12), d < 8 →
    let r := ring.toNat
    let x := s.ring d r
    let known := ∃ e < 8, (s.ring e r).known = true
    let k := nextPkt s d r
    let tidy := fun n : Nat => Memory.wf s.mem = true ∧ (cbW s r 1).toNat ≤ n ∧ ∀ j ∈ x.pkts, j.idx < n
    (known ∨ ringOk s r = true → ∃ t, exec (.kick d ring) s = .next t ∧ SameMem s t ∧
      (∀ e < 8, ∀ j < 4096, (t.die e).kicks.getLsbD j = ((s.die e).kicks.getLsbD j || (j == r && (ringSpan s r).testBit e))) ∧
      ∀ e < 8, (t.ring e r).go = ((s.ring e r).go || (ringRuns s r && (ringSpan s r).testBit e && ((s.ring e r).stopped || (s.ring e r).bar != 0)))) ∧
    (¬ known → ringOk s r = false → ringState s r = 0 → ringErr s r = 0 → Memory.wf s.mem = true → ∃ t, exec (.kick d ring) s = .next t ∧
      ringState t r = 1 ∧ ringErr t r = 1 ∧ t.outbox = .ring (ringHome s r) r 1 :: s.outbox ∧ ∀ e < 8, (t.die e).kicks = (s.die e).kicks) ∧
    (¬ known → ringOk s r = false → ringState s r ≠ 0 ∨ ringErr s r ≠ 0 → exec (.kick d ring) s = .next s) ∧
    ((s.die d).kicks.getLsbD r = false → exec (.ringFetch d ring) s = .next s) ∧
    ((s.die d).kicks.getLsbD r = true → ringRuns s r = false →
      exec (.ringFetch d ring) s = .next (s.updDie d (fun t => { t with kicks := t.kicks &&& ~~~(1#4096 <<< r) }))) ∧
    ((s.die d).kicks.getLsbD r = true → (x.stopped = true ∨ x.bar ≠ 0) ∧ x.go = false →
      exec (.ringFetch d ring) s = .next (s.updDie d (fun t => { t with kicks := t.kicks &&& ~~~(1#4096 <<< r) }))) ∧
    ((s.die d).kicks.getLsbD r = true → ringRuns s r = true → x.known = true → x.go = true → atLink x = false → ¬ Valid s d r →
      ¬ (x.stopped = true ∧ (s.ring (ringHome s r) r).rejected < x.rejected) →
      ∃ t, exec (.ringFetch d ring) s = .next t ∧ (t.ring d r).stopped = false ∧ (t.ring d r).bar = 0 ∧ (t.ring d r).go = false ∧ SameMem s t) ∧
    ((s.die d).kicks.getLsbD r = true → ringRuns s r = true → x.known = true → x.stopped = false → x.bar = 0 → atLink x = false →
      ∃ t, exec (.ringFetch d ring) s = .next t ∧ (t.die d).kicks.getLsbD r = false ∧
        (¬ Valid s d r → (t.ring d r).pkts = x.pkts ∧ (t.ring d r).cursor = x.cursor ∧ SameMem s t) ∧
        (Valid s d r → ¬ Whole s d r → (t.ring d r).torn = true ∧ (t.ring d r).pkts = x.pkts ∧ (t.ring d r).cursor = x.cursor ∧
          (Memory.wf s.mem = true → cbW t r 5 = cbW s r 5 + 1#64)) ∧
        (Valid s d r → Whole s d r → k.type ≤ 8 → tidy x.cursor → k ∈ (t.ring d r).pkts)) ∧
    ((s.die d).kicks.getLsbD r = true → ringRuns s r = true → x.known = false → x.stopped = false → x.bar = 0 → ringOk s r = true →
      let i := (cbW s r 1).toNat
      let s0 := s.setRing d r { x with known := true, cursor := i, reel := (cbW s r (8 + i / 64 % 8)).toNat / 4096 % 2 ^ 40 * 4096 }
      ∃ t, exec (.ringFetch d ring) s = .next t ∧ (t.die d).kicks.getLsbD r = false ∧ (t.ring d r).known = true ∧
        (¬ Valid s0 d r → (t.ring d r).pkts = x.pkts ∧ (t.ring d r).cursor = i ∧ SameMem s t) ∧
        (Valid s0 d r → Whole s0 d r → (nextPkt s0 d r).type ≤ 8 → tidy i → nextPkt s0 d r ∈ (t.ring d r).pkts)) ∧
    (x.torn = false → exec (.tornRetry d ring) s = .next s) ∧
    (x.torn = true → ringRuns s r = true → x.stopped = false → x.bar = 0 → Valid s d r → Whole s d r → k.type ≤ 8 → tidy x.cursor →
      ∃ t, exec (.tornRetry d ring) s = .next t ∧ k ∈ (t.ring d r).pkts)

/-- R266-R268, R273, R277, R282: a packet that may start is rejected when its words are illegal or its slot word does not resolve; else
HOME performs it (every other die is done with it at once) and the die is done with it: the signal is set or added to, at a peer once the
peer has answered (R272), the regions are asked for at the packet's priority (R24), the cursor follows the link, the card is submitted, a wait packet ends once its signal meets it, and a barrier once every
packet before it has retired. A launch that passes its checks joins the launches of the die; one that an `enq` of the die has put on a FAST
ring starts at once where its resources are free, while HOLD is clear, and is recorded afterwards (R257, R287, log 41). A rejection by HOME
holds the ring on every die until it is set running and kicked.
That a signal write which fails its check or its peer ends the packet without effect and is reported, and that the bytes of a residency
hint beyond its count are not looked at, are the model's (logs 31, 11 and 30). -/
def Obligations.PacketEvents : Prop :=
  ∀ (s : State) (d : Nat) (ring : BitVec 12) (idx : Nat) (k : Pkt),
    let r := ring.toNat
    let c := ringCtx s r
    let x := s.ring d r
    let home := d = ringHome s r
    let zero := fun (l : List Nat) => ∀ i ∈ l, k.word i = 0#64
    let done := fun (t : State) => Host.Outcome.next (finishPkt t d r idx)
    let who := UnitId.pkt d r idx
    let fresh := unitDone s who = none ∧ unitOut s who = false
    let prio := fun k : Pkt => min (bits (k.word 0).toNat 44 42) (ringPrioMax s r)
    let rejects := fun (i : Instr) (e : Nat) => exec i s = .next (reject s d r idx e)
    let w3 := (k.word 3).toNat
    (∀ i, i = Instr.signalWritePacket d ring idx → duePkt s d r idx 2 = some k →
      let ok := Legal k c ∧ w3 < 16 ∧ bits w3 3 1 ≤ 4 ∧ zero [4, 5, 6]
      (¬ ok → rejects i 2) ∧ (ok → resolveSlot s c (k.word 1) = none → rejects i 5) ∧
      (∀ v, ok → resolveSlot s c (k.word 1) = some v → ¬ home → exec i s = done s) ∧
      (∀ v h, ok → resolveSlot s c (k.word 1) = some v → home → slotMoving s c (k.word 1) = false → fresh →
        unitAccess s c (if w3 % 2 = 1 then .store else .atomic) v 8 = .ok h →
        exec i s = done (s.setMem (Mem.setLE s.mem h 8 (if w3 % 2 = 1 then (k.word 2).toNat else Mem.getLE s.mem h 8 + (k.word 2).toNat)))) ∧
      (∀ v a, ok → resolveSlot s c (k.word 1) = some v → home → slotMoving s c (k.word 1) = false → fresh →
        unitAccess s c (if w3 % 2 = 1 then .store else .atomic) v 8 = .peer a →
        exec i s = .next { s with peers := s.peers ++ [{ p := d * 160, k := .F, addrs := [a], op := if w3 % 2 = 1 then peerWrite else peerAmo 0,
                                                         size := 8, sent := bytesOf (k.word 2).toNat 8, tag := 98, who := some who }] }) ∧
      (∀ v b, ok → resolveSlot s c (k.word 1) = some v → home → unitDone s who = some b →
        exec i s = done (if b then s else s.send (.context c 2))) ∧
      (∀ v g, ok → resolveSlot s c (k.word 1) = some v → home → fresh →
        unitAccess s c (if w3 % 2 = 1 then .store else .atomic) v 8 = .wait g → exec i s = .next (postRequest s c g (prio k)))) ∧
    (∀ i, i = Instr.waitPacket d ring idx → duePkt s d r idx 3 = some k →
      let ok := Legal k c ∧ w3 < 2 ∧ zero [4, 5, 6]
      let begun := setPkt s d r idx (fun k => { k with started := true })
      (¬ ok → rejects i 2) ∧ (ok → resolveSlot s c (k.word 1) = none → rejects i 5) ∧
      (∀ v h, ok → resolveSlot s c (k.word 1) = some v → slotMoving s c (k.word 1) = false → unitAccess s c .load v 8 = .ok h →
        let y := Mem.getLE s.mem h 8
        ((if w3 = 1 then y = (k.word 2).toNat else (k.word 2).toNat ≤ y) → exec i s = done begun) ∧
        (¬ (if w3 = 1 then y = (k.word 2).toNat else (k.word 2).toNat ≤ y) → exec i s = .next begun)) ∧
      (∀ v g, ok → resolveSlot s c (k.word 1) = some v → slotMoving s c (k.word 1) = false → unitAccess s c .load v 8 = .wait g →
        exec i s = .next (postRequest begun c g (prio k)))) ∧
    (x.pkts.find? (fun k => k.idx == idx && k.type == 4 && !k.done) = some k → ringHeld s d r idx = false → Legal k c →
      bits (k.word 1).toNat 63 52 = 0 → bits (k.word 1).toNat 11 0 = 0 → zero [2, 3, 4, 5, 6] →
      exec (.linkPacket d ring idx) s =
        .next (readRing d r 512 (finishPkt (s.setRing d r { x with cursor := k.idx + 1, reel := (k.word 1).toNat }) d r idx))) ∧
    (∀ i, i = Instr.residencyHint d ring idx → duePkt s d r idx 5 = some k →
      let n := bits (k.word 1).toNat 5 0
      let rgns := (List.range n).map (fun j => bits (k.word (2 + j / 8)).toNat (8 * (j % 8) + 7) (8 * (j % 8)))
      let ok := Legal k c ∧ 1 ≤ n ∧ n ≤ 32 ∧ bits (k.word 1).toNat 63 6 = 0 ∧ zero [6] ∧ ∀ g ∈ rgns, g ≠ 255 ∧ (s.region c g).size ≠ 0#48
      (¬ ok → rejects i 2) ∧ (ok → ¬ home → exec i s = done s) ∧
      (ok → home → exec i s = done (rgns.foldl (fun s g => postHint s c g (min (bits (k.word 0).toNat 44 42) (ringPrioMax s r))) s))) ∧
    (∀ i, i = Instr.ringBarrier d ring idx → duePkt s d r idx 6 = some k →
      let ok := Legal k c ∧ zero [1, 2, 3, 4, 5, 6]
      let first := (cbW s r 1).toNat
      (¬ ok → rejects i 2) ∧
      (ok → (∀ j, first ≤ j → j < idx → slotRetired s r j = true) → exec i s = done s) ∧
      (ok → ¬ (∀ j, first ≤ j → j < idx → slotRetired s r j = true) → exec i s = .next s)) ∧
    (∀ i, i = Instr.nopPacket d ring idx → duePkt s d r idx 7 = some k →
      (¬ (Legal k c ∧ zero [1, 2, 3, 4, 5, 6]) → rejects i 2) ∧ (Legal k c ∧ zero [1, 2, 3, 4, 5, 6] → exec i s = done s)) ∧
    (∀ i, i = Instr.jobCardPacket d ring idx → duePkt s d r idx 8 = some k →
      let ok := Legal k c ∧ zero [2, 3, 4, 5, 6]
      (¬ ok → rejects i 2) ∧ (ok → resolveSlot s c (k.word 1) = none → rejects i 5) ∧
      (∀ v (h : Nat → Nat), ok → resolveSlot s c (k.word 1) = some v → home → slotMoving s c (k.word 1) = false → v.t ≠ 255#8 → v.v.toNat % 16 = 0 →
        (∀ j < 12, unitAccess s c .load { v with v := v.v + BitVec.ofNat 64 (8 * j) } 8 = .ok (h j)) →
        badCardDword (fun j => if j < 12 then Mem.dw s.mem (h j) else 0#64) = none →
        let card : Card := { p := none, ctx := BitVec.ofNat 10 c, prio := prio k, j := Vector.ofFn (fun j => Mem.dw s.mem (h j.val)),
                             at_ := ⟨v.v - (s.region c v.t.toNat).base.zeroExtend 64, v.t⟩ }
        (∀ t, takeCard s d card = some t → exec i s = done t) ∧ (takeCard s d card = none → exec i s = .next s))) ∧
    (x.pkts.find? (fun k => k.idx == idx && k.type == 1 && !k.done) = some k → ringHeld s d r idx = false →
      (∀ l ∈ (s.die d).launches, ¬ (l.ring = r ∧ l.idx = idx)) →
      (∀ l, checkLaunch s d r k = .ok l →
        exec (.launchPacket d ring idx) s = .next (fastStart ((dropUnit s who).updDie d (fun t => { t with launches := t.launches ++ [l] })) d l) ∧
        l.ring = r ∧ l.idx = k.idx ∧ l.ctx = BitVec.ofNat 10 c ∧ l.n0 = bits (k.word 5).toNat 19 0 + 1 ∧ l.n1 = bits (k.word 5).toNat 39 20 + 1 ∧
        l.n2 = bits (k.word 5).toNat 59 40 + 1 ∧ l.stages = bits (k.word 5).toNat 63 60 + 1 ∧ l.lg = 2 ^ bits (k.word 6).toNat 1 0 ∧
        l.slip = bits (k.word 6).toNat 7 2 + 1 ∧ l.csz = bits (k.word 6).toNat 9 8 ∧ l.inc = bits (k.word 6).toNat 52 37 ∧
        l.prio = min (bits (k.word 0).toNat 44 42) (ringPrioMax s r) ∧ l.next = 0) ∧
      (∀ e, checkLaunch s d r k = .error (.err e) → exec (.launchPacket d ring idx) s = .next (reject s d r idx e)) ∧
      (∀ g, checkLaunch s d r k = .error (.away (.region g)) → exec (.launchPacket d ring idx) s = .next (postRequest s c g (prio k))) ∧
      (¬ k.word0Ok c = true → checkLaunch s d r k = .error (.err 2)) ∧
      (k.word0Ok c = true → bits (k.word 6).toNat 63 53 = 0 → bits (k.word 7).toNat 55 48 = 0 → bits (k.word 6).toNat 16 14 ≤ 4 →
        bits (k.word 6).toNat 36 17 = 0 → (7 < bits (k.word 5).toNat 63 60 ∨ bits (k.word 6).toNat 9 8 = 3) → checkLaunch s d r k = .error (.err 3))) ∧
    (∀ l, let fast := (l.ring, l.idx) ∈ (s.die d).quick ∧ (s.die d).holdOn = false ∧ l.next = 0
      let u := s.updDie d (fun t => { t with quick := t.quick.filter (fun e => e != (l.ring, l.idx)) })
      (¬ fast ∨ mayAdmit u d l = false ∨ findPlace u d l = none → fastStart s d l = u) ∧
      (∀ c plan, fast → mayAdmit u d l = true → findPlace u d l = some (c, plan) → (∀ x ∈ plan, ∀ g ∈ x.2.2, groupSpare u x.1 g = true) →
        fastStart s d l = (placeGroup u d l c plan).updDie d (fun t => { t with late := t.late ++ [admitRec d l c plan] }))) ∧
    (∀ e, Memory.wf s.mem = true → e < 256 → let t := reject s d r idx e
      (t.ring d r).rejected = idx + 1 ∧
      (d = ringHome s r → (t.ring d r).stopped = true ∧ ringState t r = 1 ∧ ringErr t r = e ∧ t.outbox = .ring (ringHome t r) r e :: s.outbox ∧
        (∀ f ∈ spanDies t r, (t.ring f r).bar = idx + 1 ∧ (t.ring f r).go = false ∧ ∀ j, idx < j → ringHeld t f r j = true)) ∧
      (d ≠ ringHome s r → t.outbox = s.outbox ∧
        ((t.ring d r).stopped = true ↔ ¬ (idx < (s.ring (ringHome s r) r).rejected ∧ ringRuns s r = true))))

/-- R274-R276, R278, R302, R354, R408: a Puppeteer that works admits the first launch in order whose next group fits, with a record of
it, after the groups it takes from other pairs, each with its own; for the first waiting launch that fits nowhere and can have one it
pre-empts, unless a pre-emption is under way (log 13), the lowest-priority running group that the launch exceeds by two, the latest admitted
of these; ADMPOST posts the admission it names or says why not; a waiting launch ages by its milliseconds, at most two; a soft pre-emption marks each pair of a
running group, a hard one stops it, and a group that stands still is saved whole; a saved group is restored where it fits.
That the event that admits posts the pre-emption too, and what POSTB does where no core runs, are the model's (logs 13 and 78). -/
def Sys2Proof.Claims.LaunchAdmissionEvents : Prop :=
  ∀ (s : State) (d : Nat) (ring : BitVec 12) (idx grp : Nat),
    (((s.die d).fcore (s.die d).act.toNat).on = false → ∀ val, exec (.admpostPost d val) s = .next (s.updDie d (fun t => { t with postb := val }))) ∧
    (puppeteerOn s d = false → exec (.admission d) s = .next s ∧ exec (.preemptSoft d ring idx grp) s = .next s ∧
      exec (.preemptHard d ring idx grp) s = .next s ∧ exec (.preemptHardTimeout d ring idx grp) s = .next s) ∧
    (puppeteerOn s d = true → ∀ before l after c plan, admitOrder (s.die d) = before ++ l :: after →
      (∀ m ∈ before, mayAdmit s d m = false ∨ findPlace s d m = none) → mayAdmit s d l = true → findPlace s d l = some (c, plan) →
      exec (.admission d) s = .next (makeRoom ((journal d (admitRec d l c plan) (fun s => placeGroup s d l c plan) (takeAll s plan)).updDie d
        (fun t => { t with served := t.served.setIfInBounds l.prioNow l.ring })) d)) ∧
    (puppeteerOn s d = true → (∀ l ∈ (s.die d).launches, mayAdmit s d l = false ∨ findPlace s d l = none) →
      exec (.admission d) s = .next (makeRoom s d)) ∧
    (let fits := fun (l : Launch) (g : Group) => g ∈ (s.die d).groups ∧ g.st = .running ∧ g.prio + 2 ≤ l.prioNow ∧ ∃ p ∈ g.members, usable s l (clusterOf p) = true
      let wants := fun l : Launch => mayAdmit s d l = true ∧ findPlace s d l = none ∧ ∃ g, fits l g
      ((∃ g ∈ (s.die d).groups, g.st = .saving) ∨ (∀ l ∈ (s.die d).launches, ¬ wants l) → makeRoom s d = s) ∧
      (∀ before l after, admitOrder (s.die d) = before ++ l :: after → (∀ m ∈ before, ¬ wants m) → wants l → (∀ g ∈ (s.die d).groups, g.st ≠ .saving) →
        ∃ g, fits l g ∧ makeRoom s d = postSoft s d g ∧ ∀ g', fits l g' → g.prio < g'.prio ∨ (g.prio = g'.prio ∧ g'.seq ≤ g.seq))) ∧
    (∀ (l : Launch) c cl sl gr k, k < min l.cs (l.pts - l.cs * l.nextGroup d) → sl.Nodup → l.cs ≤ sl.length → (∀ m ∈ sl, m < 4) →
      let t := postGroup s d l c [(cl, sl, gr)]
      t.pair (4 * cl + sl.getD k 0) = { st := .posted, ctx := l.ctx, pl := placeOf l (l.nextGroup d) 0 k, owned := (gr.drop (k * l.lg)).take l.lg,
                                        parts := [(0, (gr.drop (k * l.lg)).take l.lg)], seq := s.steps }) ∧
    (exec (.admissionAging d ring idx) s = .next (s.updDie d (fun t => { t with launches := t.launches.map (fun l =>
      if l.ring = ring.toNat ∧ l.idx = idx ∧ l.next < l.mine then { l with aged := min 2 ((s.cycle - l.since).toNat / 2400000) } else l) }))) ∧
    (∀ val : Word, ((s.die d).fcore (s.die d).act.toNat).on = true →
      let a := (s.die d).posta.toNat
      let s1 := s.updDie d (fun t => { t with postb := val })
      let dup := (s.die d).postings.any (fun x => x.1 == bits a 31 20 && x.2.1 % 2 ^ 32 == bits a 63 32 && x.2.2 == bits val.toNat 31 0)
      (dup = true → exec (.admpostPost d val) s = .next (s.updDie d (fun t => { t with postb := val, postst := 1#2 }))) ∧
      (dup = false → (∀ l ∈ (s.die d).launches, l.ring ≠ bits a 31 20 ∨ l.mine ≤ l.next) →
        exec (.admpostPost d val) s = .next (s.updDie d (fun t => { t with postb := val, postst := 2#2 }))) ∧
      (∀ l plan, dup = false → waitingLaunch s d (bits a 31 20) = some l → l.idx % 2 ^ 32 = bits a 63 32 → l.ctx.toNat = bits a 19 10 →
        l.nextGroup d = bits val.toNat 31 0 → bits val.toNat 37 32 < 40 →
        planAt s d (bits val.toNat 37 32) l.cs l.lg l.stages l.matrix (bits val.toNat 39 38) (bits val.toNat 42 40) = some plan →
        exec (.admpostPost d val) s = .next ((postGroup s1 d l (bits val.toNat 37 32) plan).updDie d (fun t => { t with postst := 0#2 }))) ∧
      (∀ l, dup = false → waitingLaunch s d (bits a 31 20) = some l →
        (l.idx % 2 ^ 32 ≠ bits a 63 32 ∨ l.ctx.toNat ≠ bits a 19 10 ∨ l.nextGroup d ≠ bits val.toNat 31 0 ∨ 40 ≤ bits val.toNat 37 32 ∨
          planAt s d (bits val.toNat 37 32) l.cs l.lg l.stages l.matrix (bits val.toNat 39 38) (bits val.toNat 42 40) = none) →
        exec (.admpostPost d val) s = .next (s.updDie d (fun t => { t with postb := val, postst := 2#2 })))) ∧
    (∀ g, puppeteerOn s d = true → (s.die d).group ring.toNat idx grp = some g → (freeAreas s g.members.length).isSome = true → g.members.Nodup →
      (∃ m ∈ g.members, (s.pair m).still = false) → (g.st = .running →
        ∃ t, exec (.preemptSoft d ring idx grp) s = .next t ∧ OnlyJournal s t d ∧ (∀ p ∈ g.members, t.pair p = { s.pair p with softPend := true, why := 0 }) ∧
          ∃ g', (t.die d).group ring.toNat idx grp = some g' ∧ g'.st = .saving ∧ g'.members = g.members)) ∧
    (∀ g i, puppeteerOn s d = true → (s.die d).group ring.toNat idx grp = some g → (i = Instr.preemptHard d ring idx grp ∧ (g.st = .running ∨ g.st = .saving)) ∨
        (i = .preemptHardTimeout d ring idx grp ∧ g.st = .saving) →
      (freeAreas s g.members.length).isSome = true → g.members.Nodup → (∃ m ∈ g.members, fillsDone s m = false) →
      ∃ t, exec i s = .next t ∧ (∀ p ∈ g.members, (t.pair p).softPend = true ∧ (t.pair p).why = 1 ∧
        ((s.pair p).still = false → ((t.pair p).a.halt = .preempt ∨ (t.pair p).a.halt = .exited) ∧ ((t.pair p).x.halt = .preempt ∨ (t.pair p).x.halt = .exited))) ∧
        ∃ g', (t.die d).group ring.toNat idx grp = some g' ∧ g'.st = .saving) ∧
    (∀ g p i, puppeteerOn s d = true → (s.die d).group ring.toNat idx grp = some g → g.st = .running → g.members = [p] → p < 1280 → dieOf p = d →
      (s.pair p).st = .running → (s.pair p).lender = none → fillsDone s p = true → freeAreas s 1 = some [i] → (s.pair p).area = none →
      ∃ t, exec (.preemptHard d ring idx grp) s = .next t ∧ (t.pair p).st = .free ∧ (t.pair (savedKey p i)).st = .saved ∧
        (t.pair (savedKey p i)).area = some i ∧ (t.pair (savedKey p i)).why = 1 ∧ i ∈ t.areas ∧
        ∃ g', (t.die d).group ring.toNat idx grp = some g' ∧ g'.st = .saved ∧ g'.members = [savedKey p i]) ∧
    (∀ g p c p' gr i, puppeteerOn s d = true → (s.die d).group ring.toNat idx grp = some g → g.st = .saved → g.members = [p] → 1280 ≤ p →
      dieOf p = d → (s.pair p).st = .saved → (s.pair p).back = .running → (s.pair p).dbgSaved = false → (s.pair p).pl.stg = 0 → (s.pair p).pl.last = 0 → (s.pair p).area = some i →
      Tab.get 0 (s.die d).dbgOn (s.pair p).ctx.toNat = 0 → scanOrder (s.die d) = c :: (scanOrder (s.die d)).tail → d < 8 →
      restoreAt s (40 * d + c) [p] = some [(p, p', gr)] → Tab.risingFrom 0 s.pairs = true →
      vfWithin (restorePair s p p' gr) d (s.pair p).ctx.toNat = true → (∀ x, (s.pair x).st = .parked → (s.pair x).lent = []) →
      ∃ t, exec (.groupRestore d ring idx grp) s = .next t ∧ (t.pair p').st = .running ∧ (t.pair p').owned = gr ∧ (t.pair p').area = none ∧
        (t.pair p).st = .free ∧ (t.die d).scan = c ∧ ∃ g', (t.die d).group ring.toNat idx grp = some g' ∧ g'.st = .running)

namespace Sys2Proof.Claims

/-- R306: the nineteen CSRs of a thread block, in order. -/
def savedCsrs (q : Pair) (k : Kind) : List Nat :=
  let t := q.thr k
  [t.vl.toNat, t.vtype.toNat, t.rc.toNat, t.vstart.toNat, t.strip.toNat, t.strippc.v.toNat, t.fflags.toNat, t.stallmax.toNat, t.tcause.toNat,
   t.tval.toNat, t.tpc.v.toNat, t.telem.toNat, if k = .X then 0 else t.wberr.toNat, t.cuevec.toNat, t.cuearm.toNat, t.cuesig.toNat,
   t.cueval.toNat, t.cuecause.toNat, if k = .A then 0 else q.want.toNat]

/-- R106: a slot word in offset form. -/
def slotWord (r : Tag) (off : BitVec 52) : Nat := 2 ^ 63 + r.toNat * 2 ^ 52 + off.toNat

/-- R304: the row queues with the first of the sixty entries each takes, and how many. -/
def savedQueues (q : Pair) : List (Nat × Nat × List Row) :=
  [(0, 8, q.q.getD 0 []), (8, 8, q.q.getD 1 []), (16, 8, q.q.getD 2 []), (24, 8, q.q.getD 3 []), (32, 8, q.sr.getD 0 []), (40, 8, q.sr.getD 1 []),
   (48, 4, q.iq), (52, 8, q.up)]

/-- R119, R170, R179, R228: what a pair holds fits the places a save area has for it. -/
def Fits (s : State) (p : Nat) : Prop :=
  let q := s.pair p
  q.sq.length ≤ 32 ∧ q.rq.length ≤ 16 ∧ q.bq.length ≤ 64 ∧ q.blocks.length ≤ 64 ∧ q.held.length ≤ 8 ∧ q.lanes.frags.length ≤ 8 ∧
  (∀ x ∈ savedQueues q, entsOf x.2.2 ≤ x.2.1) ∧ q.pl.ring < 4096 ∧
  ∀ n < 4, ∀ c ∈ (s.bank (clusterOf p) n).image, c.1 < 80 * 1024

end Sys2Proof.Claims

/-- R303-R306, R330: what writing a pair's save area leaves in it: the header, both thread blocks with their register records, the scalar
queues, streams, channels, bank states, queued blocks, lane positions, masks, scale and vector registers, and of each row its header and
active bits; past the area's table there are zeros, and no byte outside the area changes. RETIRED and the slip counters lie where R304
leaves zeros, which part of a mask a group keeps, and that every group stands at one word, are the model's (logs 10 and 22). -/
def Sys2Proof.Claims.SaveAreaImage : Prop :=
  ∀ (s : State) (p i reason : Nat), Memory.wf s.mem = true → Fits s p → reason < 16 →
    let q := s.pair p
    let c := q.ctx.toNat
    let b := areaBase s i
    let m := (writeArea s p i reason).mem
    let holds := fun (off n v : Nat) => Mem.getLE m (b + off) n = v % 2 ^ (8 * n)
    let rec_ := fun (off : Nat) (v : Val) => holds off 8 v.v.toNat ∧ holds (off + 8) 1 v.t.toNat ∧ holds (off + 9) 1 0 ∧
      holds (off + 10) 2 (if v.t = 255#8 then 0 else (s.region c v.t.toNat).gen.toNat) ∧ holds (off + 12) 4 0
    (holds 0 1 1 ∧ holds 1 1 reason ∧ holds 2 2 c ∧ holds 4 2 (stageCsr q).toNat ∧ holds 6 1 (16 * q.held.length) ∧ holds 8 4 q.pl.idx ∧
      holds 12 2 q.pl.ring ∧ holds 14 18 0 ∧
      ∀ n < 8, (Mem.get m (b + 7)).getLsbD n = (decide (n < 4) && decide ((s.bank (clusterOf p) n).owner = some p))) ∧
    (∀ k at_, (k, at_) ∈ [(Kind.A, 0x100), (Kind.X, 0x500)] →
      rec_ at_ {} ∧ (∀ n < 32, 1 ≤ n → rec_ (at_ + 16 * n) ((q.thr k).x.getD n {})) ∧ (∀ n < 8, rec_ (at_ + 0x200 + 16 * n) ((q.thr k).sh.getD n {})) ∧
      rec_ (at_ + 0x280) (q.thr k).pc ∧ rec_ (at_ + 0x290) (q.thr k).cuepc ∧
      (∀ n < 19, holds (at_ + 0x2A0 + 8 * n) 8 ((savedCsrs q k).getD n 0)) ∧
      ((q.thr k).inBar = false → holds (at_ + 0x338) 8 ((q.thr k).incue.toNat + 2 ^ 8 * (q.thr k).barcount.toNat)) ∧
      holds (at_ + 0x340) 8 (q.thr k).stalls ∧ holds (at_ + 0x348) 8 (q.thr k).retired.toNat) ∧
    (∀ n < q.sq.length, holds (0x900 + 8 * n) 8 (q.sq.getD n 0#64).toNat) ∧ (∀ n < q.rq.length, holds (0xA00 + 8 * n) 8 (q.rq.getD n 0#64).toNat) ∧
    (∀ n < 64, (Mem.getLE m (b + 0xA80) 8).testBit n = q.bq.getD n false) ∧
    holds 0xA88 8 (q.sq.length + 2 ^ 8 * q.rq.length + 2 ^ 16 * q.bq.length) ∧
    (∀ n < 16, holds (0xB00 + 128 * n) 8 (q.str n).status.toNat ∧ (∀ j < 10, holds (0xB08 + 128 * n + 8 * j) 8 ((q.str n).dw j).toNat) ∧
      holds (0xB58 + 128 * n) 8 (q.str n).vls) ∧
    (∀ n < 8, holds (0x1300 + 16 * n) 8 (q.chans.getD n {}).wm.toNat ∧ holds (0x1308 + 16 * n) 8 (q.chans.getD n {}).start.toNat) ∧
    (∀ n < 4, let k := s.bank (clusterOf p) n
      holds (0x1380 + 64 * n) 1 (if k.owner = some p then (match k.st with | .empty => 0 | .filling => 1 | .ready => 2 | .bad => 3) else 0) ∧
      (k.owner = some p → holds (0x1388 + 64 * n) 8 (Hdr.w k.h 0).toNat)) ∧
    (∀ n < q.blocks.length, let e := q.blocks.getD n {}
      holds (0x1480 + 128 * n) 8 (slotWord e.rgn e.off) ∧ (∀ j < 8, holds (0x1488 + 128 * n + 8 * j) 8 (e.b.getD j 0#64).toNat) ∧
      holds (0x14C8 + 128 * n) 8 (e.vl.toNat + 2 ^ 16 * e.vtype.toNat + 2 ^ 24 * e.rc.toNat) ∧ holds (0x14D0 + 128 * n) 8 e.strip.toNat ∧
      holds (0x14D8 + 128 * n) 8 (slotWord e.spc.t e.soff)) ∧
    (∀ n < q.held.length, q.lanes.busy = true → let at_ := 0x3480 + 2048 * n
      let r := (q.blocks.headD {}).rgn
      holds (at_ + 8) 8 (slotWord r q.lanes.off) ∧ holds (at_ + 0x10) 128 (q.lanes.f.toNat / 2 ^ (1024 * n)) ∧ holds (at_ + 0x90) 8 q.lanes.frags.length ∧
      ∀ j < q.lanes.frags.length, holds (at_ + 0xA0 + 144 * j) 8 (slotWord r (q.lanes.frags.getD j {}).off) ∧
        holds (at_ + 0xA8 + 144 * j) 128 ((q.lanes.frags.getD j {}).f.toNat / 2 ^ (1024 * n))) ∧
    (∀ n < 8, holds (0x7480 + 1024 * n) 1024 (q.lanes.m.getD n 0#8192).toNat) ∧ (∀ n < 4, holds (0x9480 + 512 * n) 512 (q.lanes.z.getD n 0#4096).toNat) ∧
    (∀ n < 64, holds (0x15080 + 512 * n) 512 (q.lanes.v.getD n 0#4096).toNat) ∧
    (∀ x ∈ savedQueues q, ∀ before r after, x.2.2 = before ++ r :: after → ∀ e < r.ents,
      let at_ := 0x9C80 + 768 * (x.1 + entsOf before + e)
      holds at_ 8 (r.vl % 2 ^ 14 + 2 ^ 16 * r.wc + 2 ^ 20 + 2 ^ 21 * r.ready.toNat + 2 ^ 24 * r.ents + 2 ^ 32 * e) ∧
      ∀ l, l < perReg r.g (widthOf r.wc) → l < 1024 → e * perReg r.g (widthOf r.wc) + l < r.vl →
        (Mem.getLE m (b + at_ + 0x40) 128).testBit l = r.act.getD (e * perReg r.g (widthOf r.wc) + l) false) ∧
    (∀ a, 0x6D080 ≤ a → a < 448 * 1024 → Mem.get m (b + a) = 0#8) ∧
    (∀ a, a < b ∨ b + 448 * 1024 ≤ a → Mem.get m a = Mem.get s.mem a)

/-- R274-R276, R278, R302, R304-R306, R408: admission, ageing, pre-emption and restoring of launches, and what a save area holds. -/
def Obligations.AdmissionEvents : Prop :=
  Claims.LaunchAdmissionEvents ∧ Claims.SaveAreaImage

/-- R14, R107, R268, R270, R271, R275, R356: a posted pair whose lane groups are free, once the stages before it have started, starts:
both threads get the entry registers the launch names, sl among them, every other register 0 untagged, the vector registers undefined values, its queues are empty, and its groups read its slot in LPR, but for one that has
failed (R166), and the partition changes posted to it stay (R167); it asks for the region of its argument block and waits while
that is away. A die whose share of a
launch is done adds one to DONE in the packet, and the last takes the completion, which adds to its signal unless HOLD keeps it.
What a slot word that no longer resolves gives, and that a failed write of a peer's is reported, are the model's (logs 38 and 11). -/
def Obligations.PairStartAndCompletionEvents : Prop :=
  ∀ (s : State) (p d : Nat) (ring : BitVec 12) (idx : Nat) (l : Launch),
    let q := s.pair p
    (q.st ≠ .posted → exec (.pairStart p) s = .next s) ∧
    (q.st = .posted → (s.die (dieOf p)).launches.find? (fun l => l.ring == q.pl.ring && l.idx == q.pl.idx) = some l →
      (∃ g ∈ q.owned, (s.cluster (clusterOf p)).lpr.getD g 7#3 ≠ 7#3) → exec (.pairStart p) s = .next s) ∧
    (q.st = .posted → (s.die (dieOf p)).launches.find? (fun l => l.ring == q.pl.ring && l.idx == q.pl.idx) = some l →
      (∀ g ∈ q.owned, g < 8 ∧ (s.cluster (clusterOf p)).lpr.getD g 7#3 = 7#3) → Tab.get 0 (s.die (dieOf p)).dbgOn q.ctx.toNat = 0 →
      waitsForStage s p = false → (s.region q.ctx.toNat 0).st ≠ .moving →
      ∀ entry args, resolveSlot s q.ctx.toNat (l.w.getD 1 0#64) = some entry → resolveSlot s q.ctx.toNat (l.w.getD 2 0#64) = some args →
      slotMoving s q.ctx.toNat (l.w.getD 1 0#64) = false → slotMoving s q.ctx.toNat (l.w.getD 2 0#64) = false →
      (∀ g, unitAccess s q.ctx.toNat .load args 8 = .wait g → exec (.pairStart p) s = .next (postRequest s q.ctx.toNat g l.prio)) ∧
      ∀ h, unitAccess s q.ctx.toNat .load args 8 = .ok h → slotMoving s q.ctx.toNat (Mem.dw s.mem h) = false →
      ∃ t, exec (.pairStart p) s = .next t ∧ SameMem s t ∧ (t.pair p).st = .running ∧ (t.pair p).owned = q.owned ∧ (t.pair p).up = [] ∧
        (∀ n < 4, (t.pair p).q.getD n [] = []) ∧ (t.pair p).sq = [] ∧ (t.pair p).bq = [] ∧ (t.pair p).rq = [] ∧ (t.pair p).blocks = [] ∧
        t.rota = s.rota ++ [.thr p .A, .thr p .X, .lanes p, .engine p] ∧
        (∀ g ∈ q.owned, ((t.cluster (clusterOf p)).lpr.getD g 7#3).toNat = if (s.cluster (clusterOf p)).mask.getLsbD g then p % 4 else 7) ∧
        (t.pair p).parts = q.parts ∧ (t.pair p).pend = q.pend ∧ (t.pair p).later = q.later ∧
        (∀ n < 64, (t.pair p).lanes.v.getD n 0#4096 = Config.freeV s.fresh n) ∧ (∀ n < 8, (t.pair p).lanes.m.getD n 0#8192 = Config.freeM s.fresh n) ∧
          let a := (t.pair p).a
          let x := (t.pair p).x
          let stk := stackSize s q.ctx.toNat
          let base := (s.region q.ctx.toNat 0).base.toNat
          a.pc = entry ∧ x.pc = xEntry entry (l.w.getD 7 0#64) ∧ a.rd 2#5 = ⟨BitVec.ofNat 64 (base + (2 * p + 1) * stk), 0#8⟩ ∧
          x.rd 2#5 = ⟨BitVec.ofNat 64 (base + (2 * p + 2) * stk), 0#8⟩ ∧
          ∀ th ∈ [a, x], th.rd 3#5 = (resolveSlot s q.ctx.toNat (Mem.dw s.mem h)).getD {} ∧ th.rd 5#5 = args ∧ th.rd 6#5 = ⟨BitVec.ofNat 64 ((q.pl.i0 * q.pl.n1 + q.pl.i1) * q.pl.n2 + q.pl.i2), 255#8⟩ ∧
            th.rd 7#5 = ⟨BitVec.ofNat 64 q.pl.i0, 255#8⟩ ∧ th.rd 8#5 = ⟨BitVec.ofNat 64 q.pl.i1, 255#8⟩ ∧ th.rd 9#5 = ⟨BitVec.ofNat 64 q.pl.i2, 255#8⟩ ∧
            th.vl = 0#14 ∧ th.fflags = 0#5 ∧ th.halt = .none ∧ ∀ r : XReg, r = 0#5 ∨ r = 1#5 ∨ r = 4#5 ∨ 10 ≤ r.toNat → th.rd r = ⟨0#64, 255#8⟩) ∧
    ((s.die d).launches.find? (fun m => m.ring == ring.toNat && m.idx == idx) = some l → l.shareDone = false → l.mine ≠ 0 → l.mine ≤ l.exited →
      Memory.wf s.mem = true →
      let old := (Mem.dw s.mem (l.at_ + 56)).toNat
      ∃ t, exec (.shareEnd d ring idx) s = .next t ∧ bits (Mem.dw t.mem (l.at_ + 56)).toNat 63 56 = (bits old 63 56 + 1) % 256 ∧
        bits (Mem.dw t.mem (l.at_ + 56)).toNat 55 0 = bits old 55 0 ∧ SameMemBut s t (l.at_ + 56) 8 ∧
        (l.at_ + 64 ≤ cbAddr s ring.toNat ∨ cbAddr s ring.toNat + 128 ≤ l.at_ → (t.die d).compls = (s.die d).compls ++
          (if bits old 63 56 + 1 = (spanDies s ring.toNat).length then
            [{ ring := ring.toNat, idx := idx, ctx := l.ctx, sigs := l.w.getD 4 0#64, inc := l.inc, scope := l.scope, prio := l.prio }] else []))) ∧
    (∀ c rest, (s.die d).compls = c :: rest → c.ring = ring.toNat → c.idx = idx →
      let others := fun l : List Compl => l.filter (fun k => !(k.ring == c.ring && k.idx == c.idx))
      let who := UnitId.pkt d c.ring c.idx
      let retired := fun t : State => Host.Outcome.next ((retireLaunch (dropUnit t who) c.ring c.idx).updDie d (fun t => { t with compls := others t.compls }))
      let queued := (s.die d).hold.length + ((c :: rest).filter (·.held)).length
      ((s.die d).holdOn = true → c.held = false → queued < 256 →
        exec (.completionSignalWrite d ring idx) s = .next (s.updDie d (fun t => { t with compls := others rest, hold := t.hold ++ [c] }))) ∧
      ((s.die d).holdOn = true → c.held = true ∨ 256 ≤ queued → exec (.completionSignalWrite d ring idx) s = .next s) ∧
      (∀ b, (s.die d).holdOn = false → unitDone s who = some b →
        exec (.completionSignalWrite d ring idx) s = retired (if b then s else s.send (.context c.ctx.toNat 1))) ∧
      (∀ v, (s.die d).holdOn = false → unitDone s who = none → unitOut s who = false → slotMoving s c.ctx.toNat c.sigs = false →
        resolveSlot s c.ctx.toNat c.sigs = some v →
        (∀ h, unitAccess s c.ctx.toNat .atomic v 8 = .ok h →
          exec (.completionSignalWrite d ring idx) s = retired (s.setMem (Mem.setLE s.mem h 8 (Mem.getLE s.mem h 8 + c.inc)))) ∧
        (∀ g, unitAccess s c.ctx.toNat .atomic v 8 = .wait g →
          exec (.completionSignalWrite d ring idx) s = .next (postRequest s c.ctx.toNat g c.prio))))

namespace Sys2Proof.Claims

/-- R93: the fields of a region-table entry, from its 256 bits. -/
def EntryFields (b : BitVec 256) (e : Entry) : Prop :=
  let n := b.toNat
  e.base.toNat = bits n 51 0 ∧ stOf (bits n 55 52) = some e.st ∧ e.ecl.toNat = bits n 58 56 ∧ e.pr = n.testBit 59 ∧ e.pw = n.testBit 60 ∧
  e.px = n.testBit 61 ∧ e.kind.toNat = bits n 63 62 ∧ e.size.toNat = bits n 111 64 ∧ e.gen.toNat = bits n 127 112 ∧ e.prev.toNat = bits n 179 128 ∧
  e.req = n.testBit 192

/-- R21, R93, R303, R331, R351, R364: an entry the Puppeteer takes: not of region 255; in multiples of 256 bytes; region 0 readable, writable
data; inside HBM, the peer windows or host memory, clear of the save areas, the journals and the trace buffers, and of what interfaces hold. -/
def Admissible (s : State) (c r : Nat) (e : Entry) : Prop :=
  let a := e.base.toNat
  let n := e.size.toNat
  r ≠ 255 ∧ a % 256 = 0 ∧ n % 256 = 0 ∧ (r = 0 → n = 0 ∨ (e.kind = 0#2 ∧ e.pr = true ∧ e.pw = true)) ∧
  (n ≠ 0 → (a + n ≤ s.caphbm.toNat ∨ (2 ^ 43 ≤ a ∧ a + n ≤ 2 ^ 44) ∨ (2 ^ 44 ≤ a ∧ a + n ≤ 2 ^ 47)) ∧
    meetsPool s a n = false ∧ meetsJournal s a n = false ∧ meetsTrace s a n = false ∧ vfRangeOk s c a n = true)

/-- The base an earlier move recorded for the return of a region (R311). -/
def recorded (s : State) (c r : Nat) : Option Nat := ((s.ctx c).nextBase.find? (fun e => e.1 == r)).map (·.2)

/-- R309: a register that names region r after a move of it by `d`. -/
def Moved (r : Nat) (d : Word) (v : Val) : Val := if v.t.toNat = r ∧ r ≠ 255 then { v with v := v.v + d } else v

end Sys2Proof.Claims

/-- R24, R93, R97, R280, R281, R301: an update of a region's entry takes what the entry's bits say, so that the region then has that entry and every other its own, after a purge when a RESIDENT region
leaves its place, or is refused with nothing changed; the request of highest priority, the first of those, is served: the region arrives at
the base recorded or chosen, after steps 1 to 3 of a move where that base is new (R308); while that base fails it waits for one that serves, or for
room that regions of a lower class still take, and a base that a move had recorded gives way with the move's status (log 104); where none serves it
stays ABSENT and the host hears of it. An arrival brings the bytes back; an eviction purges, waits
for work in flight, keeps the bytes and makes the region ABSENT; only a region of a lower class than the one asked for next is evicted, of
the lowest such class, and the least recently accessed of it (what counts as an access is the model's, log 39). What is said of bytes that
move is said of places outside the peer windows. Each change of an entry has its record (R354). Pairs parked for the region's swap fault go on, and moves that
were kept while it was on its way are asked for (R311).
Which die records, that an eviction takes two events and how moves are kept are the model's (logs 78, 39 and 35). -/
def Obligations.RegionTableAndResidencyEvents : Prop :=
  ∀ (s : State) (c : BitVec 10) (rg : BitVec 8) (bits256 : BitVec 256) (base : BitVec 52),
    let cn := c.toNat
    let r := rg.toNat
    let e := s.region cn r
    let on := anyPuppeteer s = true
    (∀ e', on → EntryFields bits256 e' → Admissible s cn r e' →
      let leaves := e.st = .resident ∧ ¬ (e'.st = .resident ∧ e'.base = e.base ∧ e'.size = e.size)
      let s1 := if leaves then purgeAll s e.base.toNat e.size.toNat else s
      let s2 := dropCopy (if e'.size = 0#48 then dropSites s1 cn r else s1) cn r
      exec (.regionTableUpdate c rg bits256) s = .next (takeKept (resumeReady ((writeEntry s2 cn r e').send (.update cn r true)))) ∧ s2.mem = s1.mem ∧
        (writeEntry s2 cn r e').region cn r = e' ∧ ∀ c' r', c' ≠ cn ∨ r' ≠ r → (writeEntry s2 cn r e').region c' r' = s.region c' r') ∧
    (on → (∀ e', EntryFields bits256 e' → ¬ Admissible s cn r e') →
      exec (.regionTableUpdate c rg bits256) s = .next (takeKept (resumeReady (s.send (.update cn r false))))) ∧
    (¬ on → exec (.regionTableUpdate c rg bits256) s = .next s ∧ exec (.regionEvict c rg) s = .next s ∧ exec (.regionArrival c rg) s = .next s) ∧
    (s.kept = [] → takeKept s = s) ∧
    (evictChoice s cn r = true ↔ e.st = .resident ∧ e.size ≠ 0#48 ∧ ¬ (r = 0 ∧ admitted s cn = true) ∧ engineOn s cn r = false ∧
      (∃ q, nextRequest s = some q ∧ e.ecl.toNat < (s.region q.1 q.2.1).ecl.toNat) ∧
      ∀ x ∈ s.ctxs, ∀ y ∈ x.2.regions, evictable s x.1 y.1 = true →
        e.ecl.toNat < y.2.ecl.toNat ∨ (e.ecl.toNat = y.2.ecl.toNat ∧ s.touchedAt cn r ≤ s.touchedAt x.1 y.1)) ∧
    (e.st ≠ .resident → e.st ≠ .evicting → exec (.regionEvict c rg) s = .next (takeKept s)) ∧
    (e.st = .resident → evictChoice s cn r = false → exec (.regionEvict c rg) s = .next (takeKept s)) ∧
    (e.st = .resident → on → evictChoice s cn r = true → exec (.regionEvict c rg) s =
      .next (takeKept (writeEntry (purgeAll (settleAll s cn) e.base.toNat e.size.toNat) cn r { e with st := .evicting }))) ∧
    (e.st = .evicting → engineOn s cn r = true ∨ askedIn s cn r = true → exec (.regionEvict c rg) s = .next (takeKept s)) ∧
    (e.st = .evicting → on → engineOn s cn r = false → askedIn s cn r = false → farRange e.base.toNat e.size.toNat = false →
      ∃ t, exec (.regionEvict c rg) s = .next (takeKept t) ∧ t.region cn r = { e with st := .absent } ∧ OnlyJournal (settleAll s cn) t (workDie s) ∧
      (e.kind = 0#2 ∨ e.kind = 3#2 → Tab.get [] (t.ctx cn).back r = Mem.slice (settleAll s cn).mem e.base.toNat e.size.toNat)) ∧
    (∀ before after pr, s.posted = before ++ (cn, r, pr) :: after → e.st = .absent → on →
      (∀ q ∈ before, (s.region q.1 q.2.1).st = .absent → q.2.2 < pr) → (∀ q ∈ after, (s.region q.1 q.2.1).st = .absent → q.2.2 ≤ pr) →
      let b := (recorded s cn r).getD base.toNat
      let bad := baseRefused s cn r b = true ∨ (b ≠ e.base.toNat ∧ relocsOk s cn r b = false)
      let open_ := (b ≠ e.base.toNat ∨ bad) ∧ sitesOpen s cn r ≠ []
      let others := s.posted.filter (fun q => !(q.1 == cn && q.2.1 == r))
      let kept := baseFits s cn r b = true ∧ roomLeft s e.ecl = true
      (open_ → exec (.residencyRequestService c rg base) s = .next (askSites s cn r)) ∧
      (¬ open_ → bad → recorded s cn r = none → servable s cn r = true → exec (.residencyRequestService c rg base) s = .next s) ∧
      (¬ open_ → bad → recorded s cn r = none → servable s cn r = false →
        ∃ t, exec (.residencyRequestService c rg base) s = .next t ∧ t.posted = others ∧ OnlyJournal s t (workDie s) ∧ t.pairs = s.pairs ∧
          t.region cn r = { e with req := false } ∧ t.outbox = .region cn r :: s.outbox) ∧
      (¬ open_ → bad → recorded s cn r = some b → kept → exec (.residencyRequestService c rg base) s = .next s) ∧
      (¬ open_ → bad → recorded s cn r = some b → ¬ kept →
        ∃ t, exec (.residencyRequestService c rg base) s = .next t ∧ t.posted = s.posted ∧ SameMem s t ∧ t.pairs = s.pairs ∧ t.region cn r = e ∧
          (Tab.risingFrom 0 (s.ctx cn).nextBase = true → recorded t cn r = none) ∧
          t.outbox = .move cn r (if baseRefused s cn r b = true then 2 else 1) :: s.outbox) ∧
      (¬ open_ → ¬ bad →
        ∃ t, exec (.residencyRequestService c rg base) s = .next t ∧ t.posted = others ∧ OnlyJournal s t (workDie s) ∧
          t.pairs = (if b = e.base.toNat then s.pairs else (markHolders s cn r).pairs) ∧
          t.region cn r = { e with req := false, st := .arriving } ∧ Tab.get 0 (t.ctx cn).nextBase r = b)) ∧
    (roomLeft s e.ecl = true ↔ ∃ x ∈ s.ctxs, ∃ y ∈ x.2.regions, y.2.st ∈ [RSt.resident, .evicting, .moving, .arriving] ∧ y.2.size ≠ 0#48 ∧
      ¬ (y.1 = 0 ∧ admitted s x.1 = true) ∧ y.2.ecl < e.ecl) ∧
    (servable s cn r = true → ∃ b, baseFits s cn r b = true ∧ (baseRefused s cn r b = false ∨ roomLeft s e.ecl = true)) ∧
    (¬ on ∨ (∀ q ∈ s.posted, q.1 = cn → q.2.1 = r → e.st ≠ .absent) → exec (.residencyRequestService c rg base) s = .next s) ∧
    (e.st ≠ .arriving → exec (.regionArrival c rg) s = .next (takeKept (resumeReady s))) ∧
    (on → e.st = .arriving → (recorded s cn r).getD e.base.toNat = e.base.toNat → farRange e.base.toNat e.size.toNat = false →
      ∃ u, exec (.regionArrival c rg) s = .next (takeKept (resumeReady (resumeFaulted u cn r))) ∧ u.pairs = s.pairs ∧
        u.region cn r = { e with st := .resident } ∧ (∀ m ∈ u.moves, ¬ (m.ctx = cn ∧ m.rgn = r)) ∧
        u.outbox = (if s.moves.any (fun m => m.ctx == cn && m.rgn == r) then .move cn r 0 :: s.outbox else s.outbox) ∧
        OnlyJournal (s.setMem (Mem.paste s.mem e.base.toNat e.size.toNat (Tab.get [] (s.ctx cn).back r))) u (workDie s)) ∧
    (∀ b, on → e.st = .arriving → recorded s cn r = some b → b ≠ e.base.toNat → holdersParked s cn r = false ∨ canSaveForMove s cn r = false →
      exec (.regionArrival c rg) s = .next (takeKept (resumeReady s))) ∧
    (∀ b, on → e.st = .arriving → recorded s cn r = some b → b ≠ e.base.toNat → holdersParked s cn r = true → canSaveForMove s cn r = true → farRange b e.size.toNat = false →
      ∃ u, exec (.regionArrival c rg) s = .next (takeKept (resumeReady (resumeFaulted u cn r))) ∧
        u.region cn r = { e with prev := e.base, base := BitVec.ofNat 52 b, gen := e.gen + 1#16, st := .resident }) ∧
    (∀ p, Tab.risingFrom 0 s.pairs = true → (s.pair p).ctx.toNat = cn → (s.pair p).st = .parked → p < 1280 → puppeteerOn s (dieOf p) = true → (s.pair p).lent = [] →
      ((s.pair p).thr (s.pair p).trapK).tcause.toNat % 256 = 7 → ((s.pair p).thr (s.pair p).trapK).tval.toNat = r →
      (s.pair p).trapBlk = false ∨ (s.pair p).under = none → ((resumeFaulted s cn r).pair p).st = .running)

/-- R308, R309, R311, R315, R316, R317, R353: a request to move a region is kept while the region arrives or is evicted, and until
the peers in which its sites lie have answered; else it is
checked and refused with its status, or recorded, or starts: purge, MOVING, every holder marked, a record before each step. A commit moves the bytes (outside the peer windows), writes the entry and rebases the registers that name the region; it waits until the pairs that
an earlier move of the region left parked can be saved, and saves them first (R310). Code that
a pair holds is not unloaded; a forced retire waits for nobody, and those who waited for a move of the region go on.
That the latest kept request of a region stands alone, that its retirement reports REFUSED, and which die records are the model's
(logs 35 and 78). -/
def Obligations.MoveAndRetireEvents : Prop :=
  ∀ (s : State) (c : BitVec 10) (rg : BitVec 8) (base : BitVec 52),
    let cn := c.toNat
    let r := rg.toNat
    let e := s.region cn r
    let on := anyPuppeteer s = true
    let b := base.toNat
    let gen := e.gen + 1#16
    let s0 := moveStep 1 cn r b e.base.toNat gen id s
    let s1 := { s0 with moves := s.moves.filter (fun (m : Move) => !(m.ctx == cn && m.rgn == r)) ++
      [({ ctx := cn, rgn := r, old := e.base.toNat, new_ := b, step := 3, isReturn := e.st == RSt.absent } : Move)] }
    let s2 := s1.setCtx cn { s0.ctx cn with nextBase := Tab.set (s.ctx cn).nextBase r b }
    let refused := r = 255 ∨ e.size = 0#48 ∨ e.st = .retired ∨ e.st = .moving ∨ baseRefused s cn r b = true
    let open_ := sitesOpen s cn r ≠ []
    let known := e.st = .resident ∨ e.st = .absent
    let onWay := r ≠ 255 ∧ e.size ≠ 0#48 ∧ (e.st = .arriving ∨ e.st = .evicting)
    (¬ on → exec (.moveRequest c rg base) s = .next s) ∧
    (on → onWay → exec (.moveRequest c rg base) s =
      .next { s with kept := s.kept.filter (fun k => !(k.1 == cn && k.2.1 == r)) ++ [(cn, r, b)] }) ∧
    (on → ¬ onWay → open_ → exec (.moveRequest c rg base) s =
      .next (askSites { s with kept := s.kept.filter (fun k => !(k.1 == cn && k.2.1 == r)) ++ [(cn, r, b)] } cn r)) ∧
    (on → ¬ onWay → ¬ open_ → refused → exec (.moveRequest c rg base) s = .next ((dropUnit s0 (.sites cn r)).send (.move cn r 2))) ∧
    (on → known → ¬ open_ → ¬ refused → relocsOk s0 cn r b = false → exec (.moveRequest c rg base) s =
      .next ((dropUnit s0 (.sites cn r)).send (.move cn r 1))) ∧
    (on → e.st = .absent → ¬ open_ → ¬ refused → relocsOk s0 cn r b = true → exec (.moveRequest c rg base) s = .next (dropUnit s2 (.sites cn r))) ∧
    (on → e.st = .resident → ¬ open_ → ¬ refused → relocsOk s0 cn r b = true → exec (.moveRequest c rg base) s =
      .next (moveStep 3 cn r b e.base.toNat gen (fun s => markHolders s cn r) (moveStep 2 cn r b e.base.toNat gen
        (fun s => (purgeAll (settleAll s cn) e.base.toNat e.size.toNat).setRegion cn r { e with st := .moving }) s2))) ∧
    (∀ p, p ∈ holders s cn r → Tab.risingFrom 0 s.pairs = true → (cn, r) ∈ ((markHolders s cn r).pair p).movePend) ∧
    (¬ on ∨ (∀ p ∈ marked s cn r, (s.pair p).parkedFor r = true ∨ puppeteerOn s (dieOf p) = false) → exec (.moveHolderTimeout c rg) s = .next s) ∧
    (∀ p g, on → puppeteerOn s (dieOf p) = true → marked s cn r = [p] → (s.pair p).parkedFor r = false → groupOf s p = some g →
      exec (.moveHolderTimeout c rg) s = .next (postHard s (dieOf p) g 1)) ∧
    (¬ on ∨ (∀ m ∈ s.moves, ¬ (m.ctx = cn ∧ m.rgn = r ∧ m.isReturn = false)) ∨ e.st ≠ .moving ∨ engineOn s cn r = true ∨ askedIn s cn r = true ∨ holdersParked s cn r = false ∨ canSaveForMove s cn r = false →
      exec (.moveCommit c rg) s = .next s) ∧
    (∀ m, on → s.moves.find? (fun m => m.ctx == cn && m.rgn == r && !m.isReturn) = some m → e.st = .moving → engineOn s cn r = false → askedIn s cn r = false →
      holdersParked s cn r = true → canSaveForMove s cn r = true → Tab.risingFrom 0 s.pairs = true → farRange m.old e.size.toNat = false → farRange m.new_ e.size.toNat = false →
      let d : Word := BitVec.ofNat 64 m.new_ - e.base.zeroExtend 64
      m.new_ < 2 ^ 52 → ∃ t, exec (.moveCommit c rg) s = .next t ∧
        t.region cn r = { e with prev := e.base, base := BitVec.ofNat 52 m.new_, gen := e.gen + 1#16, st := .resident } ∧
        t.outbox = .move cn r 0 :: s.outbox ∧ (∀ x ∈ t.moves, ¬ (x.ctx = cn ∧ x.rgn = r)) ∧
        (∀ p, secondMove s cn r = [p] → (s.pair p).st = .parked → (s.pair p).area = none → ∃ i, freeArea s = some i ∧ (t.pair p).area = some i ∧ i ∈ t.areas) ∧
        (sitesOf s cn r = [] → secondMove s cn r = [] → (∀ x ∈ s.pairs, x.2.ctx.toNat = cn → x.2.area = none) → Memory.wf s.mem = true →
          let w := s.die (workDie s)
          let j := bits w.jrnl.toNat 51 12 * 4096
          meets m.old e.size.toNat j (64 * w.jCap) = false → ∀ x, x < j ∨ j + 64 * w.jCap ≤ x → Mem.get t.mem x =
            Mem.get (settleAll s cn).mem (if m.new_ ≤ x ∧ x < m.new_ + e.size.toNat then m.old + (x - m.new_) else x)) ∧
        (∀ p k, k ≠ .F → (s.pair p).ctx.toNat = cn → (s.pair p).st = .running → (s.pair p).movePend = [(cn, r)] →
          ((s.pair p).thr k).gens = [] → ((s.pair p).thr k).halt = .move →
          ((t.pair p).thr k).halt = .none ∧ (t.pair p).movePend = [] ∧ ((t.pair p).thr k).pc = Moved r d ((s.pair p).thr k).pc ∧
          ∀ n < 32, ((t.pair p).thr k).x.getD n {} = Moved r d (((s.pair p).thr k).x.getD n {}))) ∧
    (canSaveForMove s cn r = true ↔ (∀ p ∈ secondMove s cn r, fillsDone s p = true) ∧
      (secondMove s cn r).countP (fun p => (s.pair p).area.isNone) ≤ (List.range (16 * bits s.savepool.toNat 63 52)).countP (fun i => !s.areas.contains i)) ∧
    (¬ on ∨ e.kind ≠ 1#2 → exec (.unloadCode c rg) s = .next s) ∧
    (on → e.kind = 1#2 → codeHeld s cn r = true → exec (.unloadCode c rg) s = .next (s.send (.unload cn r true))) ∧
    (on → e.kind = 1#2 → codeHeld s cn r = false → exec (.unloadCode c rg) s =
      .next ((writeEntry (dropSites (purgeAll s e.base.toNat e.size.toNat) cn r) cn r { e with size := 0#48 }).send (.unload cn r false))) ∧
    (¬ on ∨ e.size = 0#48 → exec (.forcedRetire c rg) s = .next s) ∧
    (on → e.size ≠ 0#48 → ∃ u, exec (.forcedRetire c rg) s = .next (resumeFaulted u cn r) ∧ u.region cn r = { e with st := .retired, req := false } ∧
      OnlyJournal (purgeAll s e.base.toNat e.size.toNat) u (workDie s) ∧ (∀ q ∈ u.posted, ¬ (q.1 = cn ∧ q.2.1 = r)) ∧
      (∀ m ∈ u.moves, ¬ (m.ctx = cn ∧ m.rgn = r)) ∧ (∀ k ∈ u.kept, ¬ (k.1 = cn ∧ k.2.1 = r)) ∧
      (∀ p k, k ≠ .F → Tab.risingFrom 0 s.pairs = true → (s.pair p).ctx.toNat = cn → (s.pair p).st = .running → (s.pair p).movePend = [(cn, r)] →
        ((s.pair p).thr k).halt = .move → ((u.pair p).thr k).halt = .none ∧ (u.pair p).movePend = []) ∧
      u.outbox = (if codeHeld s cn r then [Msg.context cn 3] else []) ++
        (if s.moves.any (fun m => m.ctx == cn && m.rgn == r) || s.kept.any (fun k => k.1 == cn && k.2.1 == r) then [Msg.move cn r 2] else []) ++ s.outbox)

/-- R25, R167, R168: a partition change is posted with the ordinal after the greater of both threads' strips, or waits for the pending
one; a swap-faulted pair's vector state is saved and its groups that work, marked 6, are posted to the borrower; lent groups that the borrower has
let go return to their owner, which goes on, but for those that have failed meanwhile (R166), and a borrower that holds them too long is
hard pre-empted. A change that would take an interface past its limits is not posted (R364). -/
def Obligations.LaneGroupEvents : Prop :=
  ∀ (s : State) (p b : Nat) (groups : BitVec 8),
    let q := s.pair p
    let cl := clusterOf p
    let set := (List.range 8).filter (fun g => groups.getLsbD g)
    let takes := puppeteerOn s (dieOf p) = true ∧ p < 1280 ∧ (q.st = .running ∨ q.st = .parked ∨ q.st = .dbg) ∧
      (∀ g ∈ set, (s.cluster cl).mask.getLsbD g = true) ∧ q.lastSet ≠ set
    let lends := puppeteerOn s (dieOf p) = true ∧ q.st = .parked ∧ (q.thr q.trapK).tcause.toNat % 256 = 7 ∧ q.owned ≠ [] ∧ q.lent = [] ∧
      p < 1280 ∧ b < 1280 ∧ clusterOf b = cl ∧ b ≠ p ∧ (s.pair b).st = .running ∧ (s.pair b).lender = none ∧ fillsDone s p = true ∧ q.area = none
    let t := postChange s p set
    (takes → exec (.partitionChangePost p groups) s = .next (if vfWithin t (dieOf p) q.ctx.toNat = true then t else s)) ∧
    (q.pend = false → q.later = [] → OnlyJournal s t (dieOf p) ∧ t.pairs = Tab.set s.pairs p { q with parts := (max q.a.strip.toNat q.x.strip.toNat + 1, set) :: q.parts, pend := true }) ∧
    (q.pend = true ∨ q.later ≠ [] → t = s.setPair p { q with later := q.later ++ [set] }) ∧
    (¬ takes → exec (.partitionChangePost p groups) s = .next s) ∧
    (¬ lends ∨ freeArea s = none → exec (.laneLend p b) s = .next s) ∧
    (∀ i, lends → freeArea s = some i → vfOf s (s.pair b).ctx.toNat = none → ∃ t, exec (.laneLend p b) s = .next t ∧ (t.pair p).lent = q.owned ∧ (t.pair p).owned = [] ∧
      (t.pair p).area = some i ∧ i ∈ t.areas ∧ (t.pair b).lender = some p ∧ (∀ g ∈ q.owned, g < 8 → (t.cluster cl).lpr.getD g 7#3 = if (s.cluster cl).mask.getLsbD g then 6#3 else 7#3) ∧
      ((s.pair b).pend = false → (s.pair b).later = [] → ∃ n, (t.pair b).parts.head? =
        some (n, (List.range 8).filter (fun g => (s.pair b).lastSet.contains g || (q.owned.contains g && (s.cluster cl).mask.getLsbD g))))) ∧
    (puppeteerOn s (dieOf p) = false ∨ q.resume = none ∨ q.lent = [] → exec (.lendReturnTimeout p) s = .next s) ∧
    (∀ k, puppeteerOn s (dieOf p) = true → q.resume.isSome = true → q.lent ≠ [] → (List.range 4).find? (fun k => (s.pair (p / 4 * 4 + k)).lender == some p) = some k →
      exec (.lendReturnTimeout p) s = .next (match groupOf s (p / 4 * 4 + k) with
        | some g => postHard s (dieOf p) g 1
        | none => s)) ∧
    (∀ skip, puppeteerOn s (dieOf p) = true → q.resume = some skip → q.lent ≠ [] → p < 1280 → (∀ k < 4, (s.pair (p / 4 * 4 + k)).lender ≠ some p) →
      (∀ k < 4, ∀ g ∈ q.lent, g ∉ (s.pair (p / 4 * 4 + k)).owned) → Tab.risingFrom 0 s.pairs = true → (∀ g ∈ q.lent, g < 8) → q.trapBlk = false ∨ q.under = none →
      ∃ t, exec (.lendReturnTimeout p) s = .next t ∧ (t.pair p).owned = q.lent ∧ (t.pair p).lent = [] ∧ (t.pair p).st = .running ∧
        ∀ g ∈ q.lent, ((t.cluster cl).lpr.getD g 7#3).toNat = if (s.cluster cl).mask.getLsbD g then p % 4 else 7)

namespace Sys2Proof.Claims

/-- R143: two footprints overlap: same kind, same region in memory, and bytes in common. -/
def Meet (a b : Foot) : Prop :=
  a.k = b.k ∧ a.k ≠ 3 ∧ (a.k = 0 → a.rgn = b.rgn) ∧ ∃ x, a.off ≤ x ∧ x < a.off + a.len ∧ b.off ≤ x ∧ x < b.off + b.len

/-- R142, R143, R144: nothing queued earlier keeps stream t from starting. -/
def MayStart (q : Pair) (t : Stream) : Prop :=
  ∀ u ∈ q.streams.toList, (u.st = .queued ∨ u.st = .running ∨ u.st = .faulted) → u.order < t.order →
    (u.port = t.port → u.rel = true) ∧ ¬ (t.chu = true ∧ u.chu = true ∧ u.chan = t.chan) ∧ (Meet u.wf t.rf → u.vis = true) ∧
    (Meet u.rf t.wf → u.rel = true) ∧ (Meet u.wf t.wf → u.vis = true) ∧
    ∀ b ∈ q.sbars, b.1 ≤ t.order → u.order < b.1 → (b.2.1 = 0 → u.rel = true) ∧ (b.2.1 ≠ 0 → u.vis = true)

/-- R145: a footprint of pair p passes the check at the start. -/
def FootStarts (s : State) (p : Nat) (f : Foot) (write : Bool) : Prop :=
  let e := s.region (s.pair p).ctx.toNat f.rgn
  (f.k = 0 → f.off + f.len ≤ e.size.toNat ∧ (write = false → e.pr = true) ∧ (write = true → e.pw = true ∧ e.kind ≠ 1#2)) ∧
  (f.k = 2 → ∃ cl, f.off / 2 ^ 32 < 8 ∧ f.off / 2 ^ 24 % 256 < 40 ∧ cl = f.off / 2 ^ 32 * 40 + f.off / 2 ^ 24 % 256 ∧
    f.off % 2 ^ 24 + f.len ≤ 2 ^ 22 ∧ launchOn s p cl = true)

/-- R96, R152: region r is away, and no move will bring it back. -/
def Gone (s : State) (c r : Nat) : Prop := (s.region c r).st ≠ .resident ∧ (s.region c r).st ≠ .moving

/-- R146: the row of a stream's next element is reserved in the queue of its V port. -/
def HasRow (q : Pair) (st : Stream) : Prop := ∃ id, st.row = some id ∧ ∃ r ∈ q.q.getD (st.port.toNat - 8) [], r.id = id

/-- The first region that a stream names and that is gone. -/
def FirstGone (s : State) (c : Nat) (rs : List Nat) (r : Nat) : Prop := ∃ a b, rs = a ++ r :: b ∧ (∀ x ∈ a, ¬ Gone s c x) ∧ Gone s c r

end Sys2Proof.Claims

/-- R142, R145-R147, R149, R151, R152: a queued stream starts when nothing earlier holds it back and its regions are RESIDENT, after
its start checks; it transfers its elements in ascending order, each checked, to memory or into a row of its port's queue; RELEASED and
VISIBLE follow the last element; a failed check or a data error faults it at its element, with nothing of that element done but the place its row keeps (R151); what a row holds below an element that a stream resumes at is free (log 60); the
regions that are away are asked for whatever else holds the stream back, and one kept waiting for them alone for STALLMAX is a swap fault
of the A thread. Elements pushed after
the X thread's exit are discarded (R119), and the engines of a pair that is saved or stopped by a debugger do not run (R152, R339). -/
def Obligations.StreamStepEvents : Prop :=
  ∀ (s : State) (p : Nat) (sm : BitVec 4) (err : Bool),
    let q := s.pair p
    let m := sm.toNat
    let st := q.str m
    let c := q.ctx.toNat
    let src := wordBase s c st.srck (st.dw 4)
    let dst := wordBase s c st.dstk (st.dw 5)
    let st1 := { st with st := SSt.running, srcAt := src, dstAt := dst, stalls := 0 }
    let s1 := if st.chu then updChan (s.setStr p m st1) p st.chan (fun _ => ⟨BitVec.ofNat 52 (st1.dstElem st.first), BitVec.ofNat 32 st.first, some m⟩)
      else s.setStr p m st1
    let live := q.st = .running ∨ q.st = .parked
    let queued := st.st = .queued ∧ live
    let waits := queued ∧ MayStart q st
    let moves := st.st = .running ∧ live
    let go := moves ∧ st.first < st.count
    let ha := locate s (clusterOf p) (st.srcElem st.first)
    let hb := locate s (clusterOf p) (st.dstElem st.first)
    let rows := q.q.getD (st.port.toNat - 8) []
    let vls := max 1 st.vls
    let n := min vls (st.count - st.first / vls * vls)
    let slot := st.first % vls
    let ents := rowEnts n (8 * st.esz) q.rowGroups
    let needs := st.dstk = 3 ∧ q.x.halt ≠ .exited ∧ ¬ HasRow q st
    (¬ waits → exec (.streamSwapFault p sm) s = .next s) ∧
    (¬ queued ∨ (¬ waits ∧ ∀ r ∈ st.regions, (s.region c r).st = .resident) → exec (.streamStart p sm) s = .next s) ∧
    (queued → (∃ r ∈ st.regions, (s.region c r).st ≠ .resident) →
      let asked := st.regions.foldl (fun s r => postRequest s c r q.pl.prio) s
      (waits → (∃ r ∈ st.regions, Gone s c r) → exec (.streamStart p sm) s = .next (asked.setStr p m { st with stalls := st.stalls + 1 })) ∧
      (¬ waits ∨ (∀ r ∈ st.regions, ¬ Gone s c r) → exec (.streamStart p sm) s = .next (asked.setStr p m st))) ∧
    (¬ (waits ∧ q.st = .running ∧ q.a.stallmax.toNat ≤ st.stalls ∧ ∃ r ∈ st.regions, Gone s c r) → exec (.streamSwapFault p sm) s = .next s) ∧
    (∀ r, waits → q.st = .running → q.a.stallmax.toNat ≤ st.stalls → FirstGone s c st.regions r →
      ∃ t, exec (.streamSwapFault p sm) s = .next t ∧ (t.pair p).st = .parked ∧
        (t.pair p).a.tcause = 7#10 ∧ (t.pair p).a.tval = BitVec.ofNat 64 r ∧ (t.pair p).a.telem = BitVec.ofNat 32 st.first ∧
        (t.pair p).str m = { st with stalls := 0 }) ∧
    (waits → (∀ r ∈ st.regions, (s.region c r).st = .resident) →
      (¬ FootStarts s p st.rf false → exec (.streamStart p sm) s = .next (faultStream s1 p m st.first 0x0E (BitVec.ofNat 64 (st1.srcElem st.first)))) ∧
      (FootStarts s p st.rf false → ¬ FootStarts s p st.wf true →
        exec (.streamStart p sm) s = .next (faultStream s1 p m st.first 0x0E (BitVec.ofNat 64 (st1.dstElem st.first)))) ∧
      (FootStarts s p st.rf false → FootStarts s p st.wf true → exec (.streamStart p sm) s = .next s1)) ∧
    (SameMem s s1 ∧ (s1.pair p).str m = st1 ∧
      (st.chu = true → (s1.pair p).chans.getD st.chan.toNat {} = ⟨BitVec.ofNat 52 (st1.dstElem st.first), BitVec.ofNat 32 st.first, some m⟩)) ∧
    (¬ go → exec (.streamTransfer p sm) s = .next s ∧ exec (.streamFault p sm err) s = .next s) ∧
    (∀ u a, (go ∧ ¬ needs ∧ u = s) ∨ (go ∧ needs ∧ openRow s p m = some u) → badSide s p st = some a →
      exec (.streamTransfer p sm) s = .next (faultStream u p m st.first 0x0E (BitVec.ofNat 64 a)) ∧
      exec (.streamFault p sm err) s = .next (faultStream u p m st.first 0x0E (BitVec.ofNat 64 a))) ∧
    (∀ u, (go ∧ ¬ needs ∧ u = s) ∨ (go ∧ needs ∧ openRow s p m = some u) → badSide s p st = none → exec (.streamFault p sm err) s =
      .next (if err then faultStream u p m st.first 0x0A (BitVec.ofNat 64 (st.srcElem st.first)) else s)) ∧
    (go → needs → 8 < entsOf rows + ents → openRow s p m = none ∧ exec (.streamTransfer p sm) s = .next s ∧ exec (.streamFault p sm err) s = .next s) ∧
    (go → needs → 8 ≤ st.port.toNat → st.port.toNat < 12 → entsOf rows + ents ≤ 8 → ∃ u row, openRow s p m = some u ∧ SameMem s u ∧
      (u.pair p).q.getD (st.port.toNat - 8) [] = rows ++ [row] ∧ row.vl = n ∧ row.ents = ents ∧ row.ready = false ∧ (u.pair p).str m = { st with row := some row.id }) ∧
    (∀ k cause v, let t := faultStream s p m k cause v
      SameMem s t ∧ ((t.pair p).str m).st = .faulted ∧ ((t.pair p).str m).first = k ∧ ((t.pair p).str m).fault = some (cause, v, k) ∧
      ((t.pair p).str m).told = false ∧ ((t.pair p).str m).row = st.row ∧
      (st.chu = true → ((t.pair p).chans.getD st.chan.toNat {}).start = BitVec.ofNat 32 k)) ∧
    (∀ x y, go → badSide s p st = none → st.dstk ≠ 3 → (∀ f, ha ≠ .peer f) → (∀ f, hb ≠ .peer f) → ha.home = some x → hb.home = some y →
      ∃ t, exec (.streamTransfer p sm) s = .next t ∧ t.mem = Mem.setLE s.mem y st.esz (Mem.getLE s.mem x st.esz) ∧
        (t.pair p).str m = { st with first := st.first + 1, asked := false, got := none, ack := false } ∧
        (st.chu = true → let ch := (t.pair p).chans.getD st.chan.toNat {}
          ch.wm = BitVec.ofNat 52 (st.dstAt + (st.first + 1) * st.esz) ∧ ch.start = BitVec.ofNat 32 (st.first + 1))) ∧
    (∀ x, go → badSide s p st = none → st.dstk = 3 → 8 ≤ st.port.toNat → st.port.toNat < 12 → (∀ f, ha ≠ .peer f) → ha.home = some x → needs → entsOf rows + ents ≤ 8 → (∀ r ∈ rows, r.id ≠ s.fresh) →
      ∃ t row, exec (.streamTransfer p sm) s = .next t ∧ SameMem s t ∧ (t.pair p).q.getD (st.port.toNat - 8) [] = rows ++ [row] ∧
        row.vl = n ∧ row.ents = ents ∧ row.g = q.rowGroups ∧ row.wc = wcOf (8 * st.esz) ∧ row.act = List.replicate n true ∧
        row.els.length = n ∧ row.els.getD slot 0 = Mem.getLE s.mem x st.esz ∧ row.ready = decide (slot + 1 = n) ∧
        ((t.pair p).str m).first = st.first + 1 ∧ ((t.pair p).str m).row = if slot + 1 = n then none else some row.id) ∧
    (∀ x id row, go → badSide s p st = none → st.dstk = 3 → 8 ≤ st.port.toNat → st.port.toNat < 12 → (∀ f, ha ≠ .peer f) → ha.home = some x → q.x.halt ≠ .exited → st.row = some id →
      let last := slot + 1 = n
      row ∈ rows → row.id = id →
      ∃ t, exec (.streamTransfer p sm) s = .next t ∧ SameMem s t ∧ ((t.pair p).str m).first = st.first + 1 ∧
        { row with els := row.els.set slot (Mem.getLE s.mem x st.esz), ready := decide last } ∈ (t.pair p).q.getD (st.port.toNat - 8) []) ∧
    (∀ x, go → badSide s p st = none → st.dstk = 3 → 8 ≤ st.port.toNat → (∀ f, ha ≠ .peer f) → ha.home = some x → q.x.halt = .exited →
      ∃ t, exec (.streamTransfer p sm) s = .next t ∧ SameMem s t ∧ (t.pair p).q = q.q ∧ ((t.pair p).str m).first = st.first + 1 ∧
        ((t.pair p).str m).row = none) ∧
    (moves → st.count ≤ st.first → exec (.streamReleased p sm) s = .next (s.setStr p m { st with rel := true })) ∧
    (¬ (moves ∧ st.count ≤ st.first) → exec (.streamReleased p sm) s = .next s ∧ exec (.streamVisible p sm) s = .next s) ∧
    (st.rel = false → exec (.streamVisible p sm) s = .next s) ∧
    (moves → st.count ≤ st.first → st.rel = true → ∃ t, exec (.streamVisible p sm) s = .next t ∧ SameMem s t ∧
      (t.pair p).str m = { st with vis := true, st := .done } ∧ (st.chu = true → ((t.pair p).chans.getD st.chan.toNat {}).by_ = none))

/-- R231, R232, R234: a fill that waits starts when its bank is no longer FILLING. A fill ends when no watermark holds its reads back and
the pair's vector stores are performed: the bank holds the values, metadata and scales of the scratchpad and is READY, or BAD, with WBERR
saying where, at a scratchpad error or at the lowest metadata nibble whose positions do not rise. -/
def Obligations.WeightFillEvents : Prop :=
  ∀ (s : State) (cl : Nat) (n : BitVec 2) (err : Option (Nat × Nat)),
    let b := n.toNat
    let k := s.bank cl b
    let h := k.h
    (k.next = none ∨ k.st = .filling → exec (.wbFillStart cl n) s = .next s) ∧
    (∀ w, k.next = some w → k.st ≠ .filling → exec (.wbFillStart cl n) s = .next (s.setBank cl b { st := .filling, owner := k.owner, h := w, issued := k.nextIssued })) ∧
    (k.owner = none → exec (.wbFillEnd cl n err) s = .next s) ∧
    (∀ p, k.owner = some p → (∀ g, groupOf s p = some g → g.st ≠ .saving) → (s.pair p).a.halt ≠ .debug → (s.pair p).x.halt ≠ .debug → k.st ≠ .filling ∨
      (∃ r ∈ Hdr.ranges h, (wmBlocks (s.pair p) (Config.localBase + r.1) r.2).isSome = true) → exec (.wbFillEnd cl n err) s = .next s) ∧
    (∀ p, k.owner = some p → (∀ g, groupOf s p = some g → g.st ≠ .saving) → (s.pair p).a.halt ≠ .debug → (s.pair p).x.halt ≠ .debug → k.st = .filling →
      (∀ r ∈ Hdr.ranges h, wmBlocks (s.pair p) (Config.localBase + r.1) r.2 = none) →
      ∃ t im, exec (.wbFillEnd cl n err) s = .next t ∧ t.mem = (settle s p).mem ∧ (t.bank cl b).image = im ∧ (t.bank cl b).owner = some p ∧
        (t.bank cl b).next = k.next ∧ (t.bank cl b).h = h ∧
        (Memory.wf t.mem = true →
          (∀ i < Hdr.valLen h, Mem.get im i = Mem.get t.mem (globalOf cl (Hdr.val h + i))) ∧
          (∀ i < Hdr.metaLen h, Mem.get im (Hdr.valLen h + i) = Mem.get t.mem (globalOf cl (Hdr.meta_ h + i))) ∧
          (∀ i < Hdr.scaleLen h, Mem.get im (Hdr.valLen h + Hdr.metaLen h + i) = Mem.get t.mem (globalOf cl (Hdr.sc h + i)))) ∧
        (let nib : Nat → Nat := fun i => (Mem.get im (Hdr.valLen h + i / 2)).toNat / 16 ^ (i % 2) % 16
         let bad : Nat → Prop := fun i => Hdr.sparse h = true ∧ i < Hdr.k h / 4 * Hdr.n h ∧ nib i / 4 ≤ nib i % 4
         (∀ v w, err = some (v, w) → (t.bank cl b).st = .bad ∧ (t.bank cl b).badWhy = 2 ∧ (t.pair p).a.wberr = wberrOf w 2 b v) ∧
         (∀ i, err = none → bad i → (∀ j < i, ¬ bad j) → (t.bank cl b).st = .bad ∧ (t.bank cl b).badWhy = 1 ∧
           (t.pair p).a.wberr = wberrOf (i % Hdr.n h) 1 b (i / Hdr.n h)) ∧
         (err = none → (∀ i, ¬ bad i) → (t.bank cl b).st = .ready ∧ (t.pair p).a.wberr = (s.pair p).a.wberr)))

/-- R145, R153, R155: a card starts when no earlier card of its context meets it and its regions are RESIDENT, which are asked for
meanwhile (R142); it performs its bytes, those within one peer window at a time, then J11 says DONE, and then its signal is added to,
through the checks of `sigadd`. The signal waits for its region; one that fails a check is dropped and the context reported, which is
the model's choice (log 94). A failed check or a data error ends it at a byte (of a data error which byte is free, log 94), with J11 saying
where, and its submitter, or the host when that thread has ended, is told. A card that has faulted stays in its place, and cards that meet
it wait (R143, log 91) until it is submitted again. -/
def Obligations.JobCardEvents : Prop :=
  ∀ (s : State) (d i : Nat) (err : Bool),
    let gone : State → Prop := fun t => (t.die d).cards = (s.die d).cards.eraseIdx i
    ((s.die d).card i = none → exec (.jobCardStart d i) s = .next s ∧ exec (.jobCardComplete d i) s = .next s ∧ exec (.jobCardFault d i err) s = .next s) ∧
    (∀ c, (s.die d).card i = some c →
      let cn := c.ctx.toNat
      let clear := ∀ u ∈ (s.die d).cards.take i, u.ctx = c.ctx → u.signing = false → ¬ Meet u.wf c.rf ∧ ¬ Meet u.rf c.wf ∧ ¬ Meet u.wf c.wf
      let src := wordBase s cn c.rf.k (c.dw 2)
      let dst := wordBase s cn c.wf.k (c.dw 3)
      let lim := cardLimit s d c
      let ha := locate s (clusterOf (c.owner d)) (c.srcAt + c.first)
      let hb := locate s (clusterOf (c.owner d)) (c.dstAt + c.first)
      let sig := (c.dw 0).getLsbD 12
      let waits := c.running = false ∧ c.faulted = false ∧ c.signing = false
      let j11 := (locate s (40 * d) (c.addr s + 88)).home
      (¬ waits → exec (.jobCardStart d i) s = .next s) ∧
      (waits → (∃ r ∈ c.regions, (s.region cn r).st ≠ .resident) →
        exec (.jobCardStart d i) s = .next (c.regions.foldl (fun s r => postRequest s cn r c.prio) s)) ∧
      (waits → (∀ r ∈ c.regions, (s.region cn r).st = .resident) → ¬ clear → exec (.jobCardStart d i) s = .next s) ∧
      (waits → (∀ r ∈ c.regions, (s.region cn r).st = .resident) → clear →
        (cardFootOk s d c c.rf false = false → exec (.jobCardStart d i) s = .next (faultCard s d i c.first 0x0E (BitVec.ofNat 64 (src + c.first)))) ∧
        (cardFootOk s d c c.rf false = true → cardFootOk s d c c.wf true = false →
          exec (.jobCardStart d i) s = .next (faultCard s d i c.first 0x0E (BitVec.ofNat 64 (dst + c.first)))) ∧
        (cardFootOk s d c c.rf false = true → cardFootOk s d c c.wf true = true →
          exec (.jobCardStart d i) s = .next (writeJ11 (s.setCard d i { c with running := true, srcAt := src, dstAt := dst }) d c 1 c.first))) ∧
      (c.running = false → exec (.jobCardFault d i err) s = .next s ∧ (c.signing = false → exec (.jobCardComplete d i) s = .next s)) ∧
      (c.signing = true →
        (slotMoving s cn (c.dw 8) = true → exec (.jobCardComplete d i) s = .next s) ∧
        (slotMoving s cn (c.dw 8) = false →
          (∀ r, signalAccess s d c = .wait r → exec (.jobCardComplete d i) s = .next (postRequest s cn r c.prio)) ∧
          (∀ h, signalAccess s d c = .ok h → ∃ t, exec (.jobCardComplete d i) s = .next t ∧ gone t ∧
            t.mem = Mem.setLE s.mem h 8 (Mem.getLE s.mem h 8 + (c.dw 9).toNat)) ∧
          (signalAccess s d c = .bad → ∃ t, exec (.jobCardComplete d i) s = .next t ∧ gone t ∧ SameMem s t ∧ t.outbox = .context cn 1 :: s.outbox))) ∧
      (resolveSlot s cn (c.dw 8) = none → signalAccess s d c = .bad) ∧
      (∀ v, resolveSlot s cn (c.dw 8) = some v → v.t ≠ untag → signalAccess s d c = unitAccess s cn .atomic v 8) ∧
      (∀ a, c.running = true → lim = (c.first, some a) → exec (.jobCardFault d i err) s = .next (faultCard s d i c.first (c.cause c.first) (BitVec.ofNat 64 a))) ∧
      (c.running = true → (∀ a, lim ≠ (c.first, some a)) →
        (err = false ∨ c.errAt.isSome = true ∨ c.asked = true ∨ c.done.isSome = true ∨ c.reads s d = [] → exec (.jobCardFault d i err) s = .next s) ∧
        (err = true → c.errAt = none → c.asked = false → c.done = none → c.reads s d ≠ [] → c.first < lim.1 →
          ∃ k f, ∃ a ∈ c.reads s d, c.first ≤ k ∧ k < lim.1 ∧ (k - c.first) % c.width = 0 ∧
            let s' := { s.setCard d i { c with errAt := some (k, a + k) } with fresh := f }
            exec (.jobCardFault d i err) s = .next (if k = c.first then faultCard s' d i k 0x0A (BitVec.ofNat 64 (a + k)) else s'))) ∧
      (∀ x y, c.running = true → c.signing = false → c.got = none → c.done = none → (c.kind ≠ 1 → ∀ f, ha ≠ .peer f ∧ ha ≠ .loopOff) →
        (∀ f, hb ≠ .peer f) → (c.kind ≠ 1 → ha.home = some x) → hb.home = some y →
        let e := pieceEnd c lim.1
        let l := if c.kind = 1 then (List.range (e - c.first)).map (fun n => BitVec.ofNat 8 ((c.dw 10).toNat / 256 ^ ((c.first + n) % 8))) else Mem.getBytes s.mem x (e - c.first)
        let m := if c.kind = 2 then addElems c.fmt c.width l.length s.mem y l else Mem.setBytes s.mem y l
        ∃ t, exec (.jobCardComplete d i) s = .next t ∧
          (e < lim.1 → t = (s.setMem m).setCard d i { c with first := e, asked := false, got := none, done := none, short := false }) ∧
          (∀ a, e = lim.1 → lim.2 = some a → t = faultCard (s.setMem m) d i lim.1 (c.cause lim.1) (BitVec.ofNat 64 a)) ∧
          (e = lim.1 → lim.2 = none → sig = false → gone t) ∧
          (∀ w, e = lim.1 → lim.2 = none → j11 = some w → sig = false → t.mem = Mem.setLE m w 8 (2 * 2 ^ 62 + c.len % 2 ^ 48)) ∧
          (e = lim.1 → lim.2 = none → sig = true →
            let u := (writeJ11 (s.setMem m) d c 2 c.len).setCard d i { c with running := false, signing := true }
            exec (.jobCardComplete d i) u = .next t ∧ (∀ w, j11 = some w → u.mem = Mem.setLE m w 8 (2 * 2 ^ 62 + c.len % 2 ^ 48)))) ∧
      (∀ k cause v, let t := faultCard s d i k cause v
        (t.die d).cards = (s.die d).cards.set i { c with running := false, faulted := true, first := k, asked := false, got := none, done := none, short := false, errAt := none } ∧
        (∀ w, j11 = some w → t.mem = Mem.setLE s.mem w 8 (3 * 2 ^ 62 + k % 2 ^ 48)) ∧
        (∀ p, c.p = some p → (s.pair p).a.halt ≠ .exited → (s.pair p).ctx = c.ctx →
          t.outbox = s.outbox ∧ (t.pair p).cardFaults = (s.pair p).cardFaults ++ [(cause, k / c.width, v)]) ∧
        ((∀ p, c.p = some p → (s.pair p).a.halt = .exited ∨ (s.pair p).ctx ≠ c.ctx) → t.outbox = .card d cn (k / c.width) v :: s.outbox)))

/-! ## Caches, samples, peers, the host's windows -/

/-- R104, R253, R337: an evicted line leaves its core's cache and its written bytes go home, no other byte; a thread that waits on a signal
reads it again at the next step; a sample in mode 2 is written, where CYCLE is due, for each X thread of the die that counts. -/
def Sys2Proof.Claims.CacheWaitAndSampleEvents : Prop :=
  ∀ (s : State) (core line p d : Nat) (k : Kind), Memory.wf s.mem = true →
    ((∀ c ∈ s.cache core, c.1 ≠ line) → exec (.dataCacheLineEviction core line) s = .next s) ∧
    (∀ c, (s.cache core).find? (fun c => c.1 == line) = some c →
      ∃ t, exec (.dataCacheLineEviction core line) s = .next t ∧ (∀ x ∈ t.cache core, x.1 ≠ line) ∧ (∀ x ∈ s.cache core, x.1 ≠ line → x ∈ t.cache core) ∧
        (∀ core', core' ≠ core → t.cache core' = s.cache core') ∧ SameMemBut s t (64 * line) 64 ∧
        ∀ j < 64, Mem.get t.mem (64 * line + j) = if c.2.dirty.getLsbD j then c.2.byte j else Mem.get s.mem (64 * line + j)) ∧
    (((s.pair p).thr k).wait = .cue → exec (.hostSignalReread p k) s = .next { s with agenda := .run (.thr p k) :: s.agenda }) ∧
    (((s.pair p).thr k).wait ≠ .cue → exec (.hostSignalReread p k) s = .next s) ∧
    (let c := (s.die d).sampctl.toNat
     let due := bits c 1 0 = 2 ∧ s.cycle.toNat % 2 ^ (max (bits c 7 2) 12) = 0
     let counts : Nat × Pair → Bool := fun e => decide (e.1 < 1280) && decide (dieOf e.1 = d) && decide (e.2.st = .running) && decide (e.2.x.halt ≠ .exited)
     (¬ due → exec (.sampleCycles d) s = .next s) ∧
     (due → exec (.sampleCycles d) s =
       .next ((s.pairs.filter counts).foldl (fun s e => threadSlate s e.1 .X 2 [e.2.slipS, e.2.slipV, e.2.slipM, e.2.slipO]) s)))

/-- R19, R363: a peer's request is performed at the export aperture, whole and aligned, and answered; it is answered with a failure, and
changes nothing, when the aperture is closed or the device cannot perform it. (The operation that writes the bits of a byte that a mask names,
as two devices of this kind use it for a lone 4-bit element, is the model's, log 80.) An answer reaches whoever waits for it: a thread, a
firmware core or a unit takes the bytes or the failure, a stream's element is filled or faults, a card goes on with what was read or
acknowledged, and the lanes take the word; one that nobody waits for any more changes nothing. -/
def Sys2Proof.Claims.PeerEvents : Prop :=
  ∀ (s : State) (op : Byte) (off : BitVec 33) (size : BitVec 4) (val cmp : Word) (p : Nat) (k : Kind) (ok : Bool) (data : List Byte),
    let n := size.toNat
    let a := bits s.expap.toNat 51 33 * 2 ^ 33 + off.toNat
    let i : Instr := .peerRequest op off size val cmp
    let fits := s.expap.getLsbD 63 = true ∧ (n = 1 ∨ n = 2 ∨ n = 4 ∨ n = 8) ∧ a % n = 0 ∧ a + n ≤ bits s.caphbm.toNat 51 0
    let old := Mem.getLE s.mem a n
    let answers : Nat → State := fun v => (s.setMem (Mem.setLE s.mem a n v)).send (.peerReply true (BitVec.ofNat 64 old))
    (¬ fits → exec i s = .next (s.send (.peerReply false 0#64))) ∧
    (fits → op = 0#8 → exec i s = .next (s.send (.peerReply true (BitVec.ofNat 64 old)))) ∧
    (fits → op = 1#8 → exec i s = .next (answers val.toNat)) ∧
    (fits → 2 ≤ op.toNat → op.toNat < 12 → n < 4 → exec i s = .next (s.send (.peerReply false 0#64))) ∧
    (fits → 4 ≤ n →
      let b := val.toNat % 256 ^ n
      let x := cmp.toNat % 256 ^ n
      (op = 2#8 → exec i s = .next (answers ((old + b) % 256 ^ n))) ∧ (op = 3#8 → exec i s = .next (answers (old &&& b))) ∧
      (op = 4#8 → exec i s = .next (answers (old ||| b))) ∧ (op = 5#8 → exec i s = .next (answers (old ^^^ b))) ∧
      (op = 6#8 → exec i s = .next (answers (if sext (8 * n) old ≤ sext (8 * n) b then old else b))) ∧
      (op = 7#8 → exec i s = .next (answers (if sext (8 * n) old ≤ sext (8 * n) b then b else old))) ∧
      (op = 8#8 → exec i s = .next (answers (min old b))) ∧ (op = 9#8 → exec i s = .next (answers (max old b))) ∧
      (op = 10#8 → exec i s = .next (answers b)) ∧ (op = 11#8 → exec i s = .next (answers (if old = x then b else old)))) ∧
    (fits → ∀ f, op.toNat = 100 + f → addFormat f = true → n * 8 = fmtWidth f → exec i s = .next (answers (addBits f old (val.toNat % 256 ^ n)).1)) ∧
    (fits → op = 98#8 → n = 1 → ∃ v < 256, exec i s = .next (answers v) ∧
      ∀ j < 8, v.testBit j = if cmp.toNat.testBit j then val.toNat.testBit j else old.testBit j) ∧
    (fits → (12 ≤ op.toNat ∧ op.toNat < 100 ∧ ¬ (op = 98#8 ∧ n = 1)) ∨ (100 ≤ op.toNat ∧ addFormat (op.toNat - 100) = false) → exec i s = .next (s.send (.peerReply false 0#64))) ∧
    ((∀ r ∈ s.peers, r.p ≠ p ∨ (k = .F ∧ r.tag = 0) ∨ (k ≠ .F ∧ (r.tag ≠ 0 ∨ r.k ≠ k))) → exec (.peerResponse p k ok data) s = .next s) ∧
    (∀ r before after, s.peers = before ++ r :: after → r.p = p → (∀ x ∈ before, x.p ≠ p) →
      let s1 := { s with peers := before ++ after }
      (k ≠ .F → r.tag = 0 → r.k = k → exec (.peerResponse p k ok data) s =
        .next (s1.updThr p k (fun t => if t.asked then { t with asked := false, reply := some (ok, data), sent := r.addrs } else t))) ∧
      (∀ m, k = .F → r.tag = 2 + m → m < 16 →
        let st := (s.pair p).str m
        (st.asked = false → exec (.peerResponse p k ok data) s = .next s1) ∧
        (st.asked = true → ok = true → r.op = 0 → exec (.peerResponse p k ok data) s = .next (s1.setStr p m { st with got := some data, asked := false })) ∧
        (st.asked = true → ok = true → r.op ≠ 0 → exec (.peerResponse p k ok data) s = .next (s1.setStr p m { st with ack := true })) ∧
        (st.asked = true → ok = false → ∃ t, exec (.peerResponse p k ok data) s = .next t ∧ SameMem s t ∧ ((t.pair p).str m).st = .faulted ∧
          ((t.pair p).str m).fault = some (0x0E, BitVec.ofNat 64 (if r.op = 0 then st.srcElem st.first else st.dstElem st.first), st.first))) ∧
      (k = .F → r.tag = 1 →
        let word := (BitVec.ofNat 52 (r.addrs.headD 0) - blockBase s p, if ok then some (natOf data) else none)
        exec (.peerResponse p k ok data) s =
          .next (s1.updPair p (fun q => { q with lanes := { q.lanes with peerWait := false, ahead := q.lanes.ahead ++ [word] } }))) ∧
      (k = .F → r.tag = 97 → exec (.peerResponse p k ok data) s =
        .next (s1.updF (p / 160) (p % 160) (fun f => { f with asked := false, reply := some (ok, data) }))) ∧
      (∀ who, k = .F → r.tag = 98 → r.who = some who → (∀ c n, who ≠ .copy c n) → exec (.peerResponse p k ok data) s =
        .next { s1 with unitGot := s.unitGot ++ [(who, r.addrs.headD 0, if ok then some (BitVec.ofNat 64 (natOf data)) else none)] }) ∧
      (k = .F → r.tag = 99 → exec (.peerResponse p k ok data) s = .next s1) ∧
      (∀ i c, k = .F → r.tag = 100 + i → (s.die (p / 160)).card i = some c →
        (r.op = 0 → exec (.peerResponse p k ok data) s = .next (s1.setCard (p / 160) i { c with got := some data, short := !ok, asked := false })) ∧
        (r.op ≠ 0 → exec (.peerResponse p k ok data) s =
          .next (s1.setCard (p / 160) i { c with done := some (if ok then r.sent.length else data.length), short := !ok }))))

/-- R19, R104, R253, R337, R363: cache evictions, rereads, samples, and what passes between peers. -/
def Obligations.CachePeerAndSampleEvents : Prop :=
  Claims.CacheWaitAndSampleEvents ∧ Claims.PeerEvents

/-- R361, R364, R366, R367, R371: the host's accesses through BAR4 reach HBM below its size, except what an interface that is not unlocked
holds, which reads as all ones and ignores writes. A KICK through an interface's BAR0 reaches only its own rings, and none in
ERROR, when every read there gives all ones. The boot mailbox keeps an address and a length, and reads its status. A read of a die's
window gives the register's bytes; a write is performed as one (R91). R319, R322: the host sets a context's PC matches, its counts and
advisories. That host accesses are of 1, 2, 4 or 8 aligned bytes is the model's (log 82). -/
def Obligations.HostWindowEvents : Prop :=
  ∀ (s : State) (addr : BitVec 41) (b : Byte) (vf : BitVec 6) (off : BitVec 25) (val : Word),
    let a := addr.toNat
    let closed : Nat → Prop := fun a => bits s.caphbm.toNat 51 0 ≤ a ∨ ∃ e ∈ s.vfs, e.2.st ≠ .unlocked ∧ (e.2.lcfg.getD 1 0#64).toNat ≤ a ∧
      a < (e.2.lcfg.getD 1 0#64).toNat + (e.2.lcfg.getD 2 0#64).toNat
    let shut := closed a
    let v := vf.toNat
    let rule : Nat → Nat := fun i => (if (s.vf v).st = .unlocked then (s.vf v).cfg.getD i 0#64 else (s.vf v).lcfg.getD i 0#64).toNat
    let rings := rule 6
    let r := bits val.toNat 11 0
    let mine := v ≠ 0 ∧ (s.vf v).st ≠ .error ∧ bits rings 11 0 ≤ r ∧ r < bits rings 11 0 + bits rings 27 16
    (shut → exec (.hostBar4Read addr) s = .next (s.send (.barRead a 0xFF#8)) ∧ exec (.hostBar4Write addr b) s = .next s) ∧
    (¬ shut → exec (.hostBar4Read addr) s = .next (s.send (.barRead a (Mem.get s.mem a)))) ∧
    (¬ shut → Memory.wf s.mem = true → ∃ t, exec (.hostBar4Write addr b) s = .next t ∧ Mem.get t.mem a = b ∧ SameMemBut s t a 1 ∧ t = { s with mem := t.mem }) ∧
    (mine → exec (.vfKick vf val) s = exec (.kick 0 (BitVec.ofNat 12 r)) s) ∧ (¬ mine → exec (.vfKick vf val) s = .next s) ∧
    (off.toNat < 8 → exec (.deviceRegisterWrite (64 + v) off val) s = exec (.vfKick vf val) s) ∧
    (0x10 ≤ off.toNat → off.toNat < 0x18 → bits val.toNat 17 16 = 2 → v ≠ 0 → (s.vf v).st ≠ .error →
      bits (rule 0) 9 0 ≤ bits val.toNat 9 0 → bits val.toNat 9 0 < bits (rule 0) 9 0 + bits (rule 0) 25 16 → bits s.ctxcmd.toNat 33 32 ≠ 3 →
      ∃ t, exec (.deviceRegisterWrite (64 + v) off val) s = .next t ∧ bits t.ctxcmd.toNat 33 32 = 1 ∧
        t = { terminate s (bits val.toNat 9 0) with ctxcmd := t.ctxcmd }) ∧
    (off.toNat < 8 → exec (.deviceRegisterWrite 8 off val) s = .next { s with mbaddr := val }) ∧
    (8 ≤ off.toNat → off.toNat < 16 → exec (.deviceRegisterWrite 8 off val) s = .next { s with mblen := BitVec.ofNat 64 (val.toNat % 2 ^ 32) }) ∧
    (∀ win o k x : Nat,
      let whole := (k = 1 ∨ k = 2 ∨ k = 4 ∨ k = 8) ∧ o % k = 0
      let reads : Nat → Prop := fun y => hostAct s (.read win o k) = s.send (.hostRead win o k y)
      let part : Word → Nat := fun w => w.toNat / 256 ^ (o % 8) % 256 ^ k
      (¬ whole → hostAct s (.read win o k) = s ∧ hostAct s (.write win o k x) = s) ∧
      (whole → win < 8 → o < 0x2000000 → reads (if 0x3800 ≤ o ∧ o < 0x3818 then 0 else part (devRead s win (o / 8 * 8)))) ∧
      (whole → win < 8 → o < 0x2000000 → k = 8 → exec (.deviceRegisterWrite win (BitVec.ofNat 25 o) (BitVec.ofNat 64 x)) s = .next (hostAct s (.write win o k x))) ∧
      (whole → win = 8 → reads (if o / 8 = 0 then part s.mbaddr else if o / 8 = 1 then part s.mblen
        else if o / 8 = 3 then part (BitVec.ofNat 64 (s.mbfail.toNat * 256 + s.mbready.toNat)) else 0)) ∧
      (whole → win = 9 → closed o → reads (256 ^ k - 1) ∧ hostAct s (.write win o k x) = s) ∧
      (whole → win = 9 → ¬ closed o → reads (Mem.getLE s.mem o k) ∧ hostAct s (.write win o k x) = { s with mem := Mem.setLE s.mem o k x }) ∧
      (whole → win = 64 + v → v ≠ 0 → (s.vf v).st = .error → reads (256 ^ k - 1) ∧ hostAct s (.write win o k x) = s) ∧
      (whole → win = 64 + v → v ≠ 0 → (s.vf v).st ≠ .error → o / 8 = 2 → reads (part s.ctxcmd)) ∧
      (win = 64 + v → v ≠ 0 → o = 0 → k = 8 → exec (.vfKick vf (BitVec.ofNat 64 x)) s = .next (hostAct s (.write win o k x)))) ∧
    (∀ c i, Tab.risingFrom 0 s.ctxs = true →
      (i < 16 → ((hostAct s (.pcMatch c i val)).ctx c) = { s.ctx c with pcm := (s.ctx c).pcm.setIfInBounds i (val &&& 0xCFFFFFFFFFFFFFFC#64) }) ∧
      ∀ d < 8, ∀ adv : Bool, let y := (hostAct s (.deprec c d val adv)).ctx c
        y.depcnt = (s.ctx c).depcnt.setIfInBounds d val ∧ ∀ j < 8, y.depadv.getLsbD j = if j = d then adv else (s.ctx c).depadv.getLsbD j)

/-! ## Interfaces, attestation, boot -/

/-- Two ranges, each of a start and a length, have a byte in common. -/
def Sys2Proof.Claims.Touch (a n b m : Nat) : Prop := a < b + m ∧ b < a + n ∧ 0 < n ∧ 0 < m

/-- R365-R368: the states of an interface. Locking needs CONFIG_UNLOCKED and a secured session, issues a nonce, and takes its carve-out
and window from every other context, and from what is on its way there, at once or as soon as a Puppeteer works; starting needs CONFIG_LOCKED and that nonce; a write to what locking froze is ERROR; stopping, from
any state, leaves it CONFIG_UNLOCKED, its carve-out zero and its contexts' tables empty. The report says what locking froze. The error
codes, the layout of the report before its last 56 bytes, and that other contexts' regions there are RETIRED, are the model's (logs 44
and 81). -/
def Obligations.InterfaceEvents : Prop :=
  ∀ (s : State) (vf : BitVec 6) (nonce : BitVec 256) (what : BitVec 3) (val : Word) (code : Byte),
    let v := vf.toNat
    let x := s.vf v
    let open_ := s.spdm.session.isSome = true ∧ s.spdm.ready = true
    let errs : Instr → Nat → Prop := fun i e => exec i s = .next (s.send (.tdisp v 0x7F (bytesOf e 8)))
    let held := x.st = .locked ∨ x.st = .run
    let rule : Nat → Nat := fun i => (if x.st = .unlocked then x.cfg.getD i 0#64 else x.lcfg.getD i 0#64).toNat
    let mine : Nat → Prop := fun c => bits (rule 0) 9 0 ≤ c ∧ c < bits (rule 0) 9 0 + bits (rule 0) 25 16
    let ended : State → Nat → Prop := fun t c => Tab.risingFrom 0 s.pairs = true →
      ∀ p, (s.pair p).ctx.toNat = c → (s.pair p).st ≠ .free → (s.pair p).st ≠ .exited → (t.pair p).st = .exited
    exec (.getTdispVersion vf) s = .next (s.send (.tdisp v 1 [1#8, 0x10#8])) ∧
    (∃ l, l.length = 28 ∧ exec (.getTdispCapabilities vf) s = .next { s.send (.tdisp v 2 l) with fresh := s.fresh + 1 }) ∧
    exec (.getDeviceInterfaceState vf) s = .next (s.send (.tdisp v 5 [match x.st with | .unlocked => 0#8 | .locked => 1#8 | .run => 2#8 | .error => 3#8])) ∧
    errs (.tdispUnsupported vf code) 7 ∧
    (¬ (v ≠ 0 ∧ x.st = .unlocked ∧ open_) → errs (.lockInterfaceRequest vf) 4) ∧
    (v ≠ 0 → x.st = .unlocked → open_ → ∃ (n : BitVec 256) (t : State),
      let y := { x with st := .locked, lcfg := x.cfg, nonce := n }
      let on := anyPuppeteer s = true
      t = evictFor (s.setVf v y) v ∧
      exec (.lockInterfaceRequest vf) s = .next { t.send (.tdisp v 3 (bytesOf n.toNat 32)) with fresh := t.fresh + 1 } ∧
      (Tab.risingFrom 0 s.vfs = true → t.vf v = { y with lockDue := !anyPuppeteer s }) ∧ (¬ on → t.ctxs = s.ctxs ∧ SameMem s t) ∧
      (on → Tab.risingFrom 0 s.ctxs = true → (∀ e ∈ s.ctxs, Tab.risingFrom 0 e.2.regions = true) → ∀ c r,
        let e := s.region c r
        let within : Nat → Prop := fun b =>
          Touch b e.size.toNat (rule 1) (rule 2) ∨ Touch b e.size.toNat (Config.hostBase + bits (rule 3) 51 12 * 4096) (rule 4)
        let aim := ((s.ctx c).nextBase.find? (fun y => y.1 == r)).map (·.2)
        let meets := e.size ≠ 0#48 ∧ e.st ≠ .absent ∧ e.st ≠ .retired ∧
          (within e.base.toNat ∨ ((e.st = .moving ∨ e.st = .arriving) ∧ ∃ b, aim = some b ∧ within b))
        (¬ mine c → meets → (t.region c r).st = .retired) ∧ (mine c ∨ ¬ meets → t.region c r = e))) ∧
    (v = 0 ∨ x.st ≠ .locked → errs (.startInterfaceRequest vf nonce) 4) ∧
    (v ≠ 0 → x.st = .locked → nonce ≠ x.nonce → errs (.startInterfaceRequest vf nonce) 0x102) ∧
    (v ≠ 0 → x.st = .locked → exec (.startInterfaceRequest vf x.nonce) s = .next ((s.setVf v { x with st := .run, ide := true }).send (.tdisp v 6 []))) ∧
    (v = 0 ∨ ¬ held → errs (.getDeviceInterfaceReport vf) 4) ∧
    (v ≠ 0 → held → ∃ l info, exec (.getDeviceInterfaceReport vf) s = .next (s.send (.tdisp v 4 (l ++ info))) ∧ info.length = 56 ∧
      natOf (info.take 2) = 0x7A1E ∧ natOf ((info.drop 2).take 2) = 0x5908 ∧ natOf ((info.drop 4).take 4) = v ∧
      ∀ j < 6, natOf ((info.drop (8 + 8 * j)).take 8) = (x.lcfg.getD j 0#64).toNat) ∧
    (held → ∃ t, exec (.lockedConfigWrite vf what val) s = .next t ∧ (Tab.risingFrom 0 s.vfs = true →
      (t.vf v).st = .error ∧ (t.vf v).ide = false ∧ ∀ c, mine c → ended t c)) ∧
    (what = 1#3 ∨ what = 2#3 → (∃ w, (s.vf w).st = .locked ∨ (s.vf w).st = .run) → Tab.risingFrom 0 s.vfs = true →
      ∃ t, exec (.lockedConfigWrite vf what val) s = .next t ∧ ∀ w, (s.vf w).st = .locked ∨ (s.vf w).st = .run → (t.vf w).st = .error ∧ (t.vf w).ide = false) ∧
    (what = 1#3 ∨ what = 2#3 → Tab.risingFrom 0 s.vfs = true → (∀ w, (s.vf w).st ≠ .locked ∧ (s.vf w).st ≠ .run) → exec (.lockedConfigWrite vf what val) s =
      .next (if what = 1#3 then { s with vfEnable := val.getLsbD 0 } else { s with vfBar := val })) ∧
    (¬ held → (what = 0#3 → exec (.lockedConfigWrite vf what val) s = .next (s.setVf v { x with bar0 := val })) ∧
      (what = 3#3 → exec (.lockedConfigWrite vf what val) s = .next (s.setVf v { x with memEn := val.getLsbD 0 })) ∧
      (4 ≤ what.toNat → exec (.lockedConfigWrite vf what val) s = .next (s.setVf v { x with cfg := x.cfg.setIfInBounds (what.toNat - 4) val }))) ∧
    (v = 0 → errs (.stopInterfaceRequest vf) 4) ∧
    (v ≠ 0 → Memory.wf s.mem = true → Tab.risingFrom 0 s.vfs = true → ∃ t, exec (.stopInterfaceRequest vf) s = .next t ∧
      (t.vf v).st = .unlocked ∧ (t.vf v).ide = false ∧ t.outbox.head? = some (.tdisp v 7 []) ∧
      (∀ a, rule 1 ≤ a → a < rule 1 + rule 2 → Mem.get t.mem a = 0#8) ∧ ∀ c, mine c → (t.ctx c).regions = [] ∧ ended t c)

/-- R360, R369, R370: the responder answers a negotiation in its order and everything else only after it; sessions are opened, finished
and ended, and carry IDE key messages; each signed answer carries two signatures and spends an LMS leaf, whose number the second one shows, and none is left after 2^20, which FAIL says.
A measurement is in the DMTF form: of the firmware image and its version, and of an interface's locked configuration, zeros while it is
unlocked. What signatures and exchanged keys hold is left free, and the layouts that the manual names but does not give are the model's (log 14); the codes and the one session at a time are the model's (log 44). -/
def Obligations.AttestationEvents : Prop :=
  ∀ (s : State) (slot : BitVec 3) (nonce : BitVec 256) (pub : BitVec 768) (id : BitVec 32) (index : Byte) (sign set : Bool) (n : BitVec 6) (key : BitVec 256),
    let x := s.spdm
    let errs : Instr → Nat → Prop := fun i e => exec i s = .next (s.send (.spdm 0x7F (bytesOf e 2)))
    -- the answer i gives, with its length, from a state in which the responder holds y
    let answers : Instr → Spdm → Nat → Nat → Prop := fun i y code len => ∃ l, l.length = len ∧ ∃ f, exec i s =
      .next { State.send (s.setSpdm y) (.spdm code l) with fresh := f }
    let spent : Instr → Prop := fun i => exec i s = .next ({ s with mbfail := 5#8 }.send (.spdm 0x7F (bytesOf 5 2)))
    -- an ECDSA signature, then the element of vendor 0x7A1E with the LMS signature, which begins with the number of the leaf it spends
    let signed : List Byte → Prop := fun l => ∃ e m : List Byte, e.length = 96 ∧ m.length = 1136 ∧
      l = e ++ (bytesOf 0x7A1E 2 ++ bytesOf 1140 2 ++ (bytesOf x.lms 4).reverse ++ m)
    let inSession := x.session = some id ∧ x.ready = true
    let open_ := x.session.isSome = true ∧ x.ready = true
    let ide := s.ide n.toNat
    let sets : Instr → Nat → Ide → Prop := fun i code y => exec i s = .next (State.send (s.setIde n.toNat y) (.ide n.toNat code []))
    answers .spdmGetVersion { x with version := true, caps := false, algs := false, session := none, ready := false, transcript := x.transcript + 1 } 4 3 ∧
    (x.version = true → answers .spdmGetCapabilities { x with caps := true } 0x61 4) ∧ (x.version = false → errs .spdmGetCapabilities 4) ∧
    (x.caps = true → answers .spdmNegotiateAlgorithms { x with algs := true } 0x63 4) ∧ (x.caps = false → errs .spdmNegotiateAlgorithms 4) ∧
    (∀ i, i ∈ [Instr.spdmGetDigests, .spdmGetCertificate slot, .spdmChallenge nonce, .spdmGetMeasurements index sign nonce, .spdmKeyExchange pub] →
      x.algs = false → errs i 4) ∧
    (x.algs = true → answers .spdmGetDigests x 1 49) ∧
    (x.algs = true → slot = 0#3 → answers (.spdmGetCertificate slot) x 2 1024) ∧ (x.algs = true → slot ≠ 0#3 → errs (.spdmGetCertificate slot) 1) ∧
    (x.algs = true → 2 ^ 20 ≤ x.lms → spent (.spdmChallenge nonce)) ∧
    (x.algs = true → x.lms < 2 ^ 20 → ∃ t l, exec (.spdmChallenge nonce) s = .next t ∧ signed l ∧ t.outbox = .spdm 3 l :: s.outbox ∧
      t.spdm = { x with lms := x.lms + 1 } ∧ t.mbfail = (if x.lms + 1 = 2 ^ 20 then 5#8 else s.mbfail)) ∧
    (x.algs = true → 68 < index.toNat → index ≠ 0xFF#8 → errs (.spdmGetMeasurements index sign nonce) 1) ∧
    (x.algs = true → index.toNat ≤ 68 ∨ index = 0xFF#8 → sign = true → 2 ^ 20 ≤ x.lms → spent (.spdmGetMeasurements index sign nonce)) ∧
    (x.algs = true → index.toNat ≤ 68 ∨ index = 0xFF#8 → sign = true → x.lms < 2 ^ 20 → ∃ t m l, exec (.spdmGetMeasurements index sign nonce) s = .next t ∧
      t.spdm = { x with lms := x.lms + 1 } ∧ signed l ∧ t.outbox = .spdm 0x60 (m ++ l) :: s.outbox) ∧
    (x.algs = true → 1 ≤ index.toNat → index.toNat ≤ 68 → sign = false → ∃ value : List Byte,
      exec (.spdmGetMeasurements index sign nonce) s = .next { s.send (.spdm 0x60 (bytesOf index.toNat 1 ++ [1#8] ++ bytesOf (value.length + 3) 2 ++
        bytesOf (if index = 1#8 then 0 else if index = 2#8 then 1 else if index = 3#8 then 0x86 else if index = 4#8 then 2 else 3) 1 ++
        bytesOf value.length 2 ++ value)) with fresh := s.fresh + 1 } ∧
      value.length = (if index = 3#8 then 8 else 48) ∧
      (index = 2#8 → ∀ img, s.fwImage = some img → value = digest img) ∧
      (index = 3#8 → ∀ img, s.fwImage = some img → natOf value = (Config.fwVersion img).toNat) ∧
      (5 ≤ index.toNat → value = if (s.vf (index.toNat - 5)).st = .unlocked then List.replicate 48 0#8
        else digest ((s.vf (index.toNat - 5)).lcfg.toList.flatMap (fun w => bytesOf w.toNat 8)))) ∧
    (x.algs = true → x.session.isSome = true → errs (.spdmKeyExchange pub) 10) ∧
    (x.algs = true → x.session = none → answers (.spdmKeyExchange pub)
      { x with session := some (BitVec.ofNat 32 x.nextId), ready := false, nextId := x.nextId + 1, epoch := 0 } 0x64 196) ∧
    (x.session = some id → x.ready = false → answers (.spdmFinish id) { x with ready := true } 0x65 48) ∧
    (¬ (x.session = some id ∧ x.ready = false) → errs (.spdmFinish id) 2) ∧
    (∀ i, i ∈ [Instr.spdmHeartbeat id, .spdmEndSession id, .spdmKeyUpdate id] → ¬ inSession → errs i 2) ∧
    (inSession → answers (.spdmHeartbeat id) x 0x68 0) ∧ (inSession → answers (.spdmEndSession id) { x with session := none, ready := false } 0x6C 0) ∧
    (inSession → answers (.spdmKeyUpdate id) { x with epoch := x.epoch + 1 } 0x69 0) ∧
    (∀ i, i ∈ [Instr.ideKmQuery n, .ideKmKeyProg n set key, .ideKmKSetGo n set, .ideKmKSetStop n set] → ¬ open_ → errs i 2) ∧
    (open_ → ∃ l, l.length = 4 ∧ exec (.ideKmQuery n) s = .next { s.send (.ide n.toNat 1 l) with fresh := s.fresh + 1 }) ∧
    (open_ → exec (.ideKmKeyProg n set key) s = .next (State.send
      (s.setIde n.toNat (if set then { ide with key1 := some key } else { ide with key0 := some key })) (.ide n.toNat 3 [0#8]))) ∧
    (open_ → set = false → ide.key0.isSome = true → sets (.ideKmKSetGo n set) 6 { ide with go0 := true, go1 := false }) ∧
    (open_ → set = true → ide.key1.isSome = true → sets (.ideKmKSetGo n set) 6 { ide with go1 := true, go0 := false }) ∧
    (open_ → (set = false ∧ ide.key0 = none) ∨ (set = true ∧ ide.key1 = none) → sets (.ideKmKSetGo n set) 6 ide) ∧
    (open_ → sets (.ideKmKSetStop n set) 6 (if set then { ide with go1 := false } else { ide with go0 := false }))

/-- R371, R372, R358: a delivery whose image fits and passes its three checks loads both cores of each die it names, core 0 active at the
SRAM's start, sets SPARE and READY, and records the image for the measurements; one that fails says which check in FAIL, unless that tells
of the spent LMS leaves, and leaves the die unready. That the image lies in each SRAM from its first byte, the limits of its length and the
order of the checks are the model's (log 61), and what a reset leaves in memory (log 62). A package reset leaves no pair, ring,
context or firmware, HBM and scratchpads empty, and the registers at their reset values; host memory, the capabilities and the spent LMS
leaves remain. -/
def Obligations.BootEvents : Prop :=
  ∀ (s : State) (dies : Byte) (d : Nat) (e l v : Bool),
    let i : Instr := .firmwareDelivery dies e l v
    let n := s.mblen.toNat
    let img := Mem.slice s.mem (Config.hostBase + s.mbaddr.toNat / 4096 * 4096) n
    let fails : BitVec 8 → BitVec 8 := fun why => if s.mbfail = 5#8 then 5#8 else why
    (dies = 0#8 → exec i s = .next s) ∧
    (d < 8 → dies = BitVec.ofNat 8 (2 ^ d) →
      (n = 0 ∨ 0x40000 < n → exec i s = .next { s with mbfail := fails 4#8, mbready := s.mbready &&& ~~~(BitVec.ofNat 8 (2 ^ d)) }) ∧
      (0 < n → n ≤ 0x40000 → ¬ (e = true ∧ l = true ∧ v = true) → ∃ t, exec i s = .next t ∧ t.mbready = s.mbready &&& ~~~(BitVec.ofNat 8 (2 ^ d)) ∧ SameMem s t ∧
        t.mbfail = fails (if e = false then 1#8 else if l = false then 2#8 else 3#8) ∧ t.rota = s.rota ∧ (t.die d).act = (s.die d).act ∧
        ((t.die d).fcore (s.die d).act.toNat) = ((s.die d).fcore (s.die d).act.toNat)) ∧
      (0 < n → n ≤ 0x40000 → e = true → l = true → v = true → ∃ t, exec i s = .next t ∧ SameMem s t ∧ t.pairs = s.pairs ∧
        t.mbready = (s.mbready ||| BitVec.ofNat 8 (2 ^ d)) ∧ t.mbfail = fails 0#8 ∧ (t.die d).act = false ∧ (t.die d).spare = true ∧
        (t.die d).lost = false ∧ (t.die d).holdOn = (s.die d).holdOn ∧ (t.die d).f0.on = true ∧ (t.die d).f1.on = false ∧
        (t.die d).f0.pc = BitVec.ofNat 64 Config.isramBase ∧ (t.die d).f0.isram = img ∧ (t.die d).f1.isram = img ∧
        (t.die d).f0.dsram = img ∧ (t.die d).f1.dsram = img ∧ t.fwImage = some ((List.range n).map (Mem.get img)) ∧ (t.die d).replayDue = (s.die d).jrnlSet ∧
        (∀ r : XReg, (t.die d).f0.x.getD r.toNat 0#64 = 0#64) ∧ Actor.fcore d 0 ∈ t.rota ∧ Actor.fcore d 1 ∉ t.rota)) ∧
    (∃ t, exec .packageReset s = .next t ∧ t.pairs = [] ∧ t.ctxs = [] ∧ t.vfs = [] ∧ t.caches = [] ∧ t.ides = [] ∧ t.rota = [] ∧ t.peers = [] ∧
      t.moves = [] ∧ t.posted = [] ∧ t.areas = [] ∧ t.cycle = 0#64 ∧ t.ringbase = 0#64 ∧ t.savepool = 0#64 ∧ t.expap = 0#64 ∧ t.devnum = 0#64 ∧
      t.ctxcmd = 0#64 ∧ t.pwrcap = 5000#64 ∧ t.mbaddr = 0#64 ∧ t.mblen = 0#64 ∧ t.mbready = 0#8 ∧ t.mbfail = 0#8 ∧ t.copies = [] ∧ t.spdm = { lms := s.spdm.lms } ∧
      t.caphbm = BitVec.ofNat 64 (hbmSize s.deadPch) ∧ t.deadPch = s.deadPch ∧ t.kept = [] ∧ t.unitGot = [] ∧ t.vfEnable = false ∧ t.vfBar = 0#64 ∧
      (∀ k, t.die k = { stackMask := (s.die k).stackMask, links := (s.die k).links }) ∧
      (∀ k, t.cluster k = { mask := (s.cluster k).mask, array := (s.cluster k).array, works := (s.cluster k).works }) ∧
      (Memory.wf s.mem = true → ∀ a, Mem.get t.mem a = if Config.hostBase ≤ a ∧ a < Config.hostTop then Mem.get s.mem a else 0#8))

/-! ## Reset, and what every step keeps -/

namespace Sys2Proof.Claims

/-- The form in which the state keeps its memory and tables: memory lists no zero byte and its addresses rise; every table's keys rise;
a data cache holds lines of HBM only (R104). -/
def Canonical (s : State) : Prop :=
  Memory.wf s.mem = true ∧ Tab.risingFrom 0 s.pairs = true ∧ Tab.risingFrom 0 s.clusters = true ∧ Tab.risingFrom 0 s.caches = true ∧
  Tab.risingFrom 0 s.dies = true ∧ Tab.risingFrom 0 s.ctxs = true ∧ Tab.risingFrom 0 s.vfs = true ∧ Tab.risingFrom 0 s.ides = true ∧
  ∀ c ∈ s.caches, Tab.risingFrom 0 c.2 = true ∧ ∀ l ∈ c.2, 64 * l.1 < Config.peerBase

end Sys2Proof.Claims

/-- R5, R6, R93, R164, R259, R303, R323, R331, R346, R355, R362, R374: what the registers read right after reset, on every die: the
identification values, 5,000 W, 2,400 MHz, SPARE of FWSTAT, and 0 elsewhere; no region is in use; no lane group belongs to a pair. That
every byte of memory reads 0 is the model's choice (log 4), and so are the values the manual does not give (log 6). -/
def Sys2Proof.Claims.ResetValues : Prop :=
  let s := State.reset
  (∀ d < 8, devRead s d 0 = 0x7A1E590801000000#64 ∧ devRead s d 8 = 0x20101#64 ∧ bits (devRead s d 0x20108).toNat 15 0 = 2400 ∧
    devRead s d 0x20100 = 5000#64 ∧ devRead s d 0x2008 = 2#64 ∧
    (∀ o ∈ [0x100, 0x300, 0x1000, 0x1008, 0x1010, 0x1018, 0x1020, 0x1028, 0x1040, 0x1048, 0x1050, 0x1058, 0x2000, 0x2010, 0x2018, 0x20000, 0x20008, 0x20010],
      devRead s d o = 0#64)) ∧
  (∀ c r, (s.region c r).st = .absent ∧ (s.region c r).size = 0#48) ∧ (∀ p, (s.pair p).st = .free) ∧
  (∀ c, ∀ g < 8, (s.cluster c).lpr.getD g 0#3 = 7#3) ∧ (∀ a, Mem.get s.mem a = 0#8) ∧ s.cycle = 0#64 ∧
  (∀ d, (s.die d).f0.on = false ∧ (s.die d).f1.on = false ∧ (s.die d).kicks = 0#4096)

/-- R12, R324: HBM is interleaved at 256-byte granularity over the working pseudo-channels, numbered in increasing channel index, and its size
follows their number; the home of a byte is the die of its stack (R11). With all 4,608 of them the byte at 0x12300 lies on stack 3, in pseudo-channel 12, and die 1 is its home. -/
def Sys2Proof.Claims.HbmMapping : Prop :=
  (∀ dead a, let ws := (List.range 4608).filter (fun c => decide (c ∉ dead))
    let w := ws.length
    let g := a / 256 % 2 ^ 33
    let c := ws.getD ((g % w + 97 * (g / w)) % w) 0
    hbmSize dead = w * 85899345920 / 192 / 256 * 256 ∧
    (w ≠ 0 → hbmPlace dead a = { stack := c % 24, pch := c / 24, off := g / w * 256 + a % 256 } ∧ (hbmPlace dead a).die = c % 24 / 3)) ∧
  (∀ a < 0x1E000000000, let g := a / 256
    let c := (g % 4608 + 97 * (g / 4608)) % 4608
    hbmPlace [] a = { stack := c % 24, pch := c / 24, off := g / 4608 * 256 + a % 256 }) ∧
  hbmPlace [] 0x12300 = { stack := 3, pch := 12, off := 0 } ∧ (hbmPlace [] 0x12300).die = 1 ∧ hbmSize [] = 0x1E000000000 ∧
  State.reset.caphbm.toNat = hbmSize State.reset.deadPch

/-- The state after reset is in canonical form (the model's own form, log 4). -/
def Sys2Proof.Claims.ResetIsCanonical : Prop := Canonical State.reset

/-- R5, R6, R12, R93, R323, R324, R355, R362, R374: what reset leaves, and where the bytes of HBM lie. -/
def Obligations.ResetState : Prop :=
  Claims.ResetValues ∧ Claims.HbmMapping ∧ Claims.ResetIsCanonical

/-- Every step keeps the canonical form of memory and tables, and the data caches hold lines of HBM only (R104). -/
def Obligations.StepKeepsCanonicalForm : Prop := ∀ s t : State, Canonical s → step s = .next t → Canonical t

/-- R93: no word of a program, of a thread, of the lanes or of a firmware core, changes an entry of a region table, but that hardware may
set its REQ bit. -/
def Obligations.WordsLeaveRegionTables : Prop :=
  ∀ (i : Instr) (s t : State), encode i ≠ .none → exec i s = .next t →
    ∀ c r, t.region c r = s.region c r ∨ t.region c r = { s.region c r with req := true }
end

