-- ==== Sys2Proof/Laws/State.lean ====
section
/-! SUPPORT. What each update of the state leaves of each field: every field but the one it writes is as before. -/

namespace Sys2Proof.Machine

/-! `setPair` -/

@[simp] theorem State.setPair_mem (s : State) (p : Nat) (q : Pair) : (s.setPair p q).mem = s.mem := rfl
@[simp] theorem State.setPair_clusters (s : State) (p : Nat) (q : Pair) : (s.setPair p q).clusters = s.clusters := rfl
@[simp] theorem State.setPair_caches (s : State) (p : Nat) (q : Pair) : (s.setPair p q).caches = s.caches := rfl
@[simp] theorem State.setPair_dies (s : State) (p : Nat) (q : Pair) : (s.setPair p q).dies = s.dies := rfl
@[simp] theorem State.setPair_ctxs (s : State) (p : Nat) (q : Pair) : (s.setPair p q).ctxs = s.ctxs := rfl
@[simp] theorem State.setPair_vfs (s : State) (p : Nat) (q : Pair) : (s.setPair p q).vfs = s.vfs := rfl
@[simp] theorem State.setPair_vfEnable (s : State) (p : Nat) (q : Pair) : (s.setPair p q).vfEnable = s.vfEnable := rfl
@[simp] theorem State.setPair_vfBar (s : State) (p : Nat) (q : Pair) : (s.setPair p q).vfBar = s.vfBar := rfl
@[simp] theorem State.setPair_ides (s : State) (p : Nat) (q : Pair) : (s.setPair p q).ides = s.ides := rfl
@[simp] theorem State.setPair_spdm (s : State) (p : Nat) (q : Pair) : (s.setPair p q).spdm = s.spdm := rfl
@[simp] theorem State.setPair_cycle (s : State) (p : Nat) (q : Pair) : (s.setPair p q).cycle = s.cycle := rfl
@[simp] theorem State.setPair_ringbase (s : State) (p : Nat) (q : Pair) : (s.setPair p q).ringbase = s.ringbase := rfl
@[simp] theorem State.setPair_savepool (s : State) (p : Nat) (q : Pair) : (s.setPair p q).savepool = s.savepool := rfl
@[simp] theorem State.setPair_expap (s : State) (p : Nat) (q : Pair) : (s.setPair p q).expap = s.expap := rfl
@[simp] theorem State.setPair_devnum (s : State) (p : Nat) (q : Pair) : (s.setPair p q).devnum = s.devnum := rfl
@[simp] theorem State.setPair_ctxcmd (s : State) (p : Nat) (q : Pair) : (s.setPair p q).ctxcmd = s.ctxcmd := rfl
@[simp] theorem State.setPair_ctxDie (s : State) (p : Nat) (q : Pair) : (s.setPair p q).ctxDie = s.ctxDie := rfl
@[simp] theorem State.setPair_pwrcap (s : State) (p : Nat) (q : Pair) : (s.setPair p q).pwrcap = s.pwrcap := rfl
@[simp] theorem State.setPair_mbaddr (s : State) (p : Nat) (q : Pair) : (s.setPair p q).mbaddr = s.mbaddr := rfl
@[simp] theorem State.setPair_mblen (s : State) (p : Nat) (q : Pair) : (s.setPair p q).mblen = s.mblen := rfl
@[simp] theorem State.setPair_mbfail (s : State) (p : Nat) (q : Pair) : (s.setPair p q).mbfail = s.mbfail := rfl
@[simp] theorem State.setPair_mbready (s : State) (p : Nat) (q : Pair) : (s.setPair p q).mbready = s.mbready := rfl
@[simp] theorem State.setPair_fwImage (s : State) (p : Nat) (q : Pair) : (s.setPair p q).fwImage = s.fwImage := rfl
@[simp] theorem State.setPair_caphbm (s : State) (p : Nat) (q : Pair) : (s.setPair p q).caphbm = s.caphbm := rfl
@[simp] theorem State.setPair_deadPch (s : State) (p : Nat) (q : Pair) : (s.setPair p q).deadPch = s.deadPch := rfl
@[simp] theorem State.setPair_posted (s : State) (p : Nat) (q : Pair) : (s.setPair p q).posted = s.posted := rfl
@[simp] theorem State.setPair_moves (s : State) (p : Nat) (q : Pair) : (s.setPair p q).moves = s.moves := rfl
@[simp] theorem State.setPair_kept (s : State) (p : Nat) (q : Pair) : (s.setPair p q).kept = s.kept := rfl
@[simp] theorem State.setPair_areas (s : State) (p : Nat) (q : Pair) : (s.setPair p q).areas = s.areas := rfl
@[simp] theorem State.setPair_copies (s : State) (p : Nat) (q : Pair) : (s.setPair p q).copies = s.copies := rfl
@[simp] theorem State.setPair_touched (s : State) (p : Nat) (q : Pair) : (s.setPair p q).touched = s.touched := rfl
@[simp] theorem State.setPair_peers (s : State) (p : Nat) (q : Pair) : (s.setPair p q).peers = s.peers := rfl
@[simp] theorem State.setPair_unitGot (s : State) (p : Nat) (q : Pair) : (s.setPair p q).unitGot = s.unitGot := rfl
@[simp] theorem State.setPair_outbox (s : State) (p : Nat) (q : Pair) : (s.setPair p q).outbox = s.outbox := rfl
@[simp] theorem State.setPair_agenda (s : State) (p : Nat) (q : Pair) : (s.setPair p q).agenda = s.agenda := rfl
@[simp] theorem State.setPair_rota (s : State) (p : Nat) (q : Pair) : (s.setPair p q).rota = s.rota := rfl
@[simp] theorem State.setPair_cur (s : State) (p : Nat) (q : Pair) : (s.setPair p q).cur = s.cur := rfl
@[simp] theorem State.setPair_fresh (s : State) (p : Nat) (q : Pair) : (s.setPair p q).fresh = s.fresh := rfl
@[simp] theorem State.setPair_steps (s : State) (p : Nat) (q : Pair) : (s.setPair p q).steps = s.steps := rfl

/-! `setCluster` -/

@[simp] theorem State.setCluster_mem (s : State) (c : Nat) (v : Cluster) : (s.setCluster c v).mem = s.mem := rfl
@[simp] theorem State.setCluster_pairs (s : State) (c : Nat) (v : Cluster) : (s.setCluster c v).pairs = s.pairs := rfl
@[simp] theorem State.setCluster_caches (s : State) (c : Nat) (v : Cluster) : (s.setCluster c v).caches = s.caches := rfl
@[simp] theorem State.setCluster_dies (s : State) (c : Nat) (v : Cluster) : (s.setCluster c v).dies = s.dies := rfl
@[simp] theorem State.setCluster_ctxs (s : State) (c : Nat) (v : Cluster) : (s.setCluster c v).ctxs = s.ctxs := rfl
@[simp] theorem State.setCluster_vfs (s : State) (c : Nat) (v : Cluster) : (s.setCluster c v).vfs = s.vfs := rfl
@[simp] theorem State.setCluster_vfEnable (s : State) (c : Nat) (v : Cluster) : (s.setCluster c v).vfEnable = s.vfEnable := rfl
@[simp] theorem State.setCluster_vfBar (s : State) (c : Nat) (v : Cluster) : (s.setCluster c v).vfBar = s.vfBar := rfl
@[simp] theorem State.setCluster_ides (s : State) (c : Nat) (v : Cluster) : (s.setCluster c v).ides = s.ides := rfl
@[simp] theorem State.setCluster_spdm (s : State) (c : Nat) (v : Cluster) : (s.setCluster c v).spdm = s.spdm := rfl
@[simp] theorem State.setCluster_cycle (s : State) (c : Nat) (v : Cluster) : (s.setCluster c v).cycle = s.cycle := rfl
@[simp] theorem State.setCluster_ringbase (s : State) (c : Nat) (v : Cluster) : (s.setCluster c v).ringbase = s.ringbase := rfl
@[simp] theorem State.setCluster_savepool (s : State) (c : Nat) (v : Cluster) : (s.setCluster c v).savepool = s.savepool := rfl
@[simp] theorem State.setCluster_expap (s : State) (c : Nat) (v : Cluster) : (s.setCluster c v).expap = s.expap := rfl
@[simp] theorem State.setCluster_devnum (s : State) (c : Nat) (v : Cluster) : (s.setCluster c v).devnum = s.devnum := rfl
@[simp] theorem State.setCluster_ctxcmd (s : State) (c : Nat) (v : Cluster) : (s.setCluster c v).ctxcmd = s.ctxcmd := rfl
@[simp] theorem State.setCluster_ctxDie (s : State) (c : Nat) (v : Cluster) : (s.setCluster c v).ctxDie = s.ctxDie := rfl
@[simp] theorem State.setCluster_pwrcap (s : State) (c : Nat) (v : Cluster) : (s.setCluster c v).pwrcap = s.pwrcap := rfl
@[simp] theorem State.setCluster_mbaddr (s : State) (c : Nat) (v : Cluster) : (s.setCluster c v).mbaddr = s.mbaddr := rfl
@[simp] theorem State.setCluster_mblen (s : State) (c : Nat) (v : Cluster) : (s.setCluster c v).mblen = s.mblen := rfl
@[simp] theorem State.setCluster_mbfail (s : State) (c : Nat) (v : Cluster) : (s.setCluster c v).mbfail = s.mbfail := rfl
@[simp] theorem State.setCluster_mbready (s : State) (c : Nat) (v : Cluster) : (s.setCluster c v).mbready = s.mbready := rfl
@[simp] theorem State.setCluster_fwImage (s : State) (c : Nat) (v : Cluster) : (s.setCluster c v).fwImage = s.fwImage := rfl
@[simp] theorem State.setCluster_caphbm (s : State) (c : Nat) (v : Cluster) : (s.setCluster c v).caphbm = s.caphbm := rfl
@[simp] theorem State.setCluster_deadPch (s : State) (c : Nat) (v : Cluster) : (s.setCluster c v).deadPch = s.deadPch := rfl
@[simp] theorem State.setCluster_posted (s : State) (c : Nat) (v : Cluster) : (s.setCluster c v).posted = s.posted := rfl
@[simp] theorem State.setCluster_moves (s : State) (c : Nat) (v : Cluster) : (s.setCluster c v).moves = s.moves := rfl
@[simp] theorem State.setCluster_kept (s : State) (c : Nat) (v : Cluster) : (s.setCluster c v).kept = s.kept := rfl
@[simp] theorem State.setCluster_areas (s : State) (c : Nat) (v : Cluster) : (s.setCluster c v).areas = s.areas := rfl
@[simp] theorem State.setCluster_copies (s : State) (c : Nat) (v : Cluster) : (s.setCluster c v).copies = s.copies := rfl
@[simp] theorem State.setCluster_touched (s : State) (c : Nat) (v : Cluster) : (s.setCluster c v).touched = s.touched := rfl
@[simp] theorem State.setCluster_peers (s : State) (c : Nat) (v : Cluster) : (s.setCluster c v).peers = s.peers := rfl
@[simp] theorem State.setCluster_unitGot (s : State) (c : Nat) (v : Cluster) : (s.setCluster c v).unitGot = s.unitGot := rfl
@[simp] theorem State.setCluster_outbox (s : State) (c : Nat) (v : Cluster) : (s.setCluster c v).outbox = s.outbox := rfl
@[simp] theorem State.setCluster_agenda (s : State) (c : Nat) (v : Cluster) : (s.setCluster c v).agenda = s.agenda := rfl
@[simp] theorem State.setCluster_rota (s : State) (c : Nat) (v : Cluster) : (s.setCluster c v).rota = s.rota := rfl
@[simp] theorem State.setCluster_cur (s : State) (c : Nat) (v : Cluster) : (s.setCluster c v).cur = s.cur := rfl
@[simp] theorem State.setCluster_fresh (s : State) (c : Nat) (v : Cluster) : (s.setCluster c v).fresh = s.fresh := rfl
@[simp] theorem State.setCluster_steps (s : State) (c : Nat) (v : Cluster) : (s.setCluster c v).steps = s.steps := rfl

/-! `setDie` -/

@[simp] theorem State.setDie_mem (s : State) (d : Nat) (v : Die) : (s.setDie d v).mem = s.mem := rfl
@[simp] theorem State.setDie_pairs (s : State) (d : Nat) (v : Die) : (s.setDie d v).pairs = s.pairs := rfl
@[simp] theorem State.setDie_clusters (s : State) (d : Nat) (v : Die) : (s.setDie d v).clusters = s.clusters := rfl
@[simp] theorem State.setDie_caches (s : State) (d : Nat) (v : Die) : (s.setDie d v).caches = s.caches := rfl
@[simp] theorem State.setDie_ctxs (s : State) (d : Nat) (v : Die) : (s.setDie d v).ctxs = s.ctxs := rfl
@[simp] theorem State.setDie_vfs (s : State) (d : Nat) (v : Die) : (s.setDie d v).vfs = s.vfs := rfl
@[simp] theorem State.setDie_vfEnable (s : State) (d : Nat) (v : Die) : (s.setDie d v).vfEnable = s.vfEnable := rfl
@[simp] theorem State.setDie_vfBar (s : State) (d : Nat) (v : Die) : (s.setDie d v).vfBar = s.vfBar := rfl
@[simp] theorem State.setDie_ides (s : State) (d : Nat) (v : Die) : (s.setDie d v).ides = s.ides := rfl
@[simp] theorem State.setDie_spdm (s : State) (d : Nat) (v : Die) : (s.setDie d v).spdm = s.spdm := rfl
@[simp] theorem State.setDie_cycle (s : State) (d : Nat) (v : Die) : (s.setDie d v).cycle = s.cycle := rfl
@[simp] theorem State.setDie_ringbase (s : State) (d : Nat) (v : Die) : (s.setDie d v).ringbase = s.ringbase := rfl
@[simp] theorem State.setDie_savepool (s : State) (d : Nat) (v : Die) : (s.setDie d v).savepool = s.savepool := rfl
@[simp] theorem State.setDie_expap (s : State) (d : Nat) (v : Die) : (s.setDie d v).expap = s.expap := rfl
@[simp] theorem State.setDie_devnum (s : State) (d : Nat) (v : Die) : (s.setDie d v).devnum = s.devnum := rfl
@[simp] theorem State.setDie_ctxcmd (s : State) (d : Nat) (v : Die) : (s.setDie d v).ctxcmd = s.ctxcmd := rfl
@[simp] theorem State.setDie_ctxDie (s : State) (d : Nat) (v : Die) : (s.setDie d v).ctxDie = s.ctxDie := rfl
@[simp] theorem State.setDie_pwrcap (s : State) (d : Nat) (v : Die) : (s.setDie d v).pwrcap = s.pwrcap := rfl
@[simp] theorem State.setDie_mbaddr (s : State) (d : Nat) (v : Die) : (s.setDie d v).mbaddr = s.mbaddr := rfl
@[simp] theorem State.setDie_mblen (s : State) (d : Nat) (v : Die) : (s.setDie d v).mblen = s.mblen := rfl
@[simp] theorem State.setDie_mbfail (s : State) (d : Nat) (v : Die) : (s.setDie d v).mbfail = s.mbfail := rfl
@[simp] theorem State.setDie_mbready (s : State) (d : Nat) (v : Die) : (s.setDie d v).mbready = s.mbready := rfl
@[simp] theorem State.setDie_fwImage (s : State) (d : Nat) (v : Die) : (s.setDie d v).fwImage = s.fwImage := rfl
@[simp] theorem State.setDie_caphbm (s : State) (d : Nat) (v : Die) : (s.setDie d v).caphbm = s.caphbm := rfl
@[simp] theorem State.setDie_deadPch (s : State) (d : Nat) (v : Die) : (s.setDie d v).deadPch = s.deadPch := rfl
@[simp] theorem State.setDie_posted (s : State) (d : Nat) (v : Die) : (s.setDie d v).posted = s.posted := rfl
@[simp] theorem State.setDie_moves (s : State) (d : Nat) (v : Die) : (s.setDie d v).moves = s.moves := rfl
@[simp] theorem State.setDie_kept (s : State) (d : Nat) (v : Die) : (s.setDie d v).kept = s.kept := rfl
@[simp] theorem State.setDie_areas (s : State) (d : Nat) (v : Die) : (s.setDie d v).areas = s.areas := rfl
@[simp] theorem State.setDie_copies (s : State) (d : Nat) (v : Die) : (s.setDie d v).copies = s.copies := rfl
@[simp] theorem State.setDie_touched (s : State) (d : Nat) (v : Die) : (s.setDie d v).touched = s.touched := rfl
@[simp] theorem State.setDie_peers (s : State) (d : Nat) (v : Die) : (s.setDie d v).peers = s.peers := rfl
@[simp] theorem State.setDie_unitGot (s : State) (d : Nat) (v : Die) : (s.setDie d v).unitGot = s.unitGot := rfl
@[simp] theorem State.setDie_outbox (s : State) (d : Nat) (v : Die) : (s.setDie d v).outbox = s.outbox := rfl
@[simp] theorem State.setDie_agenda (s : State) (d : Nat) (v : Die) : (s.setDie d v).agenda = s.agenda := rfl
@[simp] theorem State.setDie_rota (s : State) (d : Nat) (v : Die) : (s.setDie d v).rota = s.rota := rfl
@[simp] theorem State.setDie_cur (s : State) (d : Nat) (v : Die) : (s.setDie d v).cur = s.cur := rfl
@[simp] theorem State.setDie_fresh (s : State) (d : Nat) (v : Die) : (s.setDie d v).fresh = s.fresh := rfl
@[simp] theorem State.setDie_steps (s : State) (d : Nat) (v : Die) : (s.setDie d v).steps = s.steps := rfl

/-! `setCtx` -/

@[simp] theorem State.setCtx_mem (s : State) (c : Nat) (v : Ctx) : (s.setCtx c v).mem = s.mem := rfl
@[simp] theorem State.setCtx_pairs (s : State) (c : Nat) (v : Ctx) : (s.setCtx c v).pairs = s.pairs := rfl
@[simp] theorem State.setCtx_clusters (s : State) (c : Nat) (v : Ctx) : (s.setCtx c v).clusters = s.clusters := rfl
@[simp] theorem State.setCtx_caches (s : State) (c : Nat) (v : Ctx) : (s.setCtx c v).caches = s.caches := rfl
@[simp] theorem State.setCtx_dies (s : State) (c : Nat) (v : Ctx) : (s.setCtx c v).dies = s.dies := rfl
@[simp] theorem State.setCtx_vfs (s : State) (c : Nat) (v : Ctx) : (s.setCtx c v).vfs = s.vfs := rfl
@[simp] theorem State.setCtx_vfEnable (s : State) (c : Nat) (v : Ctx) : (s.setCtx c v).vfEnable = s.vfEnable := rfl
@[simp] theorem State.setCtx_vfBar (s : State) (c : Nat) (v : Ctx) : (s.setCtx c v).vfBar = s.vfBar := rfl
@[simp] theorem State.setCtx_ides (s : State) (c : Nat) (v : Ctx) : (s.setCtx c v).ides = s.ides := rfl
@[simp] theorem State.setCtx_spdm (s : State) (c : Nat) (v : Ctx) : (s.setCtx c v).spdm = s.spdm := rfl
@[simp] theorem State.setCtx_cycle (s : State) (c : Nat) (v : Ctx) : (s.setCtx c v).cycle = s.cycle := rfl
@[simp] theorem State.setCtx_ringbase (s : State) (c : Nat) (v : Ctx) : (s.setCtx c v).ringbase = s.ringbase := rfl
@[simp] theorem State.setCtx_savepool (s : State) (c : Nat) (v : Ctx) : (s.setCtx c v).savepool = s.savepool := rfl
@[simp] theorem State.setCtx_expap (s : State) (c : Nat) (v : Ctx) : (s.setCtx c v).expap = s.expap := rfl
@[simp] theorem State.setCtx_devnum (s : State) (c : Nat) (v : Ctx) : (s.setCtx c v).devnum = s.devnum := rfl
@[simp] theorem State.setCtx_ctxcmd (s : State) (c : Nat) (v : Ctx) : (s.setCtx c v).ctxcmd = s.ctxcmd := rfl
@[simp] theorem State.setCtx_ctxDie (s : State) (c : Nat) (v : Ctx) : (s.setCtx c v).ctxDie = s.ctxDie := rfl
@[simp] theorem State.setCtx_pwrcap (s : State) (c : Nat) (v : Ctx) : (s.setCtx c v).pwrcap = s.pwrcap := rfl
@[simp] theorem State.setCtx_mbaddr (s : State) (c : Nat) (v : Ctx) : (s.setCtx c v).mbaddr = s.mbaddr := rfl
@[simp] theorem State.setCtx_mblen (s : State) (c : Nat) (v : Ctx) : (s.setCtx c v).mblen = s.mblen := rfl
@[simp] theorem State.setCtx_mbfail (s : State) (c : Nat) (v : Ctx) : (s.setCtx c v).mbfail = s.mbfail := rfl
@[simp] theorem State.setCtx_mbready (s : State) (c : Nat) (v : Ctx) : (s.setCtx c v).mbready = s.mbready := rfl
@[simp] theorem State.setCtx_fwImage (s : State) (c : Nat) (v : Ctx) : (s.setCtx c v).fwImage = s.fwImage := rfl
@[simp] theorem State.setCtx_caphbm (s : State) (c : Nat) (v : Ctx) : (s.setCtx c v).caphbm = s.caphbm := rfl
@[simp] theorem State.setCtx_deadPch (s : State) (c : Nat) (v : Ctx) : (s.setCtx c v).deadPch = s.deadPch := rfl
@[simp] theorem State.setCtx_posted (s : State) (c : Nat) (v : Ctx) : (s.setCtx c v).posted = s.posted := rfl
@[simp] theorem State.setCtx_moves (s : State) (c : Nat) (v : Ctx) : (s.setCtx c v).moves = s.moves := rfl
@[simp] theorem State.setCtx_kept (s : State) (c : Nat) (v : Ctx) : (s.setCtx c v).kept = s.kept := rfl
@[simp] theorem State.setCtx_areas (s : State) (c : Nat) (v : Ctx) : (s.setCtx c v).areas = s.areas := rfl
@[simp] theorem State.setCtx_copies (s : State) (c : Nat) (v : Ctx) : (s.setCtx c v).copies = s.copies := rfl
@[simp] theorem State.setCtx_touched (s : State) (c : Nat) (v : Ctx) : (s.setCtx c v).touched = s.touched := rfl
@[simp] theorem State.setCtx_peers (s : State) (c : Nat) (v : Ctx) : (s.setCtx c v).peers = s.peers := rfl
@[simp] theorem State.setCtx_unitGot (s : State) (c : Nat) (v : Ctx) : (s.setCtx c v).unitGot = s.unitGot := rfl
@[simp] theorem State.setCtx_outbox (s : State) (c : Nat) (v : Ctx) : (s.setCtx c v).outbox = s.outbox := rfl
@[simp] theorem State.setCtx_agenda (s : State) (c : Nat) (v : Ctx) : (s.setCtx c v).agenda = s.agenda := rfl
@[simp] theorem State.setCtx_rota (s : State) (c : Nat) (v : Ctx) : (s.setCtx c v).rota = s.rota := rfl
@[simp] theorem State.setCtx_cur (s : State) (c : Nat) (v : Ctx) : (s.setCtx c v).cur = s.cur := rfl
@[simp] theorem State.setCtx_fresh (s : State) (c : Nat) (v : Ctx) : (s.setCtx c v).fresh = s.fresh := rfl
@[simp] theorem State.setCtx_steps (s : State) (c : Nat) (v : Ctx) : (s.setCtx c v).steps = s.steps := rfl

/-! `setCache` -/

@[simp] theorem State.setCache_mem (s : State) (c : Nat) (v : Tab Line) : (s.setCache c v).mem = s.mem := rfl
@[simp] theorem State.setCache_pairs (s : State) (c : Nat) (v : Tab Line) : (s.setCache c v).pairs = s.pairs := rfl
@[simp] theorem State.setCache_clusters (s : State) (c : Nat) (v : Tab Line) : (s.setCache c v).clusters = s.clusters := rfl
@[simp] theorem State.setCache_dies (s : State) (c : Nat) (v : Tab Line) : (s.setCache c v).dies = s.dies := rfl
@[simp] theorem State.setCache_ctxs (s : State) (c : Nat) (v : Tab Line) : (s.setCache c v).ctxs = s.ctxs := rfl
@[simp] theorem State.setCache_vfs (s : State) (c : Nat) (v : Tab Line) : (s.setCache c v).vfs = s.vfs := rfl
@[simp] theorem State.setCache_vfEnable (s : State) (c : Nat) (v : Tab Line) : (s.setCache c v).vfEnable = s.vfEnable := rfl
@[simp] theorem State.setCache_vfBar (s : State) (c : Nat) (v : Tab Line) : (s.setCache c v).vfBar = s.vfBar := rfl
@[simp] theorem State.setCache_ides (s : State) (c : Nat) (v : Tab Line) : (s.setCache c v).ides = s.ides := rfl
@[simp] theorem State.setCache_spdm (s : State) (c : Nat) (v : Tab Line) : (s.setCache c v).spdm = s.spdm := rfl
@[simp] theorem State.setCache_cycle (s : State) (c : Nat) (v : Tab Line) : (s.setCache c v).cycle = s.cycle := rfl
@[simp] theorem State.setCache_ringbase (s : State) (c : Nat) (v : Tab Line) : (s.setCache c v).ringbase = s.ringbase := rfl
@[simp] theorem State.setCache_savepool (s : State) (c : Nat) (v : Tab Line) : (s.setCache c v).savepool = s.savepool := rfl
@[simp] theorem State.setCache_expap (s : State) (c : Nat) (v : Tab Line) : (s.setCache c v).expap = s.expap := rfl
@[simp] theorem State.setCache_devnum (s : State) (c : Nat) (v : Tab Line) : (s.setCache c v).devnum = s.devnum := rfl
@[simp] theorem State.setCache_ctxcmd (s : State) (c : Nat) (v : Tab Line) : (s.setCache c v).ctxcmd = s.ctxcmd := rfl
@[simp] theorem State.setCache_ctxDie (s : State) (c : Nat) (v : Tab Line) : (s.setCache c v).ctxDie = s.ctxDie := rfl
@[simp] theorem State.setCache_pwrcap (s : State) (c : Nat) (v : Tab Line) : (s.setCache c v).pwrcap = s.pwrcap := rfl
@[simp] theorem State.setCache_mbaddr (s : State) (c : Nat) (v : Tab Line) : (s.setCache c v).mbaddr = s.mbaddr := rfl
@[simp] theorem State.setCache_mblen (s : State) (c : Nat) (v : Tab Line) : (s.setCache c v).mblen = s.mblen := rfl
@[simp] theorem State.setCache_mbfail (s : State) (c : Nat) (v : Tab Line) : (s.setCache c v).mbfail = s.mbfail := rfl
@[simp] theorem State.setCache_mbready (s : State) (c : Nat) (v : Tab Line) : (s.setCache c v).mbready = s.mbready := rfl
@[simp] theorem State.setCache_fwImage (s : State) (c : Nat) (v : Tab Line) : (s.setCache c v).fwImage = s.fwImage := rfl
@[simp] theorem State.setCache_caphbm (s : State) (c : Nat) (v : Tab Line) : (s.setCache c v).caphbm = s.caphbm := rfl
@[simp] theorem State.setCache_deadPch (s : State) (c : Nat) (v : Tab Line) : (s.setCache c v).deadPch = s.deadPch := rfl
@[simp] theorem State.setCache_posted (s : State) (c : Nat) (v : Tab Line) : (s.setCache c v).posted = s.posted := rfl
@[simp] theorem State.setCache_moves (s : State) (c : Nat) (v : Tab Line) : (s.setCache c v).moves = s.moves := rfl
@[simp] theorem State.setCache_kept (s : State) (c : Nat) (v : Tab Line) : (s.setCache c v).kept = s.kept := rfl
@[simp] theorem State.setCache_areas (s : State) (c : Nat) (v : Tab Line) : (s.setCache c v).areas = s.areas := rfl
@[simp] theorem State.setCache_copies (s : State) (c : Nat) (v : Tab Line) : (s.setCache c v).copies = s.copies := rfl
@[simp] theorem State.setCache_touched (s : State) (c : Nat) (v : Tab Line) : (s.setCache c v).touched = s.touched := rfl
@[simp] theorem State.setCache_peers (s : State) (c : Nat) (v : Tab Line) : (s.setCache c v).peers = s.peers := rfl
@[simp] theorem State.setCache_unitGot (s : State) (c : Nat) (v : Tab Line) : (s.setCache c v).unitGot = s.unitGot := rfl
@[simp] theorem State.setCache_outbox (s : State) (c : Nat) (v : Tab Line) : (s.setCache c v).outbox = s.outbox := rfl
@[simp] theorem State.setCache_agenda (s : State) (c : Nat) (v : Tab Line) : (s.setCache c v).agenda = s.agenda := rfl
@[simp] theorem State.setCache_rota (s : State) (c : Nat) (v : Tab Line) : (s.setCache c v).rota = s.rota := rfl
@[simp] theorem State.setCache_cur (s : State) (c : Nat) (v : Tab Line) : (s.setCache c v).cur = s.cur := rfl
@[simp] theorem State.setCache_fresh (s : State) (c : Nat) (v : Tab Line) : (s.setCache c v).fresh = s.fresh := rfl
@[simp] theorem State.setCache_steps (s : State) (c : Nat) (v : Tab Line) : (s.setCache c v).steps = s.steps := rfl

/-! `setVf` -/

@[simp] theorem State.setVf_mem (s : State) (n : Nat) (v : Vf) : (s.setVf n v).mem = s.mem := rfl
@[simp] theorem State.setVf_pairs (s : State) (n : Nat) (v : Vf) : (s.setVf n v).pairs = s.pairs := rfl
@[simp] theorem State.setVf_clusters (s : State) (n : Nat) (v : Vf) : (s.setVf n v).clusters = s.clusters := rfl
@[simp] theorem State.setVf_caches (s : State) (n : Nat) (v : Vf) : (s.setVf n v).caches = s.caches := rfl
@[simp] theorem State.setVf_dies (s : State) (n : Nat) (v : Vf) : (s.setVf n v).dies = s.dies := rfl
@[simp] theorem State.setVf_ctxs (s : State) (n : Nat) (v : Vf) : (s.setVf n v).ctxs = s.ctxs := rfl
@[simp] theorem State.setVf_vfEnable (s : State) (n : Nat) (v : Vf) : (s.setVf n v).vfEnable = s.vfEnable := rfl
@[simp] theorem State.setVf_vfBar (s : State) (n : Nat) (v : Vf) : (s.setVf n v).vfBar = s.vfBar := rfl
@[simp] theorem State.setVf_ides (s : State) (n : Nat) (v : Vf) : (s.setVf n v).ides = s.ides := rfl
@[simp] theorem State.setVf_spdm (s : State) (n : Nat) (v : Vf) : (s.setVf n v).spdm = s.spdm := rfl
@[simp] theorem State.setVf_cycle (s : State) (n : Nat) (v : Vf) : (s.setVf n v).cycle = s.cycle := rfl
@[simp] theorem State.setVf_ringbase (s : State) (n : Nat) (v : Vf) : (s.setVf n v).ringbase = s.ringbase := rfl
@[simp] theorem State.setVf_savepool (s : State) (n : Nat) (v : Vf) : (s.setVf n v).savepool = s.savepool := rfl
@[simp] theorem State.setVf_expap (s : State) (n : Nat) (v : Vf) : (s.setVf n v).expap = s.expap := rfl
@[simp] theorem State.setVf_devnum (s : State) (n : Nat) (v : Vf) : (s.setVf n v).devnum = s.devnum := rfl
@[simp] theorem State.setVf_ctxcmd (s : State) (n : Nat) (v : Vf) : (s.setVf n v).ctxcmd = s.ctxcmd := rfl
@[simp] theorem State.setVf_ctxDie (s : State) (n : Nat) (v : Vf) : (s.setVf n v).ctxDie = s.ctxDie := rfl
@[simp] theorem State.setVf_pwrcap (s : State) (n : Nat) (v : Vf) : (s.setVf n v).pwrcap = s.pwrcap := rfl
@[simp] theorem State.setVf_mbaddr (s : State) (n : Nat) (v : Vf) : (s.setVf n v).mbaddr = s.mbaddr := rfl
@[simp] theorem State.setVf_mblen (s : State) (n : Nat) (v : Vf) : (s.setVf n v).mblen = s.mblen := rfl
@[simp] theorem State.setVf_mbfail (s : State) (n : Nat) (v : Vf) : (s.setVf n v).mbfail = s.mbfail := rfl
@[simp] theorem State.setVf_mbready (s : State) (n : Nat) (v : Vf) : (s.setVf n v).mbready = s.mbready := rfl
@[simp] theorem State.setVf_fwImage (s : State) (n : Nat) (v : Vf) : (s.setVf n v).fwImage = s.fwImage := rfl
@[simp] theorem State.setVf_caphbm (s : State) (n : Nat) (v : Vf) : (s.setVf n v).caphbm = s.caphbm := rfl
@[simp] theorem State.setVf_deadPch (s : State) (n : Nat) (v : Vf) : (s.setVf n v).deadPch = s.deadPch := rfl
@[simp] theorem State.setVf_posted (s : State) (n : Nat) (v : Vf) : (s.setVf n v).posted = s.posted := rfl
@[simp] theorem State.setVf_moves (s : State) (n : Nat) (v : Vf) : (s.setVf n v).moves = s.moves := rfl
@[simp] theorem State.setVf_kept (s : State) (n : Nat) (v : Vf) : (s.setVf n v).kept = s.kept := rfl
@[simp] theorem State.setVf_areas (s : State) (n : Nat) (v : Vf) : (s.setVf n v).areas = s.areas := rfl
@[simp] theorem State.setVf_copies (s : State) (n : Nat) (v : Vf) : (s.setVf n v).copies = s.copies := rfl
@[simp] theorem State.setVf_touched (s : State) (n : Nat) (v : Vf) : (s.setVf n v).touched = s.touched := rfl
@[simp] theorem State.setVf_peers (s : State) (n : Nat) (v : Vf) : (s.setVf n v).peers = s.peers := rfl
@[simp] theorem State.setVf_unitGot (s : State) (n : Nat) (v : Vf) : (s.setVf n v).unitGot = s.unitGot := rfl
@[simp] theorem State.setVf_outbox (s : State) (n : Nat) (v : Vf) : (s.setVf n v).outbox = s.outbox := rfl
@[simp] theorem State.setVf_agenda (s : State) (n : Nat) (v : Vf) : (s.setVf n v).agenda = s.agenda := rfl
@[simp] theorem State.setVf_rota (s : State) (n : Nat) (v : Vf) : (s.setVf n v).rota = s.rota := rfl
@[simp] theorem State.setVf_cur (s : State) (n : Nat) (v : Vf) : (s.setVf n v).cur = s.cur := rfl
@[simp] theorem State.setVf_fresh (s : State) (n : Nat) (v : Vf) : (s.setVf n v).fresh = s.fresh := rfl
@[simp] theorem State.setVf_steps (s : State) (n : Nat) (v : Vf) : (s.setVf n v).steps = s.steps := rfl

/-! `setMem` -/

@[simp] theorem State.setMem_pairs (s : State) (m : Mem) : (s.setMem m).pairs = s.pairs := rfl
@[simp] theorem State.setMem_clusters (s : State) (m : Mem) : (s.setMem m).clusters = s.clusters := rfl
@[simp] theorem State.setMem_caches (s : State) (m : Mem) : (s.setMem m).caches = s.caches := rfl
@[simp] theorem State.setMem_dies (s : State) (m : Mem) : (s.setMem m).dies = s.dies := rfl
@[simp] theorem State.setMem_ctxs (s : State) (m : Mem) : (s.setMem m).ctxs = s.ctxs := rfl
@[simp] theorem State.setMem_vfs (s : State) (m : Mem) : (s.setMem m).vfs = s.vfs := rfl
@[simp] theorem State.setMem_vfEnable (s : State) (m : Mem) : (s.setMem m).vfEnable = s.vfEnable := rfl
@[simp] theorem State.setMem_vfBar (s : State) (m : Mem) : (s.setMem m).vfBar = s.vfBar := rfl
@[simp] theorem State.setMem_ides (s : State) (m : Mem) : (s.setMem m).ides = s.ides := rfl
@[simp] theorem State.setMem_spdm (s : State) (m : Mem) : (s.setMem m).spdm = s.spdm := rfl
@[simp] theorem State.setMem_cycle (s : State) (m : Mem) : (s.setMem m).cycle = s.cycle := rfl
@[simp] theorem State.setMem_ringbase (s : State) (m : Mem) : (s.setMem m).ringbase = s.ringbase := rfl
@[simp] theorem State.setMem_savepool (s : State) (m : Mem) : (s.setMem m).savepool = s.savepool := rfl
@[simp] theorem State.setMem_expap (s : State) (m : Mem) : (s.setMem m).expap = s.expap := rfl
@[simp] theorem State.setMem_devnum (s : State) (m : Mem) : (s.setMem m).devnum = s.devnum := rfl
@[simp] theorem State.setMem_ctxcmd (s : State) (m : Mem) : (s.setMem m).ctxcmd = s.ctxcmd := rfl
@[simp] theorem State.setMem_ctxDie (s : State) (m : Mem) : (s.setMem m).ctxDie = s.ctxDie := rfl
@[simp] theorem State.setMem_pwrcap (s : State) (m : Mem) : (s.setMem m).pwrcap = s.pwrcap := rfl
@[simp] theorem State.setMem_mbaddr (s : State) (m : Mem) : (s.setMem m).mbaddr = s.mbaddr := rfl
@[simp] theorem State.setMem_mblen (s : State) (m : Mem) : (s.setMem m).mblen = s.mblen := rfl
@[simp] theorem State.setMem_mbfail (s : State) (m : Mem) : (s.setMem m).mbfail = s.mbfail := rfl
@[simp] theorem State.setMem_mbready (s : State) (m : Mem) : (s.setMem m).mbready = s.mbready := rfl
@[simp] theorem State.setMem_fwImage (s : State) (m : Mem) : (s.setMem m).fwImage = s.fwImage := rfl
@[simp] theorem State.setMem_caphbm (s : State) (m : Mem) : (s.setMem m).caphbm = s.caphbm := rfl
@[simp] theorem State.setMem_deadPch (s : State) (m : Mem) : (s.setMem m).deadPch = s.deadPch := rfl
@[simp] theorem State.setMem_posted (s : State) (m : Mem) : (s.setMem m).posted = s.posted := rfl
@[simp] theorem State.setMem_moves (s : State) (m : Mem) : (s.setMem m).moves = s.moves := rfl
@[simp] theorem State.setMem_kept (s : State) (m : Mem) : (s.setMem m).kept = s.kept := rfl
@[simp] theorem State.setMem_areas (s : State) (m : Mem) : (s.setMem m).areas = s.areas := rfl
@[simp] theorem State.setMem_copies (s : State) (m : Mem) : (s.setMem m).copies = s.copies := rfl
@[simp] theorem State.setMem_touched (s : State) (m : Mem) : (s.setMem m).touched = s.touched := rfl
@[simp] theorem State.setMem_peers (s : State) (m : Mem) : (s.setMem m).peers = s.peers := rfl
@[simp] theorem State.setMem_unitGot (s : State) (m : Mem) : (s.setMem m).unitGot = s.unitGot := rfl
@[simp] theorem State.setMem_outbox (s : State) (m : Mem) : (s.setMem m).outbox = s.outbox := rfl
@[simp] theorem State.setMem_agenda (s : State) (m : Mem) : (s.setMem m).agenda = s.agenda := rfl
@[simp] theorem State.setMem_rota (s : State) (m : Mem) : (s.setMem m).rota = s.rota := rfl
@[simp] theorem State.setMem_cur (s : State) (m : Mem) : (s.setMem m).cur = s.cur := rfl
@[simp] theorem State.setMem_fresh (s : State) (m : Mem) : (s.setMem m).fresh = s.fresh := rfl
@[simp] theorem State.setMem_steps (s : State) (m : Mem) : (s.setMem m).steps = s.steps := rfl

/-! `send` -/

@[simp] theorem State.send_mem (s : State) (m : Msg) : (s.send m).mem = s.mem := rfl
@[simp] theorem State.send_pairs (s : State) (m : Msg) : (s.send m).pairs = s.pairs := rfl
@[simp] theorem State.send_clusters (s : State) (m : Msg) : (s.send m).clusters = s.clusters := rfl
@[simp] theorem State.send_caches (s : State) (m : Msg) : (s.send m).caches = s.caches := rfl
@[simp] theorem State.send_dies (s : State) (m : Msg) : (s.send m).dies = s.dies := rfl
@[simp] theorem State.send_ctxs (s : State) (m : Msg) : (s.send m).ctxs = s.ctxs := rfl
@[simp] theorem State.send_vfs (s : State) (m : Msg) : (s.send m).vfs = s.vfs := rfl
@[simp] theorem State.send_vfEnable (s : State) (m : Msg) : (s.send m).vfEnable = s.vfEnable := rfl
@[simp] theorem State.send_vfBar (s : State) (m : Msg) : (s.send m).vfBar = s.vfBar := rfl
@[simp] theorem State.send_ides (s : State) (m : Msg) : (s.send m).ides = s.ides := rfl
@[simp] theorem State.send_spdm (s : State) (m : Msg) : (s.send m).spdm = s.spdm := rfl
@[simp] theorem State.send_cycle (s : State) (m : Msg) : (s.send m).cycle = s.cycle := rfl
@[simp] theorem State.send_ringbase (s : State) (m : Msg) : (s.send m).ringbase = s.ringbase := rfl
@[simp] theorem State.send_savepool (s : State) (m : Msg) : (s.send m).savepool = s.savepool := rfl
@[simp] theorem State.send_expap (s : State) (m : Msg) : (s.send m).expap = s.expap := rfl
@[simp] theorem State.send_devnum (s : State) (m : Msg) : (s.send m).devnum = s.devnum := rfl
@[simp] theorem State.send_ctxcmd (s : State) (m : Msg) : (s.send m).ctxcmd = s.ctxcmd := rfl
@[simp] theorem State.send_ctxDie (s : State) (m : Msg) : (s.send m).ctxDie = s.ctxDie := rfl
@[simp] theorem State.send_pwrcap (s : State) (m : Msg) : (s.send m).pwrcap = s.pwrcap := rfl
@[simp] theorem State.send_mbaddr (s : State) (m : Msg) : (s.send m).mbaddr = s.mbaddr := rfl
@[simp] theorem State.send_mblen (s : State) (m : Msg) : (s.send m).mblen = s.mblen := rfl
@[simp] theorem State.send_mbfail (s : State) (m : Msg) : (s.send m).mbfail = s.mbfail := rfl
@[simp] theorem State.send_mbready (s : State) (m : Msg) : (s.send m).mbready = s.mbready := rfl
@[simp] theorem State.send_fwImage (s : State) (m : Msg) : (s.send m).fwImage = s.fwImage := rfl
@[simp] theorem State.send_caphbm (s : State) (m : Msg) : (s.send m).caphbm = s.caphbm := rfl
@[simp] theorem State.send_deadPch (s : State) (m : Msg) : (s.send m).deadPch = s.deadPch := rfl
@[simp] theorem State.send_posted (s : State) (m : Msg) : (s.send m).posted = s.posted := rfl
@[simp] theorem State.send_moves (s : State) (m : Msg) : (s.send m).moves = s.moves := rfl
@[simp] theorem State.send_kept (s : State) (m : Msg) : (s.send m).kept = s.kept := rfl
@[simp] theorem State.send_areas (s : State) (m : Msg) : (s.send m).areas = s.areas := rfl
@[simp] theorem State.send_copies (s : State) (m : Msg) : (s.send m).copies = s.copies := rfl
@[simp] theorem State.send_touched (s : State) (m : Msg) : (s.send m).touched = s.touched := rfl
@[simp] theorem State.send_peers (s : State) (m : Msg) : (s.send m).peers = s.peers := rfl
@[simp] theorem State.send_unitGot (s : State) (m : Msg) : (s.send m).unitGot = s.unitGot := rfl
@[simp] theorem State.send_agenda (s : State) (m : Msg) : (s.send m).agenda = s.agenda := rfl
@[simp] theorem State.send_rota (s : State) (m : Msg) : (s.send m).rota = s.rota := rfl
@[simp] theorem State.send_cur (s : State) (m : Msg) : (s.send m).cur = s.cur := rfl
@[simp] theorem State.send_fresh (s : State) (m : Msg) : (s.send m).fresh = s.fresh := rfl
@[simp] theorem State.send_steps (s : State) (m : Msg) : (s.send m).steps = s.steps := rfl

/-! `setRegion` -/

@[simp] theorem State.setRegion_mem (s : State) (c r : Nat) (e : Entry) : (s.setRegion c r e).mem = s.mem := rfl
@[simp] theorem State.setRegion_pairs (s : State) (c r : Nat) (e : Entry) : (s.setRegion c r e).pairs = s.pairs := rfl
@[simp] theorem State.setRegion_clusters (s : State) (c r : Nat) (e : Entry) : (s.setRegion c r e).clusters = s.clusters := rfl
@[simp] theorem State.setRegion_caches (s : State) (c r : Nat) (e : Entry) : (s.setRegion c r e).caches = s.caches := rfl
@[simp] theorem State.setRegion_dies (s : State) (c r : Nat) (e : Entry) : (s.setRegion c r e).dies = s.dies := rfl
@[simp] theorem State.setRegion_vfs (s : State) (c r : Nat) (e : Entry) : (s.setRegion c r e).vfs = s.vfs := rfl
@[simp] theorem State.setRegion_vfEnable (s : State) (c r : Nat) (e : Entry) : (s.setRegion c r e).vfEnable = s.vfEnable := rfl
@[simp] theorem State.setRegion_vfBar (s : State) (c r : Nat) (e : Entry) : (s.setRegion c r e).vfBar = s.vfBar := rfl
@[simp] theorem State.setRegion_ides (s : State) (c r : Nat) (e : Entry) : (s.setRegion c r e).ides = s.ides := rfl
@[simp] theorem State.setRegion_spdm (s : State) (c r : Nat) (e : Entry) : (s.setRegion c r e).spdm = s.spdm := rfl
@[simp] theorem State.setRegion_cycle (s : State) (c r : Nat) (e : Entry) : (s.setRegion c r e).cycle = s.cycle := rfl
@[simp] theorem State.setRegion_ringbase (s : State) (c r : Nat) (e : Entry) : (s.setRegion c r e).ringbase = s.ringbase := rfl
@[simp] theorem State.setRegion_savepool (s : State) (c r : Nat) (e : Entry) : (s.setRegion c r e).savepool = s.savepool := rfl
@[simp] theorem State.setRegion_expap (s : State) (c r : Nat) (e : Entry) : (s.setRegion c r e).expap = s.expap := rfl
@[simp] theorem State.setRegion_devnum (s : State) (c r : Nat) (e : Entry) : (s.setRegion c r e).devnum = s.devnum := rfl
@[simp] theorem State.setRegion_ctxcmd (s : State) (c r : Nat) (e : Entry) : (s.setRegion c r e).ctxcmd = s.ctxcmd := rfl
@[simp] theorem State.setRegion_ctxDie (s : State) (c r : Nat) (e : Entry) : (s.setRegion c r e).ctxDie = s.ctxDie := rfl
@[simp] theorem State.setRegion_pwrcap (s : State) (c r : Nat) (e : Entry) : (s.setRegion c r e).pwrcap = s.pwrcap := rfl
@[simp] theorem State.setRegion_mbaddr (s : State) (c r : Nat) (e : Entry) : (s.setRegion c r e).mbaddr = s.mbaddr := rfl
@[simp] theorem State.setRegion_mblen (s : State) (c r : Nat) (e : Entry) : (s.setRegion c r e).mblen = s.mblen := rfl
@[simp] theorem State.setRegion_mbfail (s : State) (c r : Nat) (e : Entry) : (s.setRegion c r e).mbfail = s.mbfail := rfl
@[simp] theorem State.setRegion_mbready (s : State) (c r : Nat) (e : Entry) : (s.setRegion c r e).mbready = s.mbready := rfl
@[simp] theorem State.setRegion_fwImage (s : State) (c r : Nat) (e : Entry) : (s.setRegion c r e).fwImage = s.fwImage := rfl
@[simp] theorem State.setRegion_caphbm (s : State) (c r : Nat) (e : Entry) : (s.setRegion c r e).caphbm = s.caphbm := rfl
@[simp] theorem State.setRegion_deadPch (s : State) (c r : Nat) (e : Entry) : (s.setRegion c r e).deadPch = s.deadPch := rfl
@[simp] theorem State.setRegion_posted (s : State) (c r : Nat) (e : Entry) : (s.setRegion c r e).posted = s.posted := rfl
@[simp] theorem State.setRegion_moves (s : State) (c r : Nat) (e : Entry) : (s.setRegion c r e).moves = s.moves := rfl
@[simp] theorem State.setRegion_kept (s : State) (c r : Nat) (e : Entry) : (s.setRegion c r e).kept = s.kept := rfl
@[simp] theorem State.setRegion_areas (s : State) (c r : Nat) (e : Entry) : (s.setRegion c r e).areas = s.areas := rfl
@[simp] theorem State.setRegion_copies (s : State) (c r : Nat) (e : Entry) : (s.setRegion c r e).copies = s.copies := rfl
@[simp] theorem State.setRegion_touched (s : State) (c r : Nat) (e : Entry) : (s.setRegion c r e).touched = s.touched := rfl
@[simp] theorem State.setRegion_peers (s : State) (c r : Nat) (e : Entry) : (s.setRegion c r e).peers = s.peers := rfl
@[simp] theorem State.setRegion_unitGot (s : State) (c r : Nat) (e : Entry) : (s.setRegion c r e).unitGot = s.unitGot := rfl
@[simp] theorem State.setRegion_outbox (s : State) (c r : Nat) (e : Entry) : (s.setRegion c r e).outbox = s.outbox := rfl
@[simp] theorem State.setRegion_agenda (s : State) (c r : Nat) (e : Entry) : (s.setRegion c r e).agenda = s.agenda := rfl
@[simp] theorem State.setRegion_rota (s : State) (c r : Nat) (e : Entry) : (s.setRegion c r e).rota = s.rota := rfl
@[simp] theorem State.setRegion_cur (s : State) (c r : Nat) (e : Entry) : (s.setRegion c r e).cur = s.cur := rfl
@[simp] theorem State.setRegion_fresh (s : State) (c r : Nat) (e : Entry) : (s.setRegion c r e).fresh = s.fresh := rfl
@[simp] theorem State.setRegion_steps (s : State) (c r : Nat) (e : Entry) : (s.setRegion c r e).steps = s.steps := rfl

/-! `updThr` -/

@[simp] theorem State.updThr_mem (s : State) (p : Nat) (k : Kind) (f : Thread → Thread) : (s.updThr p k f).mem = s.mem := rfl
@[simp] theorem State.updThr_clusters (s : State) (p : Nat) (k : Kind) (f : Thread → Thread) : (s.updThr p k f).clusters = s.clusters := rfl
@[simp] theorem State.updThr_caches (s : State) (p : Nat) (k : Kind) (f : Thread → Thread) : (s.updThr p k f).caches = s.caches := rfl
@[simp] theorem State.updThr_dies (s : State) (p : Nat) (k : Kind) (f : Thread → Thread) : (s.updThr p k f).dies = s.dies := rfl
@[simp] theorem State.updThr_ctxs (s : State) (p : Nat) (k : Kind) (f : Thread → Thread) : (s.updThr p k f).ctxs = s.ctxs := rfl
@[simp] theorem State.updThr_vfs (s : State) (p : Nat) (k : Kind) (f : Thread → Thread) : (s.updThr p k f).vfs = s.vfs := rfl
@[simp] theorem State.updThr_vfEnable (s : State) (p : Nat) (k : Kind) (f : Thread → Thread) : (s.updThr p k f).vfEnable = s.vfEnable := rfl
@[simp] theorem State.updThr_vfBar (s : State) (p : Nat) (k : Kind) (f : Thread → Thread) : (s.updThr p k f).vfBar = s.vfBar := rfl
@[simp] theorem State.updThr_ides (s : State) (p : Nat) (k : Kind) (f : Thread → Thread) : (s.updThr p k f).ides = s.ides := rfl
@[simp] theorem State.updThr_spdm (s : State) (p : Nat) (k : Kind) (f : Thread → Thread) : (s.updThr p k f).spdm = s.spdm := rfl
@[simp] theorem State.updThr_cycle (s : State) (p : Nat) (k : Kind) (f : Thread → Thread) : (s.updThr p k f).cycle = s.cycle := rfl
@[simp] theorem State.updThr_ringbase (s : State) (p : Nat) (k : Kind) (f : Thread → Thread) : (s.updThr p k f).ringbase = s.ringbase := rfl
@[simp] theorem State.updThr_savepool (s : State) (p : Nat) (k : Kind) (f : Thread → Thread) : (s.updThr p k f).savepool = s.savepool := rfl
@[simp] theorem State.updThr_expap (s : State) (p : Nat) (k : Kind) (f : Thread → Thread) : (s.updThr p k f).expap = s.expap := rfl
@[simp] theorem State.updThr_devnum (s : State) (p : Nat) (k : Kind) (f : Thread → Thread) : (s.updThr p k f).devnum = s.devnum := rfl
@[simp] theorem State.updThr_ctxcmd (s : State) (p : Nat) (k : Kind) (f : Thread → Thread) : (s.updThr p k f).ctxcmd = s.ctxcmd := rfl
@[simp] theorem State.updThr_ctxDie (s : State) (p : Nat) (k : Kind) (f : Thread → Thread) : (s.updThr p k f).ctxDie = s.ctxDie := rfl
@[simp] theorem State.updThr_pwrcap (s : State) (p : Nat) (k : Kind) (f : Thread → Thread) : (s.updThr p k f).pwrcap = s.pwrcap := rfl
@[simp] theorem State.updThr_mbaddr (s : State) (p : Nat) (k : Kind) (f : Thread → Thread) : (s.updThr p k f).mbaddr = s.mbaddr := rfl
@[simp] theorem State.updThr_mblen (s : State) (p : Nat) (k : Kind) (f : Thread → Thread) : (s.updThr p k f).mblen = s.mblen := rfl
@[simp] theorem State.updThr_mbfail (s : State) (p : Nat) (k : Kind) (f : Thread → Thread) : (s.updThr p k f).mbfail = s.mbfail := rfl
@[simp] theorem State.updThr_mbready (s : State) (p : Nat) (k : Kind) (f : Thread → Thread) : (s.updThr p k f).mbready = s.mbready := rfl
@[simp] theorem State.updThr_fwImage (s : State) (p : Nat) (k : Kind) (f : Thread → Thread) : (s.updThr p k f).fwImage = s.fwImage := rfl
@[simp] theorem State.updThr_caphbm (s : State) (p : Nat) (k : Kind) (f : Thread → Thread) : (s.updThr p k f).caphbm = s.caphbm := rfl
@[simp] theorem State.updThr_deadPch (s : State) (p : Nat) (k : Kind) (f : Thread → Thread) : (s.updThr p k f).deadPch = s.deadPch := rfl
@[simp] theorem State.updThr_posted (s : State) (p : Nat) (k : Kind) (f : Thread → Thread) : (s.updThr p k f).posted = s.posted := rfl
@[simp] theorem State.updThr_moves (s : State) (p : Nat) (k : Kind) (f : Thread → Thread) : (s.updThr p k f).moves = s.moves := rfl
@[simp] theorem State.updThr_kept (s : State) (p : Nat) (k : Kind) (f : Thread → Thread) : (s.updThr p k f).kept = s.kept := rfl
@[simp] theorem State.updThr_areas (s : State) (p : Nat) (k : Kind) (f : Thread → Thread) : (s.updThr p k f).areas = s.areas := rfl
@[simp] theorem State.updThr_copies (s : State) (p : Nat) (k : Kind) (f : Thread → Thread) : (s.updThr p k f).copies = s.copies := rfl
@[simp] theorem State.updThr_touched (s : State) (p : Nat) (k : Kind) (f : Thread → Thread) : (s.updThr p k f).touched = s.touched := rfl
@[simp] theorem State.updThr_peers (s : State) (p : Nat) (k : Kind) (f : Thread → Thread) : (s.updThr p k f).peers = s.peers := rfl
@[simp] theorem State.updThr_unitGot (s : State) (p : Nat) (k : Kind) (f : Thread → Thread) : (s.updThr p k f).unitGot = s.unitGot := rfl
@[simp] theorem State.updThr_outbox (s : State) (p : Nat) (k : Kind) (f : Thread → Thread) : (s.updThr p k f).outbox = s.outbox := rfl
@[simp] theorem State.updThr_agenda (s : State) (p : Nat) (k : Kind) (f : Thread → Thread) : (s.updThr p k f).agenda = s.agenda := rfl
@[simp] theorem State.updThr_rota (s : State) (p : Nat) (k : Kind) (f : Thread → Thread) : (s.updThr p k f).rota = s.rota := rfl
@[simp] theorem State.updThr_cur (s : State) (p : Nat) (k : Kind) (f : Thread → Thread) : (s.updThr p k f).cur = s.cur := rfl
@[simp] theorem State.updThr_fresh (s : State) (p : Nat) (k : Kind) (f : Thread → Thread) : (s.updThr p k f).fresh = s.fresh := rfl
@[simp] theorem State.updThr_steps (s : State) (p : Nat) (k : Kind) (f : Thread → Thread) : (s.updThr p k f).steps = s.steps := rfl

/-! `updPair` -/

@[simp] theorem State.updPair_mem (s : State) (p : Nat) (f : Pair → Pair) : (s.updPair p f).mem = s.mem := rfl
@[simp] theorem State.updPair_clusters (s : State) (p : Nat) (f : Pair → Pair) : (s.updPair p f).clusters = s.clusters := rfl
@[simp] theorem State.updPair_caches (s : State) (p : Nat) (f : Pair → Pair) : (s.updPair p f).caches = s.caches := rfl
@[simp] theorem State.updPair_dies (s : State) (p : Nat) (f : Pair → Pair) : (s.updPair p f).dies = s.dies := rfl
@[simp] theorem State.updPair_ctxs (s : State) (p : Nat) (f : Pair → Pair) : (s.updPair p f).ctxs = s.ctxs := rfl
@[simp] theorem State.updPair_vfs (s : State) (p : Nat) (f : Pair → Pair) : (s.updPair p f).vfs = s.vfs := rfl
@[simp] theorem State.updPair_vfEnable (s : State) (p : Nat) (f : Pair → Pair) : (s.updPair p f).vfEnable = s.vfEnable := rfl
@[simp] theorem State.updPair_vfBar (s : State) (p : Nat) (f : Pair → Pair) : (s.updPair p f).vfBar = s.vfBar := rfl
@[simp] theorem State.updPair_ides (s : State) (p : Nat) (f : Pair → Pair) : (s.updPair p f).ides = s.ides := rfl
@[simp] theorem State.updPair_spdm (s : State) (p : Nat) (f : Pair → Pair) : (s.updPair p f).spdm = s.spdm := rfl
@[simp] theorem State.updPair_cycle (s : State) (p : Nat) (f : Pair → Pair) : (s.updPair p f).cycle = s.cycle := rfl
@[simp] theorem State.updPair_ringbase (s : State) (p : Nat) (f : Pair → Pair) : (s.updPair p f).ringbase = s.ringbase := rfl
@[simp] theorem State.updPair_savepool (s : State) (p : Nat) (f : Pair → Pair) : (s.updPair p f).savepool = s.savepool := rfl
@[simp] theorem State.updPair_expap (s : State) (p : Nat) (f : Pair → Pair) : (s.updPair p f).expap = s.expap := rfl
@[simp] theorem State.updPair_devnum (s : State) (p : Nat) (f : Pair → Pair) : (s.updPair p f).devnum = s.devnum := rfl
@[simp] theorem State.updPair_ctxcmd (s : State) (p : Nat) (f : Pair → Pair) : (s.updPair p f).ctxcmd = s.ctxcmd := rfl
@[simp] theorem State.updPair_ctxDie (s : State) (p : Nat) (f : Pair → Pair) : (s.updPair p f).ctxDie = s.ctxDie := rfl
@[simp] theorem State.updPair_pwrcap (s : State) (p : Nat) (f : Pair → Pair) : (s.updPair p f).pwrcap = s.pwrcap := rfl
@[simp] theorem State.updPair_mbaddr (s : State) (p : Nat) (f : Pair → Pair) : (s.updPair p f).mbaddr = s.mbaddr := rfl
@[simp] theorem State.updPair_mblen (s : State) (p : Nat) (f : Pair → Pair) : (s.updPair p f).mblen = s.mblen := rfl
@[simp] theorem State.updPair_mbfail (s : State) (p : Nat) (f : Pair → Pair) : (s.updPair p f).mbfail = s.mbfail := rfl
@[simp] theorem State.updPair_mbready (s : State) (p : Nat) (f : Pair → Pair) : (s.updPair p f).mbready = s.mbready := rfl
@[simp] theorem State.updPair_fwImage (s : State) (p : Nat) (f : Pair → Pair) : (s.updPair p f).fwImage = s.fwImage := rfl
@[simp] theorem State.updPair_caphbm (s : State) (p : Nat) (f : Pair → Pair) : (s.updPair p f).caphbm = s.caphbm := rfl
@[simp] theorem State.updPair_deadPch (s : State) (p : Nat) (f : Pair → Pair) : (s.updPair p f).deadPch = s.deadPch := rfl
@[simp] theorem State.updPair_posted (s : State) (p : Nat) (f : Pair → Pair) : (s.updPair p f).posted = s.posted := rfl
@[simp] theorem State.updPair_moves (s : State) (p : Nat) (f : Pair → Pair) : (s.updPair p f).moves = s.moves := rfl
@[simp] theorem State.updPair_kept (s : State) (p : Nat) (f : Pair → Pair) : (s.updPair p f).kept = s.kept := rfl
@[simp] theorem State.updPair_areas (s : State) (p : Nat) (f : Pair → Pair) : (s.updPair p f).areas = s.areas := rfl
@[simp] theorem State.updPair_copies (s : State) (p : Nat) (f : Pair → Pair) : (s.updPair p f).copies = s.copies := rfl
@[simp] theorem State.updPair_touched (s : State) (p : Nat) (f : Pair → Pair) : (s.updPair p f).touched = s.touched := rfl
@[simp] theorem State.updPair_peers (s : State) (p : Nat) (f : Pair → Pair) : (s.updPair p f).peers = s.peers := rfl
@[simp] theorem State.updPair_unitGot (s : State) (p : Nat) (f : Pair → Pair) : (s.updPair p f).unitGot = s.unitGot := rfl
@[simp] theorem State.updPair_outbox (s : State) (p : Nat) (f : Pair → Pair) : (s.updPair p f).outbox = s.outbox := rfl
@[simp] theorem State.updPair_agenda (s : State) (p : Nat) (f : Pair → Pair) : (s.updPair p f).agenda = s.agenda := rfl
@[simp] theorem State.updPair_rota (s : State) (p : Nat) (f : Pair → Pair) : (s.updPair p f).rota = s.rota := rfl
@[simp] theorem State.updPair_cur (s : State) (p : Nat) (f : Pair → Pair) : (s.updPair p f).cur = s.cur := rfl
@[simp] theorem State.updPair_fresh (s : State) (p : Nat) (f : Pair → Pair) : (s.updPair p f).fresh = s.fresh := rfl
@[simp] theorem State.updPair_steps (s : State) (p : Nat) (f : Pair → Pair) : (s.updPair p f).steps = s.steps := rfl

/-! `updDie` -/

@[simp] theorem State.updDie_mem (s : State) (d : Nat) (f : Die → Die) : (s.updDie d f).mem = s.mem := rfl
@[simp] theorem State.updDie_pairs (s : State) (d : Nat) (f : Die → Die) : (s.updDie d f).pairs = s.pairs := rfl
@[simp] theorem State.updDie_clusters (s : State) (d : Nat) (f : Die → Die) : (s.updDie d f).clusters = s.clusters := rfl
@[simp] theorem State.updDie_caches (s : State) (d : Nat) (f : Die → Die) : (s.updDie d f).caches = s.caches := rfl
@[simp] theorem State.updDie_ctxs (s : State) (d : Nat) (f : Die → Die) : (s.updDie d f).ctxs = s.ctxs := rfl
@[simp] theorem State.updDie_vfs (s : State) (d : Nat) (f : Die → Die) : (s.updDie d f).vfs = s.vfs := rfl
@[simp] theorem State.updDie_vfEnable (s : State) (d : Nat) (f : Die → Die) : (s.updDie d f).vfEnable = s.vfEnable := rfl
@[simp] theorem State.updDie_vfBar (s : State) (d : Nat) (f : Die → Die) : (s.updDie d f).vfBar = s.vfBar := rfl
@[simp] theorem State.updDie_ides (s : State) (d : Nat) (f : Die → Die) : (s.updDie d f).ides = s.ides := rfl
@[simp] theorem State.updDie_spdm (s : State) (d : Nat) (f : Die → Die) : (s.updDie d f).spdm = s.spdm := rfl
@[simp] theorem State.updDie_cycle (s : State) (d : Nat) (f : Die → Die) : (s.updDie d f).cycle = s.cycle := rfl
@[simp] theorem State.updDie_ringbase (s : State) (d : Nat) (f : Die → Die) : (s.updDie d f).ringbase = s.ringbase := rfl
@[simp] theorem State.updDie_savepool (s : State) (d : Nat) (f : Die → Die) : (s.updDie d f).savepool = s.savepool := rfl
@[simp] theorem State.updDie_expap (s : State) (d : Nat) (f : Die → Die) : (s.updDie d f).expap = s.expap := rfl
@[simp] theorem State.updDie_devnum (s : State) (d : Nat) (f : Die → Die) : (s.updDie d f).devnum = s.devnum := rfl
@[simp] theorem State.updDie_ctxcmd (s : State) (d : Nat) (f : Die → Die) : (s.updDie d f).ctxcmd = s.ctxcmd := rfl
@[simp] theorem State.updDie_ctxDie (s : State) (d : Nat) (f : Die → Die) : (s.updDie d f).ctxDie = s.ctxDie := rfl
@[simp] theorem State.updDie_pwrcap (s : State) (d : Nat) (f : Die → Die) : (s.updDie d f).pwrcap = s.pwrcap := rfl
@[simp] theorem State.updDie_mbaddr (s : State) (d : Nat) (f : Die → Die) : (s.updDie d f).mbaddr = s.mbaddr := rfl
@[simp] theorem State.updDie_mblen (s : State) (d : Nat) (f : Die → Die) : (s.updDie d f).mblen = s.mblen := rfl
@[simp] theorem State.updDie_mbfail (s : State) (d : Nat) (f : Die → Die) : (s.updDie d f).mbfail = s.mbfail := rfl
@[simp] theorem State.updDie_mbready (s : State) (d : Nat) (f : Die → Die) : (s.updDie d f).mbready = s.mbready := rfl
@[simp] theorem State.updDie_fwImage (s : State) (d : Nat) (f : Die → Die) : (s.updDie d f).fwImage = s.fwImage := rfl
@[simp] theorem State.updDie_caphbm (s : State) (d : Nat) (f : Die → Die) : (s.updDie d f).caphbm = s.caphbm := rfl
@[simp] theorem State.updDie_deadPch (s : State) (d : Nat) (f : Die → Die) : (s.updDie d f).deadPch = s.deadPch := rfl
@[simp] theorem State.updDie_posted (s : State) (d : Nat) (f : Die → Die) : (s.updDie d f).posted = s.posted := rfl
@[simp] theorem State.updDie_moves (s : State) (d : Nat) (f : Die → Die) : (s.updDie d f).moves = s.moves := rfl
@[simp] theorem State.updDie_kept (s : State) (d : Nat) (f : Die → Die) : (s.updDie d f).kept = s.kept := rfl
@[simp] theorem State.updDie_areas (s : State) (d : Nat) (f : Die → Die) : (s.updDie d f).areas = s.areas := rfl
@[simp] theorem State.updDie_copies (s : State) (d : Nat) (f : Die → Die) : (s.updDie d f).copies = s.copies := rfl
@[simp] theorem State.updDie_touched (s : State) (d : Nat) (f : Die → Die) : (s.updDie d f).touched = s.touched := rfl
@[simp] theorem State.updDie_peers (s : State) (d : Nat) (f : Die → Die) : (s.updDie d f).peers = s.peers := rfl
@[simp] theorem State.updDie_unitGot (s : State) (d : Nat) (f : Die → Die) : (s.updDie d f).unitGot = s.unitGot := rfl
@[simp] theorem State.updDie_outbox (s : State) (d : Nat) (f : Die → Die) : (s.updDie d f).outbox = s.outbox := rfl
@[simp] theorem State.updDie_agenda (s : State) (d : Nat) (f : Die → Die) : (s.updDie d f).agenda = s.agenda := rfl
@[simp] theorem State.updDie_rota (s : State) (d : Nat) (f : Die → Die) : (s.updDie d f).rota = s.rota := rfl
@[simp] theorem State.updDie_cur (s : State) (d : Nat) (f : Die → Die) : (s.updDie d f).cur = s.cur := rfl
@[simp] theorem State.updDie_fresh (s : State) (d : Nat) (f : Die → Die) : (s.updDie d f).fresh = s.fresh := rfl
@[simp] theorem State.updDie_steps (s : State) (d : Nat) (f : Die → Die) : (s.updDie d f).steps = s.steps := rfl

/-! `updF` -/

@[simp] theorem State.updF_mem (s : State) (d c : Nat) (f : FCore → FCore) : (s.updF d c f).mem = s.mem := rfl
@[simp] theorem State.updF_pairs (s : State) (d c : Nat) (f : FCore → FCore) : (s.updF d c f).pairs = s.pairs := rfl
@[simp] theorem State.updF_clusters (s : State) (d c : Nat) (f : FCore → FCore) : (s.updF d c f).clusters = s.clusters := rfl
@[simp] theorem State.updF_caches (s : State) (d c : Nat) (f : FCore → FCore) : (s.updF d c f).caches = s.caches := rfl
@[simp] theorem State.updF_ctxs (s : State) (d c : Nat) (f : FCore → FCore) : (s.updF d c f).ctxs = s.ctxs := rfl
@[simp] theorem State.updF_vfs (s : State) (d c : Nat) (f : FCore → FCore) : (s.updF d c f).vfs = s.vfs := rfl
@[simp] theorem State.updF_vfEnable (s : State) (d c : Nat) (f : FCore → FCore) : (s.updF d c f).vfEnable = s.vfEnable := rfl
@[simp] theorem State.updF_vfBar (s : State) (d c : Nat) (f : FCore → FCore) : (s.updF d c f).vfBar = s.vfBar := rfl
@[simp] theorem State.updF_ides (s : State) (d c : Nat) (f : FCore → FCore) : (s.updF d c f).ides = s.ides := rfl
@[simp] theorem State.updF_spdm (s : State) (d c : Nat) (f : FCore → FCore) : (s.updF d c f).spdm = s.spdm := rfl
@[simp] theorem State.updF_cycle (s : State) (d c : Nat) (f : FCore → FCore) : (s.updF d c f).cycle = s.cycle := rfl
@[simp] theorem State.updF_ringbase (s : State) (d c : Nat) (f : FCore → FCore) : (s.updF d c f).ringbase = s.ringbase := rfl
@[simp] theorem State.updF_savepool (s : State) (d c : Nat) (f : FCore → FCore) : (s.updF d c f).savepool = s.savepool := rfl
@[simp] theorem State.updF_expap (s : State) (d c : Nat) (f : FCore → FCore) : (s.updF d c f).expap = s.expap := rfl
@[simp] theorem State.updF_devnum (s : State) (d c : Nat) (f : FCore → FCore) : (s.updF d c f).devnum = s.devnum := rfl
@[simp] theorem State.updF_ctxcmd (s : State) (d c : Nat) (f : FCore → FCore) : (s.updF d c f).ctxcmd = s.ctxcmd := rfl
@[simp] theorem State.updF_ctxDie (s : State) (d c : Nat) (f : FCore → FCore) : (s.updF d c f).ctxDie = s.ctxDie := rfl
@[simp] theorem State.updF_pwrcap (s : State) (d c : Nat) (f : FCore → FCore) : (s.updF d c f).pwrcap = s.pwrcap := rfl
@[simp] theorem State.updF_mbaddr (s : State) (d c : Nat) (f : FCore → FCore) : (s.updF d c f).mbaddr = s.mbaddr := rfl
@[simp] theorem State.updF_mblen (s : State) (d c : Nat) (f : FCore → FCore) : (s.updF d c f).mblen = s.mblen := rfl
@[simp] theorem State.updF_mbfail (s : State) (d c : Nat) (f : FCore → FCore) : (s.updF d c f).mbfail = s.mbfail := rfl
@[simp] theorem State.updF_mbready (s : State) (d c : Nat) (f : FCore → FCore) : (s.updF d c f).mbready = s.mbready := rfl
@[simp] theorem State.updF_fwImage (s : State) (d c : Nat) (f : FCore → FCore) : (s.updF d c f).fwImage = s.fwImage := rfl
@[simp] theorem State.updF_caphbm (s : State) (d c : Nat) (f : FCore → FCore) : (s.updF d c f).caphbm = s.caphbm := rfl
@[simp] theorem State.updF_deadPch (s : State) (d c : Nat) (f : FCore → FCore) : (s.updF d c f).deadPch = s.deadPch := rfl
@[simp] theorem State.updF_posted (s : State) (d c : Nat) (f : FCore → FCore) : (s.updF d c f).posted = s.posted := rfl
@[simp] theorem State.updF_moves (s : State) (d c : Nat) (f : FCore → FCore) : (s.updF d c f).moves = s.moves := rfl
@[simp] theorem State.updF_kept (s : State) (d c : Nat) (f : FCore → FCore) : (s.updF d c f).kept = s.kept := rfl
@[simp] theorem State.updF_areas (s : State) (d c : Nat) (f : FCore → FCore) : (s.updF d c f).areas = s.areas := rfl
@[simp] theorem State.updF_copies (s : State) (d c : Nat) (f : FCore → FCore) : (s.updF d c f).copies = s.copies := rfl
@[simp] theorem State.updF_touched (s : State) (d c : Nat) (f : FCore → FCore) : (s.updF d c f).touched = s.touched := rfl
@[simp] theorem State.updF_peers (s : State) (d c : Nat) (f : FCore → FCore) : (s.updF d c f).peers = s.peers := rfl
@[simp] theorem State.updF_unitGot (s : State) (d c : Nat) (f : FCore → FCore) : (s.updF d c f).unitGot = s.unitGot := rfl
@[simp] theorem State.updF_outbox (s : State) (d c : Nat) (f : FCore → FCore) : (s.updF d c f).outbox = s.outbox := rfl
@[simp] theorem State.updF_agenda (s : State) (d c : Nat) (f : FCore → FCore) : (s.updF d c f).agenda = s.agenda := rfl
@[simp] theorem State.updF_rota (s : State) (d c : Nat) (f : FCore → FCore) : (s.updF d c f).rota = s.rota := rfl
@[simp] theorem State.updF_cur (s : State) (d c : Nat) (f : FCore → FCore) : (s.updF d c f).cur = s.cur := rfl
@[simp] theorem State.updF_fresh (s : State) (d c : Nat) (f : FCore → FCore) : (s.updF d c f).fresh = s.fresh := rfl
@[simp] theorem State.updF_steps (s : State) (d c : Nat) (f : FCore → FCore) : (s.updF d c f).steps = s.steps := rfl

@[simp] theorem State.setMem_mem (s : State) (m : Mem) : (s.setMem m).mem = m := rfl
@[simp] theorem State.send_outbox (s : State) (m : Msg) : (s.send m).outbox = m :: s.outbox := rfl

/-! `Thread.retireAt` -/

@[simp] theorem Thread.retireAt_x (t : Thread) (pc : Val) : (t.retireAt pc).x = t.x := rfl
@[simp] theorem Thread.retireAt_sh (t : Thread) (pc : Val) : (t.retireAt pc).sh = t.sh := rfl
@[simp] theorem Thread.retireAt_vl (t : Thread) (pc : Val) : (t.retireAt pc).vl = t.vl := rfl
@[simp] theorem Thread.retireAt_vtype (t : Thread) (pc : Val) : (t.retireAt pc).vtype = t.vtype := rfl
@[simp] theorem Thread.retireAt_rc (t : Thread) (pc : Val) : (t.retireAt pc).rc = t.rc := rfl
@[simp] theorem Thread.retireAt_vstart (t : Thread) (pc : Val) : (t.retireAt pc).vstart = t.vstart := rfl
@[simp] theorem Thread.retireAt_strip (t : Thread) (pc : Val) : (t.retireAt pc).strip = t.strip := rfl
@[simp] theorem Thread.retireAt_strippc (t : Thread) (pc : Val) : (t.retireAt pc).strippc = t.strippc := rfl
@[simp] theorem Thread.retireAt_soff (t : Thread) (pc : Val) : (t.retireAt pc).soff = t.soff := rfl
@[simp] theorem Thread.retireAt_fflags (t : Thread) (pc : Val) : (t.retireAt pc).fflags = t.fflags := rfl
@[simp] theorem Thread.retireAt_stallmax (t : Thread) (pc : Val) : (t.retireAt pc).stallmax = t.stallmax := rfl
@[simp] theorem Thread.retireAt_tcause (t : Thread) (pc : Val) : (t.retireAt pc).tcause = t.tcause := rfl
@[simp] theorem Thread.retireAt_tval (t : Thread) (pc : Val) : (t.retireAt pc).tval = t.tval := rfl
@[simp] theorem Thread.retireAt_tpc (t : Thread) (pc : Val) : (t.retireAt pc).tpc = t.tpc := rfl
@[simp] theorem Thread.retireAt_telem (t : Thread) (pc : Val) : (t.retireAt pc).telem = t.telem := rfl
@[simp] theorem Thread.retireAt_wberr (t : Thread) (pc : Val) : (t.retireAt pc).wberr = t.wberr := rfl
@[simp] theorem Thread.retireAt_cuevec (t : Thread) (pc : Val) : (t.retireAt pc).cuevec = t.cuevec := rfl
@[simp] theorem Thread.retireAt_cuearm (t : Thread) (pc : Val) : (t.retireAt pc).cuearm = t.cuearm := rfl
@[simp] theorem Thread.retireAt_cuesig (t : Thread) (pc : Val) : (t.retireAt pc).cuesig = t.cuesig := rfl
@[simp] theorem Thread.retireAt_cueval (t : Thread) (pc : Val) : (t.retireAt pc).cueval = t.cueval := rfl
@[simp] theorem Thread.retireAt_cuecause (t : Thread) (pc : Val) : (t.retireAt pc).cuecause = t.cuecause := rfl
@[simp] theorem Thread.retireAt_cuepc (t : Thread) (pc : Val) : (t.retireAt pc).cuepc = t.cuepc := rfl
@[simp] theorem Thread.retireAt_incue (t : Thread) (pc : Val) : (t.retireAt pc).incue = t.incue := rfl
@[simp] theorem Thread.retireAt_fired (t : Thread) (pc : Val) : (t.retireAt pc).fired = t.fired := rfl
@[simp] theorem Thread.retireAt_svcRes (t : Thread) (pc : Val) : (t.retireAt pc).svcRes = t.svcRes := rfl
@[simp] theorem Thread.retireAt_barcount (t : Thread) (pc : Val) : (t.retireAt pc).barcount = t.barcount := rfl
@[simp] theorem Thread.retireAt_bout (t : Thread) (pc : Val) : (t.retireAt pc).bout = t.bout := rfl
@[simp] theorem Thread.retireAt_halt (t : Thread) (pc : Val) : (t.retireAt pc).halt = t.halt := rfl
@[simp] theorem Thread.retireAt_gens (t : Thread) (pc : Val) : (t.retireAt pc).gens = t.gens := rfl
@[simp] theorem Thread.retireAt_sent (t : Thread) (pc : Val) : (t.retireAt pc).sent = t.sent := rfl
@[simp] theorem Thread.retireAt_sentTo (t : Thread) (pc : Val) : (t.retireAt pc).sentTo = t.sentTo := rfl
@[simp] theorem Thread.retireAt_resv (t : Thread) (pc : Val) : (t.retireAt pc).resv = t.resv := rfl
@[simp] theorem Thread.retireAt_pc (t : Thread) (pc : Val) : (t.retireAt pc).pc = pc := rfl
@[simp] theorem Thread.retireAt_retired (t : Thread) (pc : Val) : (t.retireAt pc).retired = t.retired + 1#64 := rfl

/-! `Thread.wr` -/

@[simp] theorem Thread.wr_pc (t : Thread) (r : XReg) (v : Val) : (t.wr r v).pc = t.pc := by
  unfold Thread.wr; split; · rfl
  split <;> rfl
@[simp] theorem Thread.wr_vl (t : Thread) (r : XReg) (v : Val) : (t.wr r v).vl = t.vl := by
  unfold Thread.wr; split; · rfl
  split <;> rfl
@[simp] theorem Thread.wr_vtype (t : Thread) (r : XReg) (v : Val) : (t.wr r v).vtype = t.vtype := by
  unfold Thread.wr; split; · rfl
  split <;> rfl
@[simp] theorem Thread.wr_rc (t : Thread) (r : XReg) (v : Val) : (t.wr r v).rc = t.rc := by
  unfold Thread.wr; split; · rfl
  split <;> rfl
@[simp] theorem Thread.wr_vstart (t : Thread) (r : XReg) (v : Val) : (t.wr r v).vstart = t.vstart := by
  unfold Thread.wr; split; · rfl
  split <;> rfl
@[simp] theorem Thread.wr_strip (t : Thread) (r : XReg) (v : Val) : (t.wr r v).strip = t.strip := by
  unfold Thread.wr; split; · rfl
  split <;> rfl
@[simp] theorem Thread.wr_strippc (t : Thread) (r : XReg) (v : Val) : (t.wr r v).strippc = t.strippc := by
  unfold Thread.wr; split; · rfl
  split <;> rfl
@[simp] theorem Thread.wr_soff (t : Thread) (r : XReg) (v : Val) : (t.wr r v).soff = t.soff := by
  unfold Thread.wr; split; · rfl
  split <;> rfl
@[simp] theorem Thread.wr_fflags (t : Thread) (r : XReg) (v : Val) : (t.wr r v).fflags = t.fflags := by
  unfold Thread.wr; split; · rfl
  split <;> rfl
@[simp] theorem Thread.wr_stallmax (t : Thread) (r : XReg) (v : Val) : (t.wr r v).stallmax = t.stallmax := by
  unfold Thread.wr; split; · rfl
  split <;> rfl
@[simp] theorem Thread.wr_tcause (t : Thread) (r : XReg) (v : Val) : (t.wr r v).tcause = t.tcause := by
  unfold Thread.wr; split; · rfl
  split <;> rfl
@[simp] theorem Thread.wr_tval (t : Thread) (r : XReg) (v : Val) : (t.wr r v).tval = t.tval := by
  unfold Thread.wr; split; · rfl
  split <;> rfl
@[simp] theorem Thread.wr_tpc (t : Thread) (r : XReg) (v : Val) : (t.wr r v).tpc = t.tpc := by
  unfold Thread.wr; split; · rfl
  split <;> rfl
@[simp] theorem Thread.wr_telem (t : Thread) (r : XReg) (v : Val) : (t.wr r v).telem = t.telem := by
  unfold Thread.wr; split; · rfl
  split <;> rfl
@[simp] theorem Thread.wr_wberr (t : Thread) (r : XReg) (v : Val) : (t.wr r v).wberr = t.wberr := by
  unfold Thread.wr; split; · rfl
  split <;> rfl
@[simp] theorem Thread.wr_cuevec (t : Thread) (r : XReg) (v : Val) : (t.wr r v).cuevec = t.cuevec := by
  unfold Thread.wr; split; · rfl
  split <;> rfl
@[simp] theorem Thread.wr_cuearm (t : Thread) (r : XReg) (v : Val) : (t.wr r v).cuearm = t.cuearm := by
  unfold Thread.wr; split; · rfl
  split <;> rfl
@[simp] theorem Thread.wr_cuesig (t : Thread) (r : XReg) (v : Val) : (t.wr r v).cuesig = t.cuesig := by
  unfold Thread.wr; split; · rfl
  split <;> rfl
@[simp] theorem Thread.wr_cueval (t : Thread) (r : XReg) (v : Val) : (t.wr r v).cueval = t.cueval := by
  unfold Thread.wr; split; · rfl
  split <;> rfl
@[simp] theorem Thread.wr_cuecause (t : Thread) (r : XReg) (v : Val) : (t.wr r v).cuecause = t.cuecause := by
  unfold Thread.wr; split; · rfl
  split <;> rfl
@[simp] theorem Thread.wr_cuepc (t : Thread) (r : XReg) (v : Val) : (t.wr r v).cuepc = t.cuepc := by
  unfold Thread.wr; split; · rfl
  split <;> rfl
@[simp] theorem Thread.wr_incue (t : Thread) (r : XReg) (v : Val) : (t.wr r v).incue = t.incue := by
  unfold Thread.wr; split; · rfl
  split <;> rfl
@[simp] theorem Thread.wr_noMatch (t : Thread) (r : XReg) (v : Val) : (t.wr r v).noMatch = t.noMatch := by
  unfold Thread.wr; split; · rfl
  split <;> rfl
@[simp] theorem Thread.wr_fired (t : Thread) (r : XReg) (v : Val) : (t.wr r v).fired = t.fired := by
  unfold Thread.wr; split; · rfl
  split <;> rfl
@[simp] theorem Thread.wr_svcRes (t : Thread) (r : XReg) (v : Val) : (t.wr r v).svcRes = t.svcRes := by
  unfold Thread.wr; split; · rfl
  split <;> rfl
@[simp] theorem Thread.wr_barcount (t : Thread) (r : XReg) (v : Val) : (t.wr r v).barcount = t.barcount := by
  unfold Thread.wr; split; · rfl
  split <;> rfl
@[simp] theorem Thread.wr_fetched (t : Thread) (r : XReg) (v : Val) : (t.wr r v).fetched = t.fetched := by
  unfold Thread.wr; split; · rfl
  split <;> rfl
@[simp] theorem Thread.wr_inBar (t : Thread) (r : XReg) (v : Val) : (t.wr r v).inBar = t.inBar := by
  unfold Thread.wr; split; · rfl
  split <;> rfl
@[simp] theorem Thread.wr_parkWait (t : Thread) (r : XReg) (v : Val) : (t.wr r v).parkWait = t.parkWait := by
  unfold Thread.wr; split; · rfl
  split <;> rfl
@[simp] theorem Thread.wr_stalls (t : Thread) (r : XReg) (v : Val) : (t.wr r v).stalls = t.stalls := by
  unfold Thread.wr; split; · rfl
  split <;> rfl
@[simp] theorem Thread.wr_wait (t : Thread) (r : XReg) (v : Val) : (t.wr r v).wait = t.wait := by
  unfold Thread.wr; split; · rfl
  split <;> rfl
@[simp] theorem Thread.wr_onRgn (t : Thread) (r : XReg) (v : Val) : (t.wr r v).onRgn = t.onRgn := by
  unfold Thread.wr; split; · rfl
  split <;> rfl
@[simp] theorem Thread.wr_retired (t : Thread) (r : XReg) (v : Val) : (t.wr r v).retired = t.retired := by
  unfold Thread.wr; split; · rfl
  split <;> rfl
@[simp] theorem Thread.wr_bout (t : Thread) (r : XReg) (v : Val) : (t.wr r v).bout = t.bout := by
  unfold Thread.wr; split; · rfl
  split <;> rfl
@[simp] theorem Thread.wr_halt (t : Thread) (r : XReg) (v : Val) : (t.wr r v).halt = t.halt := by
  unfold Thread.wr; split; · rfl
  split <;> rfl
@[simp] theorem Thread.wr_atSafe (t : Thread) (r : XReg) (v : Val) : (t.wr r v).atSafe = t.atSafe := by
  unfold Thread.wr; split; · rfl
  split <;> rfl
@[simp] theorem Thread.wr_gens (t : Thread) (r : XReg) (v : Val) : (t.wr r v).gens = t.gens := by
  unfold Thread.wr; split; · rfl
  split <;> rfl
@[simp] theorem Thread.wr_asked (t : Thread) (r : XReg) (v : Val) : (t.wr r v).asked = t.asked := by
  unfold Thread.wr; split; · rfl
  split <;> rfl
@[simp] theorem Thread.wr_reply (t : Thread) (r : XReg) (v : Val) : (t.wr r v).reply = t.reply := by
  unfold Thread.wr; split; · rfl
  split <;> rfl
@[simp] theorem Thread.wr_sent (t : Thread) (r : XReg) (v : Val) : (t.wr r v).sent = t.sent := by
  unfold Thread.wr; split; · rfl
  split <;> rfl
@[simp] theorem Thread.wr_sentTo (t : Thread) (r : XReg) (v : Val) : (t.wr r v).sentTo = t.sentTo := by
  unfold Thread.wr; split; · rfl
  split <;> rfl
@[simp] theorem Thread.wr_vflags (t : Thread) (r : XReg) (v : Val) : (t.wr r v).vflags = t.vflags := by
  unfold Thread.wr; split; · rfl
  split <;> rfl
@[simp] theorem Thread.wr_onVec (t : Thread) (r : XReg) (v : Val) : (t.wr r v).onVec = t.onVec := by
  unfold Thread.wr; split; · rfl
  split <;> rfl
@[simp] theorem Thread.wr_vmid (t : Thread) (r : XReg) (v : Val) : (t.wr r v).vmid = t.vmid := by
  unfold Thread.wr; split; · rfl
  split <;> rfl
@[simp] theorem Thread.wr_engAt (t : Thread) (r : XReg) (v : Val) : (t.wr r v).engAt = t.engAt := by
  unfold Thread.wr; split; · rfl
  split <;> rfl
@[simp] theorem Thread.wr_enqAt (t : Thread) (r : XReg) (v : Val) : (t.wr r v).enqAt = t.enqAt := by
  unfold Thread.wr; split; · rfl
  split <;> rfl
@[simp] theorem Thread.wr_resv (t : Thread) (r : XReg) (v : Val) : (t.wr r v).resv = t.resv := by
  unfold Thread.wr; split; · rfl
  split <;> rfl
@[simp] theorem Thread.wr_iword (t : Thread) (r : XReg) (v : Val) : (t.wr r v).iword = t.iword := by
  unfold Thread.wr; split; · rfl
  split <;> rfl

/-! `Pair.setThr` -/

@[simp] theorem Pair.setThr_st (q : Pair) (k : Kind) (t : Thread) : (q.setThr k t).st = q.st := by cases k <;> rfl
@[simp] theorem Pair.setThr_ctx (q : Pair) (k : Kind) (t : Thread) : (q.setThr k t).ctx = q.ctx := by cases k <;> rfl
@[simp] theorem Pair.setThr_pl (q : Pair) (k : Kind) (t : Thread) : (q.setThr k t).pl = q.pl := by cases k <;> rfl
@[simp] theorem Pair.setThr_want (q : Pair) (k : Kind) (t : Thread) : (q.setThr k t).want = q.want := by cases k <;> rfl
@[simp] theorem Pair.setThr_slipS (q : Pair) (k : Kind) (t : Thread) : (q.setThr k t).slipS = q.slipS := by cases k <;> rfl
@[simp] theorem Pair.setThr_slipV (q : Pair) (k : Kind) (t : Thread) : (q.setThr k t).slipV = q.slipV := by cases k <;> rfl
@[simp] theorem Pair.setThr_slipM (q : Pair) (k : Kind) (t : Thread) : (q.setThr k t).slipM = q.slipM := by cases k <;> rfl
@[simp] theorem Pair.setThr_slipO (q : Pair) (k : Kind) (t : Thread) : (q.setThr k t).slipO = q.slipO := by cases k <;> rfl
@[simp] theorem Pair.setThr_parts (q : Pair) (k : Kind) (t : Thread) : (q.setThr k t).parts = q.parts := by cases k <;> rfl
@[simp] theorem Pair.setThr_pend (q : Pair) (k : Kind) (t : Thread) : (q.setThr k t).pend = q.pend := by cases k <;> rfl
@[simp] theorem Pair.setThr_later (q : Pair) (k : Kind) (t : Thread) : (q.setThr k t).later = q.later := by cases k <;> rfl
@[simp] theorem Pair.setThr_owned (q : Pair) (k : Kind) (t : Thread) : (q.setThr k t).owned = q.owned := by cases k <;> rfl
@[simp] theorem Pair.setThr_lent (q : Pair) (k : Kind) (t : Thread) : (q.setThr k t).lent = q.lent := by cases k <;> rfl
@[simp] theorem Pair.setThr_lender (q : Pair) (k : Kind) (t : Thread) : (q.setThr k t).lender = q.lender := by cases k <;> rfl
@[simp] theorem Pair.setThr_q (q : Pair) (k : Kind) (t : Thread) : (q.setThr k t).q = q.q := by cases k <;> rfl
@[simp] theorem Pair.setThr_sr (q : Pair) (k : Kind) (t : Thread) : (q.setThr k t).sr = q.sr := by cases k <;> rfl
@[simp] theorem Pair.setThr_iq (q : Pair) (k : Kind) (t : Thread) : (q.setThr k t).iq = q.iq := by cases k <;> rfl
@[simp] theorem Pair.setThr_upSaved (q : Pair) (k : Kind) (t : Thread) : (q.setThr k t).upSaved = q.upSaved := by cases k <;> rfl
@[simp] theorem Pair.setThr_up (q : Pair) (k : Kind) (t : Thread) : (q.setThr k t).up = q.up := by cases k <;> rfl
@[simp] theorem Pair.setThr_sq (q : Pair) (k : Kind) (t : Thread) : (q.setThr k t).sq = q.sq := by cases k <;> rfl
@[simp] theorem Pair.setThr_bq (q : Pair) (k : Kind) (t : Thread) : (q.setThr k t).bq = q.bq := by cases k <;> rfl
@[simp] theorem Pair.setThr_rq (q : Pair) (k : Kind) (t : Thread) : (q.setThr k t).rq = q.rq := by cases k <;> rfl
@[simp] theorem Pair.setThr_blocks (q : Pair) (k : Kind) (t : Thread) : (q.setThr k t).blocks = q.blocks := by cases k <;> rfl
@[simp] theorem Pair.setThr_lanes (q : Pair) (k : Kind) (t : Thread) : (q.setThr k t).lanes = q.lanes := by cases k <;> rfl
@[simp] theorem Pair.setThr_streams (q : Pair) (k : Kind) (t : Thread) : (q.setThr k t).streams = q.streams := by cases k <;> rfl
@[simp] theorem Pair.setThr_chans (q : Pair) (k : Kind) (t : Thread) : (q.setThr k t).chans = q.chans := by cases k <;> rfl
@[simp] theorem Pair.setThr_sbars (q : Pair) (k : Kind) (t : Thread) : (q.setThr k t).sbars = q.sbars := by cases k <;> rfl
@[simp] theorem Pair.setThr_nextOrder (q : Pair) (k : Kind) (t : Thread) : (q.setThr k t).nextOrder = q.nextOrder := by cases k <;> rfl
@[simp] theorem Pair.setThr_condNext (q : Pair) (k : Kind) (t : Thread) : (q.setThr k t).condNext = q.condNext := by cases k <;> rfl
@[simp] theorem Pair.setThr_flights (q : Pair) (k : Kind) (t : Thread) : (q.setThr k t).flights = q.flights := by cases k <;> rfl
@[simp] theorem Pair.setThr_why (q : Pair) (k : Kind) (t : Thread) : (q.setThr k t).why = q.why := by cases k <;> rfl
@[simp] theorem Pair.setThr_area (q : Pair) (k : Kind) (t : Thread) : (q.setThr k t).area = q.area := by cases k <;> rfl
@[simp] theorem Pair.setThr_tpcGenA (q : Pair) (k : Kind) (t : Thread) : (q.setThr k t).tpcGenA = q.tpcGenA := by cases k <;> rfl
@[simp] theorem Pair.setThr_tpcGenX (q : Pair) (k : Kind) (t : Thread) : (q.setThr k t).tpcGenX = q.tpcGenX := by cases k <;> rfl
@[simp] theorem Pair.setThr_badWhy (q : Pair) (k : Kind) (t : Thread) : (q.setThr k t).badWhy = q.badWhy := by cases k <;> rfl
@[simp] theorem Pair.setThr_back (q : Pair) (k : Kind) (t : Thread) : (q.setThr k t).back = q.back := by cases k <;> rfl
@[simp] theorem Pair.setThr_dbgSaved (q : Pair) (k : Kind) (t : Thread) : (q.setThr k t).dbgSaved = q.dbgSaved := by cases k <;> rfl
@[simp] theorem Pair.setThr_dbgPend (q : Pair) (k : Kind) (t : Thread) : (q.setThr k t).dbgPend = q.dbgPend := by cases k <;> rfl
@[simp] theorem Pair.setThr_softPend (q : Pair) (k : Kind) (t : Thread) : (q.setThr k t).softPend = q.softPend := by cases k <;> rfl
@[simp] theorem Pair.setThr_movePend (q : Pair) (k : Kind) (t : Thread) : (q.setThr k t).movePend = q.movePend := by cases k <;> rfl
@[simp] theorem Pair.setThr_seq (q : Pair) (k : Kind) (t : Thread) : (q.setThr k t).seq = q.seq := by cases k <;> rfl
@[simp] theorem Pair.setThr_cardFaults (q : Pair) (k : Kind) (t : Thread) : (q.setThr k t).cardFaults = q.cardFaults := by cases k <;> rfl
@[simp] theorem Pair.setThr_lanesHeld (q : Pair) (k : Kind) (t : Thread) : (q.setThr k t).lanesHeld = q.lanesHeld := by cases k <;> rfl
@[simp] theorem Pair.setThr_trapK (q : Pair) (k : Kind) (t : Thread) : (q.setThr k t).trapK = q.trapK := by cases k <;> rfl
@[simp] theorem Pair.setThr_trapBlk (q : Pair) (k : Kind) (t : Thread) : (q.setThr k t).trapBlk = q.trapBlk := by cases k <;> rfl
@[simp] theorem Pair.setThr_under (q : Pair) (k : Kind) (t : Thread) : (q.setThr k t).under = q.under := by cases k <;> rfl
@[simp] theorem Pair.setThr_svcDue (q : Pair) (k : Kind) (t : Thread) : (q.setThr k t).svcDue = q.svcDue := by cases k <;> rfl
@[simp] theorem Pair.setThr_svcAns (q : Pair) (k : Kind) (t : Thread) : (q.setThr k t).svcAns = q.svcAns := by cases k <;> rfl
@[simp] theorem Pair.setThr_resume (q : Pair) (k : Kind) (t : Thread) : (q.setThr k t).resume = q.resume := by cases k <;> rfl
@[simp] theorem Pair.setThr_thr (q : Pair) (k : Kind) (t : Thread) : (q.setThr k t).thr k = t := by cases k <;> rfl

end Sys2Proof.Machine
end

