-- ==== Sys2Proof/Laws/Tables.lean ====
section
/-! SUPPORT. Reading a table or a byte of memory after it has been written; the canonical form of memory is kept. -/

namespace Sys2Proof

theorem Tab.get_set {α : Type} (d : α) (t : Tab α) (k : Nat) (v : α) (j : Nat) :
    Tab.get d (Tab.set t k v) j = if j = k then v else Tab.get d t j := by
  induction t with
  | nil => simp [Tab.set, Tab.get]
  | cons p t ih =>
    obtain ⟨k', v'⟩ := p
    simp only [Tab.set]
    split
    · subst_vars
      simp only [Tab.get]
      split <;> simp_all
    · split
      · simp only [Tab.get]
        by_cases h : j = k
        · simp [h]
        · simp only [h, if_false]
          by_cases h1 : j < k
          · have h2 : j < k' := by omega
            simp [h1, h2, Nat.ne_of_lt h2]
          · simp [h1]
      · simp only [Tab.get, ih]
        by_cases h : j = k
        · subst h
          have : ¬ j < k' := by omega
          simp [*]
        · simp [h]

@[simp] theorem Tab.get_set_self {α : Type} (d : α) (t : Tab α) (k : Nat) (v : α) : Tab.get d (Tab.set t k v) k = v := by
  simp [Tab.get_set]

theorem Tab.get_set_ne {α : Type} (d : α) (t : Tab α) {k j : Nat} (v : α) (h : j ≠ k) :
    Tab.get d (Tab.set t k v) j = Tab.get d t j := by
  simp [Tab.get_set, h]

/-- The serial numbers of n dies are n numbers (R7). -/
theorem Config.serials_length (n : Nat) : (Config.serials n).length = n := by
  induction n with
  | zero => rfl
  | succ n ih => simp [Config.serials, ih]

/-- No two of the first eight dies have the same SERIAL (R7). -/
theorem Config.serials_nodup {n : Nat} (h : n ≤ 8) : (Config.serials n).Nodup := by
  induction n with
  | zero => exact List.nodup_nil
  | succ n ih =>
    let c := (List.range 8).map (fun k => Config.fuse n + BitVec.ofNat 48 k)
    have hc : c.Nodup := by
      refine List.Nodup.map_on (fun x hx y hy e => ?_) List.nodup_range
      rw [List.mem_range] at hx hy
      bv_omega
    have new : ∃ x ∈ c, x ∉ Config.serials n := by
      by_contra no
      have := (hc.subperm (fun x hx => by_contra fun hn => no ⟨x, hx, hn⟩)).length_le
      rw [Config.serials_length] at this
      simp [c] at this
      omega
    obtain ⟨x, hx, hn⟩ := new
    have some_ : (c.find? (fun y => !(Config.serials n).contains y)).isSome := by
      rw [List.find?_isSome]
      exact ⟨x, hx, by simpa using hn⟩
    obtain ⟨y, hy⟩ := Option.isSome_iff_exists.mp some_
    have out : y ∉ Config.serials n := by simpa using List.find?_some hy
    have eq : Config.serials (n + 1) = Config.serials n ++ [y] := by
      show _ ++ [(c.find? _).getD _] = _
      rw [hy, Option.getD_some]
    rw [eq, List.nodup_append]
    exact ⟨ih (by omega), by simp, fun a ha b hb e => out (List.mem_singleton.mp hb ▸ e ▸ ha)⟩

/-- SERIAL differs between dies (R7). -/
theorem Config.serial_ne {d e : Nat} (hd : d < 8) (he : e < 8) (h : d ≠ e) : Config.serial d ≠ Config.serial e := by
  unfold Config.serial
  have l := Config.serials_length 8
  rw [List.getD_eq_getElem _ _ (by omega), List.getD_eq_getElem _ _ (by omega)]
  exact fun x => h ((List.Nodup.getElem_inj_iff (Config.serials_nodup (le_refl 8))).mp x)

namespace Machine

/-! ## Tables of the state -/

@[simp] theorem State.setPair_pair_self (s : State) (p : Nat) (q : Pair) : (s.setPair p q).pair p = q := Tab.get_set_self ..
theorem State.setPair_pair (s : State) (p : Nat) (q : Pair) (j : Nat) : (s.setPair p q).pair j = if j = p then q else s.pair j :=
  Tab.get_set ..
@[simp] theorem State.setDie_die_self (s : State) (p : Nat) (q : Die) : (s.setDie p q).die p = q := Tab.get_set_self ..
theorem State.setDie_die (s : State) (p : Nat) (q : Die) (j : Nat) : (s.setDie p q).die j = if j = p then q else s.die j :=
  Tab.get_set ..
@[simp] theorem State.setCtx_ctx_self (s : State) (p : Nat) (q : Ctx) : (s.setCtx p q).ctx p = q := Tab.get_set_self ..
theorem State.setCtx_ctx (s : State) (p : Nat) (q : Ctx) (j : Nat) : (s.setCtx p q).ctx j = if j = p then q else s.ctx j :=
  Tab.get_set ..
@[simp] theorem State.setCluster_cluster_self (s : State) (p : Nat) (q : Cluster) : (s.setCluster p q).cluster p = q := Tab.get_set_self ..
theorem State.setCluster_cluster (s : State) (p : Nat) (q : Cluster) (j : Nat) :
    (s.setCluster p q).cluster j = if j = p then q else s.cluster j := Tab.get_set ..
@[simp] theorem State.setVf_vf_self (s : State) (p : Nat) (q : Vf) : (s.setVf p q).vf p = q := Tab.get_set_self ..
theorem State.setVf_vf (s : State) (p : Nat) (q : Vf) (j : Nat) : (s.setVf p q).vf j = if j = p then q else s.vf j :=
  Tab.get_set ..
@[simp] theorem State.setCache_cache_self (s : State) (p : Nat) (q : Tab Line) : (s.setCache p q).cache p = q := Tab.get_set_self ..
theorem State.setCache_cache (s : State) (p : Nat) (q : Tab Line) (j : Nat) :
    (s.setCache p q).cache j = if j = p then q else s.cache j := Tab.get_set ..

@[simp] theorem State.setDie_pair (s : State) (d : Nat) (v : Die) (p : Nat) : (s.setDie d v).pair p = s.pair p := rfl
@[simp] theorem State.setCtx_pair (s : State) (d : Nat) (v : Ctx) (p : Nat) : (s.setCtx d v).pair p = s.pair p := rfl
@[simp] theorem State.setMem_pair (s : State) (m : Mem) (p : Nat) : (s.setMem m).pair p = s.pair p := rfl
@[simp] theorem State.setCache_pair (s : State) (d : Nat) (v : Tab Line) (p : Nat) : (s.setCache d v).pair p = s.pair p := rfl
@[simp] theorem State.setPair_die (s : State) (d : Nat) (v : Pair) (p : Nat) : (s.setPair d v).die p = s.die p := rfl
@[simp] theorem State.setMem_die (s : State) (m : Mem) (p : Nat) : (s.setMem m).die p = s.die p := rfl
@[simp] theorem State.setPair_ctx (s : State) (d : Nat) (v : Pair) (p : Nat) : (s.setPair d v).ctx p = s.ctx p := rfl
@[simp] theorem State.setDie_ctx (s : State) (d : Nat) (v : Die) (p : Nat) : (s.setDie d v).ctx p = s.ctx p := rfl
@[simp] theorem State.setPair_region (s : State) (d : Nat) (v : Pair) (c r : Nat) : (s.setPair d v).region c r = s.region c r := rfl

@[simp] theorem State.setRegion_region_self (s : State) (c r : Nat) (e : Entry) : (s.setRegion c r e).region c r = e := by
  simp [State.setRegion, State.region]
theorem State.setRegion_region (s : State) (c r : Nat) (e : Entry) (c' r' : Nat) :
    (s.setRegion c r e).region c' r' = if c' = c ∧ r' = r then e else s.region c' r' := by
  simp only [State.setRegion, State.region, State.setCtx_ctx]
  by_cases h : c' = c
  · subst h; simp [Tab.get_set]
  · simp [h]

/-! ## The agent that has the turn -/

@[simp] theorem State.updThr_cur' (s : State) (p : Nat) (k : Kind) (f : Thread → Thread) : (s.updThr p k f).cur = s.cur := rfl

theorem State.updThr_pair_ne (s : State) {p j : Nat} (k : Kind) (f : Thread → Thread) (h : j ≠ p) :
    (s.updThr p k f).pair j = s.pair j := by simp [State.updThr, State.setPair_pair, h]
@[simp] theorem State.updThr_pair_self (s : State) (p : Nat) (k : Kind) (f : Thread → Thread) :
    (s.updThr p k f).pair p = (s.pair p).setThr k (f ((s.pair p).thr k)) := by simp [State.updThr]

/-! ## Bytes of memory (R2) -/

theorem Mem.okFrom_mono {b c : Nat} (m : Mem) (h : b ≤ c) (ok : Mem.okFrom c m = true) : Mem.okFrom b m = true := by
  cases m with
  | nil => rfl
  | cons p t => obtain ⟨k, v⟩ := p; simp only [Mem.okFrom, Bool.and_eq_true, decide_eq_true_eq] at *; exact ⟨⟨by omega, ok.1.2⟩, ok.2⟩

/-- A byte below every listed address is 0. -/
theorem Mem.get_below {b a : Nat} (m : Mem) (ok : Mem.okFrom b m = true) (h : a < b) : Mem.get m a = 0#8 := by
  cases m with
  | nil => rfl
  | cons p t =>
    obtain ⟨k, v⟩ := p
    simp only [Mem.okFrom, Bool.and_eq_true, decide_eq_true_eq] at ok
    have h1 : ¬ a = k := by omega
    have h2 : a < k := by omega
    simp [Mem.get, h1, h2]

/-- Writing a byte keeps the canonical form. -/
theorem Mem.set_okFrom (m : Mem) (b a : Nat) (v : Byte) (ok : Mem.okFrom b m = true) (h : b ≤ a) :
    Mem.okFrom b (Mem.set m a v) = true := by
  induction m generalizing b with
  | nil => simp only [Mem.set]; split <;> simp_all [Mem.okFrom]
  | cons p t ih =>
    obtain ⟨k, w⟩ := p
    simp only [Mem.okFrom, Bool.and_eq_true, decide_eq_true_eq] at ok
    simp only [Mem.set]
    split
    · subst_vars
      split
      · exact Mem.okFrom_mono t (by omega) ok.2
      · simp_all [Mem.okFrom]
    · split
      · split
        · simp_all [Mem.okFrom]
        · have : a + 1 ≤ k := by omega
          simp_all [Mem.okFrom]
      · have hk : k + 1 ≤ a := by omega
        simp only [Mem.okFrom, Bool.and_eq_true, decide_eq_true_eq]
        exact ⟨ok.1, ih (k + 1) ok.2 hk⟩

/-- A byte read after a write: the byte written at its address, every other byte as before. -/
theorem Mem.get_set (m : Mem) (b a : Nat) (v : Byte) (x : Nat) (ok : Mem.okFrom b m = true) :
    Mem.get (Mem.set m a v) x = if x = a then v else Mem.get m x := by
  induction m generalizing b with
  | nil => simp only [Mem.set]; split <;> simp_all [Mem.get]
  | cons p t ih =>
    obtain ⟨k, w⟩ := p
    simp only [Mem.okFrom, Bool.and_eq_true, decide_eq_true_eq] at ok
    simp only [Mem.set]
    split
    · rename_i hk
      split
      · rename_i hv
        by_cases h : x = a
        · rw [if_pos h, h, hk, Mem.get_below t ok.2 (Nat.lt_succ_self k), hv]
        · have h' : ¬ x = k := by omega
          simp only [h, h', if_false, Mem.get]
          by_cases h2 : x < k
          · simp [h2, Mem.get_below t ok.2 (by omega : x < k + 1)]
          · simp [h2]
      · simp only [Mem.get, hk]; split <;> simp_all
    · split
      · split
        · subst_vars
          by_cases h : x = a
          · subst h; simp_all [Mem.get]
          · simp [h]
        · simp only [Mem.get]
          by_cases h : x = a
          · simp [h]
          · simp only [h, if_false]
            by_cases h1 : x < a
            · have h2 : x < k := by omega
              simp [h1, h2, Nat.ne_of_lt h2]
            · simp [h1]
      · simp only [Mem.get, ih (k + 1) ok.2]
        by_cases h : x = a
        · subst h
          have : ¬ x < k := by omega
          simp [*]
        · simp [h]

theorem Memory.wf_set (m : Mem) (a : Nat) (v : Byte) (h : Memory.wf m = true) : Memory.wf (Mem.set m a v) = true :=
  Mem.set_okFrom m 0 a v h (Nat.zero_le a)

theorem Mem.get_set_wf (m : Mem) (a : Nat) (v : Byte) (x : Nat) (h : Memory.wf m = true) :
    Mem.get (Mem.set m a v) x = if x = a then v else Mem.get m x := Mem.get_set m 0 a v x h

theorem Memory.wf_setLE (m : Mem) (a n w : Nat) (h : Memory.wf m = true) : Memory.wf (Mem.setLE m a n w) = true := by
  induction n generalizing m a w with
  | zero => exact h
  | succ n ih => exact ih _ _ _ (Memory.wf_set m a _ h)

/-- Bytes outside a wide write are as before. -/
theorem Mem.get_setLE_out (m : Mem) (a n w x : Nat) (h : Memory.wf m = true) (hx : x < a ∨ a + n ≤ x) :
    Mem.get (Mem.setLE m a n w) x = Mem.get m x := by
  induction n generalizing m a w with
  | zero => rfl
  | succ n ih =>
    simp only [Mem.setLE]
    rw [ih _ _ _ (Memory.wf_set m a _ h) (by omega), Mem.get_set_wf m a _ x h]
    have : ¬ x = a := by omega
    simp [this]

/-- A wide read after the same wide write gives the value written. -/
theorem Mem.getLE_setLE (m : Mem) (a n w : Nat) (h : Memory.wf m = true) : Mem.getLE (Mem.setLE m a n w) a n = w % 256 ^ n := by
  induction n generalizing m a w with
  | zero => simp [Mem.getLE, Nat.mod_one]
  | succ n ih =>
    simp only [Mem.getLE, Mem.setLE]
    have hw := Memory.wf_set m a (BitVec.ofNat 8 w) h
    rw [ih _ _ _ hw, Mem.get_setLE_out _ _ _ _ _ hw (by omega), Mem.get_set_wf m a _ a h]
    simp only [if_true, BitVec.toNat_ofNat]
    rw [show 256 ^ (n + 1) = 256 * 256 ^ n by rw [Nat.pow_succ, Nat.mul_comm], Nat.mod_mul]

theorem Memory.wf_setBytes (m : Mem) (a : Nat) (l : List Byte) (h : Memory.wf m = true) : Memory.wf (Mem.setBytes m a l) = true := by
  induction l generalizing m a with
  | nil => exact h
  | cons b t ih => exact ih _ _ (Memory.wf_set m a b h)

theorem Mem.filter_okFrom (f : Nat × Byte → Bool) (m : Mem) (b : Nat) (h : Mem.okFrom b m = true) : Mem.okFrom b (m.filter f) = true := by
  induction m generalizing b with
  | nil => rfl
  | cons p t ih =>
    obtain ⟨k, v⟩ := p
    simp only [Mem.okFrom, Bool.and_eq_true, decide_eq_true_eq] at h
    simp only [List.filter]
    split
    · simp only [Mem.okFrom, Bool.and_eq_true, decide_eq_true_eq]; exact ⟨h.1, ih _ h.2⟩
    · exact Mem.okFrom_mono _ (by omega) (ih _ h.2)

theorem Memory.wf_clear (m : Mem) (a n : Nat) (h : Memory.wf m = true) : Memory.wf (Mem.clear m a n) = true := Mem.filter_okFrom _ m 0 h

/-- A run of writes keeps the canonical form. -/
theorem Memory.wf_foldl {α : Type} (f : Mem → α → Mem) (l : List α) (m : Mem)
    (hf : ∀ m x, Memory.wf m = true → Memory.wf (f m x) = true) (h : Memory.wf m = true) : Memory.wf (l.foldl f m) = true := by
  induction l generalizing m with
  | nil => exact h
  | cons x t ih => exact ih _ (hf m x h)

theorem Memory.wf_paste (m : Mem) (a n : Nat) (sl : Mem) (h : Memory.wf m = true) : Memory.wf (Mem.paste m a n sl) = true :=
  Memory.wf_foldl _ sl _ (fun _ _ hm => Memory.wf_set _ _ _ hm) (Memory.wf_clear m a n h)

theorem Memory.wf_copy (m : Mem) (a b n : Nat) (h : Memory.wf m = true) : Memory.wf (Mem.copy m a b n) = true :=
  Memory.wf_paste m b n _ h

theorem Memory.wf_flushLine (m : Mem) (ln : Nat) (l : Line) (h : Memory.wf m = true) : Memory.wf (flushLine m ln l) = true := by
  unfold flushLine
  split
  · exact h
  · exact Memory.wf_foldl _ _ _ (fun m i hm => by split; exact Memory.wf_set _ _ _ hm; exact hm) h

end Machine
end Sys2Proof
end

