-- ==== Sys2Proof/Laws/Words.lean ====
section
/-! SUPPORT. What a scalar word does before its own effect: the checks of R34 (steps 2 and 3), and the registers, the PC and the
frame of the operations that every word ends in. -/

namespace Sys2Proof.Machine

open Sys2Proof Sys2Proof.Safety

/-- A word that may run where it is has the outcome of its own effect. -/
theorem scalar_issues (i : Instr) (s : State) (r : Res State) (h : Issues i s) : scalar i s r = finish s r := by
  obtain ⟨k, hk, hr, hf⟩ := h
  unfold scalar scalarAt
  rw [hk]
  rcases hf with rfl | hf
  · simp [hr]
  · simp [hr, hf]

@[simp] theorem finish_ok (s t : State) : finish s (.ok t) = .next t := rfl
@[simp] theorem finish_trap (s : State) (c : BitVec 8) (v : Word) (e : BitVec 32) : finish s (.error (.trap c v e)) = .next (s.trap c v e) := rfl
@[simp] theorem finish_stall (s : State) (w : Wait) : finish s (.error (.stall w)) = .next (s.stall w) := rfl

end Sys2Proof.Machine
end

