-- ==== Sys2Proof/Laws/Ops.lean ====
section
/-! SUPPORT. One lemma for each shared operation that says what it can do: the register file, how a word ends, the checks of an access,
the data caches, a posted residency request; and that each keeps the canonical form of memory and tables. -/

namespace Sys2Proof

/-! ## Tables keep their keys rising -/

theorem Tab.risingFrom_mono {α : Type} {b c : Nat} (t : Tab α) (h : b ≤ c) (ok : Tab.risingFrom c t = true) : Tab.risingFrom b t = true := by
  cases t with
  | nil => rfl
  | cons p t => obtain ⟨k, v⟩ := p; simp only [Tab.risingFrom, Bool.and_eq_true, decide_eq_true_eq] at *; exact ⟨by omega, ok.2⟩

theorem Tab.set_rising {α : Type} (t : Tab α) (b k : Nat) (v : α) (ok : Tab.risingFrom b t = true) (h : b ≤ k) :
    Tab.risingFrom b (Tab.set t k v) = true := by
  induction t generalizing b with
  | nil => simp [Tab.set, Tab.risingFrom, h]
  | cons p t ih =>
    obtain ⟨k', v'⟩ := p
    simp only [Tab.risingFrom, Bool.and_eq_true, decide_eq_true_eq] at ok
    simp only [Tab.set]
    split
    · subst_vars; simp [Tab.risingFrom, h, ok.2]
    · split
      · simp only [Tab.risingFrom, Bool.and_eq_true, decide_eq_true_eq]; exact ⟨h, by omega, ok.2⟩
      · simp only [Tab.risingFrom, Bool.and_eq_true, decide_eq_true_eq]; exact ⟨ok.1, ih _ ok.2 (by omega)⟩

theorem Tab.filter_rising {α : Type} (f : Nat × α → Bool) (t : Tab α) (b : Nat) (ok : Tab.risingFrom b t = true) :
    Tab.risingFrom b (t.filter f) = true := by
  induction t generalizing b with
  | nil => rfl
  | cons p t ih =>
    obtain ⟨k, v⟩ := p
    simp only [Tab.risingFrom, Bool.and_eq_true, decide_eq_true_eq] at ok
    simp only [List.filter]
    split
    · simp only [Tab.risingFrom, Bool.and_eq_true, decide_eq_true_eq]; exact ⟨ok.1, ih _ ok.2⟩
    · exact Tab.risingFrom_mono _ (by omega) (ih _ ok.2)

theorem Tab.del_rising {α : Type} (t : Tab α) (b k : Nat) (ok : Tab.risingFrom b t = true) : Tab.risingFrom b (Tab.del t k) = true :=
  Tab.filter_rising _ t b ok

/-- A change of the values alone keeps the keys. -/
theorem Tab.map_rising {α β : Type} (f : Nat × α → β) (t : Tab α) (b : Nat) (ok : Tab.risingFrom b t = true) :
    Tab.risingFrom b (t.map (fun e => (e.1, f e))) = true := by
  induction t generalizing b with
  | nil => rfl
  | cons p t ih =>
    obtain ⟨k, v⟩ := p
    simp only [Tab.risingFrom, Bool.and_eq_true, decide_eq_true_eq] at ok
    simp only [List.map, Tab.risingFrom, Bool.and_eq_true, decide_eq_true_eq]; exact ⟨ok.1, ih _ ok.2⟩

/-- What a table lists after a write was listed before, or is what was written. -/
theorem Tab.mem_set {α : Type} (t : Tab α) (k : Nat) (v : α) (e : Nat × α) (h : e ∈ Tab.set t k v) : e = (k, v) ∨ e ∈ t := by
  induction t with
  | nil => simpa [Tab.set] using h
  | cons p t ih =>
    obtain ⟨k', v'⟩ := p
    simp only [Tab.set] at h
    split at h
    · simp only [List.mem_cons] at h ⊢; tauto
    · split at h
      · simp only [List.mem_cons] at h ⊢; tauto
      · simp only [List.mem_cons] at h ⊢
        rcases h with h | h
        · tauto
        · rcases ih h with h | h <;> tauto

namespace Machine

open Sys2Proof.Safety

/-! ## The register file (R71, R320) -/

@[simp] theorem Thread.rd_zero (t : Thread) : t.rd 0#5 = {} := by simp [Thread.rd]
@[simp] theorem Thread.wr_zero (t : Thread) (v : Val) : t.wr 0#5 v = t := by simp [Thread.wr]

theorem Thread.rd_wr (t : Thread) (r q : XReg) (v : Val) (h : r ≠ 0#5) : (t.wr r v).rd q = if q = r then v else t.rd q := by
  have hn : ∀ {x y : XReg}, x.toNat = y.toNat → x = y := fun h => BitVec.eq_of_toNat_eq h
  by_cases hq : q = 0#5
  · subst hq; simp [Thread.rd, Ne.symm h]
  by_cases hr : t.incue && decide (16 ≤ r.toNat) && decide (r.toNat < 24)
  · unfold Thread.wr Thread.rd
    rw [if_neg h, if_pos hr, if_neg hq, if_neg hq]
    by_cases hs : t.incue && decide (16 ≤ q.toNat) && decide (q.toNat < 24)
    · rw [if_pos hs, if_pos hs]
      simp only [Bool.and_eq_true, decide_eq_true_eq] at hs hr
      have h1 : q.toNat - 16 < 8 := by omega
      by_cases e : q = r
      · subst e; simp [Vector.getD, h1]
      · have e' : q.toNat ≠ r.toNat := fun x => e (hn x)
        have h2 : r.toNat - 16 ≠ q.toNat - 16 := by omega
        simp [e, Vector.getD, h1, h2]
    · rw [if_neg hs, if_neg hs, if_neg (fun e : q = r => hs (e ▸ hr))]
  · unfold Thread.wr Thread.rd
    rw [if_neg h, if_neg hr, if_neg hq, if_neg hq]
    by_cases hs : t.incue && decide (16 ≤ q.toNat) && decide (q.toNat < 24)
    · rw [if_pos hs, if_pos hs, if_neg (fun e : q = r => hr (e ▸ hs))]
    · rw [if_neg hs, if_neg hs]
      by_cases e : q = r
      · subst e; simp
      · have e' : r.toNat ≠ q.toNat := fun x => e (hn x.symm)
        simp [e, e']

/-- A register after a write to another register or to itself, whoever has the turn. -/
theorem State.thr_rx_wx (s : State) (p : Nat) (k : Kind) (r q : XReg) (v : Val) (h : r ≠ 0#5) (hc : s.cur = .thr p k) :
    (s.wx r v).rx q = if q = r then v else s.rx q := by
  simp [State.wx, State.rx, hc, State.thr, State.me, State.meK, Thread.rd_wr _ _ _ _ h]

@[simp] theorem State.wx_zero (s : State) (v : Val) (p : Nat) (k : Kind) (hc : s.cur = .thr p k) : (s.wx 0#5 v).rx = s.rx := by
  funext q; simp [State.wx, State.rx, hc, State.thr, State.me, State.meK]

/-- A write to a register leaves everything but pairs and dies alone. -/
theorem State.wx_rest (s : State) (r : XReg) (v : Val) : s.wx r v = { s with pairs := (s.wx r v).pairs, dies := (s.wx r v).dies } := by
  unfold State.wx
  split
  · split <;> rfl
  · rfl

theorem State.retireTo_rest (s : State) (pc : Val) : s.retireTo pc = { s with pairs := (s.retireTo pc).pairs, dies := (s.retireTo pc).dies } := by
  unfold State.retireTo
  split <;> rfl

theorem State.orFlags_rest (s : State) (f : BitVec 5) : s.orFlags f = { s with pairs := (s.orFlags f).pairs, dies := (s.orFlags f).dies } := by
  unfold State.orFlags
  split <;> rfl

@[simp] theorem State.wx_mem (s : State) (r : XReg) (v : Val) : (s.wx r v).mem = s.mem := by rw [State.wx_rest]
@[simp] theorem State.wx_cur (s : State) (r : XReg) (v : Val) : (s.wx r v).cur = s.cur := by rw [State.wx_rest]
@[simp] theorem State.wx_ctxs (s : State) (r : XReg) (v : Val) : (s.wx r v).ctxs = s.ctxs := by rw [State.wx_rest]
@[simp] theorem State.wx_caches (s : State) (r : XReg) (v : Val) : (s.wx r v).caches = s.caches := by rw [State.wx_rest]
@[simp] theorem State.wx_clusters (s : State) (r : XReg) (v : Val) : (s.wx r v).clusters = s.clusters := by rw [State.wx_rest]
@[simp] theorem State.retireTo_mem (s : State) (pc : Val) : (s.retireTo pc).mem = s.mem := by rw [State.retireTo_rest]
@[simp] theorem State.retireTo_cur (s : State) (pc : Val) : (s.retireTo pc).cur = s.cur := by rw [State.retireTo_rest]
@[simp] theorem State.retireTo_ctxs (s : State) (pc : Val) : (s.retireTo pc).ctxs = s.ctxs := by rw [State.retireTo_rest]
@[simp] theorem State.retireTo_caches (s : State) (pc : Val) : (s.retireTo pc).caches = s.caches := by rw [State.retireTo_rest]
@[simp] theorem State.retireTo_clusters (s : State) (pc : Val) : (s.retireTo pc).clusters = s.clusters := by rw [State.retireTo_rest]

/-- A word of a thread leaves every other pair alone when it writes a register, retires or raises flags. -/
theorem State.wx_pair_ne (s : State) (r : XReg) (v : Val) {p j : Nat} {k : Kind} (hc : s.cur = .thr p k) (h : j ≠ p) :
    (s.wx r v).pair j = s.pair j := by simp [State.wx, hc, State.me, State.updThr_pair_ne s _ _ h]
theorem State.retireTo_pair_ne (s : State) (pc : Val) {p j : Nat} {k : Kind} (hc : s.cur = .thr p k) (h : j ≠ p) :
    (s.retireTo pc).pair j = s.pair j := by simp [State.retireTo, hc, State.me, State.updThr_pair_ne s _ _ h]
theorem State.orFlags_pair_ne (s : State) (f : BitVec 5) {p j : Nat} {k : Kind} (hc : s.cur = .thr p k) (h : j ≠ p) :
    (s.orFlags f).pair j = s.pair j := by simp [State.orFlags, hc, State.me, State.updThr_pair_ne s _ _ h]

/-- Retiring keeps every register and moves the PC. -/
theorem Thread.rd_retireAt (t : Thread) (pc : Val) (q : XReg) : (t.retireAt pc).rd q = t.rd q := rfl
theorem State.thr_rx_retireTo (s : State) (pc : Val) (p : Nat) (k : Kind) (q : XReg) (hc : s.cur = .thr p k) : (s.retireTo pc).rx q = s.rx q := by
  simp [State.retireTo, State.rx, hc, State.thr, State.me, State.meK, Thread.rd_retireAt]
theorem State.thr_pc_retireTo (s : State) (pc : Val) (p : Nat) (k : Kind) (hc : s.cur = .thr p k) : (s.retireTo pc).pc = pc := by
  simp [State.retireTo, State.pc, hc, State.thr, State.me, State.meK, Thread.retireAt]

/-! ## How a word ends (R34, R35, R96) -/

/-- What a word's outcome can be: the state of its effect, of its trap, of the stalled agent, or of the agent that stalls after part of
its effect; never a refusal. -/
theorem finish_cases (s t : State) (r : Res State) :
    finish s r = .next t ↔ r = .ok t ∨ (∃ c v e, r = .error (.trap c v e) ∧ t = s.trap c v e) ∨ (∃ w, r = .error (.stall w) ∧ t = s.stall w) ∨
      (∃ u w, r = .error (.hold u w) ∧ t = u.stall w) := by
  rcases r with (⟨c, v, e⟩ | w | ⟨u, w⟩) | u
  · simp [finish, eq_comm]
  · simp [finish, eq_comm]
  · simp [finish, eq_comm]
  · simp [finish]

/-- A scalar word answers its effect, its stop, or one of the two traps of R34. -/
theorem scalar_cases (i : Instr) (s t : State) (r : Res State) (h : scalar i s r = .next t) :
    (Issues i s ∧ finish s r = .next t) ∨
    (∃ k, s.kind = some k ∧ ((k ≠ .F ∧ fLevel i = true ∧ t = s.trap 0x0F#8 (wordOf i) 0#32) ∨
      (i.runsOn k = false ∧ (k = .F ∨ fLevel i = false) ∧ t = s.trap 0x01#8 (wordOf i) 0#32))) := by
  unfold scalar scalarAt at h
  split at h
  · cases h
  · rename_i k hk
    split at h
    · rename_i hf
      simp only [bne, Bool.and_eq_true, Bool.not_eq_true', beq_eq_false_iff_ne, ne_eq] at hf
      cases h
      exact .inr ⟨k, hk, .inl ⟨hf.1, hf.2, rfl⟩⟩
    · rename_i hf
      have hf' : k = .F ∨ fLevel i = false := by
        by_cases e : k = .F
        · exact .inl e
        · right; simpa [e] using hf
      split at h
      · rename_i hr
        cases h
        exact .inr ⟨k, hk, .inr ⟨by simpa using hr, hf', rfl⟩⟩
      · rename_i hr
        exact .inl ⟨⟨k, hk, by simpa using hr, hf'⟩, h⟩

/-! ## The checks of an access (R94-R96) -/

/-- An access that passes is aligned, meets no device register, and is an untagged one to the local alias or lies in a RESIDENT region
that admits it; it goes where `locate` says. -/
theorem checkPair_ok (s : State) (p : Nat) (k : Kind) (acc : Acc) (a : Word) (n : Nat) (tag : Tag) (el : BitVec 32) (l : Loc)
    (h : checkPair s p k acc a n tag el = .ok l) :
    a.toNat % n = 0 ∧ touchesDev a.toNat n = false ∧ l = locate s (clusterOf p) a.toNat ∧
    ((tag = 255#8 ∧ k = .A ∧ inLocal a.toNat n = true) ∨
      (let e := s.region (s.pair p).ctx.toNat (if tag = 255#8 then 0 else tag.toNat)
       e.covers a.toNat n = true ∧ e.admits acc = true ∧ e.st = .resident)) := by
  unfold checkPair at h
  simp only [] at h ⊢
  generalize (if tag = 255#8 then 0 else tag.toNat) = r at h ⊢
  split at h
  · simp [trapR] at h
  rename_i h1
  split at h
  · simp [trapR] at h
  rename_i h2
  refine ⟨by simpa using h1, by simpa using h2, ?_⟩
  split at h
  · rename_i h3
    cases h
    exact ⟨rfl, .inl ⟨h3.1, h3.2.1, by simpa using h3.2.2⟩⟩
  · split at h
    · simp [trapR] at h
    rename_i h4
    split at h
    · simp [trapR] at h
    rename_i h5
    split at h
    · rename_i h6
      cases h
      refine ⟨rfl, .inr ⟨by simpa using h4, by simpa using h5, ?_⟩⟩
      revert h6
      unfold stateFate
      split <;> simp_all [trapR, stallR]
    · cases h

/-! ## A posted residency request (R96) -/

/-- A request changes no entry but the REQ bit of its own. -/
theorem postRequest_region (s : State) (c r prio c' r' : Nat) :
    (postRequest s c r prio).region c' r' = s.region c' r' ∨ (postRequest s c r prio).region c' r' = { s.region c' r' with req := true } := by
  unfold postRequest
  simp only []
  split
  · have h : ∀ (u : State) (l : List (Nat × Nat × Nat)), ({ u with posted := l } : State).region c' r' = u.region c' r' := fun _ _ => rfl
    rw [h, State.setRegion_region]
    split
    · rename_i e; obtain ⟨rfl, rfl⟩ := e; exact .inr rfl
    · exact .inl rfl
  · exact .inl rfl

theorem postRequest_mem (s : State) (c r prio : Nat) : (postRequest s c r prio).mem = s.mem := by
  unfold postRequest; simp only []; split <;> rfl

/-! ## The data caches (R104, R244) -/

theorem flushLine_dirty (m : Mem) (ln : Nat) (l : Line) (k : Nat) (hm : Memory.wf m = true) (x : Nat) :
    Mem.get ((List.range k).foldl (fun m i => if l.dirty.getLsbD i then Mem.set m (64 * ln + i) (l.byte i) else m) m) x =
      if 64 * ln ≤ x ∧ x < 64 * ln + k ∧ l.dirty.getLsbD (x - 64 * ln) = true then l.byte (x - 64 * ln) else Mem.get m x := by
  induction k with
  | zero =>
    have : ¬ (64 * ln ≤ x ∧ x < 64 * ln + 0 ∧ l.dirty.getLsbD (x - 64 * ln) = true) := by omega
    simp only [List.range_zero, List.foldl_nil, this, if_false]
  | succ k ih =>
    rw [List.range_succ, List.foldl_append]
    simp only [List.foldl_cons, List.foldl_nil]
    have wf : Memory.wf ((List.range k).foldl (fun m i => if l.dirty.getLsbD i then Mem.set m (64 * ln + i) (l.byte i) else m) m) = true :=
      Memory.wf_foldl _ _ _ (fun m i hm => by split; exact Memory.wf_set _ _ _ hm; exact hm) hm
    by_cases hx : x = 64 * ln + k
    · subst hx
      have e : 64 * ln + k - 64 * ln = k := by omega
      have hk : ¬ (64 * ln ≤ 64 * ln + k ∧ 64 * ln + k < 64 * ln + k ∧ l.dirty.getLsbD (64 * ln + k - 64 * ln) = true) := by omega
      by_cases hd : l.dirty.getLsbD k = true
      · simp only [hd, if_true]
        rw [Mem.get_set_wf _ _ _ _ wf, if_pos rfl, if_pos ⟨by omega, by omega, by rw [e]; exact hd⟩, e]
      · simp only [hd]
        rw [if_neg (by simp), ih, if_neg hk, if_neg (by rw [e]; simp [hd])]
    · have hi : (64 * ln ≤ x ∧ x < 64 * ln + (k + 1) ∧ l.dirty.getLsbD (x - 64 * ln) = true) ↔
          (64 * ln ≤ x ∧ x < 64 * ln + k ∧ l.dirty.getLsbD (x - 64 * ln) = true) := by
        constructor <;> rintro ⟨a, b, c⟩ <;> exact ⟨a, by omega, c⟩
      by_cases hd : l.dirty.getLsbD k = true
      · simp only [hd, if_true]
        rw [Mem.get_set_wf _ _ _ _ wf, if_neg hx, ih]
        simp only [hi]
      · simp only [hd]
        rw [if_neg (by simp), ih]
        simp only [hi]

/-- R244: a line written back changes the bytes its core has written, and no other. -/
theorem flushLine_get (m : Mem) (ln : Nat) (l : Line) (hm : Memory.wf m = true) (x : Nat) :
    Mem.get (flushLine m ln l) x = if x / 64 = ln ∧ l.dirty.getLsbD (x % 64) = true then l.byte (x % 64) else Mem.get m x := by
  have e : x / 64 = ln ↔ 64 * ln ≤ x ∧ x < 64 * ln + 64 := by omega
  unfold flushLine
  split
  · rename_i h; simp [h]
  · rw [flushLine_dirty m ln l 64 hm x]
    by_cases h : x / 64 = ln
    · have h' := e.mp h
      have h2 : x - 64 * ln = x % 64 := by omega
      rw [h2]; simp [h, h'.1, h'.2]
    · have h' : ¬ (64 * ln ≤ x ∧ x < 64 * ln + 64) := fun c => h (e.mpr c)
      rw [if_neg (fun c => h' ⟨c.1, c.2.1⟩), if_neg (fun c => h c.1)]

/-- Some of the lines of a core are written back: a byte is as before, or is a byte that the core has written. -/
theorem flushSome_get (f : Nat × Line → Bool) (c : List (Nat × Line)) (m : Mem) (hm : Memory.wf m = true) (x : Nat) :
    let m' := c.foldl (fun m e => if f e then flushLine m e.1 e.2 else m) m
    Memory.wf m' = true ∧ (Mem.get m' x = Mem.get m x ∨
      ∃ e ∈ c, e.1 = x / 64 ∧ e.2.dirty.getLsbD (x % 64) = true ∧ Mem.get m' x = e.2.byte (x % 64)) := by
  induction c generalizing m with
  | nil => exact ⟨hm, .inl rfl⟩
  | cons e t ih =>
    simp only [List.foldl_cons]
    by_cases hf : f e
    · simp only [hf, if_true]
      obtain ⟨w, h⟩ := ih (flushLine m e.1 e.2) (Memory.wf_flushLine m e.1 e.2 hm)
      refine ⟨w, ?_⟩
      rcases h with h | ⟨u, hu, h⟩
      · rw [h, flushLine_get m _ _ hm]
        split
        · rename_i d; exact .inr ⟨e, List.mem_cons_self .., d.1.symm, d.2, rfl⟩
        · exact .inl rfl
      · exact .inr ⟨u, List.mem_cons_of_mem _ hu, h⟩
    · simp only [hf]
      obtain ⟨w, h⟩ := ih m hm
      refine ⟨w, ?_⟩
      rcases h with h | ⟨u, hu, h⟩
      · exact .inl h
      · exact .inr ⟨u, List.mem_cons_of_mem _ hu, h⟩

/-- From s to t memory changes only where a byte that the core has written is written back. -/
def OnlyWritesBack (s t : State) (core : Nat) : Prop :=
  Memory.wf t.mem = true ∧ ∀ x, Mem.get t.mem x = Mem.get s.mem x ∨
    ∃ e ∈ s.cache core, e.1 = x / 64 ∧ e.2.dirty.getLsbD (x % 64) = true ∧ Mem.get t.mem x = e.2.byte (x % 64)

theorem OnlyWritesBack.refl (s : State) (core : Nat) (h : Memory.wf s.mem = true) : OnlyWritesBack s s core := ⟨h, fun _ => .inl rfl⟩

theorem writeBackAll_mem (s : State) (core : Nat) (h : Memory.wf s.mem = true) : OnlyWritesBack s (writeBackAll s core) core := by
  unfold writeBackAll
  split
  · exact .refl s core h
  · exact ⟨(flushSome_get (fun _ => true) _ _ h 0).1, fun x => (flushSome_get (fun _ => true) _ _ h x).2⟩

theorem invalidateClean_mem (s : State) (core : Nat) (h : Memory.wf s.mem = true) : OnlyWritesBack s (invalidateClean s core) core := by
  unfold invalidateClean
  split
  · exact .refl s core h
  · have e : ∀ m, (s.cache core).foldl (fun m (c : Nat × Line) => if (c.2.dirty == BitVec.allOnes 64) = true then m else flushLine m c.1 c.2) m =
        (s.cache core).foldl (fun m c => if (!(c.2.dirty == BitVec.allOnes 64)) = true then flushLine m c.1 c.2 else m) m := by
      intro m; congr 1; funext m c; by_cases hc : c.2.dirty == BitVec.allOnes 64 <;> simp
    refine ⟨?_, fun x => ?_⟩
    · exact (congrArg Memory.wf (e s.mem)).trans (flushSome_get (fun c => !(c.2.dirty == BitVec.allOnes 64)) _ _ h 0).1
    · have := (flushSome_get (fun c => !(c.2.dirty == BitVec.allOnes 64)) (s.cache core) s.mem h x).2
      rw [← e s.mem] at this
      exact this

theorem purgeCore_mem (s : State) (core a n : Nat) (h : Memory.wf s.mem = true) : OnlyWritesBack s (purgeCore s core a n) core := by
  unfold purgeCore
  split
  · exact .refl s core h
  · exact ⟨(flushSome_get _ _ _ h 0).1, fun x => (flushSome_get _ _ _ h x).2⟩

theorem invalidateRange_mem (s : State) (core a n : Nat) (h : Memory.wf s.mem = true) : OnlyWritesBack s (invalidateRange s core a n) core := by
  unfold invalidateRange
  split
  · exact .refl s core h
  · exact ⟨(flushSome_get _ _ _ h 0).1, fun x => (flushSome_get _ _ _ h x).2⟩

/-- A purge of every cache keeps the canonical form. -/
theorem purgeAll_wf (s : State) (a n : Nat) (h : Memory.wf s.mem = true) : Memory.wf (purgeAll s a n).mem = true := by
  unfold purgeAll
  generalize s.caches = l
  induction l generalizing s with
  | nil => exact h
  | cons c t ih => exact ih _ (purgeCore_mem s c.1 a n h).1

theorem takeLine_wf (s : State) (core ln : Nat) (h : Memory.wf s.mem = true) : Memory.wf (takeLine s core ln).mem = true := by
  unfold takeLine
  simp only []
  split
  · exact h
  · split
    · exact h
    · split
      · exact Memory.wf_flushLine _ _ _ h
      · exact h

theorem cacheLoad_wf (s : State) (core a n : Nat) (h : Memory.wf s.mem = true) : Memory.wf (cacheLoad s core a n).1.mem = true :=
  takeLine_wf s core _ h

theorem cacheStore_wf (s : State) (core a n v : Nat) (h : Memory.wf s.mem = true) : Memory.wf (cacheStore s core a n v).mem = true :=
  takeLine_wf s core _ h

/-! ## Accesses at their homes -/

theorem storeEl_wf (m : Mem) (w : Nat) (e : Elem) (h : Memory.wf m = true) : Memory.wf (storeEl m w e) = true := Memory.wf_setLE _ _ _ _ h

theorem purgeSome_wf (w : Elem → Bool) (core : Nat) (els : List Elem) (s : State) (h : Memory.wf s.mem = true) :
    Memory.wf (els.foldl (fun s e => if w e then purgeCore s core e.a e.n else s) s).mem = true := by
  induction els generalizing s with
  | nil => exact h
  | cons e t ih =>
    apply ih
    dsimp only
    split
    · exact (purgeCore_mem s core e.a e.n h).1
    · exact h

theorem purgeElems_wf (core : Nat) (els : List Elem) (s : State) (h : Memory.wf s.mem = true) : Memory.wf (purgeElems s core els).mem = true :=
  purgeSome_wf (fun e => e.v.isNone && decide (e.a < Config.hbmTop)) core els s h

theorem perform_wf (s : State) (p : Nat) (f : Flight) (h : Memory.wf s.mem = true) : Memory.wf (perform s p f).mem = true := by
  unfold perform
  split
  · dsimp only
    refine purgeElems_wf _ _ _ ?_
    split
    · exact (invalidateClean_mem s (coreOf p .A) h).1
    · exact h
  · exact Memory.wf_foldl _ _ _ (fun m e hm => storeEl_wf m _ e hm)
      (by simpa using purgeSome_wf (fun e => decide (e.a < Config.hbmTop)) (coreOf p .A) f.els s h)

theorem land1_wf (s : State) (p : Nat) (h : Memory.wf s.mem = true) : Memory.wf (land1 s p).mem = true := by
  unfold land1
  split
  · exact h
  · exact perform_wf _ _ _ h

theorem settle_wf (s : State) (p : Nat) (h : Memory.wf s.mem = true) : Memory.wf (settle s p).mem = true := by
  unfold settle
  generalize List.range (s.pair p).flights.length = l
  induction l generalizing s with
  | nil => exact h
  | cons c t ih => exact ih _ (land1_wf s p h)

theorem settleMe_wf (s : State) (h : Memory.wf s.mem = true) : Memory.wf (settleMe s).mem = true := by
  unfold settleMe
  split
  · exact settle_wf _ _ h
  · exact h

theorem dropLine_mem (s : State) (l : Loc) (h : Memory.wf s.mem = true) : OnlyWritesBack s (dropLine s l) s.core := by
  unfold dropLine
  split
  · exact purgeCore_mem _ _ _ _ h
  · exact purgeCore_mem _ _ _ _ h
  · exact .refl _ _ h

theorem before_mem (s : State) (sc : Scope) (rel : Bool) (h : Memory.wf s.mem = true) : OnlyWritesBack s (before s sc rel) s.core := by
  unfold before
  split
  · exact writeBackAll_mem _ _ h
  · exact .refl _ _ h

theorem after_mem (s : State) (sc : Scope) (acq : Bool) (h : Memory.wf s.mem = true) : OnlyWritesBack s (after s sc acq) s.core := by
  unfold after
  split
  · exact invalidateClean_mem _ _ h
  · exact .refl _ _ h

theorem writeHome_wf (s t : State) (l : Loc) (n v : Nat) (h : Memory.wf s.mem = true) (ok : writeHome s l n v = .ok t) : Memory.wf t.mem = true := by
  unfold writeHome at ok
  split at ok
  · split at ok
    · cases ok; exact h
    · cases ok
  · simp [trapR] at ok
  · cases ok; exact Memory.wf_setLE _ _ _ _ h

/-- A store through the core's cache, or at its home, keeps the canonical form. -/
theorem writeCached_wf (s t : State) (l : Loc) (n v : Nat) (h : Memory.wf s.mem = true) (ok : writeCached s l n v = .ok t) :
    Memory.wf t.mem = true := by
  unfold writeCached at ok
  split at ok
  · cases ok; exact cacheStore_wf _ _ _ _ _ h
  · exact writeHome_wf _ _ _ _ _ (dropLine_mem s l h).1 ok

theorem readCached_wf (s t : State) (l : Loc) (n v : Nat) (h : Memory.wf s.mem = true) (ok : readCached s l n = .ok (t, v)) :
    Memory.wf t.mem = true := by
  unfold readCached at ok
  split at ok
  · cases ok; exact cacheLoad_wf s s.core _ n h
  · split at ok
    · cases ok; exact (dropLine_mem s l h).1
    · cases ok

end Machine
end Sys2Proof
end

