-- ==== Sys2Proof/Tests/Slice0.lean ====
section
/-! SUPPORT. Tests of the model: ill-formed instructions are refused, words written from the manual's encodings decode to their
instructions, and each statement's hypotheses are met by a concrete state and operands (the theorems `witness_…`). -/

namespace Sys2Proof.Tests

open Sys2Proof Sys2Proof.Machine Sys2Proof.Safety Sys2Proof.Claims

/-! ## Well-formedness: one ill-formed term for each check -/

/-- Each breaks one check of WellFormed: the destination (no field, a mask, a scale register), source a or b (unread, mask, scale
register, block scalar, broadcast not allowed, queue number, chain bit on a queue), source c, the masks, xe, fs, cv, two pops of
one queue. -/
theorem test_illFields_refused : ∀ i ∈ (
  [.vret { vd := 1#6 }, .mand { vd := 8#6 }, .zld { vd := 4#6 }, .vid { sa := 1#6 }, .vid { ka := .bscalar }, .vid { ca := true }, .mpopc { sa := 8#6 },
   .zmv { sa := 4#6 }, .vrng { kb := .bscalar }, .vrng { ka := .bscalar, kb := .bscalar, sa := 8#6 }, .vredsum { ka := .bscalar },
   .vadd { ka := .bscalar, sa := 8#6 } false, .vadd { ka := .queue, sa := 4#6 } false, .vadd { ka := .queue, ca := true } false,
   .vadd { sc := 1#6 } false, .vadd { cc := true } false, .zmv { m := 1#3 }, .zld { m := 1#3, mn := true }, .vmerge {}, .vadd { mn := true } false,
   .vcmp { xe := true } 0#3, .vadd { xm := 1#3 } false, .vmv { fs := 1#3 }, .mrow { cv := true } 0#2 false, .vadd { ka := .queue, kb := .queue } false,
   .vslideup { sb := 1#6 } 0#13, .vslideup { kb := .bscalar } 1#13] : List Instr), i.wf = false := by decide

/-- Each breaks a check on a field, an order, or the number of an agent. -/
theorem test_illValues_refused : ∀ i ∈ (
  [.ldo 0#5 0#5 .pair .rel 0#3, .sto 0#5 0#5 .pair .acq 0#3, .ldo 0#5 0#5 .pair .rlx 7#3, .sto 0#5 0#5 .pair .rlx 4#3, .rgnq 0#5 6#4 0#8,
   .setvl 0#5 0#5 0#5 7#3 0#2 0#3, .setvl 0#5 0#5 0#5 0#3 0#2 5#3, .setrc 0#4, .setrc 9#4, .vld 0#2 0#5 .pair .rel false 0#3, .vld 0#2 0#5 .pair .rlx false 5#3,
   .vst 0#1 0#5 .pair .acq false 0#3, .vstr 0#1 0#5 .pair .rlx false 4#3, .vsta 0#1 0#5 .pair .rlx 0#5, .sigset 0#5 0#5 .pair .acqrel,
   .sigwge 0#5 0#5 0#5 .pair .rel, .sbind 0#4 true 0#3 12#4, .sbind 0#4 false 1#3 0#4, .vbr 0#3 false 0#24, .vout {} 3#2, .vcmp {} 6#3, .vfcmp {} 7#3,
   .vfsgn {} 3#2, .vfsfn {} 4#4, .vbfly {} 13#4 false, .pairStart 1280, .pairTrap 0 .F 0#8 0#64 0#32, .kick 8 0#12, .partitionChangePost 1280 0#8,
   .laneLend 0 1280] : List Instr), i.wf = false := by decide

theorem test_wellFormed_taken : ∀ i ∈ [Instr.add 1#5 2#5 3#5, .vadd { ka := .queue, sa := 3#6, kb := .queue, sb := 2#6 } true, .pairStart 1279, .kick 7 0#12], i.wf = true := by
  decide

/-! ## Decoding -/

/-- Words that are no instruction: an opcode without a row, a member, a bit that must be zero, an order code, a source kind. -/
theorem test_decode_refuses :
    (∀ w ∈ [0, 0x1A000000, 0x0253181B, 0x02531E12, 0x480000C0, 0xA2000001], decodeTableWord 32 w = none) ∧
    (∀ w ∈ [0x07 * 2 ^ 56, 0x10 * 2 ^ 56 + 2, 0x10 * 2 ^ 56 + 3 * 2 ^ 15, 0x80 * 2 ^ 56 + 2 ^ 28, 1], decodeTableWord 64 w = none) := by decide

/-- Scalar words, each its opcode and the fields of its row (R27, R41-R43), with the instruction it stands for. -/
def scalarWords0 : List (Nat × Instr) :=
  [(0x3536400, .add 21#5 6#5 25#5),
   (0x3536401, .sub 21#5 6#5 25#5),
   (0x3536402, .and_ 21#5 6#5 25#5),
   (0x3536403, .or_ 21#5 6#5 25#5),
   (0x3536404, .xor_ 21#5 6#5 25#5),
   (0x3536405, .sll 21#5 6#5 25#5),
   (0x3536406, .srl 21#5 6#5 25#5),
   (0x3536407, .sra 21#5 6#5 25#5),
   (0x3536408, .slt 21#5 6#5 25#5),
   (0x3536409, .sltu 21#5 6#5 25#5),
   (0x353640A, .seq_ 21#5 6#5 25#5),
   (0x353640B, .sne 21#5 6#5 25#5),
   (0x353640C, .min_ 21#5 6#5 25#5),
   (0x353640D, .max_ 21#5 6#5 25#5),
   (0x353640E, .minu 21#5 6#5 25#5),
   (0x353640F, .maxu 21#5 6#5 25#5),
   (0x3536410, .andn 21#5 6#5 25#5),
   (0x3536411, .orn 21#5 6#5 25#5),
   (0x3530012, .clz 21#5 6#5),
   (0x3530013, .ctz 21#5 6#5),
   (0x3530014, .popc 21#5 6#5)]

theorem test_decode_scalarWords0 : ∀ p ∈ scalarWords0, decodeTableWord 32 p.1 = some p.2 := by decide

/-- Scalar words, each its opcode and the fields of its row (R27, R41-R43), with the instruction it stands for. -/
def scalarWords1 : List (Nat × Instr) :=
  [(0x3530015, .sextb 21#5 6#5),
   (0x3530016, .sexth 21#5 6#5),
   (0x3530017, .sextw 21#5 6#5),
   (0x3530018, .zextw 21#5 6#5),
   (0x3536419, .rol 21#5 6#5 25#5),
   (0x353641A, .ror 21#5 6#5 25#5),
   (0x5536400, .mul_ 21#5 6#5 25#5),
   (0x5536401, .mulh 21#5 6#5 25#5),
   (0x5536402, .mulhu 21#5 6#5 25#5),
   (0x5536403, .mulhsu 21#5 6#5 25#5),
   (0x5536404, .div_ 21#5 6#5 25#5),
   (0x5536405, .divu 21#5 6#5 25#5),
   (0x5536406, .rem 21#5 6#5 25#5),
   (0x5536407, .remu 21#5 6#5 25#5),
   (0x75352C7, .addi 21#5 6#5 21191#15),
   (0x95352C7, .andi 21#5 6#5 21191#15),
   (0xB5352C7, .ori 21#5 6#5 21191#15),
   (0xD5352C7, .xori 21#5 6#5 21191#15),
   (0xF5352C7, .slti 21#5 6#5 21191#15),
   (0x115352C7, .sltiu 21#5 6#5 21191#15),
   (0x1353002D, .slli 21#5 6#5 45#6)]

theorem test_decode_scalarWords1 : ∀ p ∈ scalarWords1, decodeTableWord 32 p.1 = some p.2 := by decide

/-- Scalar words, each its opcode and the fields of its row (R27, R41-R43), with the instruction it stands for. -/
def scalarWords2 : List (Nat × Instr) :=
  [(0x1353202D, .srli 21#5 6#5 45#6),
   (0x1353402D, .srai 21#5 6#5 45#6),
   (0x1353602D, .rori 21#5 6#5 45#6),
   (0x155A5C3E, .lui 21#5 678974#20),
   (0x175A5C3E, .luh 21#5 678974#20),
   (0x195A5C3E, .adpc 21#5 678974#20),
   (0x21530A5C, .beq 21#5 6#5 2652#12),
   (0x21531A5C, .bne 21#5 6#5 2652#12),
   (0x21532A5C, .blt 21#5 6#5 2652#12),
   (0x21533A5C, .bge 21#5 6#5 2652#12),
   (0x21534A5C, .bltu 21#5 6#5 2652#12),
   (0x21535A5C, .bgeu 21#5 6#5 2652#12),
   (0x235A5C3E, .jl 21#5 678974#20),
   (0x255352C7, .jlr 21#5 6#5 21191#15),
   (0x26000A5C, .qbt 2652#12),
   (0x26001A5C, .qbf 2652#12),
   (0x315352C7, .ldb 21#5 6#5 21191#15),
   (0x335352C7, .ldh 21#5 6#5 21191#15),
   (0x355352C7, .ldw 21#5 6#5 21191#15),
   (0x375352C7, .ldd 21#5 6#5 21191#15),
   (0x395352C7, .ldbu 21#5 6#5 21191#15)]

theorem test_decode_scalarWords2 : ∀ p ∈ scalarWords2, decodeTableWord 32 p.1 = some p.2 := by decide

/-- Scalar words, each its opcode and the fields of its row (R27, R41-R43), with the instruction it stands for. -/
def scalarWords3 : List (Nat × Instr) :=
  [(0x3B5352C7, .ldhu 21#5 6#5 21191#15),
   (0x3D5352C7, .ldwu 21#5 6#5 21191#15),
   (0x415352C7, .stb 21#5 6#5 21191#15),
   (0x435352C7, .sth 21#5 6#5 21191#15),
   (0x455352C7, .stw 21#5 6#5 21191#15),
   (0x475352C7, .std 21#5 6#5 21191#15),
   (0x495301A8, .ldo 21#5 6#5 .pkg .acq 2#3),
   (0x4A0A99C8, .sto 21#5 6#5 .pkg .rel 2#3),
   (0x4D5365F0, .amoAdd 21#5 6#5 25#5 .pkg .acqrel true),
   (0x4D5365F1, .amoAnd 21#5 6#5 25#5 .pkg .acqrel true),
   (0x4D5365F2, .amoOr 21#5 6#5 25#5 .pkg .acqrel true),
   (0x4D5365F3, .amoXor 21#5 6#5 25#5 .pkg .acqrel true),
   (0x4D5365F4, .amoMin 21#5 6#5 25#5 .pkg .acqrel true),
   (0x4D5365F5, .amoMax 21#5 6#5 25#5 .pkg .acqrel true),
   (0x4D5365F6, .amoMinu 21#5 6#5 25#5 .pkg .acqrel true),
   (0x4D5365F7, .amoMaxu 21#5 6#5 25#5 .pkg .acqrel true),
   (0x4D5365F8, .amoSwap 21#5 6#5 25#5 .pkg .acqrel true),
   (0x4D5365F9, .amoCas 21#5 6#5 25#5 .pkg .acqrel true),
   (0x4E000190, .fence .pkg true),
   (0x4E0001B0, .fenceAcq .pkg true),
   (0x4E0001D0, .fenceRel .pkg true)]

theorem test_decode_scalarWords3 : ∀ p ∈ scalarWords3, decodeTableWord 32 p.1 = some p.2 := by decide

/-- Scalar words, each its opcode and the fields of its row (R27, R41-R43), with the instruction it stands for. -/
def scalarWords4 : List (Nat × Instr) :=
  [(0x515352C7, .ldslot 21#5 6#5 21191#15),
   (0x535352C7, .stslot 21#5 6#5 21191#15),
   (0x555300B6, .tagset 21#5 6#5 182#8),
   (0x57530000, .tagrd 21#5 6#5),
   (0x58000000, .safept),
   (0x5A0000B6, .racq 182#8),
   (0x5D5005B6, .rgnq 21#5 5#4 182#8),
   (0x600A8000, .qpushSq 21#5),
   (0x600A8003, .qpushDownstream 21#5),
   (0x63500000, .qpopSq 21#5),
   (0x63500002, .qpopRq 21#5),
   (0x63500004, .qpopUpstream 21#5),
   (0x640A8000, .bout 21#5),
   (0x675364B3, .setvl 21#5 6#5 25#5 5#3 2#2 3#3),
   (0x68000006, .setrc 6#4),
   (0x6A0A5C3E, .vfetch 678974#20),
   (0x6C0AD2C7, .vfetchr 21#5 21191#15),
   (0x6E000000, .vwait),
   (0x702A81B2, .vld 2#2 21#5 .pkg .acq true 2#3),
   (0x722A99B2, .vlds 2#2 21#5 6#5 .pkg .acq true 2#3),
   (0x742A81B2, .vldx 2#2 21#5 .pkg .acq true 2#3)]

theorem test_decode_scalarWords4 : ∀ p ∈ scalarWords4, decodeTableWord 32 p.1 = some p.2 := by decide

/-- Scalar words, each its opcode and the fields of its row (R27, R41-R43), with the instruction it stands for. -/
def scalarWords5 : List (Nat × Instr) :=
  [(0x761A81D2, .vst 1#1 21#5 .pkg .rel true 2#3),
   (0x761A81DA, .vsti 1#1 21#5 .pkg .rel true 2#3),
   (0x781A99D2, .vsts 1#1 21#5 6#5 .pkg .rel true 2#3),
   (0x7A1A81D2, .vstx 1#1 21#5 .pkg .rel true 2#3),
   (0x7C1A81CA, .vsta 1#1 21#5 .pkg .rel 10#5),
   (0x7E1A81D2, .vstr 1#1 21#5 .pkg .rel true 2#3),
   (0x80BAD2C7, .sdef 11#4 21#5 21191#15),
   (0x82B000AB, .sbind 11#4 true 2#3 11#4),
   (0x84B00000, .sgo 11#4),
   (0x86000000, .sbarCfg),
   (0x86000001, .sbarPhase),
   (0x86000002, .sbarIft),
   (0x86000003, .sbarIff),
   (0x880A8002, .wmwait 21#5 2#3),
   (0x8AB00000, .cpwaitRel 11#4),
   (0x8AB00001, .cpwaitVis 11#4),
   (0x8D5352C7, .jsub 21#5 6#5 21191#15),
   (0x8F50000B, .sstat 21#5 11#4),
   (0x902AD2C7, .wbfill 2#2 21#5 21191#15),
   (0x93500002, .wbwait 21#5 2#2),
   (0x98000000, .bar)]

theorem test_decode_scalarWords5 : ∀ p ∈ scalarWords5, decodeTableWord 32 p.1 = some p.2 := by decide

/-- Scalar words, each its opcode and the fields of its row (R27, R41-R43), with the instruction it stands for. -/
def scalarWords6 : List (Nat × Instr) :=
  [(0x9B5365E0, .sigadd 21#5 6#5 25#5 .pkg .acqrel),
   (0x9A0A99C1, .sigset 21#5 6#5 .pkg .rel),
   (0x9B5365A2, .sigwge 21#5 6#5 25#5 .pkg .acq),
   (0x9B5365A3, .sigweq 21#5 6#5 25#5 .pkg .acq),
   (0x9D536400, .enq 21#5 6#5 25#5),
   (0x9F500000, .symq 21#5),
   (0xA00A5C3E, .svc 678974#20),
   (0xA2000000, .tret),
   (0xA550000A, .csrr 21#5 10#12),
   (0xA553100A, .csrw 21#5 6#5 10#12),
   (0xA553200A, .csrs 21#5 6#5 10#12),
   (0xA553300A, .csrc 21#5 6#5 10#12),
   (0xA6000000, .cueret),
   (0xA8000000, .park),
   (0xAA000000, .exit),
   (0xAC000000, .yield),
   (0xB00AD2C7, .trc 21#5 21191#15),
   (0xB20A5C3E, .brk 678974#20),
   (0xB8BAD2C7, .fvld 11#4 21#5 21191#15),
   (0xBABAD2C7, .fvst 11#4 21#5 21191#15),
   (0xBCB2B840, .fvand 11#4 5#4 14#4 2#2)]

theorem test_decode_scalarWords6 : ∀ p ∈ scalarWords6, decodeTableWord 32 p.1 = some p.2 := by decide

/-- Scalar words, each its opcode and the fields of its row (R27, R41-R43), with the instruction it stands for. -/
def scalarWords7 : List (Nat × Instr) :=
  [(0xBCB2B841, .fvor 11#4 5#4 14#4 2#2),
   (0xBCB2B842, .fvandn 11#4 5#4 14#4 2#2),
   (0xBCB2B843, .fvxor 11#4 5#4 14#4 2#2),
   (0xBCB2B844, .fvcmpeq 11#4 5#4 14#4 2#2),
   (0xBCB2B845, .fvcmpne 11#4 5#4 14#4 2#2),
   (0xBCB2B846, .fvcmplt 11#4 5#4 14#4 2#2),
   (0xBCB2B847, .fvcmpgt 11#4 5#4 14#4 2#2),
   (0xBCBA8048, .fvbcast 11#4 21#5 2#2),
   (0xBF558000, .fvff 21#5 11#4),
   (0xBF558001, .fvpopc 21#5 11#4),
   (0xC00A5C3E, .vfetchw 678974#20),
   (0xC35352C7, .ldslot32 21#5 6#5 21191#15),
   (0xC4000000, .sync),
   (0xC7500000, .qpopw 21#5)]

theorem test_decode_scalarWords7 : ∀ p ∈ scalarWords7, decodeTableWord 32 p.1 = some p.2 := by decide

/-- Block words, each its opcode and fields (R30, R31, R33, R45), with the instruction it stands for. -/
def blockWords0 : List (Nat × Instr) :=
  [(0x0, .stop),
   (0x100000000000000, .vnop),
   (0x300000000000000, .vrejoin),
   (0x2A5C3E70B000000, .vbr 5#3 true 0xA5C3E7#24),
   (0x10B560C09BE64001, .vadd { vd := 45#6, sa := 22#6, sb := 3#6, m := 5#3, xm := 6#3, fs := 3#3, ca := true, cv := true, mn := true, xe := true, kb := .queue } true),
   (0x11B560C09BE64001, .vsub { vd := 45#6, sa := 22#6, sb := 3#6, m := 5#3, xm := 6#3, fs := 3#3, ca := true, cv := true, mn := true, xe := true, kb := .queue } true),
   (0x12B560C09BE64001, .vmul { vd := 45#6, sa := 22#6, sb := 3#6, m := 5#3, xm := 6#3, fs := 3#3, ca := true, cv := true, mn := true, xe := true, kb := .queue } true),
   (0x13B560C09BE64000, .vmulh { vd := 45#6, sa := 22#6, sb := 3#6, m := 5#3, xm := 6#3, fs := 3#3, ca := true, cv := true, mn := true, xe := true, kb := .queue }),
   (0x14B560C09BE64000, .vdiv { vd := 45#6, sa := 22#6, sb := 3#6, m := 5#3, xm := 6#3, fs := 3#3, ca := true, cv := true, mn := true, xe := true, kb := .queue }),
   (0x15B560C09BE64000, .vrem { vd := 45#6, sa := 22#6, sb := 3#6, m := 5#3, xm := 6#3, fs := 3#3, ca := true, cv := true, mn := true, xe := true, kb := .queue }),
   (0x16B560C09BE64000, .vand { vd := 45#6, sa := 22#6, sb := 3#6, m := 5#3, xm := 6#3, fs := 3#3, ca := true, cv := true, mn := true, xe := true, kb := .queue }),
   (0x17B560C09BE64000, .vor { vd := 45#6, sa := 22#6, sb := 3#6, m := 5#3, xm := 6#3, fs := 3#3, ca := true, cv := true, mn := true, xe := true, kb := .queue }),
   (0x18B560C09BE64000, .vxor { vd := 45#6, sa := 22#6, sb := 3#6, m := 5#3, xm := 6#3, fs := 3#3, ca := true, cv := true, mn := true, xe := true, kb := .queue }),
   (0x19B560C09BE64000, .vsll { vd := 45#6, sa := 22#6, sb := 3#6, m := 5#3, xm := 6#3, fs := 3#3, ca := true, cv := true, mn := true, xe := true, kb := .queue }),
   (0x1AB560C09BE64000, .vsrl { vd := 45#6, sa := 22#6, sb := 3#6, m := 5#3, xm := 6#3, fs := 3#3, ca := true, cv := true, mn := true, xe := true, kb := .queue }),
   (0x1BB560C09BE64000, .vsra { vd := 45#6, sa := 22#6, sb := 3#6, m := 5#3, xm := 6#3, fs := 3#3, ca := true, cv := true, mn := true, xe := true, kb := .queue }),
   (0x1CB560C09BE64000, .vmin { vd := 45#6, sa := 22#6, sb := 3#6, m := 5#3, xm := 6#3, fs := 3#3, ca := true, cv := true, mn := true, xe := true, kb := .queue }),
   (0x1DB560C09BE64000, .vmax { vd := 45#6, sa := 22#6, sb := 3#6, m := 5#3, xm := 6#3, fs := 3#3, ca := true, cv := true, mn := true, xe := true, kb := .queue }),
   (0x1EB560C09BE6402B, .vadc { vd := 45#6, sa := 22#6, sb := 3#6, m := 5#3, xm := 6#3, fs := 3#3, ca := true, cv := true, mn := true, xe := true, kb := .queue } 3#3 5#3),
   (0x1FB560C09BE6402B, .vsbc { vd := 45#6, sa := 22#6, sb := 3#6, m := 5#3, xm := 6#3, fs := 3#3, ca := true, cv := true, mn := true, xe := true, kb := .queue } 3#3 5#3)]

theorem test_decode_blockWords0 : ∀ p ∈ blockWords0, decodeTableWord 64 p.1 = some p.2 := by decide

/-- Block words, each its opcode and fields (R30, R31, R33, R45), with the instruction it stands for. -/
def blockWords1 : List (Nat × Instr) :=
  [(0x201960C09B064004, .vcmp { vd := 6#6, sa := 22#6, sb := 3#6, m := 5#3, fs := 3#3, ca := true, cv := true, mn := true, kb := .queue } 4#3),
   (0x30B560C09BE64000, .vfadd { vd := 45#6, sa := 22#6, sb := 3#6, m := 5#3, xm := 6#3, fs := 3#3, ca := true, cv := true, mn := true, xe := true, kb := .queue }),
   (0x31B560C09BE64000, .vfsub { vd := 45#6, sa := 22#6, sb := 3#6, m := 5#3, xm := 6#3, fs := 3#3, ca := true, cv := true, mn := true, xe := true, kb := .queue }),
   (0x32B560C09BE64000, .vfmul { vd := 45#6, sa := 22#6, sb := 3#6, m := 5#3, xm := 6#3, fs := 3#3, ca := true, cv := true, mn := true, xe := true, kb := .queue }),
   (0x34B560C09BE64000, .vfdiv { vd := 45#6, sa := 22#6, sb := 3#6, m := 5#3, xm := 6#3, fs := 3#3, ca := true, cv := true, mn := true, xe := true, kb := .queue }),
   (0x36B560C09BE64000, .vfmin { vd := 45#6, sa := 22#6, sb := 3#6, m := 5#3, xm := 6#3, fs := 3#3, ca := true, cv := true, mn := true, xe := true, kb := .queue }),
   (0x37B560C09BE64000, .vfmax { vd := 45#6, sa := 22#6, sb := 3#6, m := 5#3, xm := 6#3, fs := 3#3, ca := true, cv := true, mn := true, xe := true, kb := .queue }),
   (0x33B560F3BBE64002, .vfma { vd := 45#6, sa := 22#6, sb := 3#6, sc := 51#6, m := 5#3, xm := 6#3, fs := 3#3, ca := true, cc := true, cv := true, mn := true, xe := true, kb := .queue } 2#2),
   (0x35B560009BE60000, .vfsqrt { vd := 45#6, sa := 22#6, m := 5#3, xm := 6#3, fs := 3#3, ca := true, cv := true, mn := true, xe := true }),
   (0x381960C09B064006, .vfcmp { vd := 6#6, sa := 22#6, sb := 3#6, m := 5#3, fs := 3#3, ca := true, cv := true, mn := true, kb := .queue } 6#3),
   (0x39B560009B060000, .vfclass { vd := 45#6, sa := 22#6, m := 5#3, fs := 3#3, ca := true, cv := true, mn := true }),
   (0x3AB560C09BE64002, .vfsgn { vd := 45#6, sa := 22#6, sb := 3#6, m := 5#3, xm := 6#3, fs := 3#3, ca := true, cv := true, mn := true, xe := true, kb := .queue } 2#2),
   (0x3BB560009BE60003, .vfsfn { vd := 45#6, sa := 22#6, m := 5#3, xm := 6#3, fs := 3#3, ca := true, cv := true, mn := true, xe := true } 3#4),
   (0x50B560009BE60000, .vcvt { vd := 45#6, sa := 22#6, m := 5#3, xm := 6#3, fs := 3#3, ca := true, cv := true, mn := true, xe := true }),
   (0x51B560008BE6001B, .vbfly { vd := 45#6, sa := 22#6, m := 5#3, xm := 6#3, fs := 3#3, ca := true, mn := true, xe := true } 11#4 true),
   (0x520A50008A000000, .zld { vd := 2#6, sa := 37#6, m := 5#3, ca := true }),
   (0x53B4300000000000, .zmv { vd := 45#6, sa := 3#6 }),
   (0x54B431800B00A000, .vrng { vd := 45#6, sa := 3#6, sb := 6#6, m := 5#3, mn := true, ka := .bscalar, kb := .bscalar }),
   (0x601460C000000000, .mand { vd := 5#6, sa := 6#6, sb := 3#6 }),
   (0x601460C000000001, .mor { vd := 5#6, sa := 6#6, sb := 3#6 })]

theorem test_decode_blockWords1 : ∀ p ∈ blockWords1, decodeTableWord 64 p.1 = some p.2 := by decide

/-- Block words, each its opcode and fields (R30, R31, R33, R45), with the instruction it stands for. -/
def blockWords2 : List (Nat × Instr) :=
  [(0x601460C000000002, .mxor { vd := 5#6, sa := 6#6, sb := 3#6 }),
   (0x601460C000000003, .mandn { vd := 5#6, sa := 6#6, sb := 3#6 }),
   (0x6014600000000004, .mnot { vd := 5#6, sa := 6#6 }),
   (0x6100600000000000, .mfirst { sa := 6#6 }),
   (0x6200600000000000, .mpopc { sa := 6#6 }),
   (0x6314600000001A5C, .mshift { vd := 5#6, sa := 6#6 } true 0xA5C#12),
   (0x6414000000000001, .mset { vd := 5#6 } true),
   (0x6514600000000000, .mmv { vd := 5#6, sa := 6#6 }),
   (0x70B650008B000000, .vmv { vd := 45#6, sa := 37#6, m := 5#3, ca := true, mn := true }),
   (0x71B560C08A004000, .vmerge { vd := 45#6, sa := 22#6, sb := 3#6, m := 5#3, ca := true, kb := .queue }),
   (0x72B400000B000000, .vid { vd := 45#6, m := 5#3, mn := true }),
   (0x73B6500080001A5C, .vslideup { vd := 45#6, sa := 37#6, ca := true } 0x1A5C#13),
   (0x74B6500080001A5C, .vslidedn { vd := 45#6, sa := 37#6, ca := true } 0x1A5C#13),
   (0x75B560C08B004000, .vrgather { vd := 45#6, sa := 22#6, sb := 3#6, m := 5#3, ca := true, mn := true, kb := .queue }),
   (0x76B650008A000000, .vcompress { vd := 45#6, sa := 37#6, m := 5#3, ca := true }),
   (0x77B560008BE60000, .vredsum { vd := 45#6, sa := 22#6, m := 5#3, xm := 6#3, fs := 3#3, ca := true, mn := true, xe := true }),
   (0x78B560008BE60001, .vfredsum { vd := 45#6, sa := 22#6, m := 5#3, xm := 6#3, fs := 3#3, ca := true, mn := true, xe := true } true),
   (0x79B560008BE60002, .vredmm { vd := 45#6, sa := 22#6, m := 5#3, xm := 6#3, fs := 3#3, ca := true, mn := true, xe := true } 2#2),
   (0x7AB560008BE60001, .vfredmm { vd := 45#6, sa := 22#6, m := 5#3, xm := 6#3, fs := 3#3, ca := true, mn := true, xe := true } true),
   (0x80B650008B060006, .mrow { vd := 45#6, sa := 37#6, m := 5#3, fs := 3#3, ca := true, mn := true } 2#2 true)]

theorem test_decode_blockWords2 : ∀ p ∈ blockWords2, decodeTableWord 64 p.1 = some p.2 := by decide

/-- Block words, each its opcode and fields (R30, R31, R33, R45), with the instruction it stands for. -/
def blockWords3 : List (Nat × Instr) :=
  [(0x81B650008B060006, .mrow64 { vd := 45#6, sa := 37#6, m := 5#3, fs := 3#3, ca := true, mn := true } 2#2 true),
   (0xF0B560C09BE64000, .vfmacc { vd := 45#6, sa := 22#6, sb := 3#6, m := 5#3, xm := 6#3, fs := 3#3, ca := true, cv := true, mn := true, xe := true, kb := .queue }),
   (0x402500080000000, .vret { sa := 37#6, ca := true }),
   (0x50250008B000002, .vout { sa := 37#6, m := 5#3, ca := true, mn := true } 2#2),
   (0x60250008B000000, .vidxq { sa := 37#6, m := 5#3, ca := true, mn := true })]

theorem test_decode_blockWords3 : ∀ p ∈ blockWords3, decodeTableWord 64 p.1 = some p.2 := by decide

/-! ## Small states -/

/-- Registers, from a list of numbers and values. -/
def regs (l : List (Nat × Val)) : Vector Val 32 := l.foldl (fun v e => v.setIfInBounds e.1 e.2) (Vector.replicate 32 {})

def codeR : Entry := { size := 0x1000#48, kind := 1#2, px := true, pr := true, st := .resident, base := 0x100000#52 }
def dataR (b : BitVec 52) (st : RSt) : Entry := { size := 0x1000#48, pr := true, pw := true, st := st, base := b }

/-- Doublewords in memory. -/
def memOf (l : List (Nat × Nat)) : Mem := l.foldl (fun m e => Mem.setLE m e.1 8 e.2) []

/-- Region 0: data from 0x10000; 1: code from 0x100000; 2 to 6: data in each other state; 7: read only; 8: host memory. -/
def ctx0 : Ctx :=
  { regions := [(0, dataR 0x10000 .resident), (1, codeR), (2, dataR 0x20000 .retired), (3, dataR 0x30000 .moving), (4, dataR 0x40000 .absent),
      (5, dataR 0x50000 .arriving), (6, dataR 0x60000 .evicting), (7, { dataR 0x70000 .resident with kind := 2#2 }), (8, dataR 0x100000000000 .resident)] }

/-- A thread at the start of the code region: x5 and x11 in region 0 (the second misaligned), x6 = 7, x7 = 0, x8 in the code, x9 the most
negative number, x10 = -1, x12 in host memory, x13 an address of a scratchpad, x14 = 64. -/
def thr0 : Thread :=
  { pc := ⟨0x100000, 1⟩, vl := 4#14, x := regs [(5, ⟨0x10040, 255⟩), (6, ⟨7, 255⟩), (8, ⟨0x100010, 1⟩), (9, ⟨0x8000000000000000, 255⟩),
      (10, ⟨0xFFFFFFFFFFFFFFFF, 255⟩), (11, ⟨0x10041, 255⟩), (12, ⟨0x100000000040, 8⟩), (13, ⟨0xFFFF00000040, 255⟩), (14, ⟨64, 255⟩)] }

def pair0 : Pair := { st := .running, a := thr0, x := thr0, owned := [0, 1], parts := [(0, [0, 1])] }
def state (a : Actor) (q : Pair) : State := { pairs := [(0, q)], ctxs := [(0, ctx0)], cur := a }

/-- Pair 0's A thread, X thread and lanes, and the active firmware core of die 0, have the turn. -/
def sA : State := state (.thr 0 .A) pair0
def sX : State := state (.thr 0 .X) pair0
def sF : State := { state (.fcore 0 0) pair0 with
  dies := [(0, { f0 := { on := true, pc := BitVec.ofNat 64 Config.isramBase, x := (Vector.replicate 32 0).set 5 (BitVec.ofNat 64 Config.dsramBase) } })] }

theorem runsA {i : Instr} {s : State} (c : s.cur = .thr 0 .A) (h : i.runsOn .A = true ∧ fLevel i = false) : Runs i s (.thr 0 .A) :=
  ⟨c, .A, by simp [State.kind, c], h.1, .inr h.2⟩
theorem runsX {i : Instr} {s : State} (c : s.cur = .thr 0 .X) (h : i.runsOn .X = true ∧ fLevel i = false) : Runs i s (.thr 0 .X) :=
  ⟨c, .X, by simp [State.kind, c], h.1, .inr h.2⟩
theorem runsF {i : Instr} {s : State} (c : s.cur = .fcore 0 0) (h : i.runsOn .F = true) : Runs i s (.fcore 0 0) :=
  ⟨c, .F, by simp [State.kind, c], h, .inl rfl⟩

def goesOn : Host.Outcome State Fault Refusal → Bool
  | .next _ => true
  | .fault _ => false
  | .refused _ => false
theorem next_of {o : Host.Outcome State Fault Refusal} (h : goesOn o = true) : ∃ t, o = .next t := by
  cases o with
  | next t => exact ⟨t, rfl⟩
  | fault _ => cases h
  | refused _ => cases h

/-! ## Witnesses: encoding and steps -/

theorem witness_ScalarDecodeOfEncode : (Instr.add 21#5 6#5 25#5).wf = true ∧ encode (.add 21#5 6#5 25#5) = .w32 0x03536400 := by decide
theorem witness_BlockDecodeOfEncode : Instr.stop.wf = true ∧ encode .stop = .w64 0 := by decide
theorem witness_DecodedWordIsItsEncoding :
    0x02531C00 < 2 ^ 32 ∧ decodeScalar 0x02531C00 = .ok (.add 5#5 6#5 7#5) ∧ decodeBlock 0x0100000000000000 = .ok .vnop := ⟨by decide, rfl, rfl⟩

/-- A thread of kind k whose next word is `add x5, x6, x7`. -/
def fetching (k : Kind) : State :=
  { sA with agenda := [], rota := [.thr 0 k], mem := Mem.setLE [] 0x100000 4 0x02531C00 }

theorem witness_StepRunsThreadWord (k : Kind) (h : k = .A ∨ k = .X) :
    let s1 := { tick (fetching k) with rota := [.thr 0 k], cur := .thr 0 k }
    let s2 := threadAt s1 0 k
    let t := (s2.pair 0).thr k
    let e := s2.region (s2.pair 0).ctx.toNat t.pc.t.toNat
    k ≠ .F ∧ (fetching k).rota = [.thr 0 k] ∧ (s1.pair 0).st = .running ∧ ((if k = .X then slip s1 0 else s1).pair 0).dbgPend ≠ 2 ∧
    (((if k = .X then slip s1 0 else s1).pair 0).thr k).halt = .none ∧ (k = .A → pendingFault (s1.pair 0) = none) ∧ deliverCue s2 0 k = none ∧
    t.pc.t ≠ 255#8 ∧ e.covers t.pc.v.toNat 4 = true ∧ e.kind = 1#2 ∧ e.px = true ∧ e.st = .resident ∧ t.pc.v.toNat < Config.peerBase ∧
    checkScalar k (Mem.getLE s2.mem t.pc.v.toNat 4) = .ok (.add 5#5 6#5 7#5) := by
  rcases h with rfl | rfl <;> refine ⟨by decide, rfl, rfl, by decide, rfl, ?_, rfl, by decide, rfl, rfl, rfl, rfl, by decide, rfl⟩
  · intro; rfl
  · intro h; cases h

/-- Pair 0's lanes with a block of one word, `stop`, before them. -/
def lanesReady : State :=
  { state (.lanes 0) { pair0 with blocks := [{ rgn := 1#8, vl := 4#14 }] } with rota := [.lanes 0] }

theorem witness_StepRunsBlockWord :
    let s1 := { tick lanesReady with rota := [.lanes 0], cur := .lanes 0 }
    let s2 := beginBlock s1 0
    let q := s2.pair 0
    let a := blockAddr s2 0 q.lanes.off
    let e := s2.region q.ctx.toNat (q.blocks.headD {}).rgn.toNat
    let w := Mem.getLE s2.mem a.toNat 8
    lanesRun (s1.pair 0) = true ∧ (q.blocks.headD {}).rgn ≠ 255#8 ∧ e.covers a.toNat 8 = true ∧ e.kind = 1#2 ∧ e.px = true ∧ e.st = .resident ∧
    a.toNat < Config.peerBase ∧ decodeBlock w = .ok .stop ∧ (bitOf w 28 = true → q.lanes.barred = false) ∧
    (bitOf w 28 = false → convoyBreach s2 0 w = .ok none) :=
  ⟨rfl, by decide, rfl, rfl, rfl, rfl, by decide, rfl, fun h => absurd h (by decide), fun _ => rfl⟩

theorem witness_StepRunsFirmwareWord :
    let s := { sF with rota := [.fcore 0 0], dies := [(0, { f0 := { on := true, isram := Mem.setLE [] 0 4 0x02531C00 } })] }
    let s1 := { tick s with rota := [.fcore 0 0], cur := .fcore 0 0 }
    let f := (s1.die 0).fcore 0
    f.on = true ∧ (s1.die 0).jopen = none ∧ Config.isramBase ≤ f.pc.toNat ∧ f.pc.toNat + 4 ≤ Config.dsramBase ∧
    checkScalar .F (Mem.getLE f.isram (f.pc.toNat - Config.isramBase) 4) = .ok (.add 5#5 6#5 7#5) := ⟨rfl, rfl, by decide, by decide, rfl⟩

theorem witness_StepRunsAgendaEvent : encode (.flitReplay 0#4) = .none := rfl

/-! ## Witnesses: registers, branches, queues -/

theorem witness_ZeroRegisterAndRegisterFile : (5#5 : XReg) ≠ 0#5 ∧ sA.kind.isSome = true ∧ sF.kind.isSome = true ∧ sF.cur = .fcore 0 0 := by decide

theorem witness_AluFamilyResults (i : Instr) (h : i = .add 5#5 6#5 7#5 ∨ i = .clz 5#5 6#5) : Issues i sA := by
  rcases h with rfl | rfl <;> exact (runsA rfl (by decide)).2
theorem witness_AluFamilyResults_firmware : Issues (.add 5#5 6#5 7#5) sF := (runsF rfl (by decide)).2

theorem witness_MulFamilyResults : Issues (.div_ 5#5 9#5 10#5) sA ∧ Issues (.div_ 5#5 6#5 7#5) sA ∧
    mul2 (sA.rx 9#5).v (sA.rx 10#5).v (.div_ 5#5 9#5 10#5) = some (5#5, 9#5, 10#5, 0x8000000000000000#64) ∧
    mul2 (sA.rx 6#5).v (sA.rx 7#5).v (.div_ 5#5 6#5 7#5) = some (5#5, 6#5, 7#5, 0xFFFFFFFFFFFFFFFF#64) :=
  ⟨(runsA rfl (by decide)).2, (runsA rfl (by decide)).2, by decide, by decide⟩
theorem witness_ImmediateResults : Issues (.addi 5#5 8#5 0x4000#15) sA ∧
    aluI (sA.rx 8#5).v (.addi 5#5 8#5 0x4000#15) = some (5#5, 8#5, 0xFC010#64) := ⟨(runsA rfl (by decide)).2, by decide⟩
theorem witness_UpperImmediateResults : Issues (.lui 5#5 0x80000#20) sA ∧ Issues (.luh 5#5 0#20) sX ∧ Issues (.adpc 5#5 0xFFFFF#20) sF :=
  ⟨(runsA rfl (by decide)).2, (runsX rfl (by decide)).2, (runsF rfl (by decide)).2⟩
theorem witness_TagAndRegionQueryResults : Issues (.tagset 5#5 6#5 255#8) sA ∧ Issues (.tagrd 5#5 8#5) sX ∧ Issues (.rgnq 5#5 5#4 4#8) sA :=
  ⟨(runsA rfl (by decide)).2, (runsX rfl (by decide)).2, (runsA rfl (by decide)).2⟩
theorem witness_RegisterOnlyFrame : registerOnly 7#64 0#64 (.divu 5#5 6#5 7#5) = some 5#5 ∧ Issues (.divu 5#5 6#5 7#5) sA ∧
    ∃ t, exec (.divu 5#5 6#5 7#5) sA = .next t := ⟨by decide, (runsA rfl (by decide)).2, next_of (by decide)⟩
theorem witness_RegisterWordEncodings : ∃ w < 2 ^ 32, bits w 31 25 = 1 ∧ 27 ≤ bits w 4 0 := ⟨0x0253181B, by decide⟩
theorem witness_BranchWordEncodings : ∃ w < 2 ^ 32, bits w 31 25 = 0x10 ∧ 6 ≤ bits w 14 12 := ⟨0x20006000, by decide⟩

theorem targetOk_thr {s : State} {t : Val} {p : Nat} {k : Kind} (c : s.cur = .thr p k) : targetOk s t ↔
    t.t ≠ 255#8 ∧ (s.region (s.pair s.me).ctx.toNat t.t.toNat).size ≠ 0#48 ∧ (s.region (s.pair s.me).ctx.toNat t.t.toNat).base.toNat ≤ t.v.toNat ∧
      t.v.toNat + 4 ≤ (s.region (s.pair s.me).ctx.toNat t.t.toNat).base.toNat + (s.region (s.pair s.me).ctx.toNat t.t.toNat).size.toNat := by
  unfold targetOk; rw [c]
theorem targetCode_thr {s : State} {t : Val} {p : Nat} {k : Kind} (c : s.cur = .thr p k) : targetCode s t ↔
    (s.region (s.pair s.me).ctx.toNat t.t.toNat).kind = 1#2 ∧ (s.region (s.pair s.me).ctx.toNat t.t.toNat).px = true := by
  unfold targetCode; rw [c]

/-- A branch not taken, one taken to the last word of the region, and one that leaves it. -/
theorem witness_BranchResults : Issues (.beq 6#5 6#5 1023#12) sA ∧ Issues (.beq 6#5 6#5 1024#12) sA ∧ Issues (.bne 6#5 6#5 0#12) sA ∧
    targetOk sA (wordAt sA (sext 12 1023)) ∧ ¬ targetOk sA (wordAt sA (sext 12 1024)) ∧ ¬ targetOk sA (wordAt sA (sext 12 4095)) :=
  ⟨(runsA rfl (by decide)).2, (runsA rfl (by decide)).2, (runsA rfl (by decide)).2, (targetOk_thr rfl).2 (by decide), mt (targetOk_thr rfl).1 (by decide), mt (targetOk_thr rfl).1 (by decide)⟩

theorem witness_JumpResults : Issues (.jl 1#5 1023#20) sA ∧ targetOk sA (wordAt sA (sext 20 1023)) ∧ Issues (.jl 1#5 1024#20) sA ∧
    ¬ targetOk sA (wordAt sA (sext 20 1024)) ∧ Issues (.jlr 1#5 8#5 0#15) sA ∧ targetOk sA ⟨0x100010, 1⟩ ∧ targetCode sA ⟨0x100010, 1⟩ ∧
    Issues (.jlr 1#5 8#5 1#15) sA ∧ Issues (.jlr 1#5 5#5 0#15) sA ∧ ¬ targetOk sA ⟨0x10040, 255⟩ :=
  ⟨(runsA rfl (by decide)).2, (targetOk_thr rfl).2 (by decide), (runsA rfl (by decide)).2, mt (targetOk_thr rfl).1 (by decide), (runsA rfl (by decide)).2, (targetOk_thr rfl).2 (by decide), (targetCode_thr rfl).2 (by decide),
   (runsA rfl (by decide)).2, (runsA rfl (by decide)).2, mt (targetOk_thr rfl).1 (by decide)⟩

theorem witness_OutcomeQueue : Runs (.bout 6#5) sA (.thr 0 .A) ∧ Runs (.bout 6#5) (state (.thr 0 .A) { pair0 with bq := List.replicate 64 true }) (.thr 0 .A) ∧
    Runs (.qbt 3#12) (state (.thr 0 .X) { pair0 with bq := [true] }) (.thr 0 .X) ∧ targetOk sX (wordAt sX (sext 12 3)) ∧
    ¬ targetOk sX (wordAt sX (sext 12 4095)) ∧ Runs (.qbf 3#12) (state (.thr 0 .X) { pair0 with bq := [true] }) (.thr 0 .X) ∧
    Runs (.qbt 3#12) (state (.thr 0 .X) { pair0 with a := { thr0 with halt := .exited } }) (.thr 0 .X) ∧ Runs (.qbt 3#12) sX (.thr 0 .X) :=
  ⟨runsA rfl (by decide), runsA rfl (by decide), runsX rfl (by decide), (targetOk_thr rfl).2 (by decide), mt (targetOk_thr rfl).1 (by decide), runsX rfl (by decide), runsX rfl (by decide), runsX rfl (by decide)⟩

/-- Pair 1 of the same launch at stage 1, and pair 0 at stage 0. -/
def staged : State := { state (.thr 0 .X) { pair0 with pl := { last := 1 } } with pairs := [(0, { pair0 with pl := { last := 1 } }), (1, { pair0 with pl := { stg := 1, last := 1 } })] }

theorem witness_ScalarQueueWords : Runs (.qpushSq 6#5) sA (.thr 0 .A) ∧ Runs (.qpopSq 5#5) (state (.thr 0 .X) { pair0 with sq := [7#64] }) (.thr 0 .X) ∧
    Runs (.qpopw 5#5) (state (.thr 0 .X) { pair0 with sq := [7#64] }) (.thr 0 .X) ∧ Runs (.qpopRq 5#5) (state (.thr 0 .X) { pair0 with rq := [7#64] }) (.thr 0 .X) ∧
    Runs (.qpopUpstream 5#5) (state (.thr 0 .X) { pair0 with up := [{ vl := 1, wc := 4, els := [7] }] }) (.thr 0 .X) ∧
    Runs (.qpushDownstream 6#5) staged (.thr 0 .X) ∧ (staged.pair 0).pl.stg ≠ (staged.pair 0).pl.last ∧
    stageMate staged 0 ((staged.pair 0).pl.stg + 1) = some 1 ∧ (staged.pair 1).x.halt ≠ .exited ∧ entsOf (staged.pair 1).up < 8 :=
  ⟨runsA rfl (by decide), runsX rfl (by decide), runsX rfl (by decide), runsX rfl (by decide), runsX rfl (by decide), runsX rfl (by decide),
   by decide, by decide, by decide, by decide⟩

theorem witness_ScalarQueueWaitsAndTraps : Runs (.qpushSq 6#5) (state (.thr 0 .A) { pair0 with sq := List.replicate 32 0#64 }) (.thr 0 .A) ∧
    Runs (.qpopSq 5#5) sX (.thr 0 .X) ∧ Runs (.qpopw 5#5) sX (.thr 0 .X) ∧
    Runs (.qpopw 5#5) (state (.thr 0 .X) { pair0 with a := { thr0 with halt := .exited } }) (.thr 0 .X) ∧
    Runs (.qpopRq 5#5) (state (.thr 0 .X) { pair0 with blocks := [{}] }) (.thr 0 .X) ∧ Runs (.qpopRq 5#5) sX (.thr 0 .X) ∧
    Runs (.qpushDownstream 6#5) sX (.thr 0 .X) ∧ (sX.pair 0).pl.stg = (sX.pair 0).pl.last ∧ Runs (.qpopUpstream 5#5) sX (.thr 0 .X) ∧
    Runs (.qpopUpstream 5#5) (state (.thr 0 .X) { pair0 with up := [{ vl := 2, wc := 4, els := [7, 8] }] }) (.thr 0 .X) :=
  ⟨runsA rfl (by decide), runsX rfl (by decide), runsX rfl (by decide), runsX rfl (by decide), runsX rfl (by decide), runsX rfl (by decide),
   runsX rfl (by decide), by decide, runsX rfl (by decide), runsX rfl (by decide)⟩

/-! ## Witnesses: memory words -/

/-- The word may run where it stands, as one Bool. -/
def mayRun (i : Instr) (s : State) : Bool :=
  match s.kind with
  | some k => i.runsOn k && (k == .F || !fLevel i)
  | none => false
theorem runs {i : Instr} {s : State} {a : Actor} (c : s.cur = a) (h : mayRun i s = true) : Runs i s a := by
  unfold mayRun at h
  split at h
  · rename_i k hk
    simp only [Bool.and_eq_true, Bool.or_eq_true, beq_iff_eq, Bool.not_eq_true'] at h
    exact ⟨c, k, hk, h.1, h.2⟩
  · cases h

/-- An access passes its checks and is served by this device at a place of which f holds. -/
def lands (r : Res Loc) (f : Loc → Bool) : Bool :=
  match r with
  | .ok l => l.home.isSome && f l
  | .error _ => false
theorem lands_of {r : Res Loc} {f : Loc → Bool} (h : lands r f = true) : ∃ l n, r = .ok l ∧ l.home = some n ∧ f l = true := by
  unfold lands at h
  split at h
  · rename_i l
    simp only [Bool.and_eq_true, Option.isSome_iff_exists] at h
    obtain ⟨⟨n, hn⟩, hf⟩ := h
    exact ⟨l, n, rfl, hn, hf⟩
  · cases h

theorem witness_AccessChecksInOrder :
    let at_ := fun r : Nat => (sA.region (sA.pair 0).ctx.toNat r)
    (0x10041 % 8 ≠ 0 ∧ 0x10040 % 8 = 0) ∧ (Config.devBase < Config.devBase + 8 ∧ Config.devBase < Config.devTop ∧ Config.devBase % 8 = 0) ∧
    (Config.localBase % 8 = 0 ∧ ¬ Config.devBase < Config.localBase + 8 ∧ Config.localBase + 8 ≤ Config.localTop) ∧
    ((at_ 0).base.toNat = 0x10000 ∧ (at_ 0).size.toNat = 0x1000 ∧ 0x10FF8 + 8 ≤ 0x10000 + 0x1000 ∧ ¬ 0x11000 + 8 ≤ 0x10000 + 0x1000 ∧ (at_ 0).st = .resident) ∧
    ((at_ 2).st = .retired ∧ (at_ 3).st = .moving ∧ (at_ 4).st = .absent ∧ (at_ 5).st = .arriving ∧ (at_ 6).st = .evicting) ∧
    ((at_ 7).pw = true ∧ (at_ 7).kind ≠ 0#2 ∧ (at_ 1).pr = true ∧ (at_ 1).pw = false ∧ (at_ 0).pr = true ∧ (at_ 0).pw = true ∧ (at_ 0).kind = 0#2) := by
  decide

theorem witness_PlainLoadResults :
    (loadOf (.ldd 5#5 5#5 0x7FF8#15) = some (5#5, 5#5, 0x7FF8#15, 8, true) ∧ Runs (.ldd 5#5 5#5 0x7FF8#15) sA (.thr 0 .A) ∧ Memory.wf sA.mem = true ∧
      ∃ l h, checkMe sA .load (addrOf sA 5#5 0x7FF8#15) 8 = .ok l ∧ l.home = some h ∧ l.cached = true) ∧
    (loadOf (.ldb 0#5 12#5 1#15) = some (0#5, 12#5, 1#15, 1, true) ∧ Runs (.ldb 0#5 12#5 1#15) sX (.thr 0 .X) ∧
      ∃ l h, checkMe sX .load (addrOf sX 12#5 1#15) 1 = .ok l ∧ l.home = some h ∧ l.isHost = true) :=
  ⟨⟨rfl, runs rfl (by decide), rfl, lands_of (by decide)⟩, rfl, runs rfl (by decide), lands_of (by decide)⟩

theorem witness_PlainStoreResults :
    (storeOf (.std 6#5 5#5 0#15) = some (6#5, 5#5, 0#15, 8) ∧ Runs (.std 6#5 5#5 0#15) sA (.thr 0 .A) ∧
      ∃ l h, checkMe sA .store (addrOf sA 5#5 0#15) 8 = .ok l ∧ l.home = some h ∧ l.cached = true) ∧
    (storeOf (.stb 9#5 12#5 0x7FFF#15) = some (9#5, 12#5, 0x7FFF#15, 1) ∧ Runs (.stb 9#5 12#5 0x7FFF#15) sX (.thr 0 .X) ∧
      ∃ l h, checkMe sX .store (addrOf sX 12#5 0x7FFF#15) 1 = .ok l ∧ l.home = some h ∧ (!l.cached) = true) :=
  ⟨⟨rfl, runs rfl (by decide), lands_of (by decide)⟩, rfl, runs rfl (by decide), lands_of (by decide)⟩

theorem witness_OrderedAccessResults :
    Runs (.ldo 6#5 5#5 .cluster .acq 7#3) sA (.thr 0 .A) ∧ (∃ l h, checkMe sA .load (sA.rx 5#5) 8 = .ok l ∧ l.home = some h ∧ l.cached = true) ∧
    Runs (.sto 12#5 6#5 .sys .rel 3#3) sX (.thr 0 .X) ∧ (∃ l h, checkMe sX .store (sX.rx 12#5) 8 = .ok l ∧ l.home = some h ∧ l.isHost = true) :=
  ⟨runs rfl (by decide), lands_of (by decide), runs rfl (by decide), lands_of (by decide)⟩

theorem witness_AtomicResults :
    (amoOf 3 7 0 (.amoAdd 7#5 5#5 6#5 .pkg .acqrel false) = some (7#5, 5#5, 6#5, .pkg, .acqrel, false, 10) ∧ Runs (.amoAdd 7#5 5#5 6#5 .pkg .acqrel false) sA (.thr 0 .A) ∧
      Memory.wf sA.mem = true ∧ (∀ c ∈ sA.cache sA.core, 64 * c.1 < Config.peerBase) ∧
      ∃ l h, checkMe sA .atomic (sA.rx 5#5) 8 = .ok l ∧ l.home = some h ∧ (!l.isHost) = true) ∧
    (amoOf 0xFFFFFFFF 7 0 (.amoMax 7#5 12#5 6#5 .sys .rlx true) = some (7#5, 12#5, 6#5, .sys, .rlx, true, 7) ∧ Runs (.amoMax 7#5 12#5 6#5 .sys .rlx true) sX (.thr 0 .X) ∧
      hostAtomic (.amoMax 7#5 12#5 6#5 .sys .rlx true) = false ∧ ∃ l h, checkMe sX .atomic (sX.rx 12#5) 4 = .ok l ∧ l.home = some h ∧ l.isHost = true) ∧
    (Runs (.amoCas 7#5 12#5 6#5 .sys .rlx false) sX (.thr 0 .X) ∧ hostAtomic (.amoCas 7#5 12#5 6#5 .sys .rlx false) = true) :=
  ⟨⟨rfl, runs rfl (by decide), rfl, by decide, lands_of (by decide)⟩, ⟨rfl, runs rfl (by decide), rfl, lands_of (by decide)⟩, runs rfl (by decide), rfl⟩

/-- The same with one dirty line in the core's cache, and with a stream running. -/
def cachedA : State := { sA with caches := [(0, [(0x401, { data := 5#512, dirty := 1#64 })])] }
def streaming : State := { state (.thr 0 .A) { pair0 with streams := (Vector.replicate 16 {}).set 3 { st := .running } } with steps := 1 }

theorem witness_FenceEffects : Runs .sync cachedA (.thr 0 .A) ∧ Memory.wf cachedA.mem = true ∧ Tab.risingFrom 0 (cachedA.cache cachedA.core) = true ∧
    enginesIdle cachedA 0 (fenceBegan cachedA) = true ∧ cachedA.cache cachedA.core ≠ [] ∧ Runs (.fence .pair true) streaming (.thr 0 .A) ∧ enginesIdle streaming 0 (fenceBegan streaming) = false :=
  ⟨runs rfl (by decide), rfl, by decide, by decide, by decide, runs rfl (by decide), by decide⟩

def ofOk {α : Type} (r : Res α) : Bool := match r with | .ok _ => true | .error _ => false
theorem ok_of {α : Type} {r : Res α} (h : ofOk r = true) : ∃ a, r = .ok a := by
  cases r with
  | ok a => exact ⟨a, rfl⟩
  | error _ => cases h

/-- What a plain load gives, if it gives the value v. -/
def loads (r : Res (State × Nat)) (v : Nat) : Bool := match r with | .ok e => e.2 == v | .error _ => false
theorem loads_of {r : Res (State × Nat)} {v : Nat} (h : loads r v = true) : ∃ s, r = .ok (s, v) := by
  unfold loads at h
  split at h
  · rename_i e; obtain ⟨s, w⟩ := e; exact ⟨s, congrArg _ (congrArg _ (beq_iff_eq.mp h))⟩
  · cases h

/-- A slot word at the address in x5. -/
def slotAt (n w : Nat) : State := { sA with mem := Mem.setLE [] 0x10040 n w }

theorem witness_SlotWordResults :
    (Runs (.ldslot 5#5 5#5 0#15) (slotAt 8 0x0FF0000000001234) (.thr 0 .A) ∧ (∃ s1, plainLoad (slotAt 8 0x0FF0000000001234) (addrOf sA 5#5 0#15) 8 = .ok (s1, 0x0FF0000000001234)) ∧
      bits 0x0FF0000000001234 62 60 = 0 ∧ bitOf 0x0FF0000000001234 63 = false) ∧
    ((∃ s1, plainLoad (slotAt 8 0x8010000000000010) (addrOf sA 5#5 0#15) 8 = .ok (s1, 0x8010000000000010)) ∧
      bits 0x8010000000000010 62 60 = 0 ∧ bitOf 0x8010000000000010 63 = true ∧ bits 0x8010000000000010 59 52 = 1 ∧ (sA.region 0 1).st ≠ .moving) ∧
    ((∃ s1, plainLoad (slotAt 8 0x8FF0000000000010) (addrOf sA 5#5 0#15) 8 = .ok (s1, 0x8FF0000000000010)) ∧
      bitOf 0x8FF0000000000010 63 = true ∧ bits 0x8FF0000000000010 59 52 = 255 ∧ bits 0x9000000000000000 62 60 ≠ 0) ∧
    (Runs (.stslot 8#5 5#5 0#15) sA (.thr 0 .A) ∧ (sA.rx 8#5).t = 1#8 ∧ (sA.region 0 1).st ≠ .moving ∧ (sA.rx 6#5).t = 255#8 ∧
      ∃ s1, plainStore sA (addrOf sA 5#5 0#15) 8 (255 * 2 ^ 52 + 7) = .ok s1) ∧
    (Runs (.ldslot32 5#5 5#5 0#15) (slotAt 4 0x01000010) (.thr 0 .A) ∧ ∃ s1, plainLoad (slotAt 4 0x01000010) (addrOf sA 5#5 0#15) 4 = .ok (s1, 0x01000010)) :=
  ⟨⟨runs rfl (by decide), loads_of (by decide +kernel), by decide, by decide⟩, ⟨loads_of (by decide +kernel), by decide⟩, ⟨loads_of (by decide +kernel), by decide⟩,
   ⟨runs rfl (by decide), by decide, by decide, by decide, ok_of (by decide +kernel)⟩, runs rfl (by decide), loads_of (by decide +kernel)⟩

/-! ## Witnesses: strips, blocks, safe points, signals -/

theorem nothingDue {s : State} {p : Nat} (h : (s.pair p).movePend = [] ∧ (s.pair p).softPend = false ∧ (s.pair p).dbgPend = 0) : NothingDue s p :=
  ⟨h.1, h.2.1, .inl ⟨by rw [h.2.2]; decide, by rw [h.2.2]; decide⟩⟩

theorem witness_SetvlResults : Runs (.setvl 5#5 6#5 0#5 2#3 3#2 4#3) sA (.thr 0 .A) ∧ sA.thr.incue = false ∧ NothingDue sA 0 ∧ NoChangeDue sA 0 .A ∧
    Runs (.setvl 5#5 6#5 0#5 2#3 3#2 4#3) sX (.thr 0 .X) ∧ NoChangeDue sX 0 .X ∧ (sX.die (dieOf 0)).trctl.getLsbD 20 = false :=
  ⟨runs rfl (by decide), rfl, nothingDue (by decide), fun h => by (cases h), runs rfl (by decide), fun _ h => by (cases h), by decide⟩

/-- Pair 0's partition change, to groups 0 to 2 at its next strip, is posted. -/
def posted (blocks : List Blk) : State := state (.thr 0 .X) { pair0 with pend := true, parts := [(1, [0, 1, 2]), (0, [0, 1])], blocks := blocks }

theorem witness_PartitionChangeAtSetvl (bl : List Blk) (h : bl = [] ∨ bl = [{}]) :
    Runs (.setvl 5#5 6#5 0#5 2#3 3#2 4#3) (posted bl) (.thr 0 .X) ∧ NothingDue (posted bl) 0 ∧ (posted bl).thr.strip.toNat + 1 = 1 ∧
    ((posted bl).pair 0).pend = true ∧ ((posted bl).pair 0).parts = (1, [0, 1, 2]) :: [(0, [0, 1])] ∧ ((posted bl).pair 0).lender = none ∧
    (∀ g ∈ ((posted bl).pair 0).owned, g ∈ [0, 1, 2]) ∧ groupFree (posted bl) (clusterOf 0) 2 = true := by
  rcases h with rfl | rfl <;> exact ⟨runs rfl (by decide), nothingDue (by decide), by decide⟩

def cueWait : State := state (.thr 0 .A) { pair0 with a := { thr0 with cuevec := 0x8000000000100000#64, cuearm := 1#64 } }

theorem witness_SafePointWords : NothingDue sA 0 ∧ Runs .safept sA (.thr 0 .A) ∧ Runs .yield sA (.thr 0 .A) ∧ groupOf sA 0 = none ∧
    Runs .park sA (.thr 0 .A) ∧ sA.thr.incue = false ∧ sA.thr.cuearm = 0#64 ∧ NothingDue cueWait 0 ∧ Runs .park cueWait (.thr 0 .A) ∧
    cueWait.thr.cuevec.getLsbD 63 = true ∧ cueWait.thr.cuearm ≠ 0#64 ∧ Runs (.setrc 8#4) sX (.thr 0 .X) ∧ Runs .vwait sX (.thr 0 .X) ∧
    Runs .vwait (posted [{}]) (.thr 0 .X) ∧ Runs (.racq 8#8) sA (.thr 0 .A) ∧ (sA.region 0 8).st = .resident ∧ (sA.region 0 8).size ≠ 0#48 ∧
    Runs (.racq 255#8) sA (.thr 0 .A) ∧ Runs (.racq 2#8) sA (.thr 0 .A) ∧ (sA.region 0 2).st = .retired ∧ (sA.region 0 9).size = 0#48 :=
  ⟨nothingDue (by decide), runs rfl (by decide), runs rfl (by decide), by decide, runs rfl (by decide), rfl, rfl, nothingDue (by decide), runs rfl (by decide),
   by decide, by decide, runs rfl (by decide), runs rfl (by decide), runs rfl (by decide), runs rfl (by decide), by decide, by decide, runs rfl (by decide),
   runs rfl (by decide), by decide, by decide⟩

theorem witness_SafePointParksForMove : ∃ s, Runs .safept s (.thr 0 .A) ∧ Runs .park s (.thr 0 .A) ∧ s.thr.incue = false ∧ (s.pair 0).movePend ≠ [] ∧ (s.pair 0).dbgPend = 1 :=
  ⟨state (.thr 0 .A) { pair0 with movePend := [(0, 1)], dbgPend := 1 }, runs rfl (by decide), runs rfl (by decide), by decide⟩

/-- The X thread with one block queued, with a `vfetchw` of its own waiting, and with VL n and RC r. -/
def queued (fetched : Bool) (bl : List Blk) (n : BitVec 14) (r : BitVec 4) : State :=
  state (.thr 0 .X) { pair0 with blocks := bl, x := { thr0 with fetched := fetched, vl := n, rc := r } }

theorem witness_BlockDispatchResults :
    Runs (.vfetch 2#20) (queued false [] 4#14 1#4) (.thr 0 .X) ∧ Runs (.vfetchr 8#5 4#15) (queued false [] 4#14 1#4) (.thr 0 .X) ∧ Runs (.vfetchw 1#20) (queued false [] 4#14 1#4) (.thr 0 .X) ∧
    0x100014 % 8 ≠ 0 ∧ (sX.region 0 1).base.toNat + (sX.region 0 1).size.toNat = 0x101000 ∧ 0x100000 + 8 * sext 20 511 < 0x101000 ∧ ¬ 0x100000 + 8 * sext 20 512 < 0x101000 ∧
    (sX.region 0 1).kind = 1#2 ∧ (sX.region 0 1).px = true ∧ groupsAt pair0.parts 0 = [0, 1] ∧ pair0.lent = [] ∧ 1 * 2048 ≤ 1024 * [0, 1].length ∧ ¬ 1 * 2049 ≤ 1024 * [0, 1].length ∧
    pair0.pl.slip = 1 ∧ Runs (.vfetch 2#20) (queued false [{}] 4#14 1#4) (.thr 0 .X) ∧ Runs (.vfetch 2#20) (queued false [] 0#14 1#4) (.thr 0 .X) ∧
    Runs (.vfetchw 2#20) (queued true [] 4#14 1#4) (.thr 0 .X) ∧ ((queued true [] 4#14 1#4).pair 0).x.fetched = true :=
  ⟨runs rfl (by decide), runs rfl (by decide), runs rfl (by decide), by decide, by decide, by decide, by decide, by decide, by decide, rfl, rfl, by decide, by decide, rfl,
   runs rfl (by decide), runs rfl (by decide), runs rfl (by decide), rfl⟩

def signal (v : Nat) : State := { sA with mem := Mem.setLE [] 0x10040 8 v }

theorem witness_SignalResults : Runs (.sigset 5#5 6#5 .cluster .rel) sA (.thr 0 .A) ∧ (∃ l h, checkMe sA .store (sA.rx 5#5) 8 = .ok l ∧ l.home = some h ∧ true = true) ∧
    Runs (.sigwge 6#5 5#5 6#5 .cluster .acq) (signal 7) (.thr 0 .A) ∧ (∃ l h, checkMe (signal 7) .load ((signal 7).rx 5#5) 8 = .ok l ∧ l.home = some h ∧
      ((Mem.getLE (dropLine (signal 7) l).mem h 8 == 7)) = true) ∧
    Runs (.sigweq 6#5 5#5 6#5 .cluster .acq) (signal 6) (.thr 0 .A) ∧ (∃ l h, checkMe (signal 6) .load ((signal 6).rx 5#5) 8 = .ok l ∧ l.home = some h ∧
      ((Mem.getLE (dropLine (signal 6) l).mem h 8 == 6)) = true) ∧ NothingDue (signal 6) 0 ∧ ((signal 6).rx 6#5).v = 7#64 := by
  refine ⟨runs rfl (by decide), lands_of (f := fun _ => true) (by decide), runs rfl (by decide), ?_, runs rfl (by decide), ?_, nothingDue (by decide), by decide⟩
  · exact ⟨.hbm 0x10040, 0x10040, by decide⟩
  · exact ⟨.hbm 0x10040, 0x10040, by decide⟩

/-- A group of pairs 0 and 1, whose second has reached no barrier. -/
def grouped : State := { state (.thr 0 .A) pair0 with pairs := [(0, pair0), (1, pair0)], dies := [(0, { groups := [{ ring := 0, idx := 0, t := 0, members := [0, 1] }] })] }

theorem witness_BarrierResults : Runs .bar sA (.thr 0 .A) ∧ (sA.pair 0).st = .running ∧ sA.thr.inBar = false ∧ Memory.wf sA.mem = true ∧
    (cohort sA 0).all (fun m => m == 0 || arrived (sA.pair m) .A 1) = true ∧ Runs .bar grouped (.thr 0 .A) ∧ NothingDue grouped 0 ∧
    (cohort grouped 0).all (fun m => m == 0 || arrived (grouped.pair m) .A 1) = false :=
  ⟨runs rfl (by decide), rfl, rfl, rfl, by decide, runs rfl (by decide), nothingDue (by decide), by decide⟩

/-! ## Witnesses: traps, CSRs, cues, exit, trace -/

theorem witness_WordsOfOtherAgentsTrap : encode .tret = .w32 0xA2000000 ∧ sA.kind = some .A ∧ fLevel .tret = true ∧
    encode (.csrr 5#5 0x100#12) = .w32 0xA4500100 ∧ fLevel (.csrr 5#5 0x100#12) = true ∧ fLevel (.csrr 5#5 0xFF#12) = false ∧
    encode (.bout 6#5) = .w32 0x64030000 ∧ sX.kind = some .X ∧ fLevel (.bout 6#5) = false ∧ (Instr.bout 6#5).runsOn .X = false ∧
    sF.kind = some .F ∧ (Instr.bout 6#5).runsOn .F = false := by decide

theorem witness_PairTrapEntry : sA.cur = .thr 0 .A ∧ Kind.A ≠ .F ∧ 0x05#8 ≠ 0x0A#8 ∧ 0x07#8 ≠ 0x0A#8 ∧ (sA.die (dieOf 0)).trctl.getLsbD 20 = false := by decide
theorem witness_BlockTrapEntry : lanesReady.cur = .lanes 0 ∧ 0x01#8 ≠ 0x0A#8 := by decide
theorem witness_BreakpointTraps : Issues (.brk 0xFFFFF#20) sA ∧ Issues (.brk 0#20) sF := ⟨(runsA rfl (by decide)).2, (runsF rfl (by decide)).2⟩

/-- The same with die 0's Puppeteer at work. -/
def served : State := { sA with dies := [(0, { jrnlSet := true, f0 := { on := true } })] }

theorem witness_ServiceCallResults : Runs (.svc 0x7FFFF#20) sA (.thr 0 .A) ∧ puppeteerOn sA (dieOf 0) = false ∧ Runs (.svc 0x80000#20) served (.thr 0 .A) ∧
    puppeteerOn served (dieOf 0) = true ∧ Runs (.svc 0#20) served (.thr 0 .A) ∧ Runs (.svc 3#20) served (.thr 0 .A) ∧ (served.pair 0).lent = [] ∧
    served.pc.v.toNat + 4 < 2 ^ 52 :=
  ⟨runs rfl (by decide), by decide, runs rfl (by decide), by decide, runs rfl (by decide), runs rfl (by decide), rfl, by decide⟩

theorem witness_CsrWords : (0x001, 4#64) ∈ csrTable sA 0 .A ∧ Runs (.csrr 5#5 0x001#12) sA (.thr 0 .A) ∧ (0x050, 0#64) ∈ csrTable sA 0 .A ∧
    (0x050, 0x7F0F000003FF) ∈ csrMasks .A ∧ Runs (.csrw 5#5 10#5 0x050#12) sA (.thr 0 .A) ∧ Runs (.csrc 5#5 10#5 0x020#12) sX (.thr 0 .X) ∧
    (0x020, 0#64) ∈ csrTable sX 0 .X ∧ Runs (.csrw 5#5 6#5 0x00E#12) sA (.thr 0 .A) ∧ csrReadOnly 0x061 ∧ Runs (.csrs 0#5 0#5 0x061#12) sA (.thr 0 .A) ∧
    csrRead sA 0 .A 0x062 = none ∧ Runs (.csrr 5#5 0x062#12) sA (.thr 0 .A) ∧ csrRead sX 0 .X 0x050 = none :=
  ⟨by decide, runs rfl (by decide), by decide, by decide, runs rfl (by decide), runs rfl (by decide), by decide, runs rfl (by decide), by unfold csrReadOnly; decide,
   runs rfl (by decide), by decide, runs rfl (by decide), by decide⟩

def inCue (k : Kind) : State := state (.thr 0 k) { pair0 with a := { thr0 with incue := true }, x := { thr0 with incue := true } }

theorem witness_CueReturnResults : Runs .cueret (inCue .A) (.thr 0 .A) ∧ (inCue .A).thr.incue = true ∧ Runs .cueret sA (.thr 0 .A) ∧ sA.thr.incue = false ∧
    Runs (.vfetch 1#20) (inCue .X) (.thr 0 .X) ∧ encode (.vfetch 1#20) = .w32 0x6A000001 ∧ Runs .park (inCue .A) (.thr 0 .A) ∧ encode .park = .w32 0xA8000000 :=
  ⟨runs rfl (by decide), rfl, runs rfl (by decide), rfl, runs rfl (by decide), by decide, runs rfl (by decide), by decide⟩

theorem witness_ExitResults : Runs .exit sA (.thr 0 .A) ∧ Memory.wf sA.mem = true ∧ enginesIdle sA 0 (fenceBegan sA) = true ∧
    (∀ st ∈ (sA.pair 0).streams.toList, st.live = false) ∧ (∃ st ∈ (streaming.pair 0).streams.toList, st.live = true) ∧ (sA.pair 0).x.halt ≠ .exited ∧ groupOf sA 0 = none ∧
    (sA.pair 0).lender = none ∧ Runs .exit sX (.thr 0 .X) ∧ (sX.pair 0).blocks = [] ∧ (sX.pair 0).a.halt ≠ .exited ∧ Runs .exit streaming (.thr 0 .A) ∧
    enginesIdle streaming 0 (fenceBegan streaming) = false ∧ Runs .exit (posted [{}]) (.thr 0 .X) ∧ ((posted [{}]).pair 0).blocks ≠ [] :=
  ⟨runs rfl (by decide), rfl, by decide, by decide, by decide, by decide, by decide, rfl, runs rfl (by decide), rfl, by decide, runs rfl (by decide), by decide, runs rfl (by decide), by decide⟩

def tracing : State := { sA with dies := [(0, { trctl := 0x1500000#64, trbuf := 0x50000#64 })] }

theorem witness_TraceWordResults : Runs (.trc 6#5 1#15) sA (.thr 0 .A) ∧ (sA.die 0).trctl.getLsbD 20 = false ∧ Runs (.trc 6#5 1#15) tracing (.thr 0 .A) ∧
    (∀ j, j < 4 → ((tracing.die (dieOf 0)).trig.getD j 0#64).getLsbD 63 = false) ∧ (tracing.die 0).trctl.getLsbD 20 = true ∧ (tracing.die 0).trctl.getLsbD 24 = true ∧
    (tracing.die 0).trctl.getLsbD 22 = true ∧ (tracing.die 0).trctl.getLsbD 23 = false ∧ (tracing.die 0).lostSince = 0#64 ∧
    ((tracing.die 0).trwr - (tracing.die 0).trrd).toNat < (tracing.die 0).trCap ∧ Memory.wf tracing.mem = true :=
  ⟨runs rfl (by decide), rfl, runs rfl (by decide), by decide⟩

/-! ## Witnesses: firmware cores -/

def core0 (c : BitVec 9) (sel : Word) : State := { sF with dies := [(0, { f0 := { on := true, ftcause := c, tretsel := sel } })] }

theorem witness_FirmwareTrapEntryAndReturn : (core0 0#9 0#64).cur = .fcore 0 0 ∧ (((core0 0#9 0#64).die 0).fcore 0).ftcause.getLsbD 8 = false ∧
    (((core0 0x10D#9 0#64).die 0).fcore 0).ftcause.getLsbD 8 = true ∧ Runs .tret (core0 0x10D#9 0#64) (.fcore 0 0) ∧
    Runs .tret (core0 0x10D#9 0x800000000000009F#64) (.fcore 0 0) ∧ bits 0x800000000000009F 7 0 < 160 ∧ ((core0 0#9 0#64).pair 0x9F).st ≠ .parked :=
  ⟨rfl, by decide, by decide, runs rfl (by decide), runs rfl (by decide), by decide, by decide⟩

theorem witness_FirmwareMemoryWords : Runs (.ldd 6#5 5#5 8#15) sF (.fcore 0 0) ∧ Runs (.std 6#5 5#5 0x3FF8#15) sF (.fcore 0 0) ∧ Runs (.fvld 1#4 5#5 0#15) sF (.fcore 0 0) ∧
    Runs (.fvst 1#4 5#5 0x3FC0#15) sF (.fcore 0 0) ∧ (addrOf sF 5#5 0x3FC0#15).v.toNat = 0xFFFFF8043FC0 ∧ Config.dsramBase ≤ 0xFFFFF8043FC0 ∧
    0xFFFFF8043FC0 + 64 ≤ Config.dsramTop ∧ 0xFFFFF8043FC0 % 64 = 0 ∧ Memory.wf ((sF.die 0).fcore 0).dsram = true :=
  ⟨runs rfl (by decide), runs rfl (by decide), runs rfl (by decide), runs rfl (by decide), by decide⟩

theorem witness_FirmwareVectorElements : sF.cur = .fcore 0 0 ∧ Issues (.fvand 1#4 1#4 2#4 3#2) sF ∧ Issues (.fvcmplt 15#4 0#4 1#4 0#2) sF ∧ Issues (.fvbcast 1#4 5#5 2#2) sF ∧
    (∃ v, fvOf 0 0 0 (.fvand 1#4 1#4 2#4 3#2) = some (1#4, 1#4, 2#4, 3#2, v)) :=
  ⟨rfl, (runsF rfl (by decide)).2, (runsF rfl (by decide)).2, (runsF rfl (by decide)).2, _, rfl⟩
theorem witness_FirmwareVectorScans : sF.cur = .fcore 0 0 ∧ Issues (.fvff 6#5 0#4) sF ∧ Issues (.fvpopc 6#5 15#4) sF :=
  ⟨rfl, (runsF rfl (by decide)).2, (runsF rfl (by decide)).2⟩

/-! ## Witnesses: vector memory -/

/-- An A thread with VL 2, SEW 32 bits, two bytes pairs at 0x10040 on, a row of two words in s0, and two byte offsets in iq. -/
def pairV : Pair :=
  { pair0 with a := { thr0 with vl := 2#14, vtype := 3#8 }, iq := [{ vl := 2, wc := 3, act := [true, true], els := [8, 0] }],
               sr := (Vector.replicate 2 []).set 0 [{ vl := 2, wc := 3, act := [true, true], els := [9, 0xFFFFFFFF] }] }
def sV : State := { state (.thr 0 .A) pairV with mem := Mem.setLE [] 0x10040 4 5 }

/-- Every element passes its checks and lands where `homeV` says. -/
def reach (s : State) (p : Nat) (acc : Acc) (xa : Val) (n vl : Nat) (off : Nat → Int) : Bool :=
  (List.range vl).all (fun e =>
    lands (checkPair s p .A acc (mod64 (xa.v.toNat + off e)) n xa.t (BitVec.ofNat 32 e)) (fun _ => ofOk (wmCheck s p .A (mod64 (xa.v.toNat + off e)).toNat n)))
def homeV (s : State) (p : Nat) (acc : Acc) (xa : Val) (n : Nat) (off : Nat → Int) (e : Nat) : Nat :=
  match checkPair s p .A acc (mod64 (xa.v.toNat + off e)) n xa.t (BitVec.ofNat 32 e) with
  | .ok l => l.home.getD 0
  | .error _ => 0
theorem reaches {s : State} {p : Nat} {acc : Acc} {xa : Val} {n vl : Nat} {off : Nat → Int} (h : reach s p acc xa n vl off = true) :
    Reaches s p acc xa n vl off (homeV s p acc xa n off) := by
  intro e he
  have h := List.all_eq_true.mp h e (List.mem_range.mpr he)
  obtain ⟨l, m, hl, hm, hw⟩ := lands_of h
  obtain ⟨u, hu⟩ := ok_of hw
  exact ⟨l, hl, hu, by simp [homeV, hl, hm]⟩

theorem headRow {rows : List Row} {vl wc : Nat} {els : List Nat} (h : ∃ r rest, rows = r :: rest ∧ (r.vl = vl ∧ r.wc = wc ∧ r.els = els ∧ els.length = vl ∧
    r.act = List.replicate vl true)) : HeadRow rows vl wc els := h

def noVl : State := state (.thr 0 .A) { pair0 with a := { thr0 with vl := 0#14 }, pl := { stg := 1, last := 1 } }

theorem witness_VectorMemoryWithVlZero : Runs (.vld 0#2 5#5 .pair .rlx false 2#3) noVl (.thr 0 .A) ∧ (noVl.pair 0).a.vl = 0#14 ∧
    (vloadOf noVl 0 (.vld 3#2 5#5 .pair .rlx false 2#3)).map (·.1) = some 3 ∧ (noVl.pair 0).pl.stg ≠ 0 ∧ Runs (.vld 3#2 5#5 .pair .rlx false 2#3) noVl (.thr 0 .A) ∧
    Runs (.vsta 0#1 5#5 .pair .rlx 2#5) noVl (.thr 0 .A) :=
  ⟨runs rfl (by decide), rfl, rfl, by decide, runs rfl (by decide), runs rfl (by decide)⟩

theorem witness_VectorLoadIssue :
    let off : Nat → Int := fun e => sext (4 * 2 ^ bits (sV.pair 0).a.vtype.toNat 2 0) (((sV.pair 0).iq.headD {}).els.getD e 0)
    vloadOf sV 0 (.vldx 1#2 5#5 .pair .rlx false 2#3) = some (1, 5#5, 4, off) ∧ Runs (.vldx 1#2 5#5 .pair .rlx false 2#3) sV (.thr 0 .A) ∧ Memory.wf sV.mem = true ∧
    (sV.pair 0).a.vl.toNat ≠ 0 ∧ bits (sV.pair 0).a.vtype.toNat 2 0 ≠ 0 ∧ (sV.pair 0).a.vstart = 0#13 ∧ (sV.pair 0).a.resv = none ∧ (sV.pair 0).flights = [] ∧
    entsOf ((sV.pair 0).q.getD 1 []) + rowEnts 2 32 (sV.pair 0).owned.length ≤ 8 ∧
    (∀ st ∈ (sV.pair 0).streams.toList, st.port.toNat = 8 + 1 → st.isBound = true → st.st ≠ .queued ∧ st.st ≠ .running) ∧
    IndexRow sV 0 (.vldx 1#2 5#5 .pair .rlx false 2#3) ∧ Reaches sV 0 .load (sV.rx 5#5) 4 2 off (homeV sV 0 .load (sV.rx 5#5) 4 off) ∧
    homeV sV 0 .load (sV.rx 5#5) 4 off 0 = 0x10048 :=
  ⟨rfl, runs rfl (by decide), by decide, by decide, by decide, rfl, rfl, rfl, by decide, by decide, fun _ => ⟨[8, 0], _, _, rfl, by decide⟩, reaches (by decide), by decide⟩

theorem witness_VectorStoreResults :
    let off : Nat → Int := fun e => (e : Int) * 2 ^ (2#3 : BitVec 3).toNat
    vstoreOf sV 0 (.vst 0#1 5#5 .pair .rlx true 2#3) = some (0, 5#5, 4, off) ∧ Runs (.vst 0#1 5#5 .pair .rlx true 2#3) sV (.thr 0 .A) ∧
    Runs (.vsti 0#1 5#5 .pair .rlx true 2#3) sV (.thr 0 .A) ∧ Memory.wf sV.mem = true ∧ (sV.pair 0).pl.sym = 0 ∧
    HeadRow ((sV.pair 0).sr.getD 0 []) 2 (codeOf 4) [9, 0xFFFFFFFF] ∧ IndexRow sV 0 (.vst 0#1 5#5 .pair .rlx true 2#3) ∧
    Reaches sV 0 .store (sV.rx 5#5) 4 2 off (homeV sV 0 .store (sV.rx 5#5) 4 off) ∧ (∀ c ∈ sV.cache sV.core, 64 * c.1 < Config.peerBase) :=
  ⟨rfl, runs rfl (by decide), runs rfl (by decide), by decide, rfl, ⟨_, _, rfl, by decide⟩, fun h => by (cases h), reaches (by decide), by decide⟩

theorem witness_ScatterAddResults :
    let off : Nat → Int := fun e => sext (4 * 2 ^ bits (sV.pair 0).a.vtype.toNat 2 0) (((sV.pair 0).iq.headD {}).els.getD e 0)
    Runs (.vsta 0#1 5#5 .pair .rlx 2#5) sV (.thr 0 .A) ∧ addFormat 2 = true ∧ Tab.risingFrom 0 (sV.cache sV.core) = true ∧
    (∀ c ∈ sV.cache sV.core, 64 * c.1 < Config.peerBase) ∧ IndexRow sV 0 (.vsta 0#1 5#5 .pair .rlx 2#5) ∧
    HeadRow ((sV.pair 0).sr.getD 0 []) 2 (codeOf 4) [9, 0xFFFFFFFF] ∧ Reaches sV 0 .atomic (sV.rx 5#5) 4 2 off (homeV sV 0 .atomic (sV.rx 5#5) 4 off) ∧
    homeV sV 0 .atomic (sV.rx 5#5) 4 off 0 = 0x10048 ∧ homeV sV 0 .atomic (sV.rx 5#5) 4 off 1 = 0x10040 :=
  ⟨runs rfl (by decide), by decide, by decide, by decide, fun _ => ⟨[8, 0], _, _, rfl, by decide⟩, ⟨_, _, rfl, by decide⟩, reaches (by decide), by decide, by decide⟩

theorem witness_VectorAccessCompletes :
    (∃ q : Pair, q.flights = { kind := .load 1 4, rgn := 255#8, w := 16, els := [{ i := 0, a := 0x10040, n := 2 }, { i := 1, a := 0x10042, n := 2 }] } :: [] ∧
      ∃ row ∈ q.q.getD 1 [], row.id = 4 ∧ ∀ e ∈ (q.flights.headD { kind := .store, rgn := 0, w := 0, els := [] }).els, e.v = none ∧ e.sh = 0 ∧ 8 * e.n = 16 ∧ e.i < row.els.length) ∧
    (∀ e ∈ ({ kind := .store, rgn := 255#8, w := 16, els := [{ i := 0, a := 0x10040, n := 2, v := some 3 }] } : Flight).els, e.sh = 0 ∧ 8 * e.n = 16) :=
  ⟨⟨{ q := (Vector.replicate 4 []).set 1 [{ vl := 2, wc := 2, els := [0, 0], ready := false, id := 4 }],
      flights := [{ kind := .load 1 4, rgn := 255#8, w := 16, els := [{ i := 0, a := 0x10040, n := 2 }, { i := 1, a := 0x10042, n := 2 }] }] },
    rfl, _, .head _, by decide⟩, by decide⟩

/-! ## Witnesses: streams and engines -/

def is {α : Type} (r : Res α) (f : α → Bool) : Bool := match r with | .ok a => f a | .error _ => false
theorem is_of {α : Type} {r : Res α} {f : α → Bool} (h : is r f = true) : ∃ a, r = .ok a ∧ f a = true := by
  cases r with
  | ok a => exact ⟨a, rfl, h⟩
  | error _ => cases h

/-- Doublewords at the address in x5. -/
def wordsAt (l : List Nat) : State := { sA with mem := Mem.setLE [] 0x10040 (8 * l.length) (l.foldr (fun w n => w + 2 ^ 64 * n) 0) }

/-- A descriptor of four bytes from 0x10100 to 0x10200 of region 0, with the two footprints. -/
def descriptor : List Nat := [0, 4, 0, 0, 0x10100, 0x10200, 0x100, 4, 0x200, 4]

/-- Stream 3 with this descriptor, in this state, bound to port 0. -/
def streamIs (st : SSt) (f : Stream → Stream) : State := state (.thr 0 .A) { pair0 with
  streams := (Vector.replicate 16 {}).set 3 (f { st := st, isDef := true, isBound := true, d := Vector.ofFn (fun i => BitVec.ofNat 64 (descriptor.getD i.val 0)) }) }

theorem witness_StreamDefineAndQueue :
    (Runs (.sdef 3#4 5#5 1#15) sA (.thr 0 .A) ∧ (addrOf sA 5#5 1#15).v.toNat % 16 ≠ 0) ∧ (Runs (.sdef 3#4 5#5 0#15) streaming (.thr 0 .A) ∧
      ((streaming.pair 0).streams.getD 3 {}).st = .running) ∧
    (Runs (.sdef 3#4 5#5 0#15) (wordsAt descriptor) (.thr 0 .A) ∧ (addrOf sA 5#5 0#15).v.toNat % 16 = 0 ∧
      (∃ e, loadWords (wordsAt descriptor) (addrOf sA 5#5 0#15) 10 = .ok e ∧ (e.2.length == 10 && badDword (fun n => e.2.getD n 0#64) == none) = true) ∧
      ∃ e, loadWords (wordsAt (0x800 :: descriptor.tail)) (addrOf sA 5#5 0#15) 10 = .ok e ∧ (e.2.length == 10 && badDword (fun n => e.2.getD n 0#64) == none) = true) ∧
    (∃ e, loadWords (wordsAt (0x2000 :: descriptor.tail)) (addrOf sA 5#5 0#15) 10 = .ok e ∧ (e.2.length == 10 && badDword (fun n => e.2.getD n 0#64) == some 0) = true) ∧
    (Runs (.sgo 3#4) (streamIs .defined id) (.thr 0 .A) ∧ (let st := ((streamIs .defined id).pair 0).streams.getD 3 {}
      st.isDef = true ∧ st.isBound = true ∧ bits (st.d.getD 0 0#64).toNat 8 7 ≠ 3 ∧ ¬ 8 ≤ st.port.toNat ∧ st.chu = false)) ∧
    (Runs (.sgo 2#4) (streamIs .defined id) (.thr 0 .A) ∧ (((streamIs .defined id).pair 0).streams.getD 2 {}).isDef = false) :=
  ⟨⟨runs rfl (by decide), by decide⟩, ⟨runs rfl (by decide), by decide⟩,
   ⟨runs rfl (by decide), by decide, is_of (by decide +kernel), is_of (by decide +kernel)⟩, is_of (by decide +kernel), ⟨runs rfl (by decide), by decide⟩, runs rfl (by decide), by decide⟩

/-- Stream 3 running on channel 2 over 64 bytes of the scratchpad, its watermark 8 bytes in. -/
def filling : State := state (.thr 0 .A) { pair0 with
  a := { thr0 with x := regs [(6, ⟨0xFFFF00000007, 255⟩), (7, ⟨0xFFFF00000008, 255⟩), (8, ⟨0xFFFF00000040, 255⟩)] }
  chans := (Vector.replicate 8 {}).set 2 { wm := 0xFFFF00000008#52 }
  streams := (Vector.replicate 16 {}).set 3 { st := .running, chu := true, chan := 2#3, d := (Vector.replicate 10 0#64).set 9 64#64 } }

theorem witness_StreamControlWords : Memory.wf sA.mem = true ∧ Runs (.sbind 3#4 true 2#3 8#4) (streamIs .defined id) (.thr 0 .A) ∧
    Runs .sbarCfg sA (.thr 0 .A) ∧ Runs .sbarPhase sA (.thr 0 .A) ∧ Runs .sbarIft sA (.thr 0 .A) ∧ Runs .sbarIff sA (.thr 0 .A) ∧
    (Runs (.wmwait 6#5 2#3) sA (.thr 0 .A) ∧ ∀ u ∈ (sA.pair 0).streams.toList, u.chu = true → u.chan = 2#3 → u.st ≠ .queued ∧ u.st ≠ .running ∧ u.st ≠ .faulted) ∧
    (Runs (.wmwait 7#5 2#3) filling (.thr 0 .A) ∧
      (∃ u, (filling.pair 0).streams.toList.find? (fun u => u.chu && u.chan == 2#3 && (u.st == .queued || u.st == .running || u.st == .faulted)) = some u ∧
        u.st = .running ∧ Config.localBase + bits (u.d.getD 8 0#64).toNat 47 0 ≤ (filling.rx 6#5).v.toNat ∧ (filling.rx 6#5).v.toNat < ((filling.pair 0).chans.getD u.chan.toNat {}).wm.toNat ∧
        ((filling.pair 0).chans.getD u.chan.toNat {}).wm.toNat ≤ (filling.rx 7#5).v.toNat ∧
        Config.localBase + bits (u.d.getD 8 0#64).toNat 47 0 + bits (u.d.getD 9 0#64).toNat 47 0 ≤ (filling.rx 8#5).v.toNat)) ∧
    Runs (.cpwaitRel 3#4) (streamIs .done id) (.thr 0 .A) ∧ Runs (.cpwaitRel 3#4) (streamIs .running id) (.thr 0 .A) ∧
    (((streamIs .running id).pair 0).streams.getD 3 {}).rel = false ∧ Runs (.cpwaitVis 3#4) (streamIs .running (fun t => { t with vis := true })) (.thr 0 .A) ∧
    (((streamIs .running (fun t => { t with vis := true })).pair 0).streams.getD 3 {}).vis = true ∧ Runs (.sstat 5#5 3#4) (streamIs .faulted id) (.thr 0 .A) :=
  ⟨rfl, runs rfl (by decide), runs rfl (by decide), runs rfl (by decide), runs rfl (by decide), runs rfl (by decide), ⟨runs rfl (by decide), by decide⟩,
   ⟨runs rfl (by decide), _, rfl, by decide⟩, runs rfl (by decide), runs rfl (by decide), by decide, runs rfl (by decide), by decide, runs rfl (by decide)⟩

/-- What becomes of a reservation on ring 7: 0 a slot, 1 a full ring, 2 a wait for a reel, 3 no index. -/
def reserved (s : State) : Nat :=
  match takeIndex s 7 with
  | none => 3
  | some (s, i) => match reserveSlot 7 2 s i with
    | .slot s _ _ => if Memory.wf s.mem then 0 else 4
    | .full _ => 1
    | .wait _ _ => 2
/-- Ring 7 of context 0 with no reel mapped, with all its indices taken, and at a link slot with the index after it taken or not. -/
def ringAs (write cap map head : Nat) : State :=
  { sA with mem := memOf [(128 * 7, write), (128 * 7 + 16, head), (128 * 7 + 24, cap), (128 * 7 + 32, 0), (128 * 7 + 64, map)] }
/-- A thread whose `enq` holds an index while it waits for a reel. -/
def holding : State := state (.thr 0 .A) { pair0 with a := { thr0 with enqAt := some (1, [3, 0, 0, 0, 0, 0, 0, 0]) } }

/-- Ring 7 of context 0, empty, with its first block at 0x20000, and a signal write packet at the address in x5. -/
def ringed (ctx : Nat) : State := { sA with mem := (Mem.setLE (Mem.setLE (Mem.setLE [] (128 * 7 + 24) 8 64) (128 * 7 + 32) 8 ctx) (128 * 7 + 64) 8 0x20000).append (Mem.setLE [] 0x10040 1 3) }

theorem witness_EngineWords :
    (Runs (.jsub 6#5 5#5 0#15) (wordsAt [0, 16, 0x10100, 0x10200, 0x100, 16, 0x200, 16, 0, 0, 0, 0]) (.thr 0 .A) ∧
      ∃ e, loadWords (wordsAt [0, 16, 0x10100, 0x10200, 0x100, 16, 0x200, 16, 0, 0, 0, 0]) (addrOf sA 5#5 0#15) 12 = .ok e ∧
        (badCardDword (fun j => e.2.getD j 0#64) == none && decide ((e.1.die (dieOf 0)).cards.length < 256)) = true) ∧
    (Runs (.wbfill 3#2 5#5 0#15) (wordsAt [0x10001000B, 0, 0, 0]) (.thr 0 .A) ∧ ((sA.cluster (clusterOf 0)).banks.getD 3 {}).owner = none ∧
      ((sA.cluster (clusterOf 0)).banks.getD 3 {}).st ≠ .filling ∧ ((sA.cluster (clusterOf 0)).banks.getD 3 {}).next = none ∧
      ∃ e, loadWords (wordsAt [0x10001000B, 0, 0, 0]) (addrOf sA 5#5 0#15) 4 = .ok e ∧
        (Hdr.bad (Vector.ofFn (fun j => e.2.getD j.val 0#64)) == none && decide (e.1.clusters = sA.clusters)) = true) ∧
    (Runs (.wbwait 5#5 0#2) sA (.thr 0 .A) ∧ ((sA.cluster (clusterOf 0)).banks.getD 0 {}).st ≠ .bad) ∧
    (∃ s, Runs (.wbwait 5#5 0#2) s (.thr 0 .A) ∧ ((s.cluster (clusterOf 0)).banks.getD 0 {}).owner = some 1) ∧
    (Runs (.symq 5#5) sA (.thr 0 .A) ∧ (sA.pair 0).pl.sym < 8 ∧ (sA.pair 0).pl.n0 < 2 ^ 20) ∧
    (Runs (.enq 5#5 5#5 10#5) sA (.thr 0 .A) ∧ (∃ e, packetWords sA (sA.rx 5#5) = .ok e ∧ true = true) ∧ bits (sA.rx 10#5).v.toNat 63 15 ≠ 0) ∧
    ((∃ e, packetWords (ringed 1) (sA.rx 5#5) = .ok e ∧ (ringCtx e.1 7 == 1) = true) ∧ bits (sA.rx 6#5).v.toNat 63 15 = 0 ∧ bits (sA.rx 6#5).v.toNat 11 0 = 7) ∧
    (∃ e, packetWords sA (sA.rx 5#5) = .ok e ∧ (bits (e.2.getD 0 0) 7 0 == 0 && ringCtx e.1 7 == 0) = true) ∧
    (∃ e, packetWords (ringed 0) (sA.rx 5#5) = .ok e ∧ (bits (e.2.getD 0 0) 7 0 == 3 && ringCtx e.1 7 == 0 &&
      reserved (writeBackAll (settleMe e.1) e.1.core) == 0) = true) ∧
    (reserved (ringAs 0 64 1 0) = 2 ∧ reserved (ringAs 64 64 0 0) = 3 ∧ reserved (ringAs 63 64 0x20000 0x30000) = 1 ∧ reserved (ringAs 63 128 0x20000 0) = 2) ∧
    (Runs (.enq 5#5 5#5 10#5) holding (.thr 0 .A) ∧ holding.thr.enqAt = some (1, [3, 0, 0, 0, 0, 0, 0, 0]) ∧ sA.thr.enqAt = none) :=
  ⟨⟨runs rfl (by decide), is_of (by decide +kernel)⟩, ⟨runs rfl (by decide), by decide, by decide, by decide, is_of (by decide +kernel)⟩, ⟨runs rfl (by decide), by decide⟩,
   ⟨{ sA with clusters := [(0, { banks := (Vector.replicate 4 {}).set 0 { owner := some 1 } })] }, runs rfl (by decide), by decide⟩, ⟨runs rfl (by decide), by decide⟩,
   ⟨runs rfl (by decide), is_of (f := fun _ => true) (by decide +kernel), by decide⟩, ⟨is_of (by decide +kernel), by decide⟩, is_of (by decide +kernel), is_of (by decide +kernel),
   by decide +kernel, runs rfl (by decide), by decide⟩

/-! ## Witnesses: block words -/

/-- Format words in the block scalars: 0 int32, 1 f32, 2 f32 to e4m3 with a scale, 3 bf16 with f32 results, 4 f32 to int32, 5 an illegal one. -/
def scalars : Vector Word 8 := ⟨#[0x842, 0x2529, 0x4003129, 0x256B, 0x929, 0x1F, 0, 7], rfl⟩
/-- A block of two rows of n elements of 32 bits on two lane groups, in progress at its first word. -/
def tileBlk (n : BitVec 14) : Blk := { rgn := 1#8, vl := n, vtype := 0x03#8, rc := 2#4, b := scalars }
def pairT : Pair := { pair0 with blocks := [tileBlk 4#14], lanes := { busy := true, f := 0xFF#8192 } }
def sT : State := state (.lanes 0) pairT
/-- Sources v4 and block scalar 7, or v4 and v5, and destination v8. -/
def wS (fs : BitVec 3) : BlkW := { vd := 8#6, sa := 4#6, sb := 7#6, kb := .bscalar, fs := fs }
def wV (fs : BitVec 3) : BlkW := { vd := 8#6, sa := 4#6, sb := 5#6, fs := fs }
/-- Source q0. -/
def wQ (fs : BitVec 3) : BlkW := { vd := 8#6, sa := 0#6, sb := 5#6, ka := .queue, fs := fs }

theorem onT (i : Instr) (q : Pair) : OnTile i (state (.lanes 0) q) 0 (tileOf (state (.lanes 0) q) 0 (wordOf i)) := ⟨rfl, rfl⟩
theorem readyV {s : State} {t : Tile} {n : VReg} {w : Nat} (h : t.groupOk n.toNat w = true) : Ready s t n .vreg w := h
theorem readyS {s : State} {t : Tile} {n : VReg} {w : Nat} (h : t.emulOk w = true) : Ready s t n .bscalar w := h
theorem readyQ {s : State} {t : Tile} {n : VReg} {w : Nat}
    (he : t.emulOk w = true) (h : ((List.range t.rc).all (fun j => match (rowsAt s t n.toNat)[j]? with | some r => r.ready && r.vl == t.vl && r.wc == wcOf w | none => false)) = true) :
    Ready s t n .queue w := by
  refine ⟨he, fun j hj => ?_⟩
  have h := List.all_eq_true.mp h j (List.mem_range.mpr hj)
  split at h
  · rename_i r hr
    simp only [Bool.and_eq_true, beq_iff_eq] at h
    exact ⟨r, hr, h.1.1, h.1.2, h.2⟩
  · cases h

/-- A queue q0 that holds two rows of the strip's shape. -/
def fedRow : Row := { vl := 4, wc := 3, act := [true, true, true, true], els := [1, 2, 3, 4] }
def fed (l : List Row) : Pair := { pairT with q := (Vector.replicate 4 []).set 0 l }

theorem witness_SweepWritesActiveElements : let t := tileOf sT 0 0#64
    Shape t ∧ Width 32 ∧ Width 4 ∧ Width 64 ∧ t.groupOk 8 32 = true ∧ t.groupOk 8 64 = true ∧ (7#6 : VReg).toNat < 8 ∧ t.act (wV 0#3) 1 3 = true := by
  unfold Shape Width; decide +kernel
theorem witness_BlockWordFrame : ∃ w : BlkW, w.ka = .queue ∧ w.kb = .queue ∧ w.sa ≠ w.sb := ⟨{ sa := 0#6, sb := 3#6, ka := .queue, kb := .queue }, by decide⟩

theorem witness_IntegerElementWords :
    (let i : Instr := .vadd (wS 0#3) true; let t := tileOf sT 0 (wordOf i)
      OnTile i sT 0 t ∧ (intResult 0 0 0 i).map (·.1) = some (wS 0#3) ∧ Formatted t (wS 0#3) { rm := false } { fa := 2, fb := 2, fd := 2 } ∧ t.groupOk 8 (iwidth 2) = true ∧
      Ready sT t 4#6 .vreg 32 ∧ Ready sT t 7#6 .bscalar 32) ∧
    (let i : Instr := .vdiv (wQ 0#3); let t := tileOf (state (.lanes 0) (fed [fedRow, fedRow])) 0 (wordOf i)
      OnTile i (state (.lanes 0) (fed [fedRow, fedRow])) 0 t ∧ Ready (state (.lanes 0) (fed [fedRow, fedRow])) t 0#6 .queue 32) ∧
    (¬ fmtLegal { rm := false } (scalars.getD 5 0#64) 5 = true ∧ 8 ≤ (fmtOf (scalars.getD 1 0#64)).fa ∧ (tileOf sT 0 0#64).groupOk 63 32 = false) ∧
    (let i : Instr := .vdiv (wQ 0#3);
      OnTile i (state (.lanes 0) (fed [])) 0 (tileOf (state (.lanes 0) (fed [])) 0 (wordOf i)) ∧ ((fed []).q.getD 0 []) = [] ∧ (fed []).a.halt ≠ .exited ∧
      ({ fed [] with a := { thr0 with halt := .exited } } : Pair).a.halt = .exited ∧ ((fed [{ fedRow with vl := 3 }]).q.getD 0 []) = { fedRow with vl := 3 } :: [] ∧
      (3 ≠ (tileOf sT 0 0#64).vl)) :=
  ⟨⟨onT _ _, rfl, ⟨by decide, by decide⟩, by decide, readyV (by decide), readyS (by decide)⟩, ⟨onT _ _, readyQ (by decide) (by decide)⟩, by decide, ⟨onT _ _, by decide⟩⟩

theorem witness_CarryAndCompareWords :
    (let i : Instr := .vsbc (wV 0#3) 1#3 2#3; let t := tileOf sT 0 (wordOf i)
      Formatted t (wV 0#3) { rm := false } { fa := 2, fb := 2, fd := 2 } ∧ Shape t ∧ OnTile i sT 0 t ∧ t.groupOk 8 32 = true ∧ Ready sT t 4#6 .vreg 32 ∧ Ready sT t 5#6 .vreg 32) ∧
    (let i : Instr := .vcmp (wV 0#3) 5#3; let t := tileOf sT 0 (wordOf i)
      Formatted t (wV 0#3) { rm := false } { fa := 2, fb := 2, fd := 2 } ∧ Shape t ∧ OnTile i sT 0 t ∧ Ready sT t 4#6 .vreg 32 ∧ Ready sT t 5#6 .vreg 32) :=
  ⟨⟨⟨by decide, by decide⟩, by unfold Shape; decide, onT _ _, by decide, readyV (by decide), readyV (by decide)⟩,
   ⟨by decide, by decide⟩, by unfold Shape; decide, onT _ _, readyV (by decide), readyV (by decide)⟩

theorem witness_ExactArithmetic : Exact (.fin false 3 (-1) false) ∧ qv (.fin false 3 (-1) false) ≠ 0 ∧ Exact (.fin true 0 0 false) ∧ qv (.fin true 0 0 false) = 0 ∧
    isNaN (.nan true) = true ∧ isNaN (.fin false 3 (-1) false) = false :=
  ⟨⟨_, _, _, rfl⟩, by norm_num [qv], ⟨_, _, _, rfl⟩, by norm_num [qv], rfl, rfl⟩
theorem witness_RoundingIsNearest : (roundNum 0x0E 0 0 false false (.fin false 5 (-2) false)).2 &&& 4#5 = 0#5 ∧ (roundNum 8 2 0 false false (.fin true 1 (-1080) false)).2 &&& 4#5 = 0#5 := by
  decide +kernel

theorem floatFmt9 (n : Bool) : FloatFmt n 9 := ⟨by decide, fun _ => by decide⟩

theorem witness_FloatElementWords :
    (let i : Instr := .vfdiv (wV 1#3); let t := tileOf sT 0 (wordOf i); let f := fmtOf (scalars.getD 1 0#64)
      OnTile i sT 0 t ∧ (∃ op, floatOp i = some (wV 1#3, true, true, op)) ∧ Formatted t (wV 1#3) { sb := true } f ∧ FloatFmt true f.fa ∧ FloatFmt true f.fd ∧ FloatFmt true f.fb ∧
      t.groupOk 8 (fmtWidth f.fd) = true ∧ Scaled t (f.sa || true && f.sb) ∧ Ready sT t 4#6 .vreg (fmtWidth f.fa) ∧ Ready sT t 5#6 .vreg (fmtWidth f.fb)) ∧
    (fmtLegal { sb := true } (scalars.getD 5 0#64) 5 = false ∧ ¬ FloatFmt false (fmtOf (scalars.getD 0 0#64)).fa ∧ ¬ FloatFmt true 8) ∧
    (let i : Instr := .vfmacc (wV 1#3); let t := tileOf sT 0 (wordOf i); OnTile i sT 0 t ∧ t.groupOk 8 32 = true) ∧
    (let i : Instr := .vfma (wV 1#3) 3#2; let t := tileOf sT 0 (wordOf i); OnTile i sT 0 t ∧ t.groupOk 0 32 = true) :=
  ⟨⟨onT _ _, ⟨_, rfl⟩, ⟨by decide, by decide⟩, floatFmt9 _, floatFmt9 _, floatFmt9 _, by decide, fun h => absurd h (by decide), readyV (by decide), readyV (by decide)⟩,
   ⟨by decide, fun h => absurd h.1 (by decide), fun h => absurd (h.2 rfl) (by decide)⟩, ⟨onT _ _, by decide⟩, onT _ _, by decide⟩

theorem witness_FloatCompareClassSign :
    (let i : Instr := .vfcmp (wV 1#3) 6#3; let t := tileOf sT 0 (wordOf i); let f := fmtOf (scalars.getD 1 0#64)
      OnTile i sT 0 t ∧ Formatted t (wV 1#3) { rm := false } f ∧ FloatFmt false f.fa ∧ FloatFmt false f.fb ∧ Scaled t (f.sa || f.sb) ∧ Ready sT t 4#6 .vreg 32 ∧ Ready sT t 5#6 .vreg 32) ∧
    (let i : Instr := .vfclass (wV 4#3); let t := tileOf sT 0 (wordOf i); let f := fmtOf (scalars.getD 4 0#64)
      OnTile i sT 0 t ∧ Formatted t (wV 4#3) { sb := false, rm := false } f ∧ FloatFmt false f.fa ∧ f.fd = 2 ∧ t.groupOk 8 (iwidth f.fd) = true ∧ Scaled t f.sa) ∧
    (let i : Instr := .vfsgn (wV 1#3) 2#2; let t := tileOf sT 0 (wordOf i); OnTile i sT 0 t ∧ (fmtOf (scalars.getD 1 0#64)).fd = (fmtOf (scalars.getD 1 0#64)).fa ∧ t.groupOk 8 32 = true) ∧
    (Exact (.fin true 1 (-149) false) ∧ qv (.fin true 1 (-149) false) ≠ 0 ∧ |qv (.fin true 1 (-149) false)| < (2 : ℚ) ^ (1 - ((ieee 9).2.2 : Int)) ∧
      ¬ |qv (.fin true 1 (-126) false)| < (2 : ℚ) ^ (1 - ((ieee 9).2.2 : Int))) := by
  refine ⟨⟨onT _ _, ⟨by decide, by decide⟩, floatFmt9 _, floatFmt9 _, fun h => absurd h (by decide), readyV (by decide), readyV (by decide)⟩,
    ⟨onT _ _, ⟨by decide, by decide⟩, floatFmt9 _, by decide, by decide, fun h => absurd h (by decide)⟩, ⟨onT _ _, by decide, by decide⟩, ⟨_, _, _, rfl⟩, ?_, ?_, ?_⟩ <;> norm_num [qv, ieee, abs_of_neg]

theorem witness_ConvertWords :
    (let i : Instr := .vcvt (wV 4#3); let t := tileOf sT 0 (wordOf i); let f := fmtOf (scalars.getD 4 0#64)
      OnTile i sT 0 t ∧ Formatted t (wV 4#3) { sb := false, sd := true } f ∧ t.L.carry = none ∧ t.groupOk 8 (fmtWidth f.fd) = true ∧ Scaled t (f.sa || f.sd) ∧ Ready sT t 4#6 .vreg (fmtWidth f.fa) ∧ f.sd = false) ∧
    (let i : Instr := .vcvt (wV 2#3); let t := tileOf sT 0 (wordOf i); let f := fmtOf (scalars.getD 2 0#64)
      OnTile i sT 0 t ∧ Formatted t (wV 2#3) { sb := false, sd := true } f ∧ t.groupOk 8 (fmtWidth f.fd) = true ∧ Scaled t (f.sa || f.sd) ∧ Ready sT t 4#6 .vreg (fmtWidth f.fa) ∧ f.sd = true ∧ Shape t) :=
  ⟨⟨onT _ _, ⟨by decide, by decide⟩, rfl, by decide, fun h => absurd h (by decide), readyV (by decide), by decide⟩,
   onT _ _, ⟨by decide, by decide⟩, by decide, fun _ => .inr (by decide), readyV (by decide), by decide, by unfold Shape; decide⟩
theorem witness_ConvertWords_scale : ∀ z ∈ [Machine.Num.fin true 3 0 false, .fin false 0 0 false], |qv z| ≤ |qv (.fin true 3 0 false)| := by
  intro z hz
  simp only [List.mem_cons, List.not_mem_nil, or_false] at hz
  rcases hz with rfl | rfl <;> norm_num [qv]

/-- The same lanes before a transient butterfly and the conversion that follows it. -/
def butterfly (after : Nat) : State := { sT with mem := Mem.setLE [] 0x100008 8 after }
def followed : Nat := match encode (.vcvt { vd := 8#6, sa := 8#6, cv := true, fs := 1#3 }) with | .w64 n => n | _ => 0

theorem witness_ButterflyScaleAndRandomWords :
    (let i : Instr := .vbfly (wV 1#3) 12#4 true; let f := fmtOf (scalars.getD 1 0#64); let s := butterfly followed; let t := tileOf s 0 (wordOf i)
      OnTile i s 0 t ∧ Shape t ∧ Formatted t (wV 1#3) { sb := false } f ∧ FloatFmt false f.fa ∧ FloatFmt false f.fd ∧ t.groupOk 8 32 = true ∧ Scaled t f.sa ∧ Ready s t 4#6 .vreg 32 ∧
      cvtFollows s t (wV 1#3) f.fd = true ∧ cvtFollows (butterfly 0) t (wV 1#3) f.fd = false) ∧
    (let i : Instr := .zld { vd := 3#6, sa := 4#6 }; let t := tileOf sT 0 (wordOf i)
      OnTile i sT 0 t ∧ (t.rc - 1) * ((t.vlmax + 2 ^ (t.blk + 3) - 1) / 2 ^ (t.blk + 3)) + min t.vl ((t.vlmax + 2 ^ (t.blk + 3) - 1) / 2 ^ (t.blk + 3)) ≤ 512 ∧ Ready sT t 4#6 .vreg 8) ∧
    (let i : Instr := .zmv { vd := 4#6, sa := 3#6 }; let t := tileOf sT 0 (wordOf i); OnTile i sT 0 t ∧ t.groupOk 4 8 = true) ∧
    (let i : Instr := .vrng { vd := 8#6, sa := 6#6, sb := 7#6 }; let t := tileOf sT 0 (wordOf i); OnTile i sT 0 t ∧ t.groupOk 8 t.sewBits = true) :=
  ⟨⟨⟨rfl, rfl⟩, by unfold Shape; decide, ⟨by decide, by decide⟩, floatFmt9 _, floatFmt9 _, by decide, fun h => absurd h (by decide), readyV (by decide), by decide +kernel, by decide +kernel⟩,
   ⟨onT _ _, by decide, readyV (by decide)⟩, ⟨onT _ _, by decide⟩, onT _ _, by decide⟩
/-- A tile whose scale entries run past the last: eight rows of 512 elements of 8 bits on eight lane groups. -/
theorem witness_ButterflyScaleAndRandomWords_entries : ∃ t : Tile, Shape t ∧
    ¬ ((t.rc - 1) * ((t.vlmax + 2 ^ (t.blk + 3) - 1) / 2 ^ (t.blk + 3)) + min t.vl ((t.vlmax + 2 ^ (t.blk + 3) - 1) / 2 ^ (t.blk + 3)) ≤ 512) :=
  ⟨{ p := 0, g := 8, vl := 512, rc := 8, sew := 1, lmul := 1, blk := 0, b := scalars, stg := 0, word := 0, L := {} }, by unfold Shape; decide⟩

theorem witness_MaskWords (i : Instr) (h : i = .mshift { vd := 3#6, sa := 3#6 } true 2#12 ∨ i = .mnot { vd := 3#6, sa := 3#6 }) :
    Shape (tileOf sT 0 (wordOf i)) ∧ OnTile i sT 0 (tileOf sT 0 (wordOf i)) ∧ (maskResult (tileOf sT 0 (wordOf i)) 0 0 i).map (·.1) = some { vd := 3#6, sa := 3#6 } := by
  rcases h with rfl | rfl <;> exact ⟨by unfold Shape; decide, onT _ _, rfl⟩
theorem witness_MaskWords_push : (let i : Instr := .mfirst { sa := 3#6 }; OnTile i sT 0 (tileOf sT 0 (wordOf i))) ∧ (sT.pair 0).x.halt ≠ .exited ∧
    14 + (tileOf sT 0 0#64).rc ≤ 16 ∧ 16 < 15 + (tileOf sT 0 0#64).rc ∧ ({ thr0 with halt := .exited } : Thread).halt = .exited := ⟨onT _ _, by decide⟩

theorem witness_MoveWords (i : Instr) (w : BlkW) (h : (i = .vrgather w ∧ w = wV 0#3) ∨ (i = .vslideup w 8191#13 ∧ w = wV 0#3) ∨ (i = .vid w ∧ w = { vd := 8#6 }) ∨ (i = .vcompress w ∧ w = { wV 0#3 with m := 2#3 })) :
    let t := tileOf sT 0 (wordOf i)
    Shape t ∧ OnTile i sT 0 t ∧ (∃ two x, moveResult t (fun _ _ => 0) (fun _ _ => 0) 0 0 i = some (w, two, x)) ∧ t.groupOk w.vd.toNat t.sewBits = true ∧
    Ready sT t 4#6 .vreg t.sewBits ∧ Ready sT t 5#6 .vreg t.sewBits := by
  rcases h with ⟨rfl, rfl⟩ | ⟨rfl, rfl⟩ | ⟨rfl, rfl⟩ | ⟨rfl, rfl⟩ <;>
    exact ⟨by unfold Shape; decide, onT _ _, ⟨_, _, rfl⟩, by decide, readyV (by decide), readyV (by decide)⟩

theorem witness_ReductionWords :
    (∀ i : Instr, i = .vredsum (wV 0#3) ∨ i = .vredmm (wV 0#3) 3#2 → let t := tileOf sT 0 (wordOf i)
      OnTile i sT 0 t ∧ Shape t ∧ Formatted t (wV 0#3) { rm := false } { fa := 2, fb := 2, fd := 2 } ∧ t.groupOk 8 (fmtWidth 2) = true ∧ Ready sT t 4#6 .vreg (fmtWidth 2)) ∧
    (∀ i : Instr, i = .vfredsum (wV 1#3) true ∨ i = .vfredmm (wV 1#3) true → let t := tileOf sT 0 (wordOf i); let f := fmtOf (scalars.getD 1 0#64)
      OnTile i sT 0 t ∧ Shape t ∧ Formatted t (wV 1#3) {} f ∧ f.sb = false ∧ f.sd = false ∧ f.rm ≠ 5 ∧ f.fd = f.fa ∧ FloatFmt false f.fa ∧ Scaled t f.sa ∧
      t.groupOk 8 (fmtWidth f.fd) = true ∧ Ready sT t 4#6 .vreg (fmtWidth f.fa)) := by
  constructor
  · rintro i (rfl | rfl) <;> exact ⟨onT _ _, by unfold Shape; decide, ⟨by decide, by decide⟩, by decide, readyV (by decide)⟩
  · rintro i (rfl | rfl) <;> exact ⟨onT _ _, by unfold Shape; decide, ⟨by decide, by decide⟩, by decide, by decide, by decide, by decide, floatFmt9 _, fun h => absurd h (by decide), by decide, readyV (by decide)⟩

/-- Bank 1 of cluster 0 in a state, with a tile of 2 by 3 bf16 weights, for a launch that set MATRIX. -/
def banked (st : BankSt) (o : Option Nat) : State :=
  { state (.lanes 0) { pairT with pl := { matrix := true } } with
    clusters := [(0, { banks := (Vector.replicate 4 {}).set 1 { st := st, owner := o, h := ⟨#[0x30002000B, 0, 0, 0], rfl⟩ } })] }

theorem witness_MatrixWords :
    let w : BlkW := { vd := 8#6, sa := 4#6, fs := 3#3 }
    let i : Instr := .mrow w 1#2 true
    let f := fmtOf (scalars.getD 3 0#64)
    (OnTile i sT 0 (tileOf sT 0 (wordOf i)) ∧ (sT.pair 0).pl.matrix = false) ∧
    (∀ st o, (st, o) ∈ [(BankSt.empty, none), (.ready, some 1), (.bad, some 0), (.filling, some 0), (.ready, some 0)] →
      let s := banked st o; let t := tileOf s 0 (wordOf i)
      OnTile i s 0 t ∧ Shape t ∧ (s.pair 0).pl.matrix = true ∧ Formatted t w { sb := false } f ∧ mrowFmt false f = true ∧ t.groupOk 4 (fmtWidth f.fa) = true ∧ Scaled t f.sa ∧
      (s.bank (clusterOf 0) 1).st = st ∧ (s.bank (clusterOf 0) 1).owner = o) ∧
    (let s := banked .ready (some 0); let t := tileOf s 0 (wordOf i); let b := s.bank (clusterOf 0) 1
      f.fb = Hdr.fmt b.h ∧ pairingOk f.fb f.fa f.fd = true ∧ false = (Hdr.fmt b.h == 8) ∧ Hdr.n b.h = 3 ∧ pow2Above ((3 * 32 + 512 * t.g - 1) / (512 * t.g)) = 1 ∧
      Ready s t 4#6 .vreg (fmtWidth f.fa)) ∧
    (fmtLegal { sb := false } (scalars.getD 5 0#64) 5 = false ∧ pairingOk 0x0E 0x0B 9 = false) := by
  refine ⟨⟨onT _ _, rfl⟩, ?_, ⟨by decide, by decide, by decide, by decide, by decide, readyV (by decide)⟩, by decide⟩
  intro st o h
  fin_cases h <;> exact ⟨⟨rfl, rfl⟩, by unfold Shape; decide, rfl, ⟨by decide, by decide⟩, by decide, by decide, fun h => absurd h (by decide), rfl, rfl⟩

/-- The lanes at offset 16 with a mask register 1 and these parked fragments. -/
def parked (m : BitVec 8192) (fs : List Frag) : State :=
  state (.lanes 0) { pairT with lanes := { busy := true, off := 16#52, f := 0xFF#8192, m := (Vector.replicate 8 0).set 1 m, frags := fs } }
def eight : List Frag := [{ off := 100#52 }, { off := 108#52 }, { off := 116#52 }, { off := 124#52 }, { off := 132#52 }, { off := 140#52 }, { off := 148#52 }, { off := 156#52 }]

theorem witness_BlockControlWords : LanesTurn (parked 0 []) 0 ∧
    (((parked 0 []).pair 0).lanes.f &&& ((parked 0 []).pair 0).lanes.m.getD 1 0#8192) = 0#8192 ∧
    (((parked 0xFF#8192 []).pair 0).lanes.f &&& ((parked 0xFF#8192 []).pair 0).lanes.m.getD 1 0#8192) = ((parked 0xFF#8192 []).pair 0).lanes.f ∧
    (((parked 3#8192 []).pair 0).lanes.f &&& ((parked 3#8192 []).pair 0).lanes.m.getD 1 0#8192) = 3#8192 ∧ 3#8192 ≠ 0#8192 ∧ 3#8192 ≠ 0xFF#8192 ∧
    (8 ≤ eight.length ∧ ∀ x ∈ eight, x.off ≠ 24#52) ∧
    (∃ x ∈ ([{ off := 8#52 }, { off := 32#52 }] : List Frag), (∀ y ∈ ([{ off := 8#52 }, { off := 32#52 }] : List Frag), x.off.toNat ≤ y.off.toNat) ∧ x.off.toNat < (16#52 + 8#52 : BitVec 52).toNat) ∧
    ([{ off := 8#52 }, { off := 32#52 }] : List Frag).Pairwise (fun a b => a.off ≠ b.off) ∧ ((parked 0 []).pair 0).lanes.frags = [] := by
  refine ⟨rfl, by decide +kernel, by decide +kernel, by decide +kernel, by decide +kernel, by decide +kernel, by decide +kernel, ⟨{ off := 8#52 }, .head _, ?_, by decide +kernel⟩, by decide +kernel, rfl⟩
  decide +kernel

def stagedT : State := { sT with pairs := [(0, { pairT with pl := { last := 1 } }), (1, { pair0 with pl := { stg := 1, last := 1 } })] }

theorem witness_LanePushWords : let w : BlkW := { sa := 4#6 }
    (∀ i : Instr, i = .vret w ∨ i = .vidxq w ∨ i = .vout w 1#2 ∨ i = .vout w 2#2 → OnTile i sT 0 (tileOf sT 0 (wordOf i)) ∧ Ready sT (tileOf sT 0 (wordOf i)) 4#6 .vreg (tileOf sT 0 (wordOf i)).sewBits) ∧
    (sT.pair 0).x.halt ≠ .exited ∧ (sT.pair 0).a.halt ≠ .exited ∧ (sT.pair 0).rq.length + (tileOf sT 0 0#64).rc ≤ 16 ∧ 16 < 15 + (tileOf sT 0 0#64).rc ∧
    (let r := pushedRows (tileOf sT 0 0#64) w (fun _ _ => 0);
      entsOf ((sT.pair 0).sr.getD 1 []) + entsOf r ≤ 8 ∧ entsOf (sT.pair 0).iq + entsOf r ≤ 4 ∧ 4 < 3 + entsOf r ∧ 8 < 7 + entsOf r) ∧
    (sT.pair 0).pl.stg = (sT.pair 0).pl.last ∧ (stagedT.pair 0).pl.stg ≠ (stagedT.pair 0).pl.last ∧ stageMate stagedT 0 ((stagedT.pair 0).pl.stg + 1) = some 1 ∧ (stagedT.pair 1).x.halt ≠ .exited := by
  refine ⟨?_, by decide, by decide, by decide, by decide, by decide, by decide, by decide, by decide, by decide⟩
  rintro i (rfl | rfl | rfl | rfl) <;> exact ⟨onT _ _, readyV (by decide)⟩

/-! ## Witnesses: events -/

theorem witness_RegisterWriteEvents : (0x1008, 0xFFFFFFFFFF01F) ∈ plainRegs ∧ 0 < 8 ∧ (7 < 8) ∧ writableOff ((0x3F8#25 : BitVec 25).toNat / 8 * 8) = false ∧
    (tracing.die 0).trctl.getLsbD 20 = true ∧ (sA.die 0).trctl.getLsbD 20 = false ∧ (sA.die 0).holdOn = false ∧ (sA.die 0).hold = [] ∧
    (∃ x : Die, x.holdOn = true ∧ x.hold = [] ∧ x.compls = []) ∧ (∃ x : Vf, x.st = .locked) ∧ (∃ x : Vf, x.st = .run) ∧ (sA.vf 0).st ≠ .locked ∧ (sA.vf 0).st ≠ .run ∧
    (∃ v o : Word, v.getLsbD 63 = true ∧ o.getLsbD 63 = false ∧ bits v.toNat 55 52 = 1) :=
  ⟨by decide, by decide, by decide, by decide, by decide, by decide, by decide, by decide, ⟨{ holdOn := true }, by decide⟩, ⟨{ st := .locked }, rfl⟩, ⟨{ st := .run }, rfl⟩,
   by decide, by decide, ⟨0x8010000000000000#64, 0#64, by decide⟩⟩

/-- Six pairs of context 0 in as many states. -/
def debugged : State := { sA with pairs := [(0, pair0), (1, { pair0 with st := .parked }), (2, { pair0 with st := .saved }), (3, { pair0 with st := .dbg }), (4, { pair0 with st := .posted }), (5, { pair0 with ctx := 1#10 })] }

theorem witness_DebuggerEvents : (Instr.dbgStop 0 0#10, 1) ∈ [(Instr.dbgStop 0 0#10, 1), (.dbgHardStop 0 0#10, 2), (.dbgStep 0 0#10, 3), (.dbgRun 0 0#10, 4)] ∧
    Tab.risingFrom 0 debugged.pairs = true ∧ (debugged.pair 0).st = .running ∧ (debugged.pair 1).st = .parked ∧ (debugged.pair 2).st = .saved ∧ (debugged.pair 3).st = .dbg ∧
    (debugged.pair 4).st = .posted ∧ (debugged.pair 0).ctx = 0#10 ∧ dieOf 0 = 0 ∧ (debugged.pair 5).ctx ≠ 0#10 :=
  ⟨.head _, by decide⟩

/-- Pair 0 parked by a trap of its A thread, with no region recorded. -/
def trapped (cause : BitVec 10) : State := state .nobody { pair0 with st := .parked, a := { thr0 with tcause := cause, tpc := ⟨0x100000, 1⟩ } }
/-- A thread of pair 0 for which a stream's release has fired. -/
def cued : Thread := { thr0 with cuevec := 0x8010000000000020#64, cuearm := 1#64, fired := [(2, 0)] }

theorem witness_TrapAndCommandEvents :
    ((sA.pair 0).st = .running ∧ ((sA.pair 0).thr .A).halt = .none) ∧
    (∃ t : Thread, t.onRgn = some 4 ∧ t.halt = .none ∧ (sA.region 0 4).st ∈ [RSt.absent, .arriving, .evicting]) ∧
    (lanesRun (sT.pair 0) = true ∧ (sT.pair 0).lanes.busy = true ∧ (∃ w, fetchBlock sT 0 = .ok w) ∧ bits (0x00008#20 : BitVec 20).toNat 19 16 < 4 ∧
      (sT.pair 0).owned.contains (bits (0x00008#20 : BitVec 20).toNat 5 3) = true) ∧
    (0 = 0 * 160 + (0#8 : BitVec 8).toNat ∧ ((trapped 5#10).pair 0).st = .parked ∧ ((trapped 5#10).pair 0).lent = [] ∧ ((trapped 5#10).pair 0).trapBlk = false ∧
      ((trapped 5#10).pair 0).trapK ≠ .F ∧ (∀ e ∈ (((trapped 5#10).pair 0).thr .A).gens, e.2 = ((trapped 5#10).region 0 e.1).gen.toNat) ∧
      (((trapped 5#10).pair 0).thr .A).tcause.toNat % 256 ≠ 8 ∧ (((trapped 5#10).pair 0).thr .A).tcause.toNat % 256 ≠ 10 ∧ ((5#10 : BitVec 10).getLsbD 9 = false) ∧
      (((trapped 10#10).pair 0).thr .A).tcause.toNat % 256 = 10 ∧ (sA.pair 0).st ≠ .parked) ∧
    (Tab.risingFrom 0 debugged.pairs = true ∧ (debugged.pair 3).st ≠ .free ∧ (debugged.pair 3).st ≠ .exited) ∧
    (let s := state .nobody { pair0 with a := cued }; let th := (s.pair 0).thr .A;
      (s.pair 0).st = .running ∧ th.halt = .none ∧ ((latchCues s 0 .A).pair 0).thr .A = { th with fired := (2, 0) :: [] } ∧ th.cuevec.getLsbD 63 = true ∧ th.incue = false ∧
      cueHere th = true ∧ (s.region 0 (bits th.cuevec.toNat 59 52)).kind = 1#2 ∧ (s.region 0 (bits th.cuevec.toNat 59 52)).px = true ∧
      bits th.cuevec.toNat 51 0 + 4 ≤ (s.region 0 (bits th.cuevec.toNat 59 52)).size.toNat) :=
  ⟨by decide, ⟨{ onRgn := some 4 }, by decide⟩, ⟨by decide +kernel, by decide, is_of (f := fun _ => true) (by decide +kernel) |>.imp (fun _ h => h.1), by decide, by decide⟩,
   by decide +kernel, by decide, by decide +kernel⟩

theorem witness_FirmwareComplexEvents : (((sF.die 0).fcore (if (sF.die 0).act then 1 else 0)).on = true) ∧ (sF.die 0).spare = true ∧ ∃ d : Die, d.spare = false ∧ (d.fcore 0).on = true :=
  ⟨by decide, by decide, { spare := false, f0 := { on := true } }, by decide⟩

/-! ## Witnesses: rings -/

/-- Region 0 with room for stacks. -/
def ctxR : Ctx := { regions := [(0, { dataR 0x10000 .resident with size := 0x1000000#48 }), (1, { codeR with base := 0x8000000#52 }), (4, dataR 0x4000000 .absent)] }
/-- Die 0 at work, with ring 7 of context 0 on it alone, and doublewords in memory. -/
def onRing (x : RingSt) (m : List (Nat × Nat)) : State :=
  { mem := memOf ((0x3A0, 0x1000000) :: m), ctxs := [(0, ctxR)], dies := [(0, { jrnlSet := true, f0 := { on := true }, kicks := 128#4096, rings := [(7, x)] })] }
/-- A packet of a type in slot 0, with its words 1 to 6. -/
def packet (type a b c d e f : Nat) : Pkt :=
  { idx := 0, at_ := 0x20000, w := ⟨#[BitVec.ofNat 64 (type + 0x10000), BitVec.ofNat 64 a, BitVec.ofNat 64 b, BitVec.ofNat 64 c, BitVec.ofNat 64 d, BitVec.ofNat 64 e, BitVec.ofNat 64 f, 1], rfl⟩ }
/-- Ring 7 with that packet taken. -/
def taken (type a b c d e f : Nat) (m : List (Nat × Nat)) : State := onRing { known := true, cursor := 1, reel := 0x20000, pkts := [packet type a b c d e f] } m
/-- Ring 7 before it takes what stands in slot 0: word 0 and word 7. -/
def unread (w0 w7 : Nat) (torn : Bool) : State := onRing { known := true, reel := 0x20000, torn := torn } [(0x20000, w0), (0x20038, w7)]

theorem witness_RingReadingEvents : 0 < 8 ∧ ((unread 0 0 false).ring 0 7).known = true ∧ ringOk { sA with mem := memOf [(0x3A0, 0x1000000)] } 7 = true ∧
    (¬ (∃ e < 8, (sA.ring e 7).known = true)) ∧ ringOk sA 7 = false ∧ ringState sA 7 = 0 ∧ ringErr sA 7 = 0 ∧ ringState { sA with mem := memOf [(0x3A0, 0x100000000)] } 7 ≠ 0 ∧
    (sA.die 0).kicks.getLsbD 7 = false ∧ ((unread 0 0 false).die 0).kicks.getLsbD 7 = true ∧ ((unread 0 0 false).ring 0 7).stopped = false ∧ atLink ((unread 0 0 false).ring 0 7) = false ∧
    (nextPkt (unread 0 0 false) 0 7).type = 0 ∧ (nextPkt (unread 0x10007 0 true) 0 7).type = 7 ∧ (nextPkt (unread 0x10007 0 true) 0 7).tag = 1 ∧
    bits ((nextPkt (unread 0x10007 0 true) 0 7).word 7).toNat 15 0 ≠ 1 ∧ bits ((nextPkt (unread 0x10007 1 true) 0 7).word 7).toNat 15 0 = (nextPkt (unread 0x10007 1 true) 0 7).tag ∧
    ((unread 0x10007 1 true).ring 0 7).torn = true ∧
    (let s := onRing {} [(0x388, 3), (0x3C0, 0x20000), (0x200C0, 0x40007), (0x200F8, 4)]
     let s0 := s.setRing 0 7 { (s.ring 0 7) with known := true, cursor := 3, reel := 0x20000 }
     (s.die 0).kicks.getLsbD 7 = true ∧ (s.ring 0 7).known = false ∧ (s.ring 0 7).stopped = false ∧ ringOk s 7 = true ∧ (cbW s 7 1).toNat = 3 ∧ (cbW s 7 8).toNat / 4096 % 2 ^ 40 * 4096 = 0x20000 ∧
     (nextPkt s0 0 7).type = 7 ∧ (nextPkt s0 0 7).tag = 4 ∧ bits ((nextPkt s0 0 7).word 7).toNat 15 0 = 4) := by decide +kernel

theorem legal {k : Pkt} {c : Nat} (h : k.word0Ok c = true ∧ bits (k.word 7).toNat 63 16 = 0) : Legal k c := h

/-- A signal write, a wait, a link, a hint, a barrier, a nop and a card that are right, and one of each kind of failure. -/
theorem witness_PacketEvents :
    (let s := taken 2 0x10040 5 1 0 0 0 []; let k := packet 2 0x10040 5 1 0 0 0;
      duePkt s 0 7 0 2 = some k ∧ Legal k (ringCtx s 7) ∧ resolveSlot s 0 (k.word 1) = some ⟨0x10040, 0⟩ ∧ 0 = ringHome s 7 ∧ 1 ≠ ringHome s 7 ∧ slotMoving s 0 (k.word 1) = false ∧
      unitAccess s 0 .store ⟨0x10040, 0⟩ 8 = .ok 0x10040) ∧
    (let s := taken 2 0x40000004000040 5 0 0 0 0 []; let k := packet 2 0x40000004000040 5 0 0 0 0;
      duePkt s 0 7 0 2 = some k ∧ resolveSlot s 0 (k.word 1) = some ⟨0x4000040, 4⟩ ∧ unitAccess s 0 .atomic ⟨0x4000040, 4⟩ 8 = .wait 4) ∧
    (let s := taken 2 0x7000000000000000 5 10 0 0 0 []; let k := packet 2 0x7000000000000000 5 10 0 0 0;
      duePkt s 0 7 0 2 = some k ∧ resolveSlot s 0 (k.word 1) = none ∧ ¬ bits 10 3 1 ≤ 4) ∧
    (let s := taken 3 0x10040 5 0 0 0 0 [(0x10040, 5)]; let k := packet 3 0x10040 5 0 0 0 0;
      duePkt s 0 7 0 3 = some k ∧ Legal k (ringCtx s 7) ∧ resolveSlot s 0 (k.word 1) = some ⟨0x10040, 0⟩ ∧ unitAccess s 0 .load ⟨0x10040, 0⟩ 8 = .ok 0x10040 ∧ (k.word 2).toNat ≤ Mem.getLE s.mem 0x10040 8) ∧
    (let s := taken 4 0x30000 0 0 0 0 0 []; let k := packet 4 0x30000 0 0 0 0 0;
      (s.ring 0 7).pkts.find? (fun k => k.idx == 0 && k.type == 4 && !k.done) = some k ∧ (s.ring 0 7).stopped = false ∧ Legal k (ringCtx s 7) ∧ bits (k.word 1).toNat 63 52 = 0 ∧
      bits (k.word 1).toNat 11 0 = 0) ∧
    (let s := taken 5 2 0x0401 0 0 0 0 []; let k := packet 5 2 0x0401 0 0 0 0;
      duePkt s 0 7 0 5 = some k ∧ Legal k (ringCtx s 7) ∧ bits (k.word 1).toNat 5 0 = 2 ∧ (s.region 0 1).size ≠ 0#48 ∧ (s.region 0 4).size ≠ 0#48) ∧
    (let s := taken 6 0 0 0 0 0 0 []; duePkt s 0 7 0 6 = some (packet 6 0 0 0 0 0 0) ∧ Legal (packet 6 0 0 0 0 0 0) (ringCtx s 7) ∧ (cbW s 7 1).toNat = 0 ∧ slotRetired s 7 0 = false) ∧
    (let s := taken 7 0 0 0 0 0 0 []; duePkt s 0 7 0 7 = some (packet 7 0 0 0 0 0 0) ∧ Legal (packet 7 0 0 0 0 0 0) (ringCtx s 7) ∧ ¬ Legal (packet 7 0 0 0 0 0 0) 1) := by
  unfold Legal; decide +kernel

def cardMem : List (Nat × Nat) := [(0x10048, 16), (0x10050, 0x10100), (0x10058, 0x10200), (0x10060, 0x100), (0x10068, 16), (0x10070, 0x200), (0x10078, 16)]
theorem witness_PacketEvents_card : let s := taken 8 0x10040 0 0 0 0 0 cardMem; let k := packet 8 0x10040 0 0 0 0 0;
    duePkt s 0 7 0 8 = some k ∧ Legal k (ringCtx s 7) ∧ resolveSlot s 0 (k.word 1) = some ⟨0x10040, 0⟩ ∧
    (∀ j < 12, unitAccess s 0 .load { (⟨0x10040, 0⟩ : Val) with v := 0x10040#64 + BitVec.ofNat 64 (8 * j) } 8 = .ok (0x10040 + 8 * j)) ∧
    badCardDword (fun j => if j < 12 then Mem.dw s.mem (0x10040 + 8 * j) else 0#64) = none ∧ (takeCard s 0 { p := none, ctx := 0, at_ := {}, j := Vector.replicate 12 0 }).isSome = true ∧
    takeCard { s with dies := [(0, { cards := List.replicate 256 { p := none, ctx := 0, at_ := {}, j := Vector.replicate 12 0 } })] } 0 { p := none, ctx := 0, at_ := {}, j := Vector.replicate 12 0 } = none := by
  unfold Legal; decide +kernel

/-- A launch of one point from 0x8000000, its arguments at 0x10040. -/
def launching : State := taken 1 0x18000000000000 0 0 0 0 0 []
def launchAt (entry w5 w6 : Nat) : State := taken 1 entry 0x10040 0 0x10048 w5 w6 []
def launched (s : State) : Option Launch := match checkLaunch s 0 7 (((s.ring 0 7).pkts.headD (packet 0 0 0 0 0 0 0))) with | .ok l => some l | .error _ => none
def noLaunch (s : State) : Option NoLaunch := match checkLaunch s 0 7 (((s.ring 0 7).pkts.headD (packet 0 0 0 0 0 0 0))) with | .ok _ => none | .error e => some e

theorem witness_PacketEvents_launch :
    (let s := launchAt 0x10000008000000 0 0;
      (s.ring 0 7).pkts.find? (fun k => k.idx == 0 && k.type == 1 && !k.done) = some (packet 1 0x10000008000000 0x10040 0 0x10048 0 0) ∧ (s.ring 0 7).stopped = false ∧
      (s.die 0).launches = [] ∧ (launched s).isSome = true) ∧
    noLaunch (launchAt 0x10000008000002 0 0) = some (.err 5) ∧ noLaunch (launchAt 0x10000008000000 0 0x300) = some (.err 3) ∧
    noLaunch (taken 1 0x10000008000000 0x40000004000040 0 0x10048 0 0 []) = some (.away (.region 4)) ∧
    (packet 1 0 0 0 0 0 0).word0Ok 1 = false ∧ 7 < bits 0x8000000000000000 63 60 ∧ bits 0x300 9 8 = 3 := by decide +kernel

/-! ## Witnesses: admission, pairs -/

/-- Die 0 with that launch taken, and other things. -/
def withLaunch (f : Die → Die) (g : State → State) : State :=
  let s := launchAt 0x10000008000000 0 0
  g (s.updDie 0 (fun t => f { t with launches := (launched s).toList }))
def theGroup (st : GSt) (m : List Nat) : Group := { ring := 7, idx := 0, t := 0, st := st, members := m }
def withGroup (st : GSt) (m : List Nat) (ps : Tab Pair) : State :=
  withLaunch (fun t => { t with groups := [theGroup st m] }) (fun s => { s with pairs := ps, savepool := 0x10000000000000#64 })

theorem witness_AdmissionEvents :
    (puppeteerOn sA 0 = false ∧ puppeteerOn (withLaunch id id) 0 = true) ∧
    (∃ l, launched (launchAt 0x10000008000000 0 0) = some l ∧ (admitOrder ((withLaunch id id).die 0) = [] ++ l :: [] ∧ mayAdmit (withLaunch id id) 0 l = true ∧
      (findPlace (withLaunch id id) 0 l).isSome = true ∧ 0 < min l.cs (l.pts - l.cs * l.nextGroup 0) ∧ [0, 1].Nodup ∧ l.cs ≤ [0, 1].length)) ∧
    ((withLaunch (fun t => { t with launches := [] }) id).die 0).launches = [] ∧
    (let a := (withLaunch (fun t => { t with posta := 0x700000#64 }) id); (a.die 0).postings = [] ∧ (waitingLaunch a 0 (bits (a.die 0).posta.toNat 31 20)).isSome = true ∧
      bits (a.die 0).posta.toNat 63 32 = 0 ∧ bits (a.die 0).posta.toNat 19 10 = 0 ∧ (planAt a 0 0 1 1 1 false 0 0).isSome = true) := by
  refine ⟨by decide +kernel, Option.isSome_iff_exists.mp (by decide +kernel) |>.elim (fun l h => ⟨l, h, ?_⟩), by decide +kernel, by decide +kernel⟩
  have h2 : ∀ l ∈ launched (launchAt 0x10000008000000 0 0), admitOrder ((withLaunch id id).die 0) = [] ++ l :: [] ∧ mayAdmit (withLaunch id id) 0 l = true ∧
      (findPlace (withLaunch id id) 0 l).isSome = true ∧ 0 < min l.cs (l.pts - l.cs * l.nextGroup 0) ∧ [0, 1].Nodup ∧ l.cs ≤ [0, 1].length := by decide +kernel
  exact h2 l h

/-- Pair 0 with a fill running, and pair 1280, saved in area 0. -/
def fillingBank : Cluster := { banks := (Vector.replicate 4 {}).set 0 { st := .filling, owner := some 0 } }
theorem witness_AdmissionEvents_preempt :
    (let s := withGroup .running [0] [(0, pair0)];
      puppeteerOn s 0 = true ∧ (s.die 0).group 7 0 0 = some (theGroup .running [0]) ∧ (freeAreas s 1) = some [0] ∧ [0].Nodup ∧ (∃ m ∈ [0], (s.pair m).still = false) ∧
      (s.pair 0).st = .running ∧ (s.pair 0).lender = none ∧ fillsDone s 0 = true ∧ (s.pair 0).area = none ∧ fillsDone { s with clusters := [(0, fillingBank)] } 0 = false) ∧
    (let s := withGroup .saving [0] [(0, pair0)]; (s.die 0).group 7 0 0 = some (theGroup .saving [0])) ∧
    (let s := withGroup .saved [1280] [(1280, { pair0 with st := .saved, area := some 0, owned := [3] })];
      (s.die 0).group 7 0 0 = some (theGroup .saved [1280]) ∧ dieOf 1280 = 0 ∧ (s.pair 1280).back = .running ∧ (s.pair 1280).pl.last = 0 ∧
      Tab.get 0 (s.die 0).dbgOn (s.pair 1280).ctx.toNat = 0 ∧ scanOrder (s.die 0) = 0 :: (scanOrder (s.die 0)).tail ∧ restoreAt s (40 * 0 + 0) [1280] = some [(1280, 0, [0])] ∧
      Tab.risingFrom 0 s.pairs = true) := by decide +kernel

/-- Pair 0 posted for that launch. -/
def postedPair : State := withLaunch id (fun s => { s with pairs := [(0, { st := .posted, pl := { ring := 7 }, owned := [0, 1] })] })
theorem witness_PairStartAndCompletionEvents :
    ((sA.pair 0).st ≠ .posted) ∧
    (∃ l, (postedPair.die (dieOf 0)).launches.find? (fun l => l.ring == (postedPair.pair 0).pl.ring && l.idx == (postedPair.pair 0).pl.idx) = some l ∧
      ((postedPair.pair 0).st = .posted ∧ (∀ g ∈ (postedPair.pair 0).owned, g < 8 ∧ (postedPair.cluster (clusterOf 0)).lpr.getD g 7#3 = 7#3) ∧
        Tab.get 0 (postedPair.die (dieOf 0)).dbgOn (postedPair.pair 0).ctx.toNat = 0 ∧ (resolveSlot postedPair 0 (l.w.getD 1 0#64)).isSome = true ∧
        (resolveSlot postedPair 0 (l.w.getD 2 0#64)).isSome = true ∧ l.shareDone = false ∧ l.mine = 1 ∧ l.exited = 0)) ∧
    (∃ c : Cluster, c.lpr.getD 0 7#3 ≠ 7#3) ∧ Memory.wf postedPair.mem = true ∧ 0x20000 + 64 ≠ cbAddr postedPair 7 ∧ cbAddr postedPair 7 + 128 ≤ 0x20000 ∧
    (let c : Compl := { ring := 7, idx := 0, ctx := 0, sigs := 0x10048, inc := 1, scope := 4 };
      resolveSlot postedPair 0 c.sigs = some ⟨0x10048, 0⟩ ∧ slotMoving postedPair 0 c.sigs = false ∧ unitAccess postedPair 0 .atomic ⟨0x10048, 0⟩ 8 = .ok 0x10048 ∧ (postedPair.die 0).holdOn = false) := by
  refine ⟨by decide, ?_, ⟨{ lpr := (Vector.replicate 8 7#3).set 0 0#3 }, by decide⟩, by decide +kernel, by decide +kernel, by decide +kernel, by decide +kernel⟩
  refine Option.isSome_iff_exists.mp (by decide +kernel) |>.elim (fun l h => ⟨l, h, ?_⟩)
  have h2 : ∀ l ∈ (postedPair.die (dieOf 0)).launches.find? (fun l => l.ring == (postedPair.pair 0).pl.ring && l.idx == (postedPair.pair 0).pl.idx),
      (postedPair.pair 0).st = .posted ∧ (∀ g ∈ (postedPair.pair 0).owned, g < 8 ∧ (postedPair.cluster (clusterOf 0)).lpr.getD g 7#3 = 7#3) ∧
        Tab.get 0 (postedPair.die (dieOf 0)).dbgOn (postedPair.pair 0).ctx.toNat = 0 ∧ (resolveSlot postedPair 0 (l.w.getD 1 0#64)).isSome = true ∧
        (resolveSlot postedPair 0 (l.w.getD 2 0#64)).isSome = true ∧ l.shareDone = false ∧ l.mine = 1 ∧ l.exited = 0 := by decide +kernel
  exact h2 l h

/-! ## Witnesses: regions, moves, lane groups -/

/-- Die 0's Puppeteer at work, with context 0 and these pairs. -/
def tended (x : Ctx) (ps : Tab Pair) : State := { ctxs := [(0, x)], pairs := ps, dies := [(0, { jrnlSet := true, f0 := { on := true } })], savepool := 0x10000010000000#64 }
/-- An entry's bits: RESIDENT data of 0x1000 bytes at 0x200000 with read and write. -/
def entryBits : BitVec 256 := 0x00000000000010001820000000200000#256
def entryOf : Entry := { size := 0x1000#48, pr := true, pw := true, st := .resident, base := 0x200000#52 }
/-- Region r of context 0 in a state, and where an earlier move has sent it. -/
def ctxOf (r : Nat) (st : RSt) (nb : Tab Nat) (rel : List Reloc) : Ctx := { regions := [(r, dataR 0x10000 st)], nextBase := nb, relocs := rel }

theorem witness_RegionTableAndResidencyEvents :
    (anyPuppeteer (tended ctx0 []) = true ∧ anyPuppeteer sA = false ∧ EntryFields entryBits entryOf ∧ Admissible (tended ctx0 []) 0 2 entryOf) ∧
    ¬ Admissible (tended ctx0 []) 0 255 entryOf ∧
    ((sA.region 0 1).st = .resident ∧ (sA.region 0 2).st ≠ .resident ∧ (sA.region 0 2).st ≠ .evicting ∧ engineOn (tended ctx0 []) 0 1 = false ∧ admitted sA 0 = true ∧
      (sA.region 0 6).st = .evicting ∧ engineOn (tended ctx0 []) 0 6 = false ∧ engineOn (state .nobody { pair0 with streams := (Vector.replicate 16 {}).set 3 { st := .running } }) 0 0 = true) ∧
    (let s := { tended ctx0 [] with posted := [(0, 4, 1), (0, 4, 0)] };
     s.posted = [] ++ (0, 4, 1) :: [(0, 4, 0)] ∧ (s.region 0 4).st = .absent ∧ recorded s 0 4 = none ∧ baseRefused s 0 4 0x40000 = false ∧ baseRefused s 0 4 0x40001 = true) ∧
    ((sA.region 0 5).st = .arriving ∧ recorded sA 0 5 = none ∧ recorded (tended (ctxOf 5 .arriving [(5, 0x80000)] []) []) 0 5 = some 0x80000 ∧
      holdersParked (tended (ctxOf 5 .arriving [(5, 0x80000)] []) []) 0 5 = true ∧
      holdersParked (markHolders (tended (ctxOf 1 .arriving [(1, 0x80000)] []) [(0, pair0)]) 0 1) 0 1 = false) ∧
    (let s := trapped 7#10; Tab.risingFrom 0 s.pairs = true ∧ (s.pair 0).ctx.toNat = 0 ∧ (s.pair 0).st = .parked ∧ (s.pair 0).lent = [] ∧
      ((s.pair 0).thr (s.pair 0).trapK).tcause.toNat % 256 = 7 ∧ ((s.pair 0).thr (s.pair 0).trapK).tval.toNat = 0) := by
  refine ⟨⟨by decide +kernel, by decide +kernel, ?_, ?_⟩, ?_, by decide +kernel, by decide +kernel, by decide +kernel, by decide +kernel⟩
  · unfold EntryFields; decide +kernel
  · unfold Admissible; decide +kernel
  · exact fun h => h.1 rfl

/-- Pair 0 parked at safe points for the move of region 1. -/
def moving : Pair := { pair0 with movePend := [(0, 1)], a := { thr0 with halt := .move }, x := { thr0 with halt := .move } }
def theMove (ret : Bool) : Move := { ctx := 0, rgn := 1, old := 0x10000, new_ := 0x80000, step := 3, isReturn := ret }

theorem witness_MoveAndRetireEvents :
    ((sA.region 0 5).st = .arriving ∧ (sA.region 0 6).st = .evicting ∧ (sA.region 0 2).st = .retired ∧ (sA.region 0 3).st = .moving ∧ (sA.region 0 4).st = .absent) ∧
    (let s := tended (ctxOf 1 .resident [] []) []; baseRefused s 0 1 0x80000 = false ∧ relocsOk s 0 1 0x80000 = true ∧ baseRefused s 0 1 0x80001 = true) ∧
    (let s := tended (ctxOf 1 .resident [] [{ kind := 5, anchor := 0, target := 1, site := 1, off := 0, add := 0x10000 }]) []; relocsOk s 0 1 0x80000 = false) ∧
    (let s := tended (ctxOf 4 .absent [] []) []; baseRefused s 0 4 0x80000 = false ∧ relocsOk s 0 4 0x80000 = true) ∧
    (let s := { (tended (ctxOf 1 .moving [] []) [(0, { pair0 with movePend := [(0, 1)] })]).updDie 0 (fun t => { t with groups := [theGroup .running [0]] }) with
        moves := [theMove false] };
      0 ∈ holders s 0 1 ∧ marked s 0 1 = [0] ∧ puppeteerOn s (dieOf 0) = true ∧ Tab.risingFrom 0 s.pairs = true ∧ theMove false ∈ s.moves ∧ (s.pair 0).parkedFor 1 = false ∧ groupOf s 0 = some (theGroup .running [0]) ∧
      holdersParked s 0 1 = false) ∧
    (let s := { tended (ctxOf 1 .moving [] []) [(0, moving)] with moves := [theMove false] };
      s.moves.find? (fun m => m.ctx == 0 && m.rgn == 1 && !m.isReturn) = some (theMove false) ∧ (s.region 0 1).st = .moving ∧ engineOn s 0 1 = false ∧ holdersParked s 0 1 = true ∧
      (theMove false).new_ < 2 ^ 52 ∧ sitesOf s 0 1 = [] ∧ sitesOpen s 0 1 = [] ∧ farRange (theMove false).old 0x1000 = false ∧
      farRange (theMove false).new_ 0x1000 = false ∧ (∀ x ∈ s.pairs, x.2.ctx.toNat = 0 → x.2.area = none ∧ x.2.st ≠ .parked) ∧ (s.pair 0).movePend = [(0, 1)] ∧
      ((s.pair 0).thr .X).gens = [] ∧ ((s.pair 0).thr .X).halt = .move) ∧
    ((sA.region 0 1).kind = 1#2 ∧ (sA.region 0 0).kind ≠ 1#2 ∧ codeHeld sA 0 1 = true ∧ codeHeld (tended ctx0 []) 0 1 = false ∧ (sA.region 0 9).size = 0#48 ∧ (sA.region 0 1).size ≠ 0#48) := by
  decide +kernel

def lending : State := tended ctx0 [(0, { pair0 with st := .parked, a := { thr0 with tcause := 7#10 } }), (1, pair0)]
def returning (l : Option Nat) : State := tended ctx0 [(0, { pair0 with st := .parked, owned := [], lent := [0, 1], resume := some false }), (1, { pair0 with owned := [2], lender := l })]
theorem witness_LaneGroupEvents :
    (let s := tended ctx0 [(0, pair0)]; puppeteerOn s (dieOf 0) = true ∧ 0 < 1280 ∧ (s.pair 0).st = .running ∧ (s.pair 0).lastSet ≠ (List.range 8).filter (fun g => (7#8 : BitVec 8).getLsbD g) ∧
      (∀ g ∈ (List.range 8).filter (fun g => (7#8 : BitVec 8).getLsbD g), (s.cluster (clusterOf 0)).mask.getLsbD g = true) ∧ (s.pair 0).pend = false ∧ (posted []).pair 0 ≠ {} ∧ ((posted []).pair 0).pend = true) ∧
    (let q := lending.pair 0; puppeteerOn lending (dieOf 0) = true ∧ q.st = .parked ∧ (q.thr q.trapK).tcause.toNat % 256 = 7 ∧ q.owned ≠ [] ∧ q.lent = [] ∧ clusterOf 1 = clusterOf 0 ∧
      (lending.pair 1).st = .running ∧ (lending.pair 1).lender = none ∧ fillsDone lending 0 = true ∧ q.area = none ∧ freeArea lending = some 0 ∧ freeArea sA = none ∧ (lending.pair 1).pend = false) ∧
    (let s := returning (some 0); (s.pair 0).resume = some false ∧ (s.pair 0).lent ≠ [] ∧ (List.range 4).find? (fun k => (s.pair (0 / 4 * 4 + k)).lender == some 0) = some 1) ∧
    (let s := returning none; (∀ k < 4, (s.pair (0 / 4 * 4 + k)).lender ≠ some 0) ∧ (∀ k < 4, ∀ g ∈ (s.pair 0).lent, g ∉ (s.pair (0 / 4 * 4 + k)).owned) ∧
      Tab.risingFrom 0 s.pairs = true ∧ (∀ g ∈ (s.pair 0).lent, g < 8)) := by decide +kernel

/-! ## Witnesses: streams, fills, cards -/

theorem alone {q : Pair} {t : Stream} (h : ∀ u ∈ q.streams.toList, u.st = .queued ∨ u.st = .running ∨ u.st = .faulted → u.order = t.order) : MayStart q t :=
  fun u hu hs ho => absurd (h u hu hs) (by omega)
theorem meet {a b : Foot} (x : Nat) (h : a.k = b.k ∧ a.k ≠ 3 ∧ (a.k = 0 → a.rgn = b.rgn) ∧ a.off ≤ x ∧ x < a.off + a.len ∧ b.off ≤ x ∧ x < b.off + b.len) : Meet a b :=
  ⟨h.1, h.2.1, h.2.2.1, x, h.2.2.2⟩
/-- Stream 3 with a descriptor, in a state, with its places resolved. -/
def streamOf (l : List Nat) (st : SSt) (f : Stream → Stream) : State := state .nobody { pair0 with
  streams := (Vector.replicate 16 {}).set 3 (f { st := st, isDef := true, isBound := true, d := Vector.ofFn (fun i => BitVec.ofNat 64 (l.getD i.val 0)), srcAt := 0x10100, dstAt := 0x10200 }) }
/-- The same descriptor reading region 4, which is ABSENT, past its region, and into q0. -/
def awayD : List Nat := [0, 4, 0, 0, 0x40000000040100, 0x10200, 0x400000000000100, 4, 0x200, 4]
def pastD : List Nat := [0, 4, 0, 0, 0x10100, 0x10200, 0xFFD, 4, 0x200, 4]
def rowD : List Nat := [0x180, 4, 0, 0, 0x10100, 0, 0x100, 4, 0xC0000000000000, 0]

theorem witness_StreamStepEvents :
    ((((streamOf descriptor .queued id).pair 0).str 3).st = .queued ∧ MayStart ((streamOf descriptor .queued id).pair 0) (((streamOf descriptor .queued id).pair 0).str 3) ∧
      ((((streamOf descriptor .queued id).pair 0).str 3).regions = [0, 0] ∧ ((streamOf descriptor .queued id).region 0 0).st = .resident) ∧
      FootStarts (streamOf descriptor .queued id) 0 (((streamOf descriptor .queued id).pair 0).str 3).rf false ∧
      FootStarts (streamOf descriptor .queued id) 0 (((streamOf descriptor .queued id).pair 0).str 3).wf true ∧
      ¬ FootStarts (streamOf pastD .queued id) 0 (((streamOf pastD .queued id).pair 0).str 3).rf false) ∧
    (FirstGone (streamOf awayD .queued id) 0 (((streamOf awayD .queued id).pair 0).str 3).regions 4 ∧ (((streamOf awayD .queued id).region 0 3).st = .moving) ∧
      ((streamOf awayD .queued id).pair 0).st = .running ∧ ((streamOf awayD .queued id).pair 0).a.stallmax.toNat ≤ (((streamOf awayD .queued (fun t => { t with stalls := 4800 })).pair 0).str 3).stalls) ∧
    (let s := streamOf descriptor .running id; let st := (s.pair 0).str 3
      st.st = .running ∧ st.first < st.count ∧ badSide s 0 st = none ∧ st.dstk ≠ 3 ∧ locate s (clusterOf 0) (st.srcElem st.first) = .hbm 0x10100 ∧ locate s (clusterOf 0) (st.dstElem st.first) = .hbm 0x10200) ∧
    (let s := streamOf descriptor .running (fun t => { t with srcAt := 0x10104 }); let st := (s.pair 0).str 3; st.first < st.count ∧ badSide s 0 st = some 0x10104) ∧
    (let s := streamOf rowD .running (fun t => { t with port := 8#4, vls := 2 }); let st := (s.pair 0).str 3
      st.first < st.count ∧ badSide s 0 st = none ∧ st.dstk = 3 ∧ 8 ≤ st.port.toNat ∧ st.port.toNat < 12 ∧ st.row = none ∧ entsOf ((s.pair 0).q.getD 0 []) + rowEnts 2 8 2 ≤ 8 ∧ 8 < 8 + rowEnts 2 8 2) ∧
    (let s := streamOf descriptor .running (fun t => { t with first := 4, rel := true }); let st := (s.pair 0).str 3; st.st = .running ∧ st.count ≤ st.first ∧ st.rel = true) := by
  refine ⟨⟨by decide +kernel, alone ?_, by decide +kernel, ?_, ?_, ?_⟩, ⟨⟨[], [0], ?_⟩, by decide +kernel⟩, by decide +kernel, by decide +kernel, by decide +kernel, by decide +kernel⟩
  · decide +kernel
  · exact ⟨fun _ => by decide +kernel, fun h => absurd h (by decide +kernel)⟩
  · exact ⟨fun _ => by decide +kernel, fun h => absurd h (by decide +kernel)⟩
  · exact fun h => absurd (h.1 (by decide +kernel)).1 (by decide +kernel)
  · unfold Gone; decide +kernel
/-- A stream kept back by a MOVING region alone, one of a saved pair, and one whose port's X thread has ended. -/
theorem witness_StreamStepEvents_waits :
    (let s := streamOf [0, 4, 0, 0, 0x30000000030100, 0x10200, 0x300000000000100, 4, 0x200, 4] .queued id; let st := (s.pair 0).str 3
      (∃ r ∈ st.regions, (s.region 0 r).st ≠ .resident) ∧ (∀ r ∈ st.regions, ¬ Gone s 0 r)) ∧
    (¬ (({ pair0 with st := .saved } : Pair).st = .running ∨ ({ pair0 with st := .saved } : Pair).st = .parked)) ∧
    ({ thr0 with halt := .exited } : Thread).halt = .exited ∧ thr0.halt ≠ .exited := by unfold Gone; decide +kernel
theorem witness_StreamStepEvents_row : let q : Pair := { pair0 with q := (Vector.replicate 4 []).set 0 [{ vl := 2, wc := 1, act := [true, true], els := [5, 0], ready := false, id := 9 }] }
    ∃ row ∈ q.q.getD 0 [], row.id = 9 := ⟨_, .head _, rfl⟩
/-- A stream that may not start: an earlier one of its port has not released it. -/
theorem witness_StreamStepEvents_held : ∃ (q : Pair) (t : Stream), t.st = .queued ∧ ¬ MayStart q t :=
  ⟨{ streams := (Vector.replicate 16 {}).set 0 { st := .queued } }, { st := .queued, order := 1 }, rfl,
   fun h => absurd ((h { st := .queued } (by decide) (.inl rfl) (by decide)).1 rfl) (by decide)⟩

def filled (next : Option (Vector Word 4)) (st : BankSt) (h : Nat) : State :=
  { sA with clusters := [(0, { banks := (Vector.replicate 4 {}).set 1 { st := st, owner := some 0, h := ⟨#[BitVec.ofNat 64 h, 0, 0x100, 0], rfl⟩, next := next } })], mem := Mem.setLE [] Config.globalBase 1 1 }

theorem witness_WeightFillEvents :
    (((filled none .filling 0x10001000B).bank 0 1).owner = some 0 ∧ groupOf (filled none .filling 0x10001000B) 0 = none ∧ ((filled none .filling 0x10001000B).bank 0 1).st = .filling ∧
      (∀ r ∈ Hdr.ranges ((filled none .filling 0x10001000B).bank 0 1).h, wmBlocks ((filled none .filling 0x10001000B).pair 0) (Config.localBase + r.1) r.2 = none) ∧
      ((filled none .filling 0x10001000B).bank 0 1).next = none ∧ ((filled none .ready 0x10001000B).bank 0 1).st ≠ .filling ∧ (sA.bank 0 1).owner = none) ∧
    (((filled (some (Vector.replicate 4 0)) .ready 0).bank 0 1).next = some (Vector.replicate 4 0) ∧ ((filled (some (Vector.replicate 4 0)) .ready 0).bank 0 1).st ≠ .filling) ∧
    (Memory.wf (filled none .filling 0x10001000B).mem = true ∧ Hdr.valLen ((filled none .filling 0x10001000B).bank 0 1).h = 2) ∧
    (let h := ((filled none .filling 0x10004002B).bank 0 1).h; Hdr.sparse h = true ∧ 0 < Hdr.k h / 4 * Hdr.n h ∧ (0#8 : BitVec 8).toNat / 16 ^ 0 % 16 / 4 ≤ 0) := by decide +kernel

def jobCard : Card := { p := some 0, ctx := 0, at_ := ⟨0x40, 0⟩, j := ⟨#[0, 16, 0x10100, 0x10200, 0x100, 16, 0x200, 16, 0, 0, 0, 0], rfl⟩, srcAt := 0x10100, dstAt := 0x10200 }
def carded (c : List Card) : State := { sA with dies := [(0, { cards := c })] }

theorem witness_JobCardEvents :
    ((carded []).die 0).card 0 = none ∧ ((carded [jobCard]).die 0).card 0 = some jobCard ∧ jobCard.running = false ∧ (carded [jobCard]).die 0 ≠ {} ∧
    (∀ u ∈ ((carded [jobCard]).die 0).cards.take 0, u.ctx = jobCard.ctx → u.signing = false → ¬ Meet u.wf jobCard.rf ∧ ¬ Meet u.rf jobCard.wf ∧ ¬ Meet u.wf jobCard.wf) ∧
    Meet jobCard.wf jobCard.wf ∧ (∀ r ∈ jobCard.regions, ((carded [jobCard]).region 0 r).st = .resident) ∧
    cardFootOk (carded [jobCard]) 0 jobCard jobCard.rf false = true ∧ cardFootOk (carded [jobCard]) 0 jobCard jobCard.wf true = true ∧
    (let c := { jobCard with running := true }; let s := carded [c]
      c.running = true ∧ cardLimit s 0 c = (16, none) ∧ c.got = none ∧ (c.dw 0).getLsbD 12 = false ∧ c.kind ≠ 1 ∧ locate s (clusterOf (c.owner 0)) (c.srcAt + c.first) = .hbm 0x10100 ∧
      locate s (clusterOf (c.owner 0)) (c.dstAt + c.first) = .hbm 0x10200 ∧ cardLimit s 0 { c with dstAt := 0x1020F } = (1, some 0x10210) ∧ cardLimit s 0 { c with dstAt := 0x10210 } = (0, some 0x10210) ∧
      cardLimit s 0 { c with errAt := some (8, 0x10108) } = (8, some 0x10108)) ∧
    (let c : Word → Card := fun w => ({ jobCard with signing := true, j := jobCard.j.setIfInBounds 8 w } : Card);
      (signalAccess sA 0 (c 0x40000000040100#64)) = .wait 4 ∧ signalAccess sA 0 (c 0x10048#64) = .ok 0x10048 ∧ slotMoving sA 0 0x10048#64 = false ∧
      signalAccess sA 0 (c 0x1000000000010048#64) = .bad ∧ resolveSlot sA 0 0x1000000000010048#64 = none) ∧
    (let c := { jobCard with running := true }; let s := carded [c]
      c.reads s 0 = [0x10100] ∧ c.errAt = none ∧ c.asked = false ∧ c.done = none ∧ c.signing = false ∧ pieceEnd c 16 = 16) ∧
    ((sA.pair 0).a.halt ≠ .exited ∧ (sA.pair 0).ctx = jobCard.ctx ∧ (∀ p, ({ jobCard with p := none } : Card).p = some p → False)) := by
  refine ⟨by decide +kernel, by decide +kernel, by decide +kernel, by decide +kernel, fun _ h => absurd h (by simp), meet 0x200 (by decide +kernel), by decide +kernel, by decide +kernel,
    by decide +kernel, by decide +kernel, by decide +kernel, by decide +kernel, by decide +kernel, by decide +kernel, fun p h => by cases h⟩
theorem witness_JobCardEvents_away : (∃ r ∈ [0, 4, 0], (sA.region 0 r).st ≠ .resident) ∧ jobCard.faulted = false ∧
    (locate (carded [jobCard]) (40 * 0) (jobCard.addr (carded [jobCard]) + 88)).home = some 0x10098 ∧ cardFootOk sA 0 jobCard { k := 0, rgn := 0, off := 0xFF1, len := 16 } false = false :=
  ⟨⟨4, by decide, by decide⟩, rfl, by decide +kernel, by decide +kernel⟩

/-! ## Witnesses: caches, peers, host, interfaces, boot -/

theorem witness_CacheWaitAndSampleEvents : Memory.wf cachedA.mem = true ∧ (cachedA.cache 0).find? (fun c => c.1 == 0x401) = some (0x401, { data := 5#512, dirty := 1#64 }) ∧
    (∀ c ∈ cachedA.cache 0, c.1 ≠ 0x402) ∧ (∃ t : Thread, t.wait = .cue) ∧ thr0.wait ≠ .cue ∧
    (∃ s : State, bits (s.die 0).sampctl.toNat 1 0 = 2 ∧ s.cycle.toNat % 2 ^ (max (bits (s.die 0).sampctl.toNat 7 2) 12) = 0) ∧ bits (sA.die 0).sampctl.toNat 1 0 ≠ 2 :=
  ⟨by decide +kernel, by decide +kernel, by decide +kernel, ⟨{ wait := .cue }, rfl⟩, by decide, ⟨{ cycle := 0x2000#64, dies := [(0, { sampctl := 2#64 })] }, by decide⟩, by decide⟩

def open_ : State := { expap := 0x8000000000000000#64 }
def waiting (k : Kind) (tag op : Nat) : State := { sA with peers := [{ p := 0, k := k, addrs := [0x80000000000], op := op, size := 8, sent := [], tag := tag, who := some (.start 0) }] }
theorem witness_PeerEvents :
    (open_.expap.getLsbD 63 = true ∧ (bits open_.expap.toNat 51 33 * 2 ^ 33 + 0x1FFFFFFF8) % 8 = 0 ∧ bits open_.expap.toNat 51 33 * 2 ^ 33 + 0x1FFFFFFF8 + 8 ≤ bits open_.caphbm.toNat 51 0) ∧
    (sA.expap.getLsbD 63 = false) ∧ (addFormat 9 = true ∧ 4 * 8 = fmtWidth 9 ∧ (109#8 : BitVec 8).toNat = 100 + 9 ∧ addFormat ((255#8 : BitVec 8).toNat - 100) = false ∧ 12 ≤ (12#8 : BitVec 8).toNat) ∧
    (∃ r, (waiting .A 0 0).peers = [] ++ r :: [] ∧ r.p = 0 ∧ r.tag = 0 ∧ r.k = .A) ∧ (∃ r, (waiting .F 5 1).peers = [] ++ r :: [] ∧ r.tag = 2 + 3 ∧ r.op ≠ 0) ∧
    (∃ r, (waiting .F 1 0).peers = [] ++ r :: [] ∧ r.tag = 1) ∧ (∃ r, (waiting .F 97 0).peers = [] ++ r :: [] ∧ r.tag = 97) ∧
    (∃ r, (waiting .F 98 0).peers = [] ++ r :: [] ∧ r.tag = 98 ∧ r.who = some (.start 0)) ∧ (∃ r, (waiting .F 99 0).peers = [] ++ r :: [] ∧ r.tag = 99) ∧
    ({ asked := true } : Stream).asked = true ∧ ({} : Stream).asked = false ∧ (∃ r, (waiting .F 100 1).peers = [] ++ r :: [] ∧ r.tag = 100 + 0 ∧ r.op ≠ 0) ∧ (∃ r, (waiting .F 100 0).peers = [] ++ r :: [] ∧ r.tag = 100 + 0 ∧ r.op = 0) ∧
    ((carded [jobCard]).die (0 / 160)).card 0 = some jobCard ∧ sA.peers = [] :=
  ⟨by decide, by decide, by decide, ⟨_, rfl, by decide⟩, ⟨_, rfl, by decide⟩, ⟨_, rfl, by decide⟩, ⟨_, rfl, by decide⟩, ⟨_, rfl, by decide⟩, ⟨_, rfl, by decide⟩, rfl, rfl,
   ⟨_, rfl, by decide⟩, ⟨_, rfl, by decide⟩, by decide, rfl⟩

/-- Interface 3 in a state, with contexts 16 to 31, rings 64 to 79 and a carve-out at 0x1000000. -/
def vfIs (st : VfSt) : State :=
  let c : Vector Word 8 := ⟨#[0x100010, 0x1000000, 0x10000, 0, 0, 0, 0x100040, 0], rfl⟩
  { vfs := [(3, { st := st, nonce := 5#256, cfg := c, lcfg := c })], spdm := { session := some 1#32, ready := true, algs := true } }
theorem witness_HostWindowEvents :
    (∃ e ∈ (vfIs .locked).vfs, e.2.st ≠ .unlocked ∧ (e.2.lcfg.getD 1 0#64).toNat ≤ 0x100FFFF ∧ 0x100FFFF < (e.2.lcfg.getD 1 0#64).toNat + (e.2.lcfg.getD 2 0#64).toNat) ∧
    (0x10040 % 8 = 0 ∧ ¬ 0x10041 % 2 = 0 ∧ ((vfIs .error).vf 3).st = .error ∧ Tab.risingFrom 0 sA.ctxs = true ∧ bits sA.ctxcmd.toNat 33 32 ≠ 3) ∧
    (bits sA.caphbm.toNat 51 0 ≤ 0x1E000000000 ∧ ¬ bits sA.caphbm.toNat 51 0 ≤ 0x1DFFFFFFFFF ∧ sA.vfs = []) ∧ Memory.wf sA.mem = true ∧
    (3 ≠ 0 ∧ ((vfIs .run).vf 3).st ≠ .error ∧ bits (((vfIs .run).vf 3).lcfg.getD 6 0#64).toNat 11 0 ≤ 0x4F ∧
      0x4F < bits (((vfIs .run).vf 3).lcfg.getD 6 0#64).toNat 11 0 + bits (((vfIs .run).vf 3).lcfg.getD 6 0#64).toNat 27 16 ∧
      ¬ 0x50 < bits (((vfIs .run).vf 3).lcfg.getD 6 0#64).toNat 11 0 + bits (((vfIs .run).vf 3).lcfg.getD 6 0#64).toNat 27 16) ∧
    (bits 0x2001F 17 16 = 2 ∧ bits (((vfIs .run).vf 3).cfg.getD 0 0#64).toNat 9 0 ≤ bits 0x2001F 9 0 ∧
      bits 0x2001F 9 0 < bits (((vfIs .run).vf 3).cfg.getD 0 0#64).toNat 9 0 + bits (((vfIs .run).vf 3).cfg.getD 0 0#64).toNat 25 16) :=
  ⟨⟨_, .head _, by decide⟩, by decide, by decide, by decide, by decide, by decide⟩

theorem witness_InterfaceEvents : ((vfIs .unlocked).spdm.session.isSome = true ∧ (vfIs .unlocked).spdm.ready = true ∧ ((vfIs .unlocked).vf 3).st = .unlocked) ∧
    (((vfIs .locked).vf 3).st = .locked ∧ 4#256 ≠ ((vfIs .locked).vf 3).nonce) ∧ ((vfIs .run).vf 3).st = .run ∧ ((vfIs .error).vf 3).st ≠ .unlocked ∧
    (∃ w, ((vfIs .run).vf w).st = .locked ∨ ((vfIs .run).vf w).st = .run) ∧ (∀ w, (sA.vf w).st ≠ .locked ∧ (sA.vf w).st ≠ .run) ∧ Tab.risingFrom 0 sA.ctxs = true ∧
    (∀ e ∈ sA.ctxs, Tab.risingFrom 0 e.2.regions = true) ∧ Touch 0x10000 0x1000 0x10FFF 1 ∧
    Tab.risingFrom 0 (vfIs .run).vfs = true ∧ Tab.risingFrom 0 (vfIs .run).pairs = true ∧ Memory.wf (vfIs .run).mem = true ∧ sA.spdm.session = none ∧
    bits (((vfIs .run).vf 3).cfg.getD 0 0#64).toNat 9 0 ≤ 31 ∧ 31 < bits (((vfIs .run).vf 3).cfg.getD 0 0#64).toNat 9 0 + bits (((vfIs .run).vf 3).cfg.getD 0 0#64).toNat 25 16 :=
  ⟨by decide, by decide, by decide, by decide, ⟨3, by decide⟩, fun _ => ⟨by simp [sA, state, State.vf, Tab.get], by simp [sA, state, State.vf, Tab.get]⟩, by decide, by decide,
   by unfold Touch; decide, by decide⟩

theorem witness_AttestationEvents :
    ({ version := true, caps := true, algs := true } : Spdm).algs = true ∧ ({} : Spdm).version = false ∧ ({} : Spdm).caps = false ∧ ({} : Spdm).algs = false ∧
    ({ algs := true, lms := 2 ^ 20 } : Spdm).lms = 2 ^ 20 ∧ ({ algs := true, lms := 2 ^ 20 - 1 } : Spdm).lms + 1 = 2 ^ 20 ∧ ({ algs := true } : Spdm).lms + 1 < 2 ^ 20 ∧
    ({ session := some 1#32 } : Spdm).session = some 1#32 ∧ ({ session := some 1#32 } : Spdm).ready = false ∧ ({ session := some 1#32, ready := true } : Spdm).ready = true ∧
    68 < (69#8 : BitVec 8).toNat ∧ 69#8 ≠ 0xFF#8 ∧ (68#8 : BitVec 8).toNat ≤ 68 ∧ (sA.vf (68 - 5)).st = .unlocked ∧ ({ key0 := some 1#256 } : Ide).key0.isSome = true ∧ ({} : Ide).key1 = none := by decide

theorem witness_BootEvents : (∀ d < 8, BitVec.ofNat 8 (2 ^ d) ≠ 0#8) ∧ sA.mblen.toNat = 0 ∧ 0x40000 < ({ mblen := 0x40001#64 } : State).mblen.toNat ∧
    ({ mblen := 0x40000#64 } : State).mblen.toNat ≤ 0x40000 ∧ 0 < ({ mblen := 0x40000#64 } : State).mblen.toNat ∧ Memory.wf sA.mem = true := by decide

theorem witness_StepKeepsCanonicalForm : Canonical State.reset ∧ Canonical { cachedA with agenda := [], rota := [.thr 0 .A] } ∧ goesOn (step { cachedA with agenda := [], rota := [.thr 0 .A] }) = true := by
  unfold Canonical; decide +kernel

theorem witness_WordsLeaveRegionTables : encode (.addi 5#5 5#5 1#15) ≠ .none ∧ ∃ t, exec (.addi 5#5 5#5 1#15) sA = .next t := ⟨by decide, next_of (by decide)⟩

/-! ## Witnesses: what the statements of the Puppeteer, its journal and the peers assume -/

/-- Die 0's Puppeteer at work with a journal at 0x8000000, its record 5 in a state with an operation. -/
def journalled (st op : Nat) : State :=
  { dies := [(0, { jrnlSet := true, jrnl := 0x8000000#64, jseq := 6#64, f0 := { on := true } })], mem := memOf [(0x8000140, 5), (0x8000148, op + 256 * st)] }

theorem witness_JournalRecords : Memory.wf (journalled 1 4).mem = true ∧ Tab.risingFrom 0 (journalled 1 4).dies = true ∧ ((journalled 1 4).die 0).jrnlSet = true ∧
    ((journalled 1 4).die 0).lost = false ∧ (((journalled 1 4).die 0).fcore (if ((journalled 1 4).die 0).act then 1 else 0)).on = true ∧ (sA.die 0).jrnlSet = false ∧
    ((journalled 1 4).die 0).jopen = none ∧ ((openRecord (journalled 1 4) 0 { op := 1 }).die 0).jopen = some 6#64 ∧
    bits (Mem.getLE (journalled 1 4).mem 0x8000148 8) 7 0 = 4 ∧ bits (Mem.getLE (journalled 1 7).mem 0x8000148 8) 7 0 = 7 ∧
    (replayRecord 0 (journalled 1 7) 5).outbox = [.journal 0 5] ∧ (replay 0 (journalled 2 4)).mem = (journalled 2 4).mem ∧
    Mem.get (replay 0 (journalled 1 4)).mem 0x8000149 = 2#8 := by decide +kernel

theorem witness_RegisterWriteEvents_hold : (∃ x : Die, x.holdOn = true ∧ x.lost = false ∧ (x.fcore x.act.toNat).on = true ∧ x.jrnlSet = false) ∧
    (∃ x : Die, x.lost = true) ∧ (∃ n, ((vfIs .run).vf n).st = .run) ∧ ∀ n, (sA.vf n).st ≠ .locked ∧ (sA.vf n).st ≠ .run :=
  ⟨⟨{ holdOn := true, f0 := { on := true } }, by decide⟩, ⟨{ lost := true }, rfl⟩, ⟨3, by decide⟩, fun _ => ⟨by simp [sA, state, State.vf, Tab.get], by simp [sA, state, State.vf, Tab.get]⟩⟩

theorem witness_TrapAndCommandEvents_waits :
    (let s := { trapped 5#10 with dies := [(0, { jrnlSet := true, f0 := { on := true } })] };
      puppeteerOn s 0 = true ∧ bits s.ctxcmd.toNat 33 32 ≠ 3 ∧ (s.pair 0).st = .parked ∧ (s.pair 0).lent = []) ∧
    puppeteerOn (trapped 5#10) 0 = false ∧ bits ({ ctxcmd := 0x300000000#64 } : State).ctxcmd.toNat 33 32 = 3 ∧ (12#10 : BitVec 10).toNat % 256 = 12 := by decide +kernel

theorem witness_FirmwareTrapEntryAndReturn_lost : (∃ x : Die, x.spare = false ∧ x.f0.ftcause.getLsbD 8 = true) ∧ (sF.die 0).spare = true :=
  ⟨⟨{ spare := false, f0 := { ftcause := 0x100#9 } }, by decide⟩, by decide⟩

theorem witness_RingReadingEvents_runs : ringRuns (unread 0x10007 1 true) 7 = true ∧ ringRuns { sA with mem := memOf [(0x3A0, 0x100000000)] } 7 = false ∧
    Memory.wf (unread 0x10007 1 true).mem = true ∧ (cbW (unread 0x10007 1 true) 7 1).toNat ≤ ((unread 0x10007 1 true).ring 0 7).cursor ∧
    (∀ j ∈ ((unread 0x10007 1 true).ring 0 7).pkts, j.idx < ((unread 0x10007 1 true).ring 0 7).cursor) ∧ (nextPkt (unread 0x10007 1 true) 0 7).type ≤ 8 := by decide +kernel

/-- Region 8 of the context of ring 7 lies in a peer device. -/
def peered : State :=
  let s := taken 2 0x80080000000080 5 1 0 0 0 []
  { s with ctxs := [(0, { ctxR with regions := ctxR.regions ++ [(8, dataR 0x80000000000 .resident)] })], expap := 0x8000000000000000#64, devnum := 1#64 }

theorem witness_PacketEvents_fresh : let s := taken 2 0x10040 5 1 0 0 0 []
    unitDone s (.pkt 0 7 0) = none ∧ unitOut s (.pkt 0 7 0) = false ∧ ringHeld s 0 7 0 = false ∧ Memory.wf s.mem = true ∧
    (s.ring 0 7).pkts.find? (fun k => k.idx == 0 && !k.done) = some (packet 2 0x10040 5 1 0 0 0) ∧ ringHome s 7 = 0 ∧
    unitDone { s with unitGot := [(.pkt 0 7 0, 0x80000000000, none)] } (.pkt 0 7 0) = some false ∧
    unitDone { s with unitGot := [(.pkt 0 7 0, 0x80000000000, some 0#64)] } (.pkt 0 7 0) = some true ∧
    resolveSlot peered 0 0x80080000000080#64 = some ⟨0x80000000080, 8⟩ ∧ unitAccess peered 0 .atomic ⟨0x80000000080, 8⟩ 8 = .peer 0x80000000080 := by decide +kernel

/-- Die 0 with a launch whose next group does not fit, and a running group it exceeds by two. -/
theorem witness_AdmissionEvents_makeRoom : ∃ l ∈ launched (launchAt 0x10000008000000 0 0),
    let s := withLaunch (fun t => { t with launches := t.launches.map (fun l => { l with prio := 5 }), groups := [theGroup .running [0]] })
      (fun s => { s with clusters := (List.range 40).map (fun c => (c, { works := c = 0, lpr := Vector.replicate 8 0#3 })), pairs := [(0, pair0), (1, pair0), (2, pair0), (3, pair0)] })
    puppeteerOn s 0 = true ∧ (admitOrder (s.die 0)).find? (mayAdmit s 0) = some { l with prio := 5 } ∧
    (∀ l ∈ (s.die 0).launches, mayAdmit s 0 l = false ∨ findPlace s 0 l = none) ∧ (∀ g ∈ (s.die 0).groups, g.st ≠ .saving) ∧
    (∃ g ∈ (s.die 0).groups, g.st = .running ∧ g.prio + 2 ≤ ({ l with prio := 5 } : Launch).prioNow ∧ ∃ p ∈ g.members, usable s { l with prio := 5 } (clusterOf p) = true) :=
  Option.isSome_iff_exists.mp (by decide +kernel : (launched (launchAt 0x10000008000000 0 0)).isSome = true) |>.elim (fun l h => ⟨l, h,
    (by decide +kernel : ∀ l ∈ launched (launchAt 0x10000008000000 0 0),
      let s := withLaunch (fun t => { t with launches := t.launches.map (fun l => { l with prio := 5 }), groups := [theGroup .running [0]] })
        (fun s => { s with clusters := (List.range 40).map (fun c => (c, { works := c = 0, lpr := Vector.replicate 8 0#3 })), pairs := [(0, pair0), (1, pair0), (2, pair0), (3, pair0)] })
      puppeteerOn s 0 = true ∧ (admitOrder (s.die 0)).find? (mayAdmit s 0) = some { l with prio := 5 } ∧
      (∀ l ∈ (s.die 0).launches, mayAdmit s 0 l = false ∨ findPlace s 0 l = none) ∧ (∀ g ∈ (s.die 0).groups, g.st ≠ .saving) ∧
      (∃ g ∈ (s.die 0).groups, g.st = .running ∧ g.prio + 2 ≤ ({ l with prio := 5 } : Launch).prioNow ∧ ∃ p ∈ g.members, usable s { l with prio := 5 } (clusterOf p) = true)) l h⟩)

theorem witness_PairStartAndCompletionEvents_ready : waitsForStage postedPair 0 = false ∧ (postedPair.region 0 0).st ≠ .moving ∧
    unitAccess postedPair 0 .load ⟨0x10040, 0⟩ 8 = .ok 0x10040 ∧ slotMoving postedPair 0 (Mem.dw postedPair.mem 0x10040) = false ∧ slotMoving postedPair 0 0x10000008000000#64 = false ∧
    unitDone postedPair (.pkt 0 7 0) = none ∧ unitOut postedPair (.pkt 0 7 0) = false ∧ vfWithin postedPair 0 0 = true ∧ vfRuns postedPair 0 = true := by decide +kernel

/-- A region of class 1, the lowest, that nobody holds, and a request for one of class 2. -/
def evicting : State :=
  { tended { regions := [(4, { dataR 0x40000 .absent with ecl := 2#3 }), (9, { dataR 0x90000 .resident with ecl := 1#3 })] } [] with posted := [(0, 4, 0)] }

theorem witness_RegionTableAndResidencyEvents_evict : anyPuppeteer evicting = true ∧ evictChoice evicting 0 9 = true ∧ evictChoice evicting 0 4 = false ∧
    farRange 0x90000 0x1000 = false ∧ roomLeft evicting 2#3 = true ∧ roomLeft evicting 1#3 = false ∧
    evicting.kept = [] ∧ askedIn evicting 0 9 = false ∧ askedIn (waiting .A 0 0) 0 9 = false := by decide +kernel

theorem witness_MoveAndRetireEvents_kept : ({ evicting with kept := [(0, 9, 0x80000)] } : State).kept.any (fun k => k.1 == 0 && k.2.1 == 9) = true ∧
    meets 0x10000 0x1000 0x8000000 (64 * ((journalled 1 4).die 0).jCap) = false := by decide +kernel

theorem witness_LaneGroupEvents_within : vfWithin (postChange (tended ctx0 [(0, pair0)]) 0 [0, 1, 2]) 0 0 = true ∧ vfOf lending 0 = none := by decide +kernel

theorem witness_ScalarQueueWords_started : pair0.st ≠ .posted ∧ (postedPair.pair 0).st = .posted := by decide +kernel

theorem witness_StepRunsThreadWord_settled : (thr0.asked && thr0.reply.isNone && thr0.wait != .cue) = false ∧ thr0.enqAt = none := by decide

theorem witness_VectorAccessCompletes_acquire : ∃ f g : Flight, f.acq = false ∧ g.acq = true :=
  ⟨{ kind := .load 0 0, rgn := 0, w := 8, els := [] }, { kind := .load 0 0, rgn := 0, w := 8, els := [], acq := true }, rfl, rfl⟩

/-! ## The manual's example of where HBM bytes lie (R12), and of a journal record (R354) -/

theorem test_hbm_example : hbmPlace [] 0x12300 = { stack := 3, pch := 12, off := 0 } ∧ (hbmPlace [] 0x12300).die = 1 := by decide +kernel
theorem test_journal_example : JRec.d1 { op := 1, ctx := 0x2A, ring := 300, idx := 5 } 1 = 0x0000000512C0A901 := by decide +kernel

/-! ## Witnesses: what the clauses on `tret`, on a lost train and on the fast path assume -/

/-- Core 0 of die 0 names pair 0, which is parked with a cause. -/
def resuming (cause : BitVec 10) : State :=
  { core0 0#9 0x8000000000000000#64 with pairs := [(0, { pair0 with st := .parked, trapK := .A, a := { thr0 with tcause := cause } })] }

theorem witness_FirmwareTrapEntryAndReturn_resumes : Runs .tret (resuming 7#10) (.fcore 0 0) ∧ Runs .tret (resuming 8#10) (.fcore 0 0) ∧
    ((resuming 7#10).pair 0).st = .parked ∧ ((resuming 7#10).pair 0).lent = [] ∧ ((resuming 7#10).pair 0).a.tcause.toNat % 256 = 7 ∧
    ((resuming 8#10).pair 0).a.tcause.toNat % 256 = 8 ∧ ((resuming 7#10).pair 0).a.gens = [] :=
  ⟨runsF rfl (by decide), runsF rfl (by decide), by decide⟩

/-- The A thread of `sV` stands at `vstr`. -/
def scattering : State := { sV with mem := Mem.setLE sV.mem 0x100000 4 (match encode (.vstr 0#1 5#5 .pair .rlx false 2#3) with | .w32 w => w | _ => 0) }

theorem witness_TrapAndCommandEvents_train : atVstr scattering 0 = some (.vstr 0#1 5#5 .pair .rlx false 2#3) ∧
    ((vstrLost (.vstr 0#1 5#5 .pair .rlx false 2#3) (asThread scattering 0 .A) 1).map (·.2)) = some 0 ∧
    (vstrLost (.vstr 0#1 5#5 .pair .rlx false 2#3) (asThread scattering 0 .A) 2).isNone = true ∧ atVstr sA 0 = none := by decide +kernel

theorem witness_PacketEvents_fast : ∃ l ∈ launched (launchAt 0x10000008000000 0 0),
    let s := withLaunch (fun t => { t with quick := [(7, 0)] }) id
    let u := s.updDie 0 (fun t => { t with quick := t.quick.filter (fun e => e != (l.ring, l.idx)) })
    (l.ring, l.idx) ∈ (s.die 0).quick ∧ (s.die 0).holdOn = false ∧ l.next = 0 ∧ mayAdmit u 0 l = true ∧
    (findPlace u 0 l).any (fun x => x.2.all (fun x => x.2.2.all (groupSpare u x.1))) = true := by
  cases h : launched (launchAt 0x10000008000000 0 0) with
  | none => exact absurd h (by decide +kernel)
  | some l =>
    refine ⟨l, rfl, ?_⟩
    have : ∀ l ∈ launched (launchAt 0x10000008000000 0 0),
        let s := withLaunch (fun t => { t with quick := [(7, 0)] }) id
        let u := s.updDie 0 (fun t => { t with quick := t.quick.filter (fun e => e != (l.ring, l.idx)) })
        (l.ring, l.idx) ∈ (s.die 0).quick ∧ (s.die 0).holdOn = false ∧ l.next = 0 ∧ mayAdmit u 0 l = true ∧
        (findPlace u 0 l).any (fun x => x.2.all (fun x => x.2.2.all (groupSpare u x.1))) = true := by decide +kernel
    exact this l h

/-! ## Witnesses: the clauses that the statements gained -/

/-- Dirty lines to write back, a store that covers one byte of them, and a core with no line. -/
theorem witness_OrderedAccessResults_dirty : Tab.risingFrom 0 (cachedA.cache cachedA.core) = true ∧ Order.hasRel .rel = true ∧
    (∃ c ∈ (settleMe cachedA).cache cachedA.core, c.2.dirty.getLsbD 0 = true ∧ (64 * c.1 + 0 < 0x10041 ∨ 0x10041 + 8 ≤ 64 * c.1 + 0)) ∧
    Runs (.sto 5#5 6#5 .sys .rel 3#3) cachedA (.thr 0 .A) :=
  ⟨by decide, by decide, ⟨_, .head _, by decide +kernel⟩, runs rfl (by decide)⟩
theorem witness_SignalResults_dirty : Runs (.sigset 5#5 6#5 .cluster .rel) cachedA (.thr 0 .A) ∧ Runs .bar cachedA (.thr 0 .A) ∧ Runs .exit cachedA (.thr 0 .A) ∧
    Tab.risingFrom 0 (cachedA.cache cachedA.core) = true ∧ cachedA.thr.inBar = false ∧ enginesIdle cachedA 0 (fenceBegan cachedA) = true :=
  ⟨runs rfl (by decide), runs rfl (by decide), runs rfl (by decide), by decide⟩

theorem witness_WordsOfOtherAgentsTrap_kinds : (∃ w, encode (.qpushSq 6#5) = .w32 w) ∧ kindsOf 0x30 3 = [.X] ∧ kindsOf 0x30 0 = [.A] ∧ kindsOf 0x51 0 = [.F] := by
  exact ⟨⟨_, rfl⟩, rfl, rfl, rfl⟩

/-- The A thread with CUESIG naming region 0, then ABSENT region 4 past its end; and with no pair but it on its cluster, two groups spare. -/
def cueSig (w : Word) : State := state (.thr 0 .A) { pair0 with a := { thr0 with cuesig := w, x := regs [(10, ⟨0x4000000000000000, 255⟩), (6, ⟨3, 255⟩)] } }
theorem witness_CsrWords_cues : Runs (.csrw 5#5 10#5 0x023#12) (cueSig 0x8000000000000040#64) (.thr 0 .A) ∧ Runs (.csrs 5#5 10#5 0x023#12) (cueSig 0x8040000000001000#64) (.thr 0 .A) ∧
    (0x4000000000000000 &&& cueArmBits .A).testBit 62 = true ∧ (let e := (cueSig 0x8000000000000040#64).region 0 0; (e.base.toNat + 0x40) % 8 = 0 ∧ e.pr = true ∧ e.kind ≠ 3#2 ∧ 0x48 ≤ e.size.toNat) ∧
    ¬ 0x1000 + 8 ≤ ((cueSig 0).region 0 4).size.toNat ∧ (0 &&& cueArmBits .X).testBit 62 = false ∧ Runs (.csrs 5#5 6#5 0x00E#12) sA (.thr 0 .A) ∧ Runs (.csrc 5#5 6#5 0x00E#12) sX (.thr 0 .X) :=
  ⟨runs rfl (by decide), runs rfl (by decide), by decide, by decide, by decide, by decide, runs rfl (by decide), runs rfl (by decide)⟩
theorem witness_CsrWords_want : Runs (.csrw 5#5 6#5 0x00C#12) served (.thr 0 .A) ∧ puppeteerOn served (clusterOf 0 / 40) = true ∧ puppeteerOn sA (clusterOf 0 / 40) = false ∧
    vfOf served 0 = none ∧ (served.pair 0).holds = true ∧ (served.pair 0).st ≠ .posted ∧ (∀ j < 4, 4 * clusterOf 0 + j ≠ 0 → (served.pair (4 * clusterOf 0 + j)).holds = false) :=
  ⟨runs rfl (by decide), by decide⟩

/-- A scatter whose second element lies in host memory. -/
def hostScatter : State := state (.thr 0 .A) { pairV with a := { pairV.a with x := regs [(5, ⟨0x100000000040, 8⟩)] } }
theorem witness_ScatterAddResults_home :
    (∀ e < 2, ∃ l, checkPair sV 0 .A .atomic (mod64 ((sV.rx 5#5).v.toNat + [8, 0].getD e 0)) 4 (sV.rx 5#5).t (BitVec.ofNat 32 e) = .ok l ∧ l.isHost = false) ∧
    (∃ l, checkPair hostScatter 0 .A .atomic (mod64 ((hostScatter.rx 5#5).v.toNat + 8)) 4 (hostScatter.rx 5#5).t 0#32 = .ok l ∧ l.isHost = true) ∧
    Runs (.vsta 0#1 5#5 .pair .rlx 2#5) hostScatter (.thr 0 .A) ∧ 0 < 2 := by
  refine ⟨fun e he => ?_, ?_, runs rfl (by decide), by decide⟩
  · obtain rfl | rfl : e = 0 ∨ e = 1 := by omega
    all_goals exact (is_of (f := fun l : Loc => !l.isHost) (by decide)).imp (fun _ h => ⟨h.1, by simpa using h.2⟩)
  · exact is_of (f := fun l : Loc => l.isHost) (by decide)

theorem witness_RootsAndPowers : Exact (.fin true 3 (-1) false) ∧ qv (.fin true 3 (-1) false) < 0 ∧ 0 < qv (.fin false 3 (-1) false) ∧ qv (.fin false 1 (-3) false) = (2 : ℚ) ^ (-3 : ℤ) ∧
    qv (.fin true 2 1 false) = (-4 : ℤ) ∧ |qv (.fin false 1 (-1) false)| ≤ 32768 ∧ qv (.fin true 0 5 false) = 0 := by
  refine ⟨⟨_, _, _, rfl⟩, ?_, ?_, ?_, ?_, ?_, ?_⟩ <;> norm_num [qv, abs_of_pos]
/-- Half is no whole number, and three halves no power of two. -/
theorem witness_RootsAndPowers_inexact : (∀ n : ℤ, qv (.fin false 1 (-1) false) ≠ n) ∧ ∀ n : ℤ, qv (.fin false 3 0 false) ≠ (2 : ℚ) ^ n := by
  constructor
  · intro n h
    have h2 : ((2 * n : ℤ) : ℚ) = 1 := by push_cast; rw [← h]; norm_num [qv]
    have : 2 * n = 1 := by exact_mod_cast h2
    omega
  · intro n h
    have h3 : (2 : ℚ) ^ n = 3 := by rw [← h]; norm_num [qv]
    rcases lt_or_ge n 2 with hn | hn
    · have : (2 : ℚ) ^ n ≤ (2 : ℚ) ^ (1 : ℤ) := zpow_le_zpow_right₀ (by norm_num) (by omega)
      norm_num [h3] at this
    · have : (2 : ℚ) ^ (2 : ℤ) ≤ (2 : ℚ) ^ n := zpow_le_zpow_right₀ (by norm_num) hn
      norm_num [h3] at this
theorem witness_RoundingOverflowAndSpecials : ((0x0C, 0x7E, 0x7F, 0x7F) : Nat × Nat × Nat × Nat) ∈ ieeeRows ∧ decodeNum 0x0C 0x7E = .fin false 14 5 false ∧ decodeNum 0x0C 0x7D = .fin false 13 5 false ∧
    qv (.fin false 14 5 false) + (qv (.fin false 14 5 false) - qv (.fin false 13 5 false)) / 2 < |qv (.fin true 15 5 false)| ∧ ¬ qv (.fin false 14 5 false) + 16 < |qv (.fin true 29 4 false)| := by
  refine ⟨by decide, by decide, by decide, ?_, ?_⟩ <;> norm_num [qv, abs_of_neg]
theorem witness_RoundingToTapered : decodeNum 0x10 127 = .fin false 1 12 false ∧ decodeNum 0x10 1 = .fin false 1 (-12) false ∧ qv (.fin false 1 12 false) < |qv (.fin true 1 13 false)| ∧
    |qv (.fin false 1 (-13) false)| < qv (.fin false 1 (-12) false) ∧ qv (.fin false 1 (-12) false) ≤ |qv (.fin false 3 0 false)| := by
  refine ⟨by decide, by decide, ?_, ?_, ?_⟩ <;> norm_num [qv, abs_of_neg, abs_of_pos]

theorem witness_MatrixElementValue : (0 < 16) ∧ (Machine.Num.inf true ∈ [Machine.Num.inf true, .inf false]) ∧ (∃ x ∈ [Machine.Num.nan false], isNaN x = true) ∧
    (2 : ℚ) ^ (0 : ℤ) ≤ |qv (.fin true 3 (-1) false)| ∧ |qv (.fin true 3 (-1) false)| < (2 : ℚ) ^ ((0 : ℤ) + 1) ∧
    (let h := ((filled none .filling 0x10004002B).bank 0 1).h; Hdr.sparse h = true ∧ Hdr.valBits h = 16) := by
  refine ⟨by decide, .head _, ⟨_, .head _, rfl⟩, ?_, ?_, by decide +kernel⟩ <;> norm_num [qv, abs_of_neg]

theorem witness_BlockControlWords_rejoin : let fs : List Frag := [{ off := 24#52, f := 1#8192 }, { off := 32#52 }]
    (¬ (8 ≤ fs.length ∧ ∀ x ∈ fs, x.off ≠ 24#52)) ∧ fs.Pairwise (fun a b => a.off ≠ b.off) ∧ (∃ x ∈ fs, x.off = 24#52) ∧
    (∀ o, (o = 24#52 ∨ ∃ x ∈ fs, x.off = o) → (24#52 : BitVec 52).toNat ≤ o.toNat) := by
  refine ⟨by decide +kernel, by decide +kernel, ⟨_, .head _, rfl⟩, ?_⟩
  rintro o (rfl | ⟨x, hx, rfl⟩)
  · exact Nat.le_refl _
  · simp only [List.mem_cons, List.not_mem_nil, or_false] at hx
    rcases hx with rfl | rfl <;> decide

theorem witness_PairTrapEntry_served : Runs (.svc 0#20) served (.thr 0 .A) ∧ (∀ e ∈ served.thr.gens, e.2 = (served.region (served.pair 0).ctx.toNat e.1).gen.toNat) ∧
    (∀ e ∈ (lanesReady.pair 0).x.gens, e.2 = (lanesReady.region (lanesReady.pair 0).ctx.toNat e.1).gen.toNat) ∧ (lanesReady.pair 0).st ≠ .parked := by
  refine ⟨runs rfl (by decide), by decide, by decide, by decide⟩

theorem witness_DebuggerEvents_saved : (∃ q : Pair, q.st = .saved ∧ q.dbgSaved = true) ∧ (debugged.pair 2).dbgSaved = false := ⟨⟨{ st := .saved, dbgSaved := true }, rfl, rfl⟩, by decide⟩
/-- A pair whose A thread has trapped and then one of its blocks. -/
theorem witness_TrapAndCommandEvents_under : ∃ q : Pair, q.st = .parked ∧ q.trapBlk = true ∧ q.under = some { k := .A, cause := 5#10, val := 0#64, elem := 0#32 } :=
  ⟨{ st := .parked, trapBlk := true, under := some { k := .A, cause := 5#10, val := 0#64, elem := 0#32 } }, rfl, rfl, rfl⟩
theorem witness_RingReadingEvents_go : let s := onRing { known := true, stopped := true, go := true } []
    (s.die 0).kicks.getLsbD 7 = true ∧ ringRuns s 7 = true ∧ (s.ring 0 7).known = true ∧ (s.ring 0 7).go = true ∧ atLink (s.ring 0 7) = false ∧ (nextPkt s 0 7).type = 0 ∧
    ¬ (s.ring (ringHome s 7) 7).rejected < (s.ring 0 7).rejected ∧ (onRing { known := true, bar := 3 } []).ring 0 7 = { known := true, bar := 3 } := by decide +kernel
theorem witness_StreamStepEvents_place : let s := streamOf rowD .running (fun t => { t with port := 8#4, vls := 2, srcAt := 0x10104 }); let st := (s.pair 0).str 3
    badSide s 0 st = some 0x10104 ∧ st.dstk = 3 ∧ (s.pair 0).x.halt ≠ .exited ∧ st.row = none ∧ (openRow s 0 3).isSome = true ∧ (∀ r ∈ (s.pair 0).q.getD 0 [], r.id ≠ s.fresh) := by decide +kernel
theorem witness_WeightFillEvents_grouped : let s := { filled none .filling 0x10001000B with dies := [(0, { groups := [{ ring := 0, idx := 0, t := 0, members := [0] }] })] }
    (groupOf s 0).isSome = true ∧ (∀ g ∈ (s.die 0).groups, g.st ≠ .saving) ∧ (s.bank 0 1).owner = some 0 ∧ (s.pair 0).a.halt ≠ .debug := by decide +kernel
theorem witness_PeerEvents_nibble : (98#8 : BitVec 8) = 98#8 ∧ (1#4 : BitVec 4).toNat = 1 ∧ bits open_.expap.toNat 51 33 * 2 ^ 33 + 3 + 1 ≤ bits open_.caphbm.toNat 51 0 := by decide
/-- A bank of pair 0 and rows and blocks within what a save area takes. -/
theorem witness_SaveAreaImage : Fits (banked .ready (some 0)) 0 ∧ Memory.wf (banked .ready (some 0)).mem = true ∧ 3 < 16 ∧ Fits sV 0 := by
  unfold Fits; decide +kernel
theorem witness_MoveAndRetireEvents_room : canSaveForMove evicting 0 9 = true ∧ secondMove evicting 0 9 = [] := by decide +kernel

/-! ## The hash that measurements carry (FIPS 180-4: SHA-384 of "abc"), and Philox-4x32-10's published answer for zeros -/

theorem test_sha384 : natOf (digest [0x61#8, 0x62#8, 0x63#8]).reverse =
    0xCB00753F45A35E8BB5A03D699AC65007272C32AB0EDED1631A8B605A43FF5BED8086072BA1E7CC2358BAECA134C825A7 := by decide +kernel
theorem test_philox : [randomWord 0 0, randomWord 0 1, randomWord 0 2, randomWord 0 3] = [0x6627E8D5, 0xE169C58D, 0xBC57AC4C, 0x9B00DBD8] := by decide +kernel
end Sys2Proof.Tests
end

section
/-! SUPPORT. What the registers read right after reset, and where the bytes of HBM lie (R12, R323, R324, R355). -/

namespace Sys2Proof.Machine

/-! ## The registers right after reset -/

@[simp] theorem State.reset_cluster (c : Nat) : State.reset.cluster c = {} := rfl

/-- The low half of the clock register is MHz, below whatever temperature the die measures (R374). -/
theorem devRead_clock_reset (d : Nat) : bits (devRead State.reset d 0x20108).toNat 15 0 = 2400 := by
  have temp : (Config.temp d 0).toNat < 256 := (Config.temp d 0).isLt
  have read : devRead State.reset d 0x20108 = BitVec.ofNat 64 ((Config.temp d 0).toNat * 2 ^ 16 + 2400) := rfl
  rw [read, BitVec.toNat_ofNat, bits, Nat.shiftRight_zero]
  omega

/-- The registers that start at 0 (R259, R303, R331, R346, R351, R362), in the order of their offsets. -/
theorem devRead_zero_reset (d o : Nat)
    (h : o ∈ [0x100, 0x300, 0x1000, 0x1008, 0x1010, 0x1018, 0x1020, 0x1028, 0x1040, 0x1048, 0x1050, 0x1058, 0x2000, 0x2010, 0x2018, 0x20000, 0x20008, 0x20010]) :
    devRead State.reset d o = 0#64 := by
  revert o
  simp only [List.forall_mem_cons]
  exact ⟨rfl, rfl, rfl, rfl, rfl, rfl, rfl, rfl, rfl, rfl, rfl, rfl, rfl, rfl, rfl, rfl, rfl, rfl, List.forall_mem_nil _⟩

/-- A cluster right after reset has given its lane groups to nobody: LPR reads 7 (R164). -/
theorem lpr_reset (c : Nat) {g : Nat} (h : g < 8) : (State.reset.cluster c).lpr.getD g 0#3 = 7#3 := by
  simp [Vector.getD, h]

/-! ## The working pseudo-channels -/

theorem workingPch_nil : workingPch [] = List.range 4608 := List.filter_true _

theorem workingCount_eq_length (dead : List Nat) : workingCount dead = (workingPch dead).length := by
  cases dead with
  | nil => rw [workingPch_nil, List.length_range]; rfl
  | cons c dead => exact if_neg Bool.false_ne_true

/-- Below their number, the n-th working pseudo-channel is the n-th of the rising list of them. -/
theorem nthPch_eq_getD (dead : List Nat) {n : Nat} (h : n < workingCount dead) : nthPch dead n = (workingPch dead).getD n 0 := by
  cases dead with
  | nil =>
    have h' : n < 4608 := h
    simp [workingPch_nil, nthPch, h']
  | cons c dead => exact if_neg Bool.false_ne_true

theorem bits_40_8 (a : Nat) : bits a 40 8 = a / 256 % 2 ^ 33 := by
  rw [bits, Nat.shiftRight_eq_div_pow]

/-- R12 with the working pseudo-channels listed. -/
theorem hbmPlace_eq (dead : List Nat) (a : Nat) (h : workingCount dead ≠ 0) :
    let w := workingCount dead
    let g := a / 256 % 2 ^ 33
    let c := (workingPch dead).getD ((g % w + 97 * (g / w)) % w) 0
    hbmPlace dead a = { stack := c % 24, pch := c / 24, off := g / w * 256 + a % 256 } := by
  intro w g c
  have c_eq : nthPch dead ((g % w + 97 * (g / w)) % w) = c := nthPch_eq_getD dead (Nat.mod_lt _ (Nat.pos_of_ne_zero h))
  rw [← c_eq, hbmPlace, bits_40_8]

/-- With every pseudo-channel at work, within the size of HBM. -/
theorem hbmPlace_whole (a : Nat) (h : a < 0x1E000000000) :
    let g := a / 256
    let c := (g % 4608 + 97 * (g / 4608)) % 4608
    hbmPlace [] a = { stack := c % 24, pch := c / 24, off := g / 4608 * 256 + a % 256 } := by
  have g_eq : bits a 40 8 = a / 256 := by rw [bits_40_8]; omega
  show hbmPlace [] a = _
  rw [← g_eq]
  rfl

end Sys2Proof.Machine

namespace Sys2Proof.Claims

open Sys2Proof.Machine

theorem resetValues : ResetValues := by
  have fwstat_reset : fwstat {} = 2#64 := by decide
  exact ⟨fun d _ => ⟨rfl, rfl, devRead_clock_reset d, rfl, fwstat_reset, devRead_zero_reset d⟩, fun _ _ => ⟨rfl, rfl⟩, fun _ => rfl,
    fun c _ h => lpr_reset c h, fun _ => rfl, rfl, fun _ => ⟨rfl, rfl, rfl⟩⟩

theorem hbmMapping : HbmMapping := by
  refine ⟨fun dead a => ?_, hbmPlace_whole, by decide, by decide, by decide, by decide⟩
  have list_eq : (List.range 4608).filter (fun c => decide (c ∉ dead)) = workingPch dead := by
    rw [workingPch]
    congr 1
    funext c
    simp [List.contains_eq_mem]
  simp only [list_eq, ← workingCount_eq_length]
  refine ⟨rfl, fun some_ => ⟨hbmPlace_eq dead a some_, ?_⟩⟩
  rw [hbmPlace_eq dead a some_]
  rfl

theorem resetIsCanonical : ResetIsCanonical :=
  ⟨rfl, rfl, rfl, rfl, rfl, rfl, rfl, rfl, fun _ h => absurd h List.not_mem_nil⟩

/-- Settles O58: the registers as the fields of the empty state read, the byte map from the list of working pseudo-channels, and the
canonical form of tables that are all empty. -/
theorem resetState : Obligations.ResetState := ⟨resetValues, hbmMapping, resetIsCanonical⟩

end Sys2Proof.Claims
end

section
/-! SUPPORT. Refutation of O38. One clause of `RegisterWriteEvents` lets die d be any number: the end of a take-over on a die without a journal,
with nothing held and no pair parked, is to leave memory alone. `giveAll d` then posts the changes of the pairs from 160·d on; from
d = 8 on these are keys of saved pairs, and `dieOf` takes them for pairs of die d mod 8, whose Puppeteer may be at work and journals
what it posts (R354). -/

namespace Sys2Proof.Machine

/-- A take-over ends on "die 8", which no part has. Die 0 has its journal at 0x4000 and its Puppeteer works; a saved pair, under the
first key above the 1,280 places, has a partition change that waits to be posted. -/
def strayTakeover : State :=
  { dies := [(0, { jrnlSet := true, jrnl := 0x4000#64, f0 := { on := true } }), (8, { holdOn := true, f0 := { on := true } })]
    pairs := [(1280, { st := .saved, later := [[0]] })] }

theorem exec_fwstatHoldClear (d : Nat) (s : State) : exec (.fwstatHoldClear d) s = .next (standIn d s) := rfl

theorem strayTakeover_unparked (p : Nat) : (strayTakeover.pair p).st ≠ .parked := by
  unfold strayTakeover State.pair Tab.get
  split
  · simp
  · split <;> simp [Tab.get]

/-- D1 of the record of the posted change (OP 2, R353) stands in the journal of die 0, where memory was zero. -/
theorem strayTakeover_journals : Mem.get strayTakeover.mem 0x4008 = 0#8 ∧ Mem.get (standIn 8 strayTakeover).mem 0x4008 = 2#8 := by
  decide +kernel

end Sys2Proof.Machine

namespace Sys2Proof.Claims

open Sys2Proof.Machine Sys2Proof.Safety

/-- The end of the take-over in `strayTakeover` changes memory. -/
theorem not_sameMem_strayTakeover : ¬ SameMem strayTakeover (standIn 8 strayTakeover) := by
  intro same
  obtain ⟨before, after⟩ := strayTakeover_journals
  have read := same 0x4008
  rw [before, after] at read
  exact absurd read (by decide)

/-- Refutes O38: the clause on a take-over that ends with nothing held does not ask for d < 8. In `strayTakeover` it ends on die 8; that
posts the change of the saved pair 1280, for which die 0 writes a record into its journal, so that memory does not stay the same. -/
theorem not_registerWriteEvents : ¬ Obligations.RegisterWriteEvents := by
  unfold Obligations.RegisterWriteEvents
  intro h
  obtain ⟨-, -, -, -, -, -, -, -, -, -, -, holdClears, -⟩ := h strayTakeover 8 0#64
  obtain ⟨t, run, -, -, -, quiet⟩ := holdClears rfl rfl rfl
  rw [exec_fwstatHoldClear] at run
  have same : SameMem strayTakeover t := (quiet rfl rfl rfl strayTakeover_unparked).1
  rw [← Host.Outcome.next.inj run] at same
  exact not_sameMem_strayTakeover same

end Sys2Proof.Claims
end

section
/-! SUPPORT. Refutations of O46, O47 and O49, each with the state that refutes it. A pair that starts while its access core still holds a
line of which some bytes are written has them written back (R104), so that memory does not stay the same. While a take-over of one die waits
for its replay, no operation of the whole package is done, but the pairs of another die go on all the same. And a record written into memory
that is not in canonical form can uncover an entry outside the journal. -/

namespace Sys2Proof.Machine

theorem exec_pairStart (p : Nat) (s : State) : exec (.pairStart p) s = .next (pairStart p s) := rfl
theorem exec_regionTableUpdate (c : BitVec 10) (r : BitVec 8) (b : BitVec 256) (s : State) :
    exec (.regionTableUpdate c r b) s = .next (takeKept (resumeReady (regionTableUpdate c r b s))) := rfl

/-! ## A pair that starts on a core with a partly written line -/

/-- A launch of one take group of one pair: its entry and its argument block lie at the start of region 0. -/
def oneGroup : Launch :=
  { ring := 0, idx := 0, ctx := 0#10, at_ := 0x2000, w := Vector.replicate 8 0#64, span := 1#8, n0 := 1, n1 := 1, n2 := 1, stages := 1, lg := 1, slip := 1,
    csz := 0, sym := 0, sign := false, scope := 0, shift := 0, inc := 0, prio := 0, matrix := false, indep := false, pts := 1, mine := 1 }

/-- Pair 0 is posted for that launch, and the access core it is to start on holds a line of which byte 64 alone has been written. -/
def staleLine : State :=
  { pairs := [(0, { st := .posted })]
    dies := [(0, { launches := [oneGroup] })]
    ctxs := [(0, { regions := [(0, { size := 0x1000#48, pr := true, st := .resident })] })]
    caches := [(0, [(1, { data := 1#512, dirty := 1#64 })])] }

/-- Byte 64, which was 0, is written back as the pair starts. -/
theorem staleLine_writes : Mem.get staleLine.mem 64 = 0#8 ∧ Mem.get (pairStart 0 staleLine).mem 64 = 1#8 := by decide +kernel

/-! ## A pair that goes on while another die's take-over waits for its replay -/

/-- The firmware of die 0 has just been taken over and has yet to replay its journal; the Puppeteer of die 1 works, and pair 160 there is
parked for a swap fault on region 5, which is RESIDENT. -/
def takeoverElsewhere : State :=
  { dies := [(0, { jrnlSet := true, replayDue := true, f0 := { on := true } }), (1, { jrnlSet := true, f0 := { on := true } })]
    pairs := [(160, { st := .parked, a := { tcause := 7#10, tval := 5#64 } })]
    ctxs := [(0, { regions := [(5, { st := .resident })] })] }

theorem takeoverElsewhere_stopsAll : anyPuppeteer takeoverElsewhere = false := by decide +kernel

/-- An update of a region is not done, but pair 160 is resumed after it. -/
theorem takeoverElsewhere_resumes :
    (takeoverElsewhere.pair 160).st = .parked ∧ ((takeKept (resumeReady (regionTableUpdate 0#10 0#8 0#256 takeoverElsewhere))).pair 160).st = .running := by
  decide +kernel

/-! ## A record in memory that is not in canonical form -/

/-- The journal of die 0 lies at 0x4000. Memory lists a byte of its first record before address 3, so that address 3 reads as 0. -/
def looseMemory : State :=
  { mem := [(0x4010, 1#8), (3, 7#8)], dies := [(0, { jrnlSet := true, jrnl := 0x4000#64, f0 := { on := true } })] }

/-- The record of a partition change writes a zero over that byte, and address 3 reads as 7. -/
theorem looseMemory_uncovers : Mem.get looseMemory.mem 3 = 0#8 ∧ Mem.get (postChange looseMemory 0 []).mem 3 = 7#8 := by decide +kernel

end Sys2Proof.Machine

namespace Sys2Proof.Claims

open Sys2Proof.Machine Sys2Proof.Safety

theorem not_sameMem_staleLine : ¬ SameMem staleLine (pairStart 0 staleLine) := by
  intro same
  obtain ⟨before, after⟩ := staleLine_writes
  have read := same 64
  rw [before, after] at read
  exact absurd read (by decide)

/-- Refutes O46: the clause on the start of a pair lets the caches be any. In `staleLine` a line of the pair's access core is partly
written; the start writes it back and drops it, so that memory does not stay the same. -/
theorem not_pairStartAndCompletionEvents : ¬ Obligations.PairStartAndCompletionEvents := by
  unfold Obligations.PairStartAndCompletionEvents
  intro h
  obtain ⟨-, -, starts, -⟩ := h staleLine 0 0 0#12 0 oneGroup
  obtain ⟨-, started⟩ := starts rfl rfl (by decide) rfl rfl (by decide) ⟨0#64, 0#8⟩ ⟨0#64, 0#8⟩ rfl rfl rfl rfl
  obtain ⟨t, run, same, -⟩ := started 0 (by decide +kernel) (by decide +kernel)
  rw [exec_pairStart] at run
  rw [← Host.Outcome.next.inj run] at same
  exact not_sameMem_staleLine same

/-- Refutes O47: the clause on what is done while no Puppeteer works for the package has an update of a region leave everything as it is.
In `takeoverElsewhere` the take-over of die 0 waits for its replay, so that the update is not done, but the Puppeteer of die 1 works and
resumes pair 160, whose region is there. -/
theorem not_regionTableAndResidencyEvents : ¬ Obligations.RegionTableAndResidencyEvents := by
  unfold Obligations.RegionTableAndResidencyEvents
  intro h
  obtain ⟨-, -, stopped, -⟩ := h takeoverElsewhere 0#10 0#8 0#256 0#52
  obtain ⟨quiet, -⟩ := stopped (by rw [takeoverElsewhere_stopsAll]; exact Bool.false_ne_true)
  rw [exec_regionTableUpdate] at quiet
  obtain ⟨parked, running⟩ := takeoverElsewhere_resumes
  rw [Host.Outcome.next.inj quiet, parked] at running
  exact absurd running (by decide)

/-- Refutes O49: the clause on a change that is posted at once does not ask that memory be in canonical form (`Memory.wf`). In
`looseMemory` it is not, and the record of the change uncovers the byte at address 3, outside the journal. -/
theorem not_laneGroupEvents : ¬ Obligations.LaneGroupEvents := by
  unfold Obligations.LaneGroupEvents
  intro h
  obtain ⟨-, posts, -⟩ := h looseMemory 0 0 0#8
  obtain ⟨journalled, -⟩ := posts rfl rfl
  have same : Mem.get (postChange looseMemory 0 []).mem 3 = Mem.get looseMemory.mem 3 := journalled 3 (.inl (by decide))
  obtain ⟨covered, uncovered⟩ := looseMemory_uncovers
  rw [covered, uncovered] at same
  exact absurd same (by decide)

end Sys2Proof.Claims
end

section
/-! SUPPORT. The words that pass a safe point or a wait (R18, R112, R113, R169, R172, R297, R298): the thread that has the turn after a
change of its own, what a safe point does when nothing or a move is due, and what an acquire of a region's range leaves. -/

namespace Sys2Proof

/-- Of two writes at a key the second alone counts. -/
theorem Tab.set_set {α : Type} (t : Tab α) (k : Nat) (v w : α) : Tab.set (Tab.set t k v) k w = Tab.set t k w := by
  induction t with
  | nil => simp [Tab.set]
  | cons e t ih =>
    obtain ⟨k', v'⟩ := e
    by_cases here : k = k'
    · simp [Tab.set, here]
    · by_cases before : k < k' <;> simp [Tab.set, here, before, ih]

end Sys2Proof

namespace Sys2Proof.Machine

open Sys2Proof.Safety Sys2Proof.Claims

theorem State.updThr_updThr (s : State) (p : Nat) (k : Kind) (f g : Thread → Thread) :
    (s.updThr p k f).updThr p k g = s.updThr p k (fun t => g (f t)) := by
  have once : ∀ q : Pair, ∀ t u : Thread, (q.setThr k t).setThr k u = q.setThr k u := fun q t u => by cases k <;> rfl
  rw [State.updThr, State.updThr_pair_self, Pair.setThr_thr, once]
  simp only [State.updThr, State.setPair, Tab.set_set]

/-! ## The thread that has the turn -/

section
variable {s : State} {p : Nat} {k : Kind} (hc : s.cur = .thr p k)
include hc

theorem State.me_of_cur : s.me = p := by simp [State.me, hc]
theorem State.meK_of_cur : s.meK = k := by simp [State.meK, hc]
theorem State.thr_of_cur : s.thr = (s.pair p).thr k := by rw [State.thr, State.me_of_cur hc, State.meK_of_cur hc]
theorem State.pc_of_cur : s.pc = s.thr.pc := by simp [State.pc, hc]
theorem State.rx_of_cur (r : XReg) : s.rx r = s.thr.rd r := by simp [State.rx, hc]

/-- A change of the thread that has the turn. -/
theorem State.thr_updThr (f : Thread → Thread) : (s.updThr p k f).thr = f s.thr := by
  rw [State.thr_of_cur (s := s.updThr p k f) hc, State.updThr_pair_self, Pair.setThr_thr, State.thr_of_cur hc]
theorem State.pc_updThr (f : Thread → Thread) : (s.updThr p k f).pc = (f s.thr).pc := by
  rw [State.pc_of_cur (s := s.updThr p k f) hc, State.thr_updThr hc]
theorem State.rx_updThr (f : Thread → Thread) (r : XReg) : (s.updThr p k f).rx r = (f s.thr).rd r := by
  rw [State.rx_of_cur (s := s.updThr p k f) hc, State.thr_updThr hc]

theorem State.retire_of_cur : s.retire = s.updThr p k (fun t => t.retireAt s.nextPc) := by
  simp [State.retire, State.retireTo, hc, State.me, State.meK]

/-- A wait for the lanes or for a cue keeps the thread where it is (R300). -/
theorem State.stall_queueVec : s.stall .queueVec = s.updThr p k (fun t => { t with wait := .vec, onRgn := none }) := by
  simp [State.stall, hc, waitCls]
theorem State.stall_cue : s.stall .cue = s.updThr p k (fun t => { t with wait := .cue, onRgn := none }) := by
  simp [State.stall, hc, waitCls]

/-! ## The safe point (R18, R113) -/

theorem safePoint_nothingDue (due : NothingDue s p) (past : Bool) : safePoint s past = none := by
  obtain ⟨noMove, noSave, noStop⟩ := due
  have stands : (s.pair p).dbgPend = 1 ∨ (s.pair p).dbgPend = 3 → s.thr.atSafe = true := fun asks =>
    noStop.resolve_left fun ⟨no1, no3⟩ => asks.elim no1 no3
  simpa [safePoint, hc, noMove, noSave] using stands

theorem safePoint_move (due : (s.pair p).movePend ≠ []) (past : Bool) : safePoint s past = some (haltAt s .move false) := by
  simp [safePoint, hc, due]

/-- The thread as it parks for a move (R18 step 1, R309). -/
def parkedThread (s : State) (q : Pair) (t : Thread) : Thread := { t with halt := .move, gens := genRecord s q t, wait := .other }

theorem haltAt_move : haltAt s .move false = s.updThr p k (parkedThread s (s.pair p)) := by
  rw [haltAt, if_neg Bool.false_ne_true, State.me_of_cur hc, State.meK_of_cur hc]
  congr 1
  funext t
  simp [parkedThread]

end

theorem onlyPair_updThr (s : State) (p : Nat) (k : Kind) (f : Thread → Thread) : OnlyPair s (s.updThr p k f) p :=
  ⟨rfl, rfl, fun _ ne => State.updThr_pair_ne s k f ne⟩

/-! ## Vector accesses that an A thread performs before its own (R127) -/

theorem purgeCore_pairs (s : State) (core a n : Nat) : (purgeCore s core a n).pairs = s.pairs ∧ (purgeCore s core a n).cur = s.cur := by
  unfold purgeCore; split <;> exact ⟨rfl, rfl⟩
theorem invalidateClean_pairs (s : State) (core : Nat) : (invalidateClean s core).pairs = s.pairs ∧ (invalidateClean s core).cur = s.cur := by
  unfold invalidateClean; split <;> exact ⟨rfl, rfl⟩
theorem invalidateRange_pairs (s : State) (core a n : Nat) :
    (invalidateRange s core a n).pairs = s.pairs ∧ (invalidateRange s core a n).cur = s.cur := by
  unfold invalidateRange; split <;> exact ⟨rfl, rfl⟩

/-- From s to t every thread is as before, and the same agent has the turn. -/
def SameThreads (s t : State) : Prop := t.cur = s.cur ∧ ∀ p k, (t.pair p).thr k = (s.pair p).thr k

theorem SameThreads.refl (s : State) : SameThreads s s := ⟨rfl, fun _ _ => rfl⟩
theorem SameThreads.trans {s t u : State} (a : SameThreads s t) (b : SameThreads t u) : SameThreads s u :=
  ⟨b.1.trans a.1, fun p k => (b.2 p k).trans (a.2 p k)⟩
theorem SameThreads.of_pairs {s t : State} (h : t.pairs = s.pairs ∧ t.cur = s.cur) : SameThreads s t :=
  ⟨h.2, fun p k => by rw [State.pair, State.pair, h.1]⟩
theorem SameThreads.foldl {α : Type} (f : State → α → State) (same : ∀ s x, SameThreads s (f s x)) (l : List α) (s : State) :
    SameThreads s (l.foldl f s) := by
  induction l generalizing s with
  | nil => exact .refl s
  | cons x t ih => exact (same s x).trans (ih (f s x))
/-- A change of a pair that keeps both of its threads. -/
theorem SameThreads.updPair (s : State) (p : Nat) (f : Pair → Pair) (keeps : ∀ q, (f q).a = q.a ∧ (f q).x = q.x) : SameThreads s (s.updPair p f) := by
  refine ⟨rfl, fun p' k => ?_⟩
  rw [State.updPair, State.setPair_pair]
  split
  · rename_i eq; subst eq
    cases k <;> simp [Pair.thr, keeps]
  · rfl

theorem sameThreads_purgeSome (w : Elem → Bool) (core : Nat) (els : List Elem) (s : State) :
    SameThreads s (els.foldl (fun s e => if w e then purgeCore s core e.a e.n else s) s) := by
  refine SameThreads.foldl _ (fun s e => ?_) els s
  split
  · exact .of_pairs (purgeCore_pairs ..)
  · exact .refl s

theorem perform_sameThreads (s : State) (p : Nat) (f : Flight) : SameThreads s (perform s p f) := by
  unfold perform
  split
  · refine .trans ?_ (.updPair _ _ _ fun q => ⟨rfl, rfl⟩)
    refine .trans ?_ (sameThreads_purgeSome (fun e => e.v.isNone && decide (e.a < Config.hbmTop)) _ _ _)
    split
    · exact .of_pairs (invalidateClean_pairs ..)
    · exact .refl s
  · have purged := sameThreads_purgeSome (fun e => decide (e.a < Config.hbmTop)) (coreOf p .A) f.els s
    simp only [decide_eq_true_eq] at purged
    exact purged.trans (.of_pairs ⟨rfl, rfl⟩)

theorem land1_sameThreads (s : State) (p : Nat) : SameThreads s (land1 s p) := by
  unfold land1
  split
  · exact .refl s
  · next rest _ => exact (SameThreads.updPair s p (fun q => { q with flights := rest }) fun _ => ⟨rfl, rfl⟩).trans (perform_sameThreads ..)

theorem settleMe_sameThreads (s : State) : SameThreads s (settleMe s) := by
  unfold settleMe settle
  split
  · exact .foldl _ (fun s _ => land1_sameThreads s _) _ s
  · exact .refl s

/-- What the turn's thread is after a state with the same threads. -/
theorem SameThreads.thr_eq {s t : State} (same : SameThreads s t) {p : Nat} {k : Kind} (hc : s.cur = .thr p k) : t.thr = s.thr := by
  rw [State.thr_of_cur (same.1.trans hc), State.thr_of_cur hc, same.2]

/-! ## An acquire of a region's range (R104, R112) -/

/-- What is left in the core of the range has been written whole. -/
theorem invalidateRange_cache (s : State) (core a n : Nat) (c : Nat × Line) (left : c ∈ (invalidateRange s core a n).cache core) :
    c.2.dirty = BitVec.allOnes 64 ∨ 64 * c.1 + 64 ≤ a ∨ a + n ≤ 64 * c.1 := by
  unfold invalidateRange at left
  split at left
  · rename_i none_
    rw [List.isEmpty_iff.mp none_] at left
    exact absurd left List.not_mem_nil
  · simp only [State.setCache_cache_self, List.mem_filter, Bool.not_eq_true', Bool.and_eq_false_iff, decide_eq_false_iff_not, bne_eq_false_iff_eq] at left
    obtain ⟨-, (above | below) | whole⟩ := left
    · exact .inr (.inr (by omega))
    · exact .inr (.inl (by omega))
    · exact .inl whole

end Sys2Proof.Machine

namespace Sys2Proof.Claims

open Sys2Proof.Machine Sys2Proof.Safety

/-! ## The words -/

section
variable {s : State} {p : Nat} {k : Kind}

theorem exec_safept_done (run : Runs .safept s (.thr p k)) (due : NothingDue s p) : exec .safept s = .next s.retire := by
  obtain ⟨hc, issues⟩ := run
  show execSafept s = _
  rw [execSafept, scalar_issues _ _ _ issues, safePoint_nothingDue hc due, finish_ok]

theorem exec_yield_done (run : Runs .yield s (.thr p k)) (due : NothingDue s p)
    (stays : groupOf s p = none ∨ ∀ g, groupOf s p = some g → wantsPlace s p g = false) : exec .yield s = .next s.retire := by
  obtain ⟨hc, issues⟩ := run
  show execYield s = _
  rw [execYield, scalar_issues _ _ _ issues, finish_ok, yieldRun, safePoint_nothingDue hc due, State.me_of_cur hc]
  cases group : groupOf s p with
  | none => rfl
  | some g =>
    have keeps : wantsPlace s p g = false := (stays.resolve_left (by simp [group])) g group
    simp [keeps]

theorem noCue_of_outside (i : Instr) (out : s.thr.incue = false) : noCue i s = .ok () := by simp [noCue, out]

theorem exec_park (run : Runs .park s (.thr p k)) (due : NothingDue s p) (out : s.thr.incue = false) :
    exec .park s = .next (if s.thr.cuevec.getLsbD 63 = false ∨ s.thr.cuearm = 0#64 then s.retire
      else (s.updThr p k (fun t => { t with parkWait := true })).stall .cue) := by
  obtain ⟨hc, issues⟩ := run
  show execPark s = _
  rw [execPark, scalar_issues _ _ _ issues, parkRun, noCue_of_outside _ out]
  simp only [safePoint_nothingDue hc due, State.me_of_cur hc, State.meK_of_cur hc, Bool.or_eq_true, Bool.not_eq_true', beq_iff_eq]
  split <;> rfl

theorem exec_setrc (n : BitVec 4) (run : Runs (.setrc n) s (.thr p k)) :
    exec (.setrc n) s = .next (s.updThr p k (fun t => { t with rc := n })).retire := by
  obtain ⟨hc, issues⟩ := run
  show execSetrc n s = _
  rw [execSetrc, scalar_issues _ _ _ issues, finish_ok, State.me_of_cur hc, State.meK_of_cur hc]

theorem exec_vwait (run : Runs .vwait s (.thr p k)) :
    exec .vwait s = .next (if (s.pair p).blocks = [] then s.retire else s.stall .queueVec) := by
  obtain ⟨hc, issues⟩ := run
  show execVwait s = _
  rw [execVwait, scalar_issues _ _ _ issues, State.me_of_cur hc]
  simp only [List.isEmpty_iff]
  split <;> rfl

/-- A thread that waits where it stands, its registers as they were. -/
theorem waits_updThr (hc : s.cur = .thr p k) (f : Thread → Thread) (stays : (f s.thr).pc = s.thr.pc) (keeps : ∀ j, (f s.thr).rd j = s.thr.rd j) :
    OnlyPair s (s.updThr p k f) p ∧ (s.updThr p k f).pc = s.pc ∧ ∀ j, (s.updThr p k f).rx j = s.rx j :=
  ⟨onlyPair_updThr s p k f, by rw [State.pc_updThr hc, stays, State.pc_of_cur hc], fun j => by rw [State.rx_updThr hc, keeps, State.rx_of_cur hc]⟩

theorem exec_park_waits (run : Runs .park s (.thr p k)) (due : NothingDue s p) (out : s.thr.incue = false) (vec : s.thr.cuevec.getLsbD 63 = true)
    (armed : s.thr.cuearm ≠ 0#64) :
    ∃ t, exec .park s = .next t ∧ OnlyPair s t p ∧ t.pc = s.pc ∧ t.thr.parkWait = true ∧ ∀ j, t.rx j = s.rx j := by
  have hc := run.1
  let wait : Thread → Thread := fun t => { t with parkWait := true, wait := .cue, onRgn := none }
  have parks : exec .park s = .next (s.updThr p k wait) := by
    rw [exec_park run due out, if_neg (by simp [vec, armed]), State.stall_cue (s := s.updThr p k _) hc, State.updThr_updThr]
  obtain ⟨only, pc, regs⟩ := waits_updThr hc wait rfl (fun _ => rfl)
  exact ⟨_, parks, only, pc, by rw [State.thr_updThr hc], regs⟩

theorem exec_setrc_sets (n : BitVec 4) (run : Runs (.setrc n) s (.thr p k)) :
    ∃ t, exec (.setrc n) s = .next t ∧ OnlyPair s t p ∧ t.thr = { s.thr with rc := n }.retireAt s.nextPc ∧ (t.pair p).blocks = (s.pair p).blocks := by
  have hc := run.1
  let set_ : Thread → Thread := fun t => { t with rc := n }
  have same : (s.updThr p k set_).nextPc = s.nextPc := by rw [State.nextPc, State.nextPc, State.pc_updThr hc, State.pc_of_cur hc]
  have sets : exec (.setrc n) s = .next (s.updThr p k (fun t => (set_ t).retireAt s.nextPc)) := by
    rw [exec_setrc n run, State.retire_of_cur (s := s.updThr p k _) hc, State.updThr_updThr, same]
  exact ⟨_, sets, onlyPair_updThr .., State.thr_updThr hc _, by simp⟩

theorem exec_vwait_waits (run : Runs .vwait s (.thr p k)) (full : (s.pair p).blocks ≠ []) : ∃ t, exec .vwait s = .next t ∧ OnlyPair s t p ∧ t.pc = s.pc := by
  have hc := run.1
  rw [exec_vwait run, if_neg full, State.stall_queueVec hc]
  obtain ⟨only, pc, -⟩ := waits_updThr hc (fun t => { t with wait := .vec, onRgn := none }) rfl (fun _ => rfl)
  exact ⟨_, rfl, only, pc⟩

theorem exec_racq_resident (r : BitVec 8) (run : Runs (.racq r) s (.thr p k)) (tagged : r ≠ 255#8)
    (there : (s.region (s.pair p).ctx.toNat r.toNat).size ≠ 0#48) (resident : (s.region (s.pair p).ctx.toNat r.toNat).st = .resident) :
    exec (.racq r) s = .next (invalidateRange (settleMe s) s.core (s.region (s.pair p).ctx.toNat r.toNat).base.toNat
      (s.region (s.pair p).ctx.toNat r.toNat).size.toNat).retire := by
  obtain ⟨hc, issues⟩ := run
  show execRacq r s = _
  rw [execRacq, scalar_issues _ _ _ issues, racqRun, State.me_of_cur hc]
  simp [tagged, there, resident]

theorem exec_racq_traps (r : BitVec 8) (run : Runs (.racq r) s (.thr p k)) (bad : r = 255#8 ∨ (s.region (s.pair p).ctx.toNat r.toNat).size = 0#48 ∨
    (s.region (s.pair p).ctx.toNat r.toNat).st = .retired) : exec (.racq r) s = .next (s.trap 0x05#8 (BitVec.ofNat 64 r.toNat) 0#32) := by
  obtain ⟨hc, issues⟩ := run
  show execRacq r s = _
  rw [execRacq, scalar_issues _ _ _ issues, racqRun, State.me_of_cur hc, if_pos bad, trapR, finish_trap, BitVec.ofNat_toNat]

/-- What an acquire of a range at n bytes from a leaves, once the A thread's vector accesses have been performed. -/
theorem acquired (hc : s.cur = .thr p k) (wf : Memory.wf s.mem = true) (a n : Nat) :
    let t := (invalidateRange (settleMe s) s.core a n).retire
    WrittenBack (settleMe s) t s.core ∧ (∀ j, t.rx j = s.rx j) ∧ t.pc = s.nextPc ∧
      ∀ c ∈ t.cache s.core, c.2.dirty = BitVec.allOnes 64 ∨ 64 * c.1 + 64 ≤ a ∨ a + n ≤ 64 * c.1 := by
  intro t
  let u := invalidateRange (settleMe s) s.core a n
  have same : SameThreads s u := (settleMe_sameThreads s).trans (.of_pairs (invalidateRange_pairs ..))
  have hu : u.cur = .thr p k := same.1.trans hc
  have pc : u.pc = s.pc := by rw [State.pc_of_cur hu, same.thr_eq hc, State.pc_of_cur hc]
  have regs : ∀ j, u.rx j = s.rx j := fun j => by rw [State.rx_of_cur hu, same.thr_eq hc, State.rx_of_cur hc]
  have t_eq : t = u.updThr p k (fun th => th.retireAt u.nextPc) := State.retire_of_cur hu
  rw [t_eq]
  refine ⟨(invalidateRange_mem (settleMe s) s.core a n (settleMe_wf s wf)).2, fun j => ?_, ?_, invalidateRange_cache (settleMe s) s.core a n⟩
  · rw [State.rx_updThr hu, Thread.rd_retireAt, ← State.rx_of_cur hu, regs]
  · rw [State.pc_updThr hu, Thread.retireAt_pc, State.nextPc, pc]; rfl

theorem exec_parks (i : Instr) (run : Runs i s (.thr p k)) (due : (s.pair p).movePend ≠ [])
    (safe : i = .safept ∨ i = .yield ∨ (i = .park ∧ s.thr.incue = false) ∨ ∃ d a b blk lmul sew, i = .setvl d a b blk lmul sew ∧ s.thr.incue = false) :
    exec i s = .next (s.updThr p k (parkedThread s (s.pair p))) := by
  obtain ⟨hc, issues⟩ := run
  rw [← haltAt_move hc]
  rcases safe with rfl | rfl | ⟨rfl, out⟩ | ⟨d, a, b, blk, lmul, sew, rfl, out⟩
  · show execSafept s = _
    rw [execSafept, scalar_issues _ _ _ issues, safePoint_move hc due, finish_ok]
  · show execYield s = _
    rw [execYield, scalar_issues _ _ _ issues, yieldRun, safePoint_move hc due, finish_ok]
  · show execPark s = _
    rw [execPark, scalar_issues _ _ _ issues, parkRun, noCue_of_outside _ out]
    simp only [safePoint_move hc due, finish_ok]
  · show execSetvl d a b blk lmul sew s = _
    rw [execSetvl, scalar_issues _ _ _ issues, noCue_of_outside _ out]
    simp only [safePoint_move hc due, finish_ok]

end

theorem safePointWords : SafePointWords := by
  intro s p k n r _ due done e
  refine ⟨fun run => exec_safept_done run due, fun run => exec_yield_done run due, fun run out idle => ?_,
    fun run out vec armed => exec_park_waits run due out vec armed, exec_setrc_sets n, fun run empty => ?_, exec_vwait_waits,
    fun run tagged there resident wf => ?_, exec_racq_traps r⟩
  · rw [exec_park run due out, if_pos idle]
  · rw [exec_vwait run, if_pos empty]
  · exact ⟨_, exec_racq_resident r run tagged there resident, acquired run.1 wf e.base.toNat e.size.toNat⟩

theorem safePointParksForMove : SafePointParksForMove := by
  intro i s p k run _ due safe
  have hc := run.1
  obtain ⟨only, pc, regs⟩ := waits_updThr hc (parkedThread s (s.pair p)) rfl (fun _ => rfl)
  refine ⟨_, exec_parks i run due safe, only, ?_, pc, ?_, ?_, regs⟩ <;> rw [State.thr_updThr hc] <;> rfl

/-- Settles O15: with nothing due a safe point lets its word go on, and a word that waits changes its own thread alone; with a move due every
safe point ends in the same change of the thread, its park. -/
theorem safePointResults : Obligations.SafePointResults := ⟨safePointWords, safePointParksForMove⟩

end Sys2Proof.Claims
end

section
/-! SUPPORT. What leaves a core's cache, what a sample records, and what passes between peers (R19, R104, R253, R337, R363): the evicted
line, the operations a device performs for a peer, and who an answer reaches. -/

namespace Sys2Proof.Machine

open Sys2Proof.Safety Sys2Proof.Claims

/-! ## An evicted line (R104) -/

theorem exec_dataCacheLineEviction_absent {s : State} {core line : Nat} (absent : ∀ c ∈ s.cache core, c.1 ≠ line) :
    exec (.dataCacheLineEviction core line) s = .next s := by
  have none_ : (s.cache core).find? (fun c => c.1 == line) = none := by simpa using fun a b mem => absent (a, b) mem
  show execDataCacheLineEviction core line s = _
  rw [execDataCacheLineEviction, none_]

/-- The state once line l has left a core's cache, its written bytes at home. -/
def evicted (s : State) (core line : Nat) (l : Line) : State := (s.setMem (flushLine s.mem line l)).setCache core (Tab.del (s.cache core) line)

theorem exec_dataCacheLineEviction_held {s : State} {core line : Nat} {c : Nat × Line}
    (held : (s.cache core).find? (fun c => c.1 == line) = some c) : exec (.dataCacheLineEviction core line) s = .next (evicted s core line c.2) := by
  show execDataCacheLineEviction core line s = _
  rw [execDataCacheLineEviction, held]
  rfl

theorem mem_del {α : Type} {t : Tab α} {k : Nat} {e : Nat × α} : e ∈ Tab.del t k ↔ e ∈ t ∧ e.1 ≠ k := by simp [Tab.del]

theorem evicted_cache (s : State) (core line : Nat) (l : Line) :
    (evicted s core line l).cache core = Tab.del (s.cache core) line ∧ ∀ core', core' ≠ core → (evicted s core line l).cache core' = s.cache core' :=
  ⟨State.setCache_cache_self .., fun core' ne => by rw [evicted, State.setCache_cache, if_neg ne]; rfl⟩

theorem evicted_mem (s : State) (core line : Nat) (l : Line) (wf : Memory.wf s.mem = true) (x : Nat) :
    Mem.get (evicted s core line l).mem x = if x / 64 = line ∧ l.dirty.getLsbD (x % 64) = true then l.byte (x % 64) else Mem.get s.mem x :=
  flushLine_get s.mem line l wf x

/-! ## Samples (R337) -/

theorem exec_sampleCycles (d : Nat) (s : State) : exec (.sampleCycles d) s =
    .next (if bits (s.die d).sampctl.toNat 1 0 = 2 ∧ s.cycle.toNat % 2 ^ (max (bits (s.die d).sampctl.toNat 7 2) 12) = 0 then
      (s.pairs.filter (fun e => decide (e.1 < 1280) && decide (dieOf e.1 = d) && decide (e.2.st = .running) && decide (e.2.x.halt ≠ .exited))).foldl
        (fun s e => threadSlate s e.1 .X 2 [e.2.slipS, e.2.slipV, e.2.slipM, e.2.slipO]) s else s) := by
  have counts : (fun e : Nat × Pair => decide (e.1 < 1280) && decide (dieOf e.1 = d) && decide (e.2.st = .running) && decide (e.2.x.halt ≠ .exited)) =
      fun e => decide (e.1 < 1280) && dieOf e.1 == d && counting e.2 := by
    funext e
    simp [counting, Bool.and_assoc, bne, beq_eq_decide]
  rw [counts]
  rfl

/-! ## What a device performs for a peer (R19, R363) -/

/-- A peer's request of n bytes at a is one that the open aperture serves. -/
def Served (s : State) (a n : Nat) : Prop :=
  s.expap.getLsbD 63 = true ∧ (n = 1 ∨ n = 2 ∨ n = 4 ∨ n = 8) ∧ a % n = 0 ∧ a + n ≤ bits s.caphbm.toNat 51 0

theorem served_iff (s : State) (a n : Nat) : (s.expap.getLsbD 63 && (n == 1 || n == 2 || n == 4 || n == 8) && decide (a % n = 0) &&
    decide (a + n ≤ bitsW s.caphbm 51 0)) = true ↔ Served s a n := by
  simp only [Bool.and_eq_true, Bool.or_eq_true, beq_iff_eq, decide_eq_true_eq, and_assoc, or_assoc]
  rfl

section
variable (s : State) (op : Byte) (off : BitVec 33) (size : BitVec 4) (val cmp : Word)

/-- Where in HBM an offset within the aperture for peers lies (R19). -/
def exportAt : Nat := bits s.expap.toNat 51 33 * 2 ^ 33 + off.toNat

theorem exec_peerRequest_unserved (closed : ¬ Served s (exportAt s off) size.toNat) :
    exec (.peerRequest op off size val cmp) s = .next (s.send (.peerReply false 0#64)) := by
  show execPeerRequest op off size val cmp s = _
  rw [execPeerRequest, if_pos]
  rw [Bool.not_eq_true', ← Bool.not_eq_true]
  exact fun guard => closed ((served_iff ..).mp guard)

theorem exec_peerRequest_served (open_ : Served s (exportAt s off) size.toNat) : exec (.peerRequest op off size val cmp) s =
    .next ((peerPerform s op.toNat (exportAt s off) size.toNat val.toNat cmp.toNat).elim (s.send (.peerReply false 0#64))
      (fun done => done.2.send (.peerReply true (BitVec.ofNat 64 done.1)))) := by
  show execPeerRequest op off size val cmp s = _
  rw [execPeerRequest, if_neg]
  · show _ = Host.Outcome.next (Option.elim (peerPerform s op.toNat (bitsW s.expap 51 33 * 2 ^ 33 + off.toNat) size.toNat val.toNat cmp.toNat) _ _)
    cases peerPerform s op.toNat (bitsW s.expap 51 33 * 2 ^ 33 + off.toNat) size.toNat val.toNat cmp.toNat <;> rfl
  · rw [Bool.not_eq_true', Bool.not_eq_false]
    exact (served_iff ..).mpr open_

end

section
variable (s : State) {op n : Nat} (a b cmp : Nat)

/-- A peer's operation that leaves v at a, and answers what was there. -/
def left (a n v : Nat) : Option (Nat × State) := some (Mem.getLE s.mem a n, s.setMem (Mem.setLE s.mem a n v))

theorem peerPerform_read : peerPerform s 0 a n b cmp = some (Mem.getLE s.mem a n, s) := rfl
theorem peerPerform_write : peerPerform s 1 a n b cmp = left s a n b := rfl
theorem peerPerform_bits : peerPerform s 98 a 1 b cmp = left s a 1 ((Mem.getLE s.mem a 1 &&& (255 - cmp % 256)) ||| (b &&& cmp % 256)) := rfl
theorem peerPerform_atomic (m : Nat) (member : m < 10) (wide : n = 4 ∨ n = 8) :
    peerPerform s (2 + m) a n b cmp = left s a n (amoNew m n (Mem.getLE s.mem a n) (b % 256 ^ n) (cmp % 256 ^ n)) := by
  have no : 2 + m ≠ 1 ∧ 2 + m ≠ 98 ∧ 2 + m < 12 := by omega
  obtain ⟨noWrite, noBits, atomic⟩ := no
  simp [peerPerform, peerRead, peerWrite, peerBits, noWrite, noBits, atomic, wide, left]
theorem peerPerform_narrow (low : 2 ≤ op) (high : op < 12) (narrow : n < 4) : peerPerform s op a n b cmp = none := by
  have no : op ≠ 0 ∧ op ≠ 1 ∧ op ≠ 98 ∧ ¬ (n = 4 ∨ n = 8) := by omega
  obtain ⟨noRead, noWrite, noBits, noWidth⟩ := no
  simp [peerPerform, peerRead, peerWrite, peerBits, noRead, noWrite, noBits, high, noWidth]
theorem peerPerform_add (f : Nat) (ok : addFormat f = true) (whole : n * 8 = fmtWidth f) :
    peerPerform s (100 + f) a n b cmp = left s a n (addBits f (Mem.getLE s.mem a n) (b % 256 ^ n)).1 := by
  have no : 100 + f ≠ 1 ∧ 100 + f ≠ 98 ∧ ¬ 100 + f < 12 := by omega
  obtain ⟨noWrite, noBits, noAtomic⟩ := no
  simp [peerPerform, peerRead, peerWrite, peerBits, noWrite, noBits, noAtomic, ok, whole, left]
theorem peerPerform_unknown (unknown : (12 ≤ op ∧ op < 100 ∧ ¬ (op = 98 ∧ n = 1)) ∨ (100 ≤ op ∧ addFormat (op - 100) = false)) :
    peerPerform s op a n b cmp = none := by
  have no : op ≠ 0 ∧ op ≠ 1 ∧ ¬ op < 12 := by omega
  obtain ⟨noRead, noWrite, noAtomic⟩ := no
  rcases unknown with ⟨-, low, noBits⟩ | ⟨high, noAdd⟩
  · have noAdd : ¬ 100 ≤ op := by omega
    simp only [peerPerform, peerRead, peerWrite, peerBits, noRead, noWrite, noAtomic, noAdd, if_false, false_and]
    split
    · exact if_neg fun one => noBits ⟨‹_›, one⟩
    · rfl
  · have noBits : op ≠ 98 := by omega
    simp [peerPerform, peerRead, peerWrite, peerBits, noRead, noWrite, noBits, noAtomic, noAdd]

end

/-- The signed reading that the atomics compare by. -/
theorem signed_eq_sext (k n : Nat) : signed k n = sext k n := by
  unfold signed sext
  push_cast
  rfl

theorem amoNew_add (n old b cmp : Nat) : amoNew 0 n old b cmp = (old + b) % 256 ^ n := by
  show (old + b) % 2 ^ (8 * n) = _
  rw [Nat.pow_mul]
theorem amoNew_min (n old b cmp : Nat) : amoNew 4 n old b cmp = if sext (8 * n) old ≤ sext (8 * n) b then old else b := by
  rw [← signed_eq_sext, ← signed_eq_sext]
  rfl
theorem amoNew_max (n old b cmp : Nat) : amoNew 5 n old b cmp = if sext (8 * n) old ≤ sext (8 * n) b then b else old := by
  rw [← signed_eq_sext, ← signed_eq_sext]
  rfl

/-- A masked write of a byte leaves the bits that the mask names as written, and the others as they were (log 80). -/
theorem maskedByte (old val mask : Nat) :
    (old &&& (255 - mask % 256)) ||| (val &&& mask % 256) < 256 ∧
      ∀ j < 8, ((old &&& (255 - mask % 256)) ||| (val &&& mask % 256)).testBit j = if mask.testBit j then val.testBit j else old.testBit j := by
  have small : mask % 256 < 2 ^ 8 := Nat.mod_lt _ (by decide)
  refine ⟨?_, fun j low => ?_⟩
  · exact Nat.or_lt_two_pow (n := 8) (Nat.and_lt_two_pow _ (by omega)) (Nat.and_lt_two_pow _ small)
  · have bit : (mask % 256).testBit j = mask.testBit j := by
      rw [show 256 = 2 ^ 8 from rfl, Nat.testBit_mod_two_pow]; simp [low]
    have notBit : (255 - mask % 256).testBit j = !mask.testBit j := by
      rw [show 255 - mask % 256 = 2 ^ 8 - (mask % 256 + 1) by omega, Nat.testBit_two_pow_sub_succ small, bit]; simp [low]
    simp only [Nat.testBit_or, Nat.testBit_and, bit, notBit]
    cases mask.testBit j <;> simp

/-! ## Whom a peer's answer reaches (R363) -/

/-- The requests whose answer an event of thread k of pair p, or (kind F) of an engine, is. -/
def answersTo (p : Nat) (k : Kind) (r : PeerReq) : Bool := r.p == p && (if k = .F then r.tag != 0 else r.tag == 0 && r.k == k)

theorem exec_peerResponse_nobody {s : State} {p : Nat} {k : Kind} (ok : Bool) (data : List Byte) (nobody : ∀ r ∈ s.peers, answersTo p k r = false) :
    exec (.peerResponse p k ok data) s = .next s := by
  have none_ : s.peers.find? (answersTo p k) = none := by simpa using nobody
  show execPeerResponse p k ok data s = _
  rw [execPeerResponse]
  show Host.Outcome.next (match s.peers.find? (answersTo p k) with | some r => _ | none => _) = _
  rw [none_]

/-- The oldest of a pair's requests is answered, and is no longer on its way. -/
theorem exec_peerResponse_oldest {s : State} {p : Nat} {k : Kind} {r : PeerReq} {before after : List PeerReq} (ok : Bool) (data : List Byte)
    (list : s.peers = before ++ r :: after) (older : ∀ x ∈ before, x.p ≠ p) (mine : answersTo p k r = true) :
    exec (.peerResponse p k ok data) s = .next (peerAnswer { s with peers := before ++ after } r ok data) := by
  have hp : r.p = p := by simp only [answersTo, Bool.and_eq_true, beq_iff_eq] at mine; exact mine.1
  have found : s.peers.find? (answersTo p k) = some r := by
    rw [list, List.find?_append, List.find?_eq_none.mpr (fun x mem => by simp [answersTo, older x mem]), Option.none_or, List.find?_cons_of_pos mine]
  have gone : s.peers.erase r = before ++ after := by
    rw [list, List.erase_append_right _ (fun mem => older r mem hp), List.erase_cons_head]
  show execPeerResponse p k ok data s = _
  rw [execPeerResponse]
  show Host.Outcome.next (match s.peers.find? (answersTo p k) with | some r => _ | none => _) = _
  rw [found, ← gone]

/-- A stream faults at an element: its fault is recorded, and no byte changes (R151). -/
theorem faultStream_faults (s : State) (p m k cause : Nat) (val : Word) (stream : m < 16) : SameMem s (faultStream s p m k cause val) ∧
    (((faultStream s p m k cause val).pair p).str m).st = .faulted ∧ (((faultStream s p m k cause val).pair p).str m).fault = some (cause, val, k) := by
  unfold faultStream
  dsimp only
  split <;> refine ⟨fun _ => rfl, ?_, ?_⟩ <;>
    simp [updChan, State.setStr, State.updPair, Pair.str, Pair.setStr, Vector.getD, stream]

/-! ## What an answer does -/

section
variable (s : State) (r : PeerReq) (ok : Bool) (data : List Byte)

theorem peerAnswer_thread (thread : r.tag = 0) : peerAnswer s r ok data =
    s.updThr r.p r.k (fun t => if t.asked then { t with asked := false, reply := some (ok, data), sent := r.addrs } else t) := by
  simp [peerAnswer, thread]

theorem peerAnswer_lanes (lanes : r.tag = 1) : peerAnswer s r ok data = s.updPair r.p (fun q => { q with lanes := { q.lanes with
    peerWait := false, ahead := q.lanes.ahead ++ [(BitVec.ofNat 52 (r.addrs.headD 0) - blockBase s r.p, if ok then some (natOf data) else none)] } }) := by
  simp [peerAnswer, lanes]

/-- The element of a stream that waits: it is filled or acknowledged, or the stream faults at it. -/
theorem peerAnswer_stream (m : Nat) (stream : r.tag = 2 + m) (small : m < 16) :
    let st := (s.pair r.p).str m
    peerAnswer s r ok data = if st.asked = false then s
      else if ok then (if r.op = 0 then s.setStr r.p m { st with got := some data, asked := false } else s.setStr r.p m { st with ack := true })
      else faultStream (s.setStr r.p m { st with asked := false }) r.p m st.first 0x0E
        (BitVec.ofNat 64 (if r.op = 0 then st.srcElem st.first else st.dstElem st.first)) := by
  have tags : 2 + m ≠ 0 ∧ 2 + m ≠ 1 ∧ 2 + m < 18 ∧ 2 + m - 2 = m := by omega
  obtain ⟨notThread, notLanes, isStream, index⟩ := tags
  simp [peerAnswer, stream, notLanes, isStream, index, peerRead]

theorem peerAnswer_firmware (core : r.tag = 97) : peerAnswer s r ok data =
    s.updF (r.p / 160) (r.p % 160) (fun f => { f with asked := false, reply := some (ok, data) }) := by
  simp [peerAnswer, core]

theorem peerAnswer_unit (unit : r.tag = 98) (who : UnitId) (waits : r.who = some who) (noCopy : ∀ c n, who ≠ .copy c n) : peerAnswer s r ok data =
    { s with unitGot := s.unitGot ++ [(who, r.addrs.headD 0, if ok then some (BitVec.ofNat 64 (natOf data)) else none)] } := by
  cases who with
  | copy c n => exact absurd rfl (noCopy c n)
  | _ => simp [peerAnswer, unit, waits]

theorem peerAnswer_nobody (nobody : r.tag = 99) : peerAnswer s r ok data = s := by simp [peerAnswer, nobody]

theorem peerAnswer_card (i : Nat) (c : Card) (card : r.tag = 100 + i) (held : (s.die (r.p / 160)).card i = some c) : peerAnswer s r ok data =
    if r.op = 0 then s.setCard (r.p / 160) i { c with got := some data, short := !ok, asked := false }
    else s.setCard (r.p / 160) i { c with done := some (if ok then r.sent.length else data.length), short := !ok } := by
  have tags : 100 + i ≠ 1 ∧ ¬ 100 + i < 18 ∧ 100 + i ≠ 97 ∧ 100 + i ≠ 98 := by omega
  obtain ⟨notLanes, notStream, notCore, notUnit⟩ := tags
  simp [peerAnswer, card, notLanes, notStream, notCore, notUnit, held, peerRead]

end

end Sys2Proof.Machine

namespace Sys2Proof.Claims

open Sys2Proof.Machine Sys2Proof.Safety

theorem cacheWaitAndSampleEvents : CacheWaitAndSampleEvents := by
  intro s core line p d k wf
  refine ⟨exec_dataCacheLineEviction_absent, fun c held => ?_, fun waits => ?_, fun goes => ?_, fun notDue => ?_, fun due => ?_⟩
  · have kept := evicted_cache s core line c.2
    refine ⟨_, exec_dataCacheLineEviction_held held, fun x mem => ?_, fun x mem other => ?_, kept.2, fun x out => ?_, fun j low => ?_⟩
    · rw [kept.1, mem_del] at mem
      exact mem.2
    · rw [kept.1, mem_del]
      exact ⟨mem, other⟩
    · rw [evicted_mem s core line c.2 wf, if_neg (fun here => by omega)]
    · rw [evicted_mem s core line c.2 wf, show (64 * line + j) / 64 = line by omega, show (64 * line + j) % 64 = j by omega]
      simp
  · show execHostSignalReread p k s = _
    rw [execHostSignalReread, if_pos waits]
  · show execHostSignalReread p k s = _
    rw [execHostSignalReread, if_neg goes]
  · rw [exec_sampleCycles, if_neg notDue]
  · rw [exec_sampleCycles, if_pos due]

section
variable (s : State) (op : Byte) (off : BitVec 33) (size : BitVec 4) (val cmp : Word)

/-- The answer to a peer whose operation leaves v at the address. -/
theorem exec_peerRequest_leaves {o v : Nat} (open_ : Served s (exportAt s off) size.toNat) (code : op.toNat = o)
    (does : peerPerform s o (exportAt s off) size.toNat val.toNat cmp.toNat = left s (exportAt s off) size.toNat v) :
    exec (.peerRequest op off size val cmp) s = .next ((s.setMem (Mem.setLE s.mem (exportAt s off) size.toNat v)).send
      (.peerReply true (BitVec.ofNat 64 (Mem.getLE s.mem (exportAt s off) size.toNat)))) := by
  rw [exec_peerRequest_served s op off size val cmp open_, code, does]
  rfl

theorem exec_peerRequest_fails (open_ : Served s (exportAt s off) size.toNat)
    (cannot : peerPerform s op.toNat (exportAt s off) size.toNat val.toNat cmp.toNat = none) :
    exec (.peerRequest op off size val cmp) s = .next (s.send (.peerReply false 0#64)) := by
  rw [exec_peerRequest_served s op off size val cmp open_, cannot]
  rfl

end

theorem peerEvents : PeerEvents := by
  intro s op off size val cmp p k ok data n a i fits old answers
  have wide : fits → 4 ≤ n → n = 4 ∨ n = 8 := fun ⟨_, widths, _⟩ four => by omega
  have atomic : ∀ m < 10, fits → 4 ≤ n → op.toNat = 2 + m →
      exec i s = .next (answers (amoNew m n old (val.toNat % 256 ^ n) (cmp.toNat % 256 ^ n))) := fun m member open_ four code =>
    exec_peerRequest_leaves s op off size val cmp open_ code (peerPerform_atomic s a val.toNat cmp.toNat m member (wide open_ four))
  have named : ∀ o : Byte, op = o → op.toNat = o.toNat := fun o code => by rw [code]
  refine ⟨exec_peerRequest_unserved s op off size val cmp, fun open_ code => ?_, fun open_ code => ?_, fun open_ low high narrow => ?_,
    fun open_ four => ?_, fun open_ f code known whole => ?_, fun open_ code one => ?_, fun open_ unknown => ?_, fun nobody => ?_,
    fun r before after list hp older => ?_⟩
  · rw [exec_peerRequest_served s op off size val cmp open_, named _ code]
    rfl
  · exact exec_peerRequest_leaves s op off size val cmp open_ (named _ code) (peerPerform_write ..)
  · exact exec_peerRequest_fails s op off size val cmp open_ (peerPerform_narrow s a _ _ low high narrow)
  · intro b x
    refine ⟨fun code => ?_, fun code => atomic 1 (by decide) open_ four (named _ code), fun code => atomic 2 (by decide) open_ four (named _ code),
      fun code => atomic 3 (by decide) open_ four (named _ code), fun code => ?_, fun code => ?_,
      fun code => atomic 6 (by decide) open_ four (named _ code), fun code => atomic 7 (by decide) open_ four (named _ code),
      fun code => atomic 8 (by decide) open_ four (named _ code), fun code => atomic 9 (by decide) open_ four (named _ code)⟩
    · rw [atomic 0 (by decide) open_ four (named _ code), amoNew_add]
    · rw [atomic 4 (by decide) open_ four (named _ code), amoNew_min]
    · rw [atomic 5 (by decide) open_ four (named _ code), amoNew_max]
  · exact exec_peerRequest_leaves s op off size val cmp open_ code (peerPerform_add s a _ _ f known whole)
  · obtain ⟨byte, bits_⟩ := maskedByte old val.toNat cmp.toNat
    refine ⟨_, byte, exec_peerRequest_leaves s op off size val cmp open_ (named _ code) ?_, bits_⟩
    show peerPerform s 98 a n val.toNat cmp.toNat = left s a n _
    rw [show old = Mem.getLE s.mem a n from rfl, one]
    rfl
  · exact exec_peerRequest_fails s op off size val cmp open_ (peerPerform_unknown s a _ _
      (unknown.imp (fun ⟨low, high, no⟩ => ⟨low, high, fun ⟨code, one⟩ => no ⟨BitVec.eq_of_toNat_eq code, one⟩⟩) id))
  · refine exec_peerResponse_nobody ok data fun r mem => ?_
    rcases nobody r mem with other | ⟨engine, thread⟩ | ⟨thread, other | other⟩
    · simp [answersTo, other]
    · simp [answersTo, engine, thread]
    · simp [answersTo, thread, other]
    · simp [answersTo, thread, other]
  · intro s1
    subst hp
    have oldest : ∀ mine : answersTo r.p k r = true, exec (.peerResponse r.p k ok data) s = .next (peerAnswer s1 r ok data) :=
      exec_peerResponse_oldest ok data list older
    have engine : k = .F → r.tag ≠ 0 → exec (.peerResponse r.p k ok data) s = .next (peerAnswer s1 r ok data) := fun isF tag =>
      oldest (by simp [answersTo, isF, tag])
    refine ⟨fun notF tag kind => ?_, fun m isF tag small => ?_, fun isF tag => ?_, fun isF tag => ?_, fun who isF tag waits noCopy => ?_,
      fun isF tag => ?_, fun j c isF tag held => ?_⟩
    · rw [oldest (by simp [answersTo, notF, tag, kind]), peerAnswer_thread s1 r ok data tag, kind]
    · intro st
      have answer := (engine isF (by omega)).trans (congrArg Host.Outcome.next (peerAnswer_stream s1 r ok data m tag small))
      have waiting : st.asked = true → ¬ st.asked = false := fun asked idle => absurd (asked.symm.trans idle) (by decide)
      refine ⟨fun idle => ?_, fun asked done read => ?_, fun asked done write => ?_, fun asked failed => ?_⟩
      · exact answer.trans (congrArg _ (if_pos idle))
      · exact answer.trans (congrArg _ ((if_neg (waiting asked)).trans ((if_pos done).trans (if_pos read))))
      · exact answer.trans (congrArg _ ((if_neg (waiting asked)).trans ((if_pos done).trans (if_neg write))))
      · exact ⟨_, answer.trans (congrArg _ ((if_neg (waiting asked)).trans (if_neg (Bool.not_eq_true _ ▸ failed)))),
          faultStream_faults (s1.setStr r.p m { st with asked := false }) r.p m st.first 0x0E _ small⟩
    · intro word
      rw [engine isF (by omega), peerAnswer_lanes s1 r ok data tag]
      rfl
    · rw [engine isF (by omega), peerAnswer_firmware s1 r ok data tag]
    · rw [engine isF (by omega), peerAnswer_unit s1 r ok data tag who waits noCopy]
    · rw [engine isF (by omega), peerAnswer_nobody s1 r ok data tag]
    · rw [engine isF (by omega), peerAnswer_card s1 r ok data j c tag held]
      exact ⟨fun read => by rw [if_pos read], fun write => by rw [if_neg write]⟩

/-- Settles O53, from what an eviction, a sample, a peer's request and a peer's answer do to the state: one lemma for each operation that a
device performs for a peer, and one for each kind of requester an answer reaches. -/
theorem cachePeerAndSampleEvents : Obligations.CachePeerAndSampleEvents := ⟨cacheWaitAndSampleEvents, peerEvents⟩

end Sys2Proof.Claims
end

section
/-! SUPPORT. The numbers in which the statements give the results of scalar words (`mod64`, `sint`, `sext`, `one`, `quot`), and the operations
of bit vectors that compute them in the model (R73-R75, R77): one lemma for each row of the tables. -/

namespace Sys2Proof.Claims

open Sys2Proof.Machine

/-! ## The numbers of the statements, and the operations of bit vectors -/

theorem sint_eq_toInt (w : Word) : sint w = w.toInt := by
  rw [sint, BitVec.toInt_eq_toNat_cond]
  split <;> split <;> omega

theorem mod64_eq_ofInt (x : Int) : mod64 x = BitVec.ofInt 64 x := by
  apply BitVec.eq_of_toNat_eq
  rw [mod64, BitVec.toNat_ofNat, BitVec.toNat_ofInt]
  omega

theorem mod64_natCast (n : Nat) : mod64 n = BitVec.ofNat 64 n := by rw [mod64_eq_ofInt, BitVec.ofInt_natCast]

theorem mod64_sint (w : Word) : mod64 (sint w) = w := by rw [mod64_eq_ofInt, sint_eq_toInt, BitVec.ofInt_toInt]

/-- A field's low bits read in two's complement are the bit vector they form. -/
theorem sext_eq_toInt (k n : Nat) (pos : 0 < k) : sext k n = (BitVec.ofNat k n).toInt := by
  obtain ⟨j, rfl⟩ := Nat.exists_eq_succ_of_ne_zero pos.ne'
  have half : 2 ^ (j + 1) = 2 * 2 ^ j := by rw [Nat.pow_succ, Nat.mul_comm]
  have whole : (2 ^ (j + 1) : Int) = (2 ^ (j + 1) : Nat) := by push_cast; rfl
  rw [sext, BitVec.toInt_eq_toNat_cond, BitVec.toNat_ofNat, Nat.succ_eq_add_one, Nat.add_sub_cancel, whole]
  generalize n % 2 ^ (j + 1) = m
  rw [half]
  split <;> split <;> omega

theorem sext_toNat {k : Nat} (x : BitVec k) (pos : 0 < k) : sext k x.toNat = x.toInt := by
  rw [sext_eq_toInt k _ pos, BitVec.ofNat_toNat, BitVec.setWidth_eq]

theorem mod64_sext_toNat {k : Nat} (x : BitVec k) (pos : 0 < k) : mod64 (sext k x.toNat) = sextW x := by
  rw [mod64_eq_ofInt, sext_toNat x pos]
  rfl

theorem mod64_sext (k : Nat) (A : Word) (pos : 0 < k) : mod64 (sext k A.toNat) = (A.setWidth k).signExtend 64 := by
  rw [mod64_eq_ofInt, sext_eq_toInt k _ pos, BitVec.ofNat_toNat]
  rfl

theorem mod64_add_int (A : Word) (x : Int) : mod64 (A.toNat + x) = A + mod64 x := by
  rw [mod64_eq_ofInt, mod64_eq_ofInt, BitVec.ofInt_add, BitVec.ofInt_natCast, BitVec.ofNat_toNat, BitVec.setWidth_eq]

theorem toInt_sextW {k : Nat} (x : BitVec k) (fits : k ≤ 64) : (sextW x).toInt = x.toInt := BitVec.toInt_signExtend_of_le fits

theorem toNat_sextW {k : Nat} (x : BitVec k) (fits : k ≤ 64) : ((sextW x).toNat : Int) = x.toInt % 2 ^ 64 := by
  rw [← toInt_sextW x fits]
  have := (sextW x).isLt
  rw [BitVec.toInt_eq_toNat_cond]
  split <;> omega

theorem one_eq_flagW (c : Prop) [Decidable c] : one c = flagW (decide c) := by
  by_cases h : c <;> simp [one, flagW, h]

/-! ## Results of R73 and R75 -/

section
variable (A B : Word)

theorem mod64_add : mod64 (A.toNat + B.toNat) = A + B := by
  rw [mod64_add_int, mod64_natCast, BitVec.ofNat_toNat, BitVec.setWidth_eq]

theorem mod64_sub : mod64 (A.toNat - B.toNat) = A - B := by
  rw [Int.sub_eq_add_neg, mod64_add_int, mod64_eq_ofInt, BitVec.ofInt_neg, BitVec.ofInt_natCast, BitVec.ofNat_toNat, BitVec.setWidth_eq,
    BitVec.sub_eq_add_neg]

theorem ofNat_toNat_and : BitVec.ofNat 64 (A.toNat &&& B.toNat) = A &&& B := by simp [BitVec.ofNat_and]
theorem ofNat_toNat_or : BitVec.ofNat 64 (A.toNat ||| B.toNat) = A ||| B := by simp [BitVec.ofNat_or]
theorem ofNat_toNat_xor : BitVec.ofNat 64 (A.toNat ^^^ B.toNat) = A ^^^ B := by simp [BitVec.ofNat_xor]

theorem ofNat_not : BitVec.ofNat 64 (2 ^ 64 - 1 - B.toNat) = ~~~B := by
  apply BitVec.eq_of_toNat_eq
  rw [BitVec.toNat_ofNat, BitVec.toNat_not]
  omega
theorem ofNat_andn : BitVec.ofNat 64 (A.toNat &&& (2 ^ 64 - 1 - B.toNat)) = A &&& ~~~B := by
  rw [BitVec.ofNat_and, ofNat_not, BitVec.ofNat_toNat, BitVec.setWidth_eq]
theorem ofNat_orn : BitVec.ofNat 64 (A.toNat ||| (2 ^ 64 - 1 - B.toNat)) = A ||| ~~~B := by
  rw [BitVec.ofNat_or, ofNat_not, BitVec.ofNat_toNat, BitVec.setWidth_eq]

theorem mod64_shiftLeft (n : Nat) : mod64 (A.toNat * 2 ^ n) = A <<< n := by
  rw [show (A.toNat * 2 ^ n : Int) = (A.toNat * 2 ^ n : Nat) by push_cast; rfl, mod64_natCast]
  apply BitVec.eq_of_toNat_eq
  rw [BitVec.toNat_ofNat, BitVec.toNat_shiftLeft, Nat.shiftLeft_eq]

theorem ofNat_ushiftRight (n : Nat) : BitVec.ofNat 64 (A.toNat / 2 ^ n) = A >>> n := by
  rw [← Nat.shiftRight_eq_div_pow, ← BitVec.toNat_ushiftRight, BitVec.ofNat_toNat, BitVec.setWidth_eq]

theorem mod64_sshiftRight (n : Nat) : mod64 (sint A / 2 ^ n) = A.sshiftRight n := by
  rw [sint_eq_toInt, show (2 ^ n : Int) = (2 ^ n : Nat) by push_cast; rfl, ← Int.shiftRight_eq_div_pow, ← BitVec.toInt_sshiftRight,
    mod64_eq_ofInt, BitVec.ofInt_toInt]

theorem slt_eq_decide : A.slt B = decide (sint A < sint B) := by
  rw [sint_eq_toInt, sint_eq_toInt]
  rfl

theorem one_slt : one (sint A < sint B) = flagW (A.slt B) := by rw [one_eq_flagW, slt_eq_decide]
theorem one_ult : one (A.toNat < B.toNat) = flagW (A.ult B) := one_eq_flagW _
theorem one_beq : one (A = B) = flagW (A == B) := by rw [one_eq_flagW, beq_eq_decide]
theorem one_bne : one (A ≠ B) = flagW (A != B) := by rw [one_eq_flagW, decide_not, bne, beq_eq_decide]

theorem mod64_min : mod64 (min (sint A) (sint B)) = if A.slt B then A else B := by
  rw [slt_eq_decide]
  by_cases less : sint A < sint B
  · simp [less, less.le, mod64_sint]
  · simp [less, not_lt.mp less, mod64_sint]
theorem mod64_max : mod64 (max (sint A) (sint B)) = if A.slt B then B else A := by
  rw [slt_eq_decide]
  by_cases less : sint A < sint B
  · simp [less, less.le, mod64_sint]
  · simp [less, not_lt.mp less, mod64_sint]
theorem ofNat_min : BitVec.ofNat 64 (min A.toNat B.toNat) = if A.ult B then A else B := by
  by_cases less : A.toNat < B.toNat
  · simp [BitVec.ult, less, less.le]
  · simp [BitVec.ult, less, not_lt.mp less]
theorem ofNat_max : BitVec.ofNat 64 (max A.toNat B.toNat) = if A.ult B then B else A := by
  by_cases less : A.toNat < B.toNat
  · simp [BitVec.ult, less, less.le]
  · simp [BitVec.ult, less, not_lt.mp less]

/-- The two parts of a word rotated by n bits do not meet, so that they may be added. -/
theorem rotated_toNat (n : Nat) (fits : n ≤ 64) :
    (A.toNat * 2 ^ n) % 2 ^ 64 ||| A.toNat / 2 ^ (64 - n) = (A.toNat * 2 ^ n + A.toNat / 2 ^ (64 - n)) % 2 ^ 64 := by
  have whole : 2 ^ 64 = 2 ^ (64 - n) * 2 ^ n := by rw [← Nat.pow_add]; congr 1; omega
  have low : A.toNat / 2 ^ (64 - n) < 2 ^ n := by
    rw [Nat.div_lt_iff_lt_mul (by positivity), Nat.mul_comm, ← whole]
    exact A.isLt
  have high : (A.toNat * 2 ^ n) % 2 ^ 64 = 2 ^ n * (A.toNat % 2 ^ (64 - n)) := by
    rw [whole, Nat.mul_mod_mul_right, Nat.mul_comm]
  have small : 2 ^ n * (A.toNat % 2 ^ (64 - n)) + A.toNat / 2 ^ (64 - n) < 2 ^ 64 := by
    have := Nat.mod_lt A.toNat (show 0 < 2 ^ (64 - n) by positivity)
    calc _ < 2 ^ n * (A.toNat % 2 ^ (64 - n)) + 2 ^ n := by omega
      _ = 2 ^ n * (A.toNat % 2 ^ (64 - n) + 1) := by ring
      _ ≤ 2 ^ n * 2 ^ (64 - n) := Nat.mul_le_mul_left _ this
      _ = 2 ^ 64 := by rw [Nat.mul_comm, ← whole]
  rw [high, ← Nat.two_pow_add_eq_or_of_lt low, ← Nat.mod_eq_of_lt small, ← high]
  simp

theorem mod64_rotateLeft (n : Nat) (fits : n < 64) : mod64 (A.toNat * 2 ^ n + A.toNat / 2 ^ (64 - n)) = A.rotateLeft n := by
  rw [show (A.toNat * 2 ^ n + A.toNat / 2 ^ (64 - n) : Int) = (A.toNat * 2 ^ n + A.toNat / 2 ^ (64 - n) : Nat) by push_cast; rfl, mod64_natCast]
  apply BitVec.eq_of_toNat_eq
  rw [BitVec.toNat_ofNat, ← rotated_toNat A n fits.le, BitVec.toNat_rotateLeft, Nat.mod_eq_of_lt fits, Nat.shiftLeft_eq, Nat.shiftRight_eq_div_pow]

theorem mod64_rotateRight (n : Nat) (fits : n < 64) : mod64 (A.toNat / 2 ^ n + A.toNat * 2 ^ (64 - n)) = A.rotateRight n := by
  rw [show (A.toNat / 2 ^ n + A.toNat * 2 ^ (64 - n) : Int) = (A.toNat * 2 ^ (64 - n) + A.toNat / 2 ^ n : Nat) by push_cast; ring, mod64_natCast]
  have parts := rotated_toNat A (64 - n) (Nat.sub_le ..)
  rw [Nat.sub_sub_self fits.le] at parts
  apply BitVec.eq_of_toNat_eq
  rw [BitVec.toNat_ofNat, ← parts, BitVec.toNat_rotateRight, Nat.mod_eq_of_lt fits, Nat.shiftLeft_eq, Nat.shiftRight_eq_div_pow, Nat.or_comm]

/-! Counts of bits. -/

theorem clz64_eq : (if A.toNat = 0 then 64 else 63 - Nat.log2 A.toNat) = clz64 A := by
  rw [clz64]
  by_cases zero : A.toNat = 0
  · have none_ : (List.range 64).find? (fun i => A.getLsbD (63 - i)) = none := by simp [BitVec.getLsbD, zero]
    rw [if_pos zero, none_, Option.getD_none]
  · have top : Nat.log2 A.toNat < 64 := (Nat.log2_lt zero).mpr A.isLt
    have first : (List.range 64).find? (fun i => A.getLsbD (63 - i)) = some (63 - Nat.log2 A.toNat) := by
      refine List.find?_range_eq_some.mpr ⟨?_, List.mem_range.mpr (by omega), fun j below => ?_⟩
      · rw [Nat.sub_sub_self (by omega)]
        exact Nat.testBit_log2 zero
      · have above : A.toNat < 2 ^ (63 - j) := (Nat.log2_lt zero).mp (by omega)
        simp [BitVec.getLsbD, Nat.testBit_lt_two_pow above]
    rw [if_neg zero, first, Option.getD_some]

/-- A number and its negative modulo 2^64 have one bit in common, the number's lowest one bit. -/
theorem and_neg_eq_two_pow (m k : Nat) (fits : 2 ^ k * (2 * m + 1) < 2 ^ 64) : 2 ^ k * (2 * m + 1) &&& (2 ^ 64 - 2 ^ k * (2 * m + 1)) = 2 ^ k := by
  have pos : 0 < 2 ^ k := by positivity
  have below : 2 ^ k * (2 * m + 1) = (2 ^ k * (2 * m) + (2 ^ k - 1)) + 1 := by rw [Nat.mul_add]; omega
  have short : 2 ^ k - 1 < 2 ^ k := by omega
  apply Nat.eq_of_testBit_eq
  intro j
  have x := Nat.testBit_two_pow_mul_add (2 * m + 1) (b := 0) pos j
  have y := Nat.testBit_two_pow_mul_add (2 * m) short j
  rw [Nat.add_zero] at x
  rw [Nat.testBit_and, x, below, Nat.testBit_two_pow_sub_succ (by omega), y, Nat.testBit_two_pow]
  rcases lt_trichotomy j k with lower | rfl | higher
  · simp [lower, lower.ne']
  · have : j < 64 := (Nat.pow_lt_pow_iff_right (by decide)).mp (lt_of_le_of_lt (Nat.le_mul_of_pos_right _ (by omega)) fits)
    simp [this, Nat.testBit_zero]
  · obtain ⟨i, rfl⟩ := Nat.exists_eq_add_of_lt higher
    have place : k + i + 1 - k = i + 1 ∧ ¬ k + i + 1 < k ∧ k ≠ k + i + 1 := by omega
    simp +contextual [place, Nat.testBit_succ, Nat.mul_add_div]

theorem ctz64_eq : (if A.toNat = 0 then 64 else Nat.log2 (A.toNat &&& (2 ^ 64 - A.toNat))) = ctz64 A := by
  rw [ctz64]
  by_cases zero : A.toNat = 0
  · have none_ : (List.range 64).find? (fun i => A.getLsbD i) = none := by simp [BitVec.getLsbD, zero]
    rw [if_pos zero, none_, Option.getD_none]
  · obtain ⟨k, _, ⟨m, rfl⟩, split_⟩ := Nat.exists_eq_two_pow_mul_odd zero
    have small : 2 ^ k * (2 * m + 1) < 2 ^ 64 := split_ ▸ A.isLt
    have low : k < 64 := (Nat.pow_lt_pow_iff_right (by decide)).mp (lt_of_le_of_lt (Nat.le_mul_of_pos_right _ (by omega)) small)
    have bit (j : Nat) := Nat.testBit_two_pow_mul_add (2 * m + 1) (b := 0) (show 0 < 2 ^ k by positivity) j
    have first : (List.range 64).find? (fun i => A.getLsbD i) = some k := by
      refine List.find?_range_eq_some.mpr ⟨?_, List.mem_range.mpr low, fun j below => ?_⟩
      · rw [BitVec.getLsbD, split_, ← Nat.add_zero (2 ^ k * _), bit]
        simp
      · rw [BitVec.getLsbD, split_, ← Nat.add_zero (2 ^ k * _), bit]
        simp [below]
    rw [if_neg zero, first, split_, and_neg_eq_two_pow m k small, Nat.log2_two_pow, Option.getD_some]

theorem sum_bits_eq_countP (l : List Nat) : (l.map (fun i => A.toNat / 2 ^ i % 2)).sum = l.countP (fun i => A.getLsbD i) := by
  induction l with
  | nil => rfl
  | cons i l ih =>
    rw [List.map_cons, List.sum_cons, ih, List.countP_cons, ← Nat.toNat_testBit, Nat.add_comm, BitVec.getLsbD]
    cases A.toNat.testBit i <;> rfl

theorem popc64_eq : ((List.range 64).map (fun i => A.toNat / 2 ^ i % 2)).sum = popc64 A := sum_bits_eq_countP A _

theorem ofNat_zextw : BitVec.ofNat 64 (A.toNat % 2 ^ 32) = (A.setWidth 32).zeroExtend 64 := by
  apply BitVec.eq_of_toNat_eq
  simp

end

/-! Immediates (R75, R77). -/

section
variable (A : Word) (i : BitVec 15)

theorem toNat_mod64_sext {k : Nat} (x : BitVec k) (pos : 0 < k) : (sext k x.toNat % 2 ^ 64).toNat = (sextW x).toNat := by
  rw [← mod64_sext_toNat x pos, mod64, BitVec.toNat_ofNat]
  omega

theorem sext_eq_sint {k : Nat} (x : BitVec k) (pos : 0 < k) (fits : k ≤ 64) : sext k x.toNat = sint (sextW x) := by
  rw [sext_toNat x pos, sint_eq_toInt, toInt_sextW x fits]

theorem mod64_addi : mod64 (A.toNat + sext 15 i.toNat) = A + sextW i := by rw [mod64_add_int, mod64_sext_toNat i (by decide)]
theorem ofNat_andi : BitVec.ofNat 64 (A.toNat &&& (sext 15 i.toNat % 2 ^ 64).toNat) = A &&& sextW i := by
  rw [toNat_mod64_sext i (by decide), ofNat_toNat_and]
theorem ofNat_xori : BitVec.ofNat 64 (A.toNat ^^^ (sext 15 i.toNat % 2 ^ 64).toNat) = A ^^^ sextW i := by
  rw [toNat_mod64_sext i (by decide), ofNat_toNat_xor]
theorem ofNat_ori : BitVec.ofNat 64 (A.toNat ||| i.toNat) = A ||| zextW i := by
  rw [← ofNat_toNat_or, zextW, BitVec.toNat_setWidth_of_le (by decide)]
theorem one_slti : one (sint A < sext 15 i.toNat) = flagW (A.slt (sextW i)) := by
  rw [sext_eq_sint i (by decide) (by decide), one_slt]
theorem one_sltiu : one ((A.toNat : Int) < sext 15 i.toNat % 2 ^ 64) = flagW (A.ult (sextW i)) := by
  rw [one_eq_flagW, sext_toNat i (by decide), ← toNat_sextW i (by decide), BitVec.ult]
  simp only [Int.ofNat_lt]

theorem mod64_upper (imm : BitVec 20) : mod64 (sext 32 (imm.toNat * 4096)) = sextW (imm ++ 0#12) := by
  rw [← mod64_sext_toNat _ (by decide), BitVec.toNat_append, BitVec.toNat_ofNat, Nat.or_zero, Nat.shiftLeft_eq]

/-- `luh` replaces bits 51:32 and leaves the others. -/
theorem replaced_bits (imm : BitVec 20) :
    let v := (A &&& 0xFFF00000FFFFFFFF#64) ||| (zextW imm <<< 32)
    bits v.toNat 51 32 = imm.toNat ∧ bits v.toNat 31 0 = bits A.toNat 31 0 ∧ bits v.toNat 63 52 = bits A.toNat 63 52 := by
  intro v
  have mask : (0xFFF00000FFFFFFFF#64).extractLsb' 32 20 = 0#20 ∧ (0xFFF00000FFFFFFFF#64).extractLsb' 0 32 = BitVec.allOnes 32 ∧
      (0xFFF00000FFFFFFFF#64).extractLsb' 52 12 = BitVec.allOnes 12 := by decide
  have field : (zextW imm <<< 32).extractLsb' 32 20 = imm ∧ (zextW imm <<< 32).extractLsb' 0 32 = 0#32 ∧
      (zextW imm <<< 32).extractLsb' 52 12 = 0#12 := by
    refine ⟨?_, ?_, ?_⟩ <;> ext j inside
    · simp [zextW, show 32 + j < 64 ∧ j < 64 by omega, BitVec.getLsbD_eq_getElem inside]
    · simp [zextW, show j < 32 by omega]
    · simp [zextW, BitVec.getLsbD_of_ge imm (52 + j - 32) (by omega)]
  obtain ⟨mask0, mask1, mask2⟩ := mask
  obtain ⟨field0, field1, field2⟩ := field
  show (v.extractLsb' 32 20).toNat = imm.toNat ∧ (v.extractLsb' 0 32).toNat = (A.extractLsb' 0 32).toNat ∧
    (v.extractLsb' 52 12).toNat = (A.extractLsb' 52 12).toNat
  simp only [v, BitVec.extractLsb'_or, BitVec.extractLsb'_and, mask0, mask1, mask2, field0, field1, field2, BitVec.and_zero, BitVec.zero_or,
    BitVec.and_allOnes, BitVec.or_zero, and_self]

end

/-! ## Results of R74 -/

section
variable (A B : Word)

theorem mod64_mul : mod64 (A.toNat * B.toNat) = A * B := by
  rw [mod64_eq_ofInt, BitVec.ofInt_mul, BitVec.ofInt_natCast, BitVec.ofInt_natCast]
  simp

theorem mod64_mulh : mod64 (sint A * sint B / 2 ^ 64) = BitVec.ofInt 64 (A.toInt * B.toInt / 2 ^ 64) := by
  rw [mod64_eq_ofInt, sint_eq_toInt, sint_eq_toInt]
theorem mod64_mulhsu : mod64 (sint A * B.toNat / 2 ^ 64) = BitVec.ofInt 64 (A.toInt * (B.toNat : Int) / 2 ^ 64) := by
  rw [mod64_eq_ofInt, sint_eq_toInt]

/-- The quotient of R74 is the quotient of whole numbers truncated to zero. -/
theorem quot_eq_tdiv (x y : Int) : quot x y = Int.tdiv x y := by
  rw [quot]
  rcases le_or_gt 0 x with hx | hx <;> rcases le_or_gt 0 y with hy | hy
  · rw [if_pos (by simp [hx, hy]), Int.tdiv_eq_ediv_of_nonneg hx, Int.natAbs_of_nonneg hx, Int.natAbs_of_nonneg hy]
  · rw [if_neg (by simp [hx, hy]), ← neg_neg y, Int.tdiv_neg, Int.tdiv_eq_ediv_of_nonneg hx, Int.natAbs_neg]
    push_cast
    rw [abs_of_nonneg hx, abs_of_pos (by omega)]
  · rw [if_neg (by simp [hx, hy]), ← neg_neg x, Int.neg_tdiv, Int.tdiv_eq_ediv_of_nonneg (by omega), Int.natAbs_neg]
    push_cast
    rw [abs_of_pos (by omega), abs_of_nonneg hy]
  · have bothNegated : Int.tdiv x y = Int.tdiv (-x) (-y) := by rw [Int.neg_tdiv, Int.tdiv_neg, neg_neg]
    rw [if_pos (by simp [hx.not_ge, hy.not_ge]), bothNegated, Int.tdiv_eq_ediv_of_nonneg (by omega), ← Int.natAbs_neg x, ← Int.natAbs_neg y,
      Int.natAbs_of_nonneg (by omega), Int.natAbs_of_nonneg (by omega)]

theorem divide_div : (if B = 0#64 then mod64 (-1) else mod64 (quot (sint A) (sint B))) = (divide true A B).1 := by
  by_cases zero : B = 0#64
  · simp only [divide, if_pos zero]
    rfl
  · simp only [divide, if_neg zero, if_true]
    rw [quot_eq_tdiv, mod64_eq_ofInt, sint_eq_toInt, sint_eq_toInt]

theorem divide_divu : (if B = 0#64 then mod64 (-1) else BitVec.ofNat 64 (A.toNat / B.toNat)) = (divide false A B).1 := by
  by_cases zero : B = 0#64
  · simp only [divide, if_pos zero]
    rfl
  · simp only [divide, if_neg zero, Bool.false_eq_true, if_false]
    rw [← BitVec.toNat_udiv, BitVec.ofNat_toNat, BitVec.setWidth_eq]

theorem divide_rem : (if B = 0#64 then A else mod64 (sint A - quot (sint A) (sint B) * sint B)) = (divide true A B).2 := by
  by_cases zero : B = 0#64
  · simp only [divide, if_pos zero]
  · simp only [divide, if_neg zero, if_true]
    rw [quot_eq_tdiv, mul_comm, ← Int.tmod_def, mod64_eq_ofInt, sint_eq_toInt, sint_eq_toInt]

theorem divide_remu : (if B = 0#64 then A else BitVec.ofNat 64 (A.toNat % B.toNat)) = (divide false A B).2 := by
  by_cases zero : B = 0#64
  · simp only [divide, if_pos zero]
  · simp only [divide, if_neg zero, Bool.false_eq_true, if_false]
    rw [← BitVec.toNat_umod, BitVec.ofNat_toNat, BitVec.setWidth_eq]

theorem mulFlags_div (d a b : XReg) : mulFlags A B (.div_ d a b) = divFlags true A B := by
  have least : sint A = -2 ^ 63 ↔ A = 0x8000000000000000#64 := by
    rw [sint_eq_toInt, ← BitVec.toInt_inj]
    rfl
  have minusOne : sint B = -1 ↔ B = BitVec.allOnes 64 := by
    rw [sint_eq_toInt, ← BitVec.toInt_inj]
    rfl
  by_cases zero : B = 0#64
  · by_cases zeroA : A = 0#64 <;> simp [mulFlags, divFlags, zero, zeroA, sint]
  · simp only [mulFlags, divFlags, zero, least, minusOne, false_and, if_false, Bool.true_and, Bool.and_eq_true, beq_iff_eq]

theorem mulFlags_divu (d a b : XReg) : mulFlags A B (.divu d a b) = divFlags false A B := by
  by_cases zero : B = 0#64
  · by_cases zeroA : A = 0#64 <;> simp [mulFlags, divFlags, zero, zeroA]
  · simp [mulFlags, divFlags, zero]

end

end Sys2Proof.Claims
end

section
/-! SUPPORT. The agent that has the turn after a word that has raised flags, written a register and gone on (R71, R74, R300, R328): a thread, or
a firmware core. -/

namespace Sys2Proof.Machine

open Sys2Proof.Safety Sys2Proof.Claims

/-! ## The state after a word that computes in registers -/

/-! The firmware core that has the turn. -/

theorem Die.setFcore_setFcore (x : Die) (c : Nat) (f g : FCore) : (x.setFcore c f).setFcore c g = x.setFcore c g := by
  unfold Die.setFcore
  split <;> rfl
@[simp] theorem Die.fcore_setFcore (x : Die) (c : Nat) (f : FCore) : (x.setFcore c f).fcore c = f := by
  unfold Die.setFcore Die.fcore
  split <;> rfl

theorem State.updF_updF (s : State) (d c : Nat) (f g : FCore → FCore) : (s.updF d c f).updF d c g = s.updF d c (fun t => g (f t)) := by
  rw [State.updF, State.updF, State.updF, State.setDie_die_self, Die.fcore_setFcore, Die.setFcore_setFcore]
  simp only [State.setDie, Tab.set_set]
@[simp] theorem State.fcore_updF (s : State) (d c : Nat) (f : FCore → FCore) : ((s.updF d c f).die d).fcore c = f ((s.die d).fcore c) := by
  rw [State.updF, State.setDie_die_self, Die.fcore_setFcore]
theorem State.updF_die_ne (s : State) {d e : Nat} (c : Nat) (f : FCore → FCore) (ne : e ≠ d) : (s.updF d c f).die e = s.die e := by
  rw [State.updF, State.setDie_die, if_neg ne]

/-- A firmware core after a word that has raised the flags f, written register r and gone on to pc. -/
def FCore.computed (t : FCore) (f : BitVec 5) (r : XReg) (v : Word) (pc : Word) : FCore :=
  { t with fflags := t.fflags ||| f, x := if r = 0#5 then t.x else t.x.set r.toNat v r.isLt, pc := pc, retired := t.retired + 1#64,
           asked := false, reply := none }

/-- A thread after the same. -/
def Thread.computed (t : Thread) (f : BitVec 5) (r : XReg) (v : Val) (pc : Val) : Thread :=
  (({ t with fflags := t.fflags ||| f } : Thread).wr r v).retireAt pc

section
variable {s : State} {p : Nat} {k : Kind} (hc : s.cur = .thr p k) (f : BitVec 5) (r : XReg) (v : Val)
include hc

theorem State.wx_of_cur : s.wx r v = s.updThr p k (fun t => t.wr r v) := by simp [State.wx, hc, State.me, State.meK]
theorem State.orFlags_of_cur : s.orFlags f = s.updThr p k (fun t => { t with fflags := t.fflags ||| f }) := by
  simp [State.orFlags, hc, State.me, State.meK]

theorem State.nextPc_wx : (s.wx r v).nextPc = s.nextPc := by
  rw [State.nextPc, State.wx_of_cur hc, State.pc_updThr hc, Thread.wr_pc, State.nextPc, State.pc_of_cur hc]
theorem State.nextPc_orFlags : (s.orFlags f).nextPc = s.nextPc := by
  rw [State.nextPc, State.orFlags_of_cur hc, State.pc_updThr hc, State.nextPc, State.pc_of_cur hc]

theorem State.wx_retireTo_of_cur (pc : Val) : (s.wx r v).retireTo pc = s.updThr p k (fun t => (t.wr r v).retireAt pc) := by
  rw [State.wx_of_cur hc, State.retireTo]
  simp only [State.updThr_cur, hc, State.me, State.meK]
  rw [State.updThr_updThr]

/-- The state after a word that has raised flags and written a register. -/
theorem State.computed_of_thr : ((s.orFlags f).wx r v).retire = s.updThr p k (fun t => t.computed f r v s.nextPc) := by
  have cur : (s.orFlags f).cur = .thr p k := by rw [State.orFlags_rest]; exact hc
  rw [State.retire, State.wx_retireTo_of_cur cur, State.nextPc_wx cur, State.nextPc_orFlags hc, State.orFlags_of_cur hc, State.updThr_updThr]
  rfl

end

section
variable {s : State} {e c : Nat} (hc : s.cur = .fcore e c) (f : BitVec 5) (r : XReg) (v : Val)
include hc

theorem State.rx_of_fcore : s.rx r = if r = 0#5 then {} else { v := ((s.die e).fcore c).x[r.toNat]'r.isLt } := by simp [State.rx, hc]

theorem State.orFlags_of_fcore : s.orFlags f = s.updF e c (fun t => { t with fflags := t.fflags ||| f }) := by
  simp [State.orFlags, hc]

theorem State.retireTo_of_fcore (pc : Val) :
    s.retireTo pc = s.updF e c (fun t => { t with pc := pc.v, retired := t.retired + 1#64, asked := false, reply := none }) := by
  simp [State.retireTo, hc]

theorem State.nextPc_wx_of_fcore : (s.wx r v).nextPc = s.nextPc := by
  by_cases zero : r = 0#5
  · simp [State.wx, hc, zero]
  · simp [State.nextPc, State.pc, State.wx, hc, zero, State.updF]
theorem State.nextPc_orFlags_of_fcore : (s.orFlags f).nextPc = s.nextPc := by
  simp [State.nextPc, State.pc, State.orFlags, hc, State.updF]

theorem State.computed_of_fcore : ((s.orFlags f).wx r v).retire = s.updF e c (fun t => t.computed f r v.v s.nextPc.v) := by
  have cur : (s.orFlags f).cur = .fcore e c := by rw [State.orFlags_rest]; exact hc
  have cur' : ((s.orFlags f).wx r v).cur = .fcore e c := by rw [State.wx_cur]; exact cur
  rw [State.retire, State.retireTo_of_fcore cur', State.nextPc_wx_of_fcore cur, State.nextPc_orFlags_of_fcore hc, State.wx, cur,
    State.orFlags_of_fcore hc]
  by_cases zero : r = 0#5
  · simp only [zero, if_true, State.updF_updF, FCore.computed]
  · simp only [zero, if_false, State.updF_updF, FCore.computed]

end

/-- Raising no flag makes no difference to a word that goes on to write a register and retire. -/
theorem State.orFlags_zero_wx_retire {s : State} (r : XReg) (v : Val) (agent : s.kind.isSome = true) :
    ((s.orFlags 0#5).wx r v).retire = (s.wx r v).retire := by
  match hc : s.cur with
  | .thr p k =>
    have plain : (s.wx r v).retire = s.updThr p k (fun t => (t.wr r v).retireAt s.nextPc) := by
      rw [State.retire, State.nextPc_wx hc, State.wx_retireTo_of_cur hc]
    simp only [State.computed_of_thr hc, plain, Thread.computed, BitVec.or_zero]
  | .fcore e c =>
    rw [State.computed_of_fcore hc, State.retire, State.nextPc_wx_of_fcore hc, State.retireTo_of_fcore (by rw [State.wx_cur, hc]), State.wx, hc]
    by_cases zero : r = 0#5
    · simp only [zero, if_true, FCore.computed, BitVec.or_zero]
    · simp only [zero, if_false, State.updF_updF, FCore.computed, BitVec.or_zero]
  | .lanes p => simp [State.kind, hc] at agent
  | .engine p => simp [State.kind, hc] at agent
  | .nobody => simp [State.kind, hc] at agent

end Sys2Proof.Machine
end

section
/-! SUPPORT. What the words that compute in scalar registers write, with the tag (R72-R77, R109-R111). -/

namespace Sys2Proof.Claims

open Sys2Proof.Machine Sys2Proof.Safety

/-- A word whose effect is to write w writes v, the same value in the manual's terms. -/
theorem put_completes {i : Instr} {s : State} {d : XReg} {v w : Word} {t : Tag} (issues : Issues i s) (value : v = w) :
    scalar i s (put s d w t) = .next ((s.wx d ⟨v, t⟩).retire) := by
  rw [scalar_issues _ _ _ issues, value]
  rfl

theorem kind_isSome_of_issues {i : Instr} {s : State} (issues : Issues i s) : s.kind.isSome = true := by
  obtain ⟨k, kind, _⟩ := issues
  rw [kind]
  rfl

section
variable {i : Instr} {s : State} {d a b : XReg} {v : Word} (issues : Issues i s)
include issues

/-- A member of the alu family, one case for each row of R73's table with two sources, in its order. -/
theorem exec_alu2 (h : alu2 (s.rx a).v (s.rx b).v i = some (d, a, b, v)) :
    exec i s = .next ((s.wx d ⟨v, resultTag (s.rx a).t (s.rx b).t i⟩).retire) := by
  unfold alu2 at h
  split at h <;> cases h
  · exact put_completes issues (mod64_add ..)
  · exact put_completes issues (mod64_sub ..)
  · exact put_completes issues (ofNat_toNat_and ..)
  · exact put_completes issues (ofNat_toNat_or ..)
  · exact put_completes issues (ofNat_toNat_xor ..)
  · exact put_completes issues (mod64_shiftLeft ..)
  · exact put_completes issues (ofNat_ushiftRight ..)
  · exact put_completes issues (mod64_sshiftRight ..)
  · exact put_completes issues (one_slt ..)
  · exact put_completes issues (one_ult ..)
  · exact put_completes issues (one_beq ..)
  · exact put_completes issues (one_bne ..)
  · exact put_completes issues (mod64_min ..)
  · exact put_completes issues (mod64_max ..)
  · exact put_completes issues (ofNat_min ..)
  · exact put_completes issues (ofNat_max ..)
  · exact put_completes issues (ofNat_andn ..)
  · exact put_completes issues (ofNat_orn ..)
  · exact put_completes issues (mod64_rotateLeft _ _ (Nat.mod_lt _ (by decide)))
  · exact put_completes issues (mod64_rotateRight _ _ (Nat.mod_lt _ (by decide)))

/-- The same for the rows with one source. -/
theorem exec_alu1 (h : alu1 (s.rx a).v i = some (d, a, v)) : exec i s = .next ((s.wx d ⟨v, 255#8⟩).retire) := by
  unfold alu1 at h
  split at h <;> cases h
  · exact put_completes issues (congrArg _ (clz64_eq _))
  · exact put_completes issues (congrArg _ (ctz64_eq _))
  · exact put_completes issues (congrArg _ (popc64_eq _))
  · exact put_completes issues (mod64_sext 8 _ (by decide))
  · exact put_completes issues (mod64_sext 16 _ (by decide))
  · exact put_completes issues (mod64_sext 32 _ (by decide))
  · exact put_completes issues (ofNat_zextw _)

/-- A member of the mul family, one case for each row of R74's table: `div` and `divu` raise their flags, the others raise none. -/
theorem exec_mul2 (h : mul2 (s.rx a).v (s.rx b).v i = some (d, a, b, v)) :
    exec i s = .next (((s.orFlags (mulFlags (s.rx a).v (s.rx b).v i)).wx d ⟨v, 255#8⟩).retire) := by
  have flagless {w : Word} (none_ : mulFlags (s.rx a).v (s.rx b).v i = 0#5) (value : v = w) (runs : exec i s = scalar i s (put s d w 255#8)) :
      exec i s = .next (((s.orFlags (mulFlags (s.rx a).v (s.rx b).v i)).wx d ⟨v, 255#8⟩).retire) := by
    rw [none_, State.orFlags_zero_wx_retire _ _ (kind_isSome_of_issues issues), runs]
    exact put_completes issues value
  have flagged {w : Word} {f : BitVec 5} (flags : mulFlags (s.rx a).v (s.rx b).v i = f) (value : v = w)
      (runs : exec i s = scalar i s (put (s.orFlags f) d w 255#8)) :
      exec i s = .next (((s.orFlags (mulFlags (s.rx a).v (s.rx b).v i)).wx d ⟨v, 255#8⟩).retire) := by
    rw [runs, scalar_issues _ _ _ issues, flags, value]
    rfl
  unfold mul2 at h
  split at h <;> cases h
  · exact flagless rfl (mod64_mul ..) rfl
  · exact flagless rfl (mod64_mulh ..) rfl
  · exact flagless rfl rfl rfl
  · exact flagless rfl (mod64_mulhsu ..) rfl
  · exact flagged (mulFlags_div ..) (divide_div ..) rfl
  · exact flagged (mulFlags_divu ..) (divide_divu ..) rfl
  · exact flagless rfl (divide_rem ..) rfl
  · exact flagless rfl (divide_remu ..) rfl

/-- An immediate, one case for each row of R75 and R76. -/
theorem exec_aluI (h : aluI (s.rx a).v i = some (d, a, v)) :
    exec i s = .next ((s.wx d ⟨v, resultTag (s.rx a).t 255#8 i⟩).retire) := by
  unfold aluI at h
  split at h <;> cases h
  · exact put_completes issues (mod64_addi ..)
  · exact put_completes issues (ofNat_andi ..)
  · exact put_completes issues (ofNat_ori ..)
  · exact put_completes issues (ofNat_xori ..)
  · exact put_completes issues (one_slti ..)
  · exact put_completes issues (one_sltiu ..)
  · exact put_completes issues (mod64_shiftLeft ..)
  · exact put_completes issues (ofNat_ushiftRight ..)
  · exact put_completes issues (mod64_sshiftRight ..)
  · exact put_completes issues (mod64_rotateRight _ _ (BitVec.isLt _))

end

/-! Region queries (R111). -/

/-- KIND, PX, PW, PR and ECL of an entry as `rgnq` packs them. -/
theorem packed_attributes (e : Entry) :
    let v : Word := BitVec.ofNat 64 (e.kind.toNat * 64 + e.px.toNat * 32 + e.pw.toNat * 16 + e.pr.toNat * 8 + e.ecl.toNat)
    bits v.toNat 7 6 = e.kind.toNat ∧ v.getLsbD 5 = e.px ∧ v.getLsbD 4 = e.pw ∧ v.getLsbD 3 = e.pr ∧ bits v.toNat 2 0 = e.ecl.toNat ∧
      v.toNat < 256 := by
  intro v
  have kind := e.kind.isLt
  have ecl := e.ecl.isLt
  have px := e.px.toNat_le
  have pw := e.pw.toNat_le
  have pr := e.pr.toNat_le
  have whole : v.toNat = e.kind.toNat * 64 + e.px.toNat * 32 + e.pw.toNat * 16 + e.pr.toNat * 8 + e.ecl.toNat := by
    rw [BitVec.toNat_ofNat]
    omega
  have bit (j : Nat) (b : Bool) (place : v.toNat / 2 ^ j % 2 = b.toNat) : v.getLsbD j = b := by
    rw [BitVec.getLsbD, Nat.testBit_eq_decide_div_mod_eq, place]
    cases b <;> rfl
  refine ⟨?_, bit 5 _ ?_, bit 4 _ ?_, bit 3 _ ?_, ?_, ?_⟩ <;> simp only [whole, bits, Nat.shiftRight_eq_div_pow] <;> omega

theorem toNat_code (e : Entry) : (BitVec.ofNat 64 e.st.code : Word).toNat =
    match e.st with | .absent => 0 | .arriving => 1 | .resident => 2 | .evicting => 3 | .moving => 4 | .retired => 5 := by
  cases e.st <;> rfl

theorem toNat_regionField (e : Entry) :
    (regionField e 0).toNat = e.base.toNat ∧ (regionField e 1).toNat = e.size.toNat ∧ (regionField e 3).toNat = e.gen.toNat ∧
      (regionField e 5).toNat = e.prev.toNat :=
  ⟨BitVec.toNat_setWidth_of_le (by decide), BitVec.toNat_setWidth_of_le (by decide), BitVec.toNat_setWidth_of_le (by decide),
    BitVec.toNat_setWidth_of_le (by decide)⟩

section
variable {s : State} (d a : XReg)

theorem exec_lui (imm : BitVec 20) (issues : Issues (.lui d imm) s) :
    exec (.lui d imm) s = .next ((s.wx d ⟨mod64 (sext 32 (imm.toNat * 4096)), 255#8⟩).retire) := put_completes issues (mod64_upper imm)

theorem exec_luh (imm : BitVec 20) (issues : Issues (.luh d imm) s) :
    exec (.luh d imm) s = .next ((s.wx d ⟨((s.rx d).v &&& 0xFFF00000FFFFFFFF#64) ||| (zextW imm <<< 32), 255#8⟩).retire) :=
  put_completes issues rfl

theorem exec_adpc (imm : BitVec 20) (issues : Issues (.adpc d imm) s) :
    exec (.adpc d imm) s = .next ((s.wx d ⟨mod64 (s.pc.v.toNat + sext 32 (imm.toNat * 4096)), s.pc.t⟩).retire) :=
  put_completes issues (by rw [mod64_add_int, mod64_upper])

theorem exec_tagset (t : Tag) (issues : Issues (.tagset d a t) s) : exec (.tagset d a t) s = .next ((s.wx d ⟨(s.rx a).v, t⟩).retire) :=
  put_completes issues rfl

theorem exec_tagrd (issues : Issues (.tagrd d a) s) :
    exec (.tagrd d a) s = .next ((s.wx d ⟨BitVec.ofNat 64 (s.rx a).t.toNat, 255#8⟩).retire) := put_completes issues (BitVec.ofNat_toNat ..)

/-- What `rgnq` writes (R111). -/
def queried (s : State) (sel : BitVec 4) (r : BitVec 8) : Word :=
  let e := s.region (s.pair s.me).ctx.toNat r.toNat
  if r = 255#8 || e.size == 0#48 then 0#64 else regionField e sel.toNat

theorem exec_rgnq (sel : BitVec 4) (r : BitVec 8) (issues : Issues (.rgnq d sel r) s) :
    exec (.rgnq d sel r) s = .next ((s.wx d ⟨queried s sel r, 255#8⟩).retire) := put_completes issues rfl

end

theorem aluFamilyResults : AluFamilyResults := fun _ _ issues => ⟨fun _ _ _ _ => exec_alu2 issues, fun _ _ _ => exec_alu1 issues⟩
theorem mulFamilyResults : MulFamilyResults := fun _ _ _ _ _ _ issues => exec_mul2 issues
theorem immediateResults : ImmediateResults := fun _ _ _ _ _ issues => exec_aluI issues

theorem upperImmediateResults : UpperImmediateResults := by
  intro s d imm
  exact ⟨exec_lui d imm, fun issues => ⟨_, exec_luh d imm issues, replaced_bits (s.rx d).v imm⟩, exec_adpc d imm⟩

theorem tagAndRegionQueryResults : TagAndRegionQueryResults := by
  intro s d a t sel r e
  refine ⟨exec_tagset d a t, exec_tagrd d a, fun issues known => ⟨_, exec_rgnq d sel r issues, fun none_ => ?_, fun tagged used => ?_⟩⟩
  · simpa [queried] using fun x y => absurd none_ (by tauto)
  · have field : queried s sel r = regionField e sel.toNat := by simp [queried, tagged, used, e]
    rw [field]
    obtain ⟨base, size, gen, prev⟩ := toNat_regionField e
    refine ⟨?_, ?_, ?_, ?_, ?_, ?_⟩ <;> rintro rfl
    · exact base
    · exact size
    · exact toNat_code e
    · exact gen
    · exact packed_attributes e
    · exact prev

end Sys2Proof.Claims
end

section
/-! SUPPORT. The words of the instructions that compute in registers, branch and jump, and the words of their opcodes that name none (R27,
R29, R41, R73-R80, R82, R83, R109-R111). -/

namespace Sys2Proof

/-! ## The words that no row names -/

/-- The bytes of a word are read back as it. -/
theorem ofLE_leBytes_word (w : Nat) (small : w < 2 ^ 32) : ofLE (leBytes 4 w) = w := by
  simp only [leBytes, ofLE, BitVec.toNat_ofNat]
  omega

theorem decodeTableWord_scalar (w : Nat) (small : w < 2 ^ 32) : decodeTableWord 32 w = (decodeScalar w).toOption := by
  have bytes : decodeScalarBytes (leBytes 4 w) = match decodeScalar (ofLE (leBytes 4 w)) with
    | .ok i => .ok (i, [])
    | .error e => .error e := rfl
  rw [decodeTableWord, if_pos (by decide), bytes, ofLE_leBytes_word w small]
  cases decodeScalar w <;> rfl

/-- A result of decoding that is no instruction. -/
def Refuses (r : Except Bad Instr) : Prop := ∃ e, r = .error e

theorem decodeTableWord_of_refuses {w : Nat} (small : w < 2 ^ 32) (h : Refuses (checked (scalarRow w))) : decodeTableWord 32 w = none := by
  obtain ⟨e, row⟩ := h
  rw [decodeTableWord_scalar w small, decodeScalar, row]
  rfl

theorem refuses_checked {r : Except Bad Instr} (h : Refuses r) : Refuses (checked r) := by
  obtain ⟨e, rfl⟩ := h
  exact ⟨e, rfl⟩

/-- A field that must be zero and is not makes a word illegal, whatever the rest of it names (R29). -/
theorem refuses_checked_zeroF {v : Nat} {r : Except Bad Instr} (h : v ≠ 0 ∨ Refuses (checked r)) : Refuses (checked (zeroF v r)) := by
  by_cases zero : v = 0
  · rw [zeroF, if_pos zero]
    exact h.resolve_left (not_not_intro zero)
  · exact refuses_checked ⟨.zero, if_neg zero⟩

theorem refuses_decAlu {m : Nat} {d a b : XReg} (h : 27 ≤ m ∨ (18 ≤ m ∧ m ≤ 24 ∧ b ≠ 0#5)) : Refuses (decAlu m d a b) := by
  rcases h with absent | ⟨low, high, source⟩
  · obtain ⟨n, rfl⟩ := Nat.exists_eq_add_of_le' absent
    exact ⟨.member, rfl⟩
  · have unary (i : Instr) : Refuses (ifZ b i) := ⟨.zero, if_neg source⟩
    interval_cases m <;> exact unary _

theorem refuses_decMul {m : Nat} {d a b : XReg} (absent : 8 ≤ m) : Refuses (decMul m d a b) := by
  obtain ⟨n, rfl⟩ := Nat.exists_eq_add_of_le' absent
  exact ⟨.member, rfl⟩

theorem refuses_decBranch {m : Nat} {a b : XReg} {off : BitVec 12} (absent : 6 ≤ m) : Refuses (decBranch m a b off) := by
  obtain ⟨n, rfl⟩ := Nat.exists_eq_add_of_le' absent
  exact ⟨.member, rfl⟩

/-- The members of the opcode of `qbt` and `qbf` (R83). -/
def decQueueBranch (m : Nat) (off : BitVec 12) : Except Bad Instr :=
  match m with
  | 0 => .ok (.qbt off)
  | 1 => .ok (.qbf off)
  | _ => .error .member

theorem refuses_decQueueBranch {m : Nat} {off : BitVec 12} (absent : 2 ≤ m) : Refuses (decQueueBranch m off) := by
  obtain ⟨n, rfl⟩ := Nat.exists_eq_add_of_le' absent
  exact ⟨.member, rfl⟩

/-- A region-table entry has no field above 5 (R111). -/
theorem refuses_checked_rgnq {d : XReg} {sel : BitVec 4} {r : BitVec 8} (absent : 6 ≤ sel.toNat) : Refuses (checked (.ok (.rgnq d sel r))) := by
  have bad : (Instr.rgnq d sel r).fieldsOk = false := decide_eq_false (by omega)
  exact ⟨.field, by simp [checked, bad]⟩

/-! The row of a word, by its opcode (R41). -/

section
variable {w : Nat}

theorem scalarRow_alu (op : bits w 31 25 = 1) : scalarRow w = zeroF (bits w 9 5) (decAlu (bits w 4 0) (fD w) (fA w) (fB w)) := by
  rw [scalarRow, op]
  rfl
theorem scalarRow_mul (op : bits w 31 25 = 2) : scalarRow w = zeroF (bits w 9 5) (decMul (bits w 4 0) (fD w) (fA w) (fB w)) := by
  rw [scalarRow, op]
  rfl
theorem scalarRow_shiftImm (op : bits w 31 25 = 9) :
    scalarRow w = zeroF (bits w 12 6) (decShiftImm (bits w 14 13) (fD w) (fA w) (BitVec.ofNat 6 (bits w 5 0))) := by
  rw [scalarRow, op]
  rfl
theorem scalarRow_tagset (op : bits w 31 25 = 0x2A) :
    scalarRow w = zeroF (bits w 14 8) (.ok (.tagset (fD w) (fA w) (BitVec.ofNat 8 (bits w 7 0)))) := by
  rw [scalarRow, op]
  rfl
theorem scalarRow_tagrd (op : bits w 31 25 = 0x2B) : scalarRow w = zeroF (bits w 14 0) (.ok (.tagrd (fD w) (fA w))) := by
  rw [scalarRow, op]
  rfl
theorem scalarRow_rgnq (op : bits w 31 25 = 0x2E) : scalarRow w =
    zeroF (bits w 19 15) (zeroF (bits w 14 12) (.ok (.rgnq (fD w) (BitVec.ofNat 4 (bits w 11 8)) (BitVec.ofNat 8 (bits w 7 0))))) := by
  rw [scalarRow, op]
  rfl
theorem scalarRow_branch (op : bits w 31 25 = 0x10) : scalarRow w = decBranch (bits w 14 12) (fD w) (fA w) (fOff w) := by
  rw [scalarRow, op]
  rfl
theorem scalarRow_queueBranch (op : bits w 31 25 = 0x13) : scalarRow w = zeroF (bits w 24 15) (decQueueBranch (bits w 14 12) (fOff w)) := by
  rw [scalarRow, op]
  rfl
theorem scalarRow_bout (op : bits w 31 25 = 0x32) : scalarRow w = zeroF (bits w 24 20) (zeroF (bits w 14 0) (.ok (.bout (fA w)))) := by
  rw [scalarRow, op]
  rfl

theorem bits_lt (hi lo : Nat) : bits w hi lo < 2 ^ (hi + 1 - lo) := Nat.mod_lt _ (by positivity)

/-- The word of an illegal member of the families that compute in registers. -/
theorem refuses_registerWord (h :
    (bits w 31 25 = 1 ∧ (27 ≤ bits w 4 0 ∨ bits w 9 5 ≠ 0 ∨ (18 ≤ bits w 4 0 ∧ bits w 4 0 ≤ 24 ∧ bits w 14 10 ≠ 0))) ∨
    (bits w 31 25 = 2 ∧ (8 ≤ bits w 4 0 ∨ bits w 9 5 ≠ 0)) ∨ (bits w 31 25 = 9 ∧ bits w 12 6 ≠ 0) ∨
    (bits w 31 25 = 0x2A ∧ bits w 14 8 ≠ 0) ∨ (bits w 31 25 = 0x2B ∧ bits w 14 0 ≠ 0) ∨
    (bits w 31 25 = 0x2E ∧ (6 ≤ bits w 11 8 ∨ bits w 14 12 ≠ 0 ∨ bits w 19 15 ≠ 0))) :
    Refuses (checked (scalarRow w)) := by
  rcases h with ⟨op, bad⟩ | ⟨op, bad⟩ | ⟨op, bad⟩ | ⟨op, bad⟩ | ⟨op, bad⟩ | ⟨op, bad⟩
  · have source (nonzero : bits w 14 10 ≠ 0) : fB w ≠ 0#5 := by
      have small : bits w 14 10 < 2 ^ 5 := bits_lt 14 10
      intro zero
      rw [fB, ← BitVec.toNat_inj, BitVec.toNat_ofNat, Nat.mod_eq_of_lt small] at zero
      exact nonzero zero
    rw [scalarRow_alu op]
    rcases bad with absent | zero | ⟨low, high, nonzero⟩
    · exact refuses_checked_zeroF (.inr (refuses_checked (refuses_decAlu (.inl absent))))
    · exact refuses_checked_zeroF (.inl zero)
    · exact refuses_checked_zeroF (.inr (refuses_checked (refuses_decAlu (.inr ⟨low, high, source nonzero⟩))))
  · rw [scalarRow_mul op]
    exact refuses_checked_zeroF (bad.symm.imp_right fun absent => refuses_checked (refuses_decMul absent))
  · rw [scalarRow_shiftImm op]
    exact refuses_checked_zeroF (.inl bad)
  · rw [scalarRow_tagset op]
    exact refuses_checked_zeroF (.inl bad)
  · rw [scalarRow_tagrd op]
    exact refuses_checked_zeroF (.inl bad)
  · have small : bits w 11 8 < 2 ^ 4 := bits_lt 11 8
    rw [scalarRow_rgnq op]
    rcases bad with absent | zero | zero
    · exact refuses_checked_zeroF (.inr (refuses_checked_zeroF (.inr (refuses_checked_rgnq (by
        rw [BitVec.toNat_ofNat, Nat.mod_eq_of_lt small]
        exact absent)))))
    · exact refuses_checked_zeroF (.inr (refuses_checked_zeroF (.inl zero)))
    · exact refuses_checked_zeroF (.inl zero)

/-- The same of branches and the outcome queue. -/
theorem refuses_branchWord (h :
    (bits w 31 25 = 0x10 ∧ 6 ≤ bits w 14 12) ∨ (bits w 31 25 = 0x13 ∧ (2 ≤ bits w 14 12 ∨ bits w 24 15 ≠ 0)) ∨
    (bits w 31 25 = 0x32 ∧ (bits w 24 20 ≠ 0 ∨ bits w 14 0 ≠ 0))) : Refuses (checked (scalarRow w)) := by
  rcases h with ⟨op, absent⟩ | ⟨op, bad⟩ | ⟨op, bad⟩
  · rw [scalarRow_branch op]
    exact refuses_checked (refuses_decBranch absent)
  · rw [scalarRow_queueBranch op]
    exact refuses_checked_zeroF (bad.symm.imp_right fun absent => refuses_checked (refuses_decQueueBranch absent))
  · rw [scalarRow_bout op]
    exact refuses_checked_zeroF (bad.imp_right fun zero => refuses_checked_zeroF (.inl zero))

end

/-! ## The words of instructions -/

/-- The opcode of a branch and its fields (R27, R78). -/
theorem decodeScalar_branch (a b : XReg) (off : BitVec 12) (n : Nat) (small : n < 8) :
    decodeScalar (0x10 * 2 ^ 25 + a.toNat * 2 ^ 20 + b.toNat * 2 ^ 15 + n * 2 ^ 12 + off.toNat) = checked (decBranch n a b off) := by
  have ha := a.isLt
  have hb := b.isLt
  have ho := off.isLt
  generalize word : 0x10 * 2 ^ 25 + a.toNat * 2 ^ 20 + b.toNat * 2 ^ 15 + n * 2 ^ 12 + off.toNat = w
  have fields : bits w 31 25 = 0x10 ∧ bits w 24 20 = a.toNat ∧ bits w 19 15 = b.toNat ∧ bits w 14 12 = n ∧ bits w 11 0 = off.toNat := by
    simp only [bits, Nat.shiftRight_eq_div_pow]
    omega
  obtain ⟨op, fieldA, fieldB, member, offset⟩ := fields
  rw [decodeScalar, scalarRow_branch op, fD, fA, fOff, fieldA, fieldB, member, offset]
  simp only [BitVec.ofNat_toNat, BitVec.setWidth_eq]

/-- The registers of an R word and of an I word side by side. -/
theorem encR_eq (op d a b fn : Nat) : encR op d a b fn = op * 2 ^ 25 + (d * 2 ^ 20 + a * 2 ^ 15 + b * 2 ^ 10) + fn := by
  rw [encR]
  omega
theorem encI_eq (op d a imm : Nat) : encI op d a imm = op * 2 ^ 25 + (d * 2 ^ 20 + a * 2 ^ 15) + imm := by
  rw [encI]
  omega

end Sys2Proof

namespace Sys2Proof.Claims

/-! The members of each family and their numbers (R73-R78, R83): each is checked by the encoder's own row. -/

section
variable (d a b : XReg)

theorem encode_alu2 : ∀ e ∈ [(0, Instr.add d a b), (1, .sub d a b), (2, .and_ d a b), (3, .or_ d a b), (4, .xor_ d a b), (5, .sll d a b),
    (6, .srl d a b), (7, .sra d a b), (8, .slt d a b), (9, .sltu d a b), (10, .seq_ d a b), (11, .sne d a b), (12, .min_ d a b), (13, .max_ d a b),
    (14, .minu d a b), (15, .maxu d a b), (16, .andn d a b), (17, .orn d a b), (25, .rol d a b), (26, .ror d a b)],
    encode e.2 = .w32 (1 * 2 ^ 25 + (d.toNat * 2 ^ 20 + a.toNat * 2 ^ 15 + b.toNat * 2 ^ 10) + e.1) := by
  intro e member
  rw [← encR_eq]
  fin_cases member <;> rfl

theorem encode_alu1 : ∀ e ∈ [(18, Instr.clz d a), (19, .ctz d a), (20, .popc d a), (21, .sextb d a), (22, .sexth d a), (23, .sextw d a),
    (24, .zextw d a)], encode e.2 = .w32 (1 * 2 ^ 25 + d.toNat * 2 ^ 20 + a.toNat * 2 ^ 15 + e.1) := by
  intro e member
  fin_cases member <;> rfl

theorem encode_mul2 : ∀ e ∈ [(0, Instr.mul_ d a b), (1, .mulh d a b), (2, .mulhu d a b), (3, .mulhsu d a b), (4, .div_ d a b), (5, .divu d a b),
    (6, .rem d a b), (7, .remu d a b)],
    encode e.2 = .w32 (2 * 2 ^ 25 + (d.toNat * 2 ^ 20 + a.toNat * 2 ^ 15 + b.toNat * 2 ^ 10) + e.1) := by
  intro e member
  rw [← encR_eq]
  fin_cases member <;> rfl

theorem encode_aluI (imm : BitVec 15) : ∀ e ∈ [(3, Instr.addi d a imm), (4, .andi d a imm), (5, .ori d a imm), (6, .xori d a imm),
    (7, .slti d a imm), (8, .sltiu d a imm)], encode e.2 = .w32 (e.1 * 2 ^ 25 + (d.toNat * 2 ^ 20 + a.toNat * 2 ^ 15) + imm.toNat) := by
  intro e member
  rw [← encI_eq]
  fin_cases member <;> rfl

theorem encode_shiftImm (n : BitVec 6) : ∀ e ∈ [(0, Instr.slli d a n), (1, .srli d a n), (2, .srai d a n), (3, .rori d a n)],
    encode e.2 = .w32 (9 * 2 ^ 25 + (d.toNat * 2 ^ 20 + a.toNat * 2 ^ 15) + e.1 * 2 ^ 13 + n.toNat) := by
  intro e member
  rw [Nat.add_assoc, ← encI_eq]
  fin_cases member <;> rfl

theorem encode_upper (u : BitVec 20) : ∀ e ∈ [(10, Instr.lui d u), (11, .luh d u), (12, .adpc d u)],
    encode e.2 = .w32 (e.1 * 2 ^ 25 + d.toNat * 2 ^ 20 + u.toNat) := by
  intro e member
  fin_cases member <;> rfl

theorem encode_branch (off : BitVec 12) : ∀ e ∈ [(0, Instr.beq a b off), (1, .bne a b off), (2, .blt a b off), (3, .bge a b off),
    (4, .bltu a b off), (5, .bgeu a b off)],
    encode e.2 = .w32 (0x10 * 2 ^ 25 + a.toNat * 2 ^ 20 + b.toNat * 2 ^ 15 + e.1 * 2 ^ 12 + off.toNat) := by
  intro e member
  fin_cases member <;> rfl

theorem encode_queueBranch (off : BitVec 12) : ∀ e ∈ [(0, Instr.qbt off), (1, .qbf off)],
    encode e.2 = .w32 (0x13 * 2 ^ 25 + e.1 * 2 ^ 12 + off.toNat) := by
  intro e member
  fin_cases member <;> rfl

theorem encode_tagset (t : Tag) : encode (.tagset d a t) = .w32 (0x2A * 2 ^ 25 + (d.toNat * 2 ^ 20 + a.toNat * 2 ^ 15) + t.toNat) :=
  congrArg Enc.w32 (encI_eq ..)
theorem encode_rgnq (sel : BitVec 4) (r : BitVec 8) :
    encode (.rgnq d sel r) = .w32 (0x2E * 2 ^ 25 + d.toNat * 2 ^ 20 + sel.toNat * 2 ^ 8 + r.toNat) :=
  congrArg Enc.w32 (by rw [encI, Nat.zero_mul, Nat.add_zero, Nat.add_assoc _ (sel.toNat * 2 ^ 8)])
theorem encode_bout : encode (.bout a) = .w32 (0x32 * 2 ^ 25 + a.toNat * 2 ^ 15) :=
  congrArg Enc.w32 (by rw [encI, Nat.zero_mul, Nat.add_zero, Nat.add_zero])

end

theorem registerWordEncodings : RegisterWordEncodings := by
  refine ⟨?_, ?_, fun w small bad => decodeTableWord_of_refuses small (refuses_registerWord bad)⟩
  · intro d a b m i w
    exact ⟨encode_alu2 d a b _, encode_alu1 d a _, encode_mul2 d a b _, rfl⟩
  · intro d a imm n u t sel op i w
    exact ⟨encode_aluI d a imm _, encode_shiftImm d a n _, encode_upper d u _, encode_tagset d a t, encode_rgnq d sel t⟩

/-- Settles O7, from one lemma for each result of the tables of R73 to R77 and one for each opcode's illegal words. -/
theorem registerWordResults : Obligations.RegisterWordResults :=
  ⟨aluFamilyResults, mulFamilyResults, immediateResults, upperImmediateResults, tagAndRegionQueryResults, registerWordEncodings⟩

theorem branchWordEncodings : BranchWordEncodings :=
  ⟨fun _ a b off _ _ _ _ => ⟨encode_branch a b off _, encode_queueBranch off _, rfl, rfl, encode_bout a⟩,
    fun _ small bad => decodeTableWord_of_refuses small (refuses_branchWord bad)⟩

/-- Settles O3: each word the manual writes out is decoded. -/
theorem manualWordsDecode : Obligations.ManualWordsDecode := by
  unfold Obligations.ManualWordsDecode
  decide

end Sys2Proof.Claims
end

section
/-! SUPPORT. Branches, jumps and the outcome queue (R78-R84): the checks of a target, and what each word leaves. -/

namespace Sys2Proof.Machine

open Sys2Proof.Safety Sys2Proof.Claims

/-! ## Targets (R28, R81) -/

theorem Entry.covers_iff (e : Entry) (a n : Nat) :
    e.covers a n = true ↔ e.size ≠ 0#48 ∧ e.base.toNat ≤ a ∧ a + n ≤ e.base.toNat + e.size.toNat := by
  simp [Entry.covers, and_assoc]

section
variable {s : State} {viaReg : Bool} {t : Val}

/-- The checks of a target in a region (R81). -/
def checkInRegion (e : Entry) (viaReg : Bool) (t : Val) : Res Unit :=
  if t.t = untag then trapR 0x05#8 t.v
  else if !e.covers t.v.toNat 4 then trapR 0x05#8 t.v
  else if viaReg && !(e.kind == 1#2 && e.px) then trapR 0x05#8 t.v
  else .ok ()

theorem checkInRegion_eq (e : Entry) (viaReg : Bool) (t : Val) :
    let inside := t.t ≠ 255#8 ∧ e.size ≠ 0#48 ∧ e.base.toNat ≤ t.v.toNat ∧ t.v.toNat + 4 ≤ e.base.toNat + e.size.toNat
    let code := viaReg = true → e.kind = 1#2 ∧ e.px = true
    (inside ∧ code → checkInRegion e viaReg t = .ok ()) ∧ (¬ (inside ∧ code) → checkInRegion e viaReg t = trapR 0x05#8 t.v) := by
  intro inside code
  have covered : inside ↔ t.t ≠ untag ∧ e.covers t.v.toNat 4 = true := by rw [Entry.covers_iff]; rfl
  have fetched : code ↔ (viaReg && !(e.kind == 1#2 && e.px)) = false := by cases viaReg <;> simp [code]
  rw [covered, fetched, checkInRegion]
  by_cases tagged : t.t = untag
  · simp [tagged]
  · cases e.covers t.v.toNat 4 <;> cases viaReg && !(e.kind == 1#2 && e.px) <;> simp [tagged]

/-- A target in place passes when it lies in its code, and else is a bounds trap. -/
theorem checkTarget_aligned (aligned : viaReg = true → t.v.toNat % 4 = 0) :
    (targetOk s t ∧ (viaReg = true → targetCode s t) → checkTarget s viaReg t = .ok ()) ∧
    (¬ (targetOk s t ∧ (viaReg = true → targetCode s t)) → checkTarget s viaReg t = trapR 0x05#8 t.v) := by
  have inPlace : ¬ (viaReg && t.v.toNat % 4 != 0) = true := by cases viaReg <;> simp_all
  rw [checkTarget, if_neg inPlace]
  unfold targetOk targetCode
  cases s.cur with
  | fcore d c => by_cases low : Config.isramBase ≤ t.v.toNat <;> by_cases high : t.v.toNat + 4 ≤ Config.dsramBase <;> simp [inIsram, low, high]
  | thr p k => exact checkInRegion_eq ..
  | lanes p => exact checkInRegion_eq ..
  | engine p => exact checkInRegion_eq ..
  | nobody => exact checkInRegion_eq ..

theorem checkTarget_misaligned (bad : t.v.toNat % 4 ≠ 0) : checkTarget s true t = trapR 0x06#8 t.v := by simp [checkTarget, bad]

/-- The target of a word's offset is the address that many words on. -/
theorem target4_eq_wordAt {k : Nat} (off : BitVec k) (pos : 0 < k) : target4 s off = wordAt s (sext k off.toNat) := by
  have scaled : sextW off <<< 2 = mod64 (4 * sext k off.toNat) := by
    rw [mod64_eq_ofInt, BitVec.ofInt_mul, ← mod64_eq_ofInt (sext _ _), mod64_sext_toNat off pos]
    apply BitVec.eq_of_toNat_eq
    rw [BitVec.toNat_shiftLeft, BitVec.toNat_mul, Nat.shiftLeft_eq, Nat.mul_comm]
    rfl
  rw [target4, wordAt, mod64_add_int, scaled]

end

/-! ## A change of the pair whose thread has the turn -/

theorem State.updPair_updPair (s : State) (p : Nat) (f g : Pair → Pair) : (s.updPair p f).updPair p g = s.updPair p (fun q => g (f q)) := by
  rw [State.updPair, State.updPair, State.setPair_pair_self, State.updPair]
  simp only [State.setPair, Tab.set_set]

theorem State.updPair_pair_self (s : State) (p : Nat) (f : Pair → Pair) : (s.updPair p f).pair p = f (s.pair p) := State.setPair_pair_self ..

theorem onlyPair_updPair (s : State) (p : Nat) (f : Pair → Pair) : OnlyPair s (s.updPair p f) p :=
  ⟨rfl, rfl, fun p' ne => by rw [State.updPair, State.setPair_pair, if_neg ne]⟩

section
variable {s : State} {p : Nat} {k : Kind} (hc : s.cur = .thr p k)
include hc

theorem State.retireTo_updPair (f : Pair → Pair) (t : Val) :
    (s.updPair p f).retireTo t = s.updPair p (fun q => (f q).setThr k (((f q).thr k).retireAt t)) := by
  rw [State.retireTo]
  simp only [State.updPair_cur, hc, State.me, State.meK]
  exact State.updPair_updPair s p f (fun q => q.setThr k ((q.thr k).retireAt t))

theorem State.pc_updPair (f : Pair → Pair) (keeps : ((f (s.pair p)).thr k).pc = ((s.pair p).thr k).pc) : (s.updPair p f).pc = s.pc := by
  rw [State.pc_of_cur (s := s.updPair p f) hc, State.thr_of_cur (s := s.updPair p f) hc, State.updPair_pair_self, keeps, State.pc_of_cur hc,
    State.thr_of_cur hc]

theorem State.retire_updPair (f : Pair → Pair) (keeps : ((f (s.pair p)).thr k).pc = ((s.pair p).thr k).pc) :
    (s.updPair p f).retire = s.updPair p (fun q => (f q).setThr k (((f q).thr k).retireAt s.nextPc)) := by
  rw [State.retire, State.retireTo_updPair hc, State.nextPc, State.pc_updPair hc f keeps, State.nextPc]

theorem State.stall_other : s.stall .other = s.updThr p k (fun t => { t with wait := .other, onRgn := none }) := by
  simp [State.stall, hc, waitCls]
theorem State.stall_queueMem : s.stall .queueMem = s.updThr p k (fun t => { t with wait := .mem, onRgn := none }) := by
  simp [State.stall, hc, waitCls]

end

end Sys2Proof.Machine

namespace Sys2Proof.Claims

open Sys2Proof.Machine Sys2Proof.Safety

/-! ## Branches (R78) -/

theorem branch_not_taken (s : State) (off : BitVec 12) : branch s false off = .ok s.retire := rfl

theorem branch_taken {s : State} {off : BitVec 12} (ok : targetOk s (wordAt s (sext 12 off.toNat))) :
    branch s true off = .ok (s.retireTo (wordAt s (sext 12 off.toNat))) := by
  rw [branch, if_pos rfl, target4_eq_wordAt off (by decide), (checkTarget_aligned (by simp)).1 ⟨ok, by simp⟩]

theorem branch_out_of_bounds {s : State} {off : BitVec 12} (bad : ¬ targetOk s (wordAt s (sext 12 off.toNat))) :
    branch s true off = trapR 0x05#8 (wordAt s (sext 12 off.toNat)).v := by
  rw [branch, if_pos rfl, target4_eq_wordAt off (by decide), (checkTarget_aligned (by simp)).2 (fun h => bad h.1)]
  rfl

theorem exec_branch {i : Instr} {s : State} {a b : XReg} {o : BitVec 12} {c : Bool} (issues : Issues i s)
    (h : branchOf (s.rx a).v (s.rx b).v i = some (a, b, o, c)) : exec i s = finish s (branch s c o) := by
  have runs {c' : Bool} (same : c = c') : scalar i s (branch s c' o) = finish s (branch s c o) := by rw [scalar_issues _ _ _ issues, same]
  unfold branchOf at h
  split at h <;> cases h
  · exact runs (beq_eq_decide ..).symm
  · exact runs (by rw [bne, beq_eq_decide, decide_not])
  · exact runs (slt_eq_decide ..).symm
  · exact runs (by rw [slt_eq_decide, ← decide_not]; simp only [not_lt])
  · exact runs rfl
  · exact runs (by rw [BitVec.ult, ← decide_not]; simp only [not_lt])

theorem branchResults : BranchResults := by
  refine ⟨fun i s a b o c issues h => ?_, fun a b o n small => ?_⟩
  · rw [exec_branch issues h]
    refine ⟨?_, ?_, ?_⟩ <;> rintro rfl
    · rfl
    · intro ok
      rw [branch_taken ok, finish_ok]
    · intro bad
      rw [branch_out_of_bounds bad]
      rfl
  · rw [decodeScalar_branch a b o n small]
    interval_cases n <;> rfl

/-! ## Jumps (R79, R80) -/

theorem nextPc_eq (s : State) : s.nextPc = ⟨mod64 (s.pc.v.toNat + 4), s.pc.t⟩ := by
  rw [State.nextPc, mod64_add_int]
  rfl

theorem jump_passes {s : State} {viaReg : Bool} {t : Val} (d : XReg) (ok : checkTarget s viaReg t = .ok ()) :
    jump s viaReg d t = .ok ((s.wx d ⟨mod64 (s.pc.v.toNat + 4), s.pc.t⟩).retireTo t) := by
  rw [jump, ok, ← nextPc_eq]
theorem jump_traps {s : State} {viaReg : Bool} {t : Val} {c : BitVec 8} (d : XReg) (bad : checkTarget s viaReg t = trapR c t.v) :
    jump s viaReg d t = trapR c t.v := by
  rw [jump, bad]
  rfl

theorem exec_jl {s : State} (d : XReg) (off : BitVec 20) (issues : Issues (.jl d off) s) :
    exec (.jl d off) s = finish s (jump s false d (wordAt s (sext 20 off.toNat))) := by
  rw [← target4_eq_wordAt off (by decide), ← scalar_issues _ _ _ issues]
  rfl

theorem exec_jlr {s : State} (d a : XReg) (imm : BitVec 15) (issues : Issues (.jlr d a imm) s) :
    exec (.jlr d a imm) s = finish s (jump s true d ⟨mod64 ((s.rx a).v.toNat + sext 15 imm.toNat), (s.rx a).t⟩) := by
  rw [mod64_addi, ← scalar_issues _ _ _ issues]
  rfl

theorem jumpResults : JumpResults := by
  intro s d a off imm link t u
  refine ⟨fun issues ok => ?_, fun issues bad => ?_, fun issues aligned ok code => ?_, fun issues odd => ?_,
    fun issues aligned bad => ?_, rfl, rfl⟩
  · rw [exec_jl d off issues, jump_passes d ((checkTarget_aligned (by simp)).1 ⟨ok, by simp⟩), finish_ok]
  · rw [exec_jl d off issues, jump_traps d ((checkTarget_aligned (by simp)).2 fun h => bad h.1)]
    rfl
  · rw [exec_jlr d a imm issues, jump_passes d ((checkTarget_aligned fun _ => aligned).1 ⟨ok, fun _ => code⟩), finish_ok]
  · rw [exec_jlr d a imm issues, jump_traps d (checkTarget_misaligned odd)]
    rfl
  · rw [exec_jlr d a imm issues, jump_traps d ((checkTarget_aligned fun _ => aligned).2 fun h => bad ⟨h.1, h.2 rfl⟩)]
    rfl

/-! ## The outcome queue (R82-R84) -/

section
variable {s : State} {p : Nat}

theorem exec_bout (a : XReg) (run : Runs (.bout a) s (.thr p .A)) (stays : (s.pair p).x.halt ≠ .exited) :
    let v := decide ((s.rx a).v ≠ 0#64)
    exec (.bout a) s = .next (if 64 ≤ (s.pair p).bq.length then s.stall .other
      else (s.updPair p (fun q => { q with bq := q.bq ++ [v], a := { q.a with bout := v } })).retire) := by
  obtain ⟨hc, issues⟩ := run
  intro v
  have outcome : ((s.rx a).v != 0#64) = v := by rw [bne, beq_eq_decide, ← decide_not]
  show execBout a s = _
  rw [execBout, scalar_issues _ _ _ issues, State.me_of_cur hc, outcome]
  simp only [if_neg stays]
  split <;> rfl

theorem exec_queueBranch (want : Bool) (off : BitVec 12) (run : Runs (if want then .qbt off else .qbf off) s (.thr p .X)) :
    exec (if want then .qbt off else .qbf off) s = finish s (queueBranch s want off) := by
  obtain ⟨hc, issues⟩ := run
  rw [← scalar_issues _ _ _ issues]
  cases want <;> rfl

/-- A thread that waits at its word leaves its pair's queues, its PC and its count of words. -/
theorem waits_at_word {k : Kind} (hc : s.cur = .thr p k) (c : WaitCls) :
    let n := s.updThr p k (fun t => { t with wait := c, onRgn := none })
    OnlyPair s n p ∧ (n.pair p).bq = (s.pair p).bq ∧ n.pc = s.pc ∧ n.thr.retired = s.thr.retired := by
  intro n
  refine ⟨onlyPair_updThr .., ?_, ?_, ?_⟩
  · rw [State.updThr_pair_self, Pair.setThr_bq]
  · rw [State.pc_updThr hc, State.pc_of_cur hc]
  · rw [State.thr_updThr hc]

variable (hc : s.cur = .thr p .X)
include hc

theorem queueBranch_empty (want : Bool) (off : BitVec 12) (empty : (s.pair p).bq = []) :
    queueBranch s want off = if (s.pair p).a.halt = .exited then trapR 0x10#8 1#64 else stallR .queueMem := by
  rw [queueBranch, bqHead, State.me_of_cur hc, empty]
  by_cases gone : (s.pair p).a.halt = .exited
  · simp only [if_pos gone]
    rfl
  · simp only [if_neg gone]
    rfl

theorem queueBranch_head (want : Bool) (off : BitVec 12) {b : Bool} {rest : List Bool} (head : (s.pair p).bq = b :: rest) :
    queueBranch s want off = branch (popBq s) (b == want) off := by
  rw [queueBranch, bqHead, State.me_of_cur hc, head]

theorem popBq_of_cur : popBq s = s.updPair p (fun q => { q with bq := q.bq.tail }) := by rw [popBq, State.me_of_cur hc]

/-- A pop of bq moves neither the PC nor the checks of a target. -/
theorem wordAt_popBq (off : Int) : wordAt (popBq s) off = wordAt s off := by
  rw [popBq_of_cur hc, wordAt, State.pc_updPair hc _ rfl, wordAt]
theorem targetOk_popBq (t : Val) : targetOk (popBq s) t ↔ targetOk s t := by
  rw [popBq_of_cur hc]
  simp [targetOk, hc, State.me, State.updPair]

/-- Popping bq and going on at t. -/
theorem popBq_retireTo (t : Val) {b : Bool} {rest : List Bool} (head : (s.pair p).bq = b :: rest) :
    OnlyPair s ((popBq s).retireTo t) p ∧ ((popBq s).retireTo t).pair p = { s.pair p with bq := rest, x := (s.pair p).x.retireAt t } := by
  rw [popBq_of_cur hc, State.retireTo_updPair hc]
  refine ⟨onlyPair_updPair .., ?_⟩
  rw [State.updPair_pair_self, head]
  rfl

theorem popBq_nextPc : (popBq s).nextPc = s.nextPc := by
  rw [popBq_of_cur hc, State.nextPc, State.pc_updPair hc _ rfl, State.nextPc]

end

theorem outcomeQueue : OutcomeQueue := by
  intro s p a off want q i t
  refine ⟨fun run stays room => ?_, fun run stays full => ?_, fun run b rest head => ?_, fun run empty gone => ?_, fun run empty stays => ?_⟩
  · refine ⟨_, (exec_bout a run stays).trans (congrArg _ (if_neg (Nat.not_le.mpr room))), ?_⟩
    rw [State.retire_updPair run.1 _ rfl]
    exact ⟨onlyPair_updPair .., State.updPair_pair_self ..⟩
  · refine ⟨_, (exec_bout a run stays).trans (congrArg _ (if_pos full)), ?_⟩
    rw [State.stall_other run.1]
    exact waits_at_word run.1 _
  · have hc := run.1
    have popped := (exec_queueBranch want off run).trans (congrArg (finish s) (queueBranch_head hc want off head))
    have there : wordAt (popBq s) (sext 12 off.toNat) = t := wordAt_popBq hc _
    refine ⟨fun other => ?_, ?_⟩
    · rw [beq_eq_false_iff_ne.mpr other, branch_not_taken, State.retire, popBq_nextPc hc] at popped
      exact ⟨_, popped, popBq_retireTo hc _ head⟩
    · refine ⟨fun same ok => ?_, fun same bad => ?_⟩ <;> rw [same, beq_self_eq_true] at popped
      · rw [branch_taken (by rw [there]; exact (targetOk_popBq hc t).mpr ok), there] at popped
        exact ⟨_, popped, popBq_retireTo hc _ head⟩
      · rw [branch_out_of_bounds (by rw [there]; exact mt (targetOk_popBq hc t).mp bad), there] at popped
        exact popped
  · rw [exec_queueBranch want off run, queueBranch_empty run.1 want off empty, if_pos gone]
    rfl
  · refine ⟨s.stall .queueMem, ?_, ?_⟩
    · rw [exec_queueBranch want off run, queueBranch_empty run.1 want off empty, if_neg stays]
      rfl
    · rw [State.stall_queueMem run.1, ← empty]
      exact waits_at_word run.1 _

/-- Settles O8, from the checks of a target in place and what a pop of bq leaves of them. -/
theorem branchJumpAndOutcomeWords : Obligations.BranchJumpAndOutcomeWords := ⟨branchResults, jumpResults, outcomeQueue, branchWordEncodings⟩

end Sys2Proof.Claims
end

section
/-! SUPPORT. The register file and the frame of the words that compute in it (R71-R77, R109-R111). -/

namespace Sys2Proof.Machine

open Sys2Proof.Safety Sys2Proof.Claims

/-! ## The register file (R71) -/

theorem State.wx_zero_val (s : State) (v w : Val) : s.wx 0#5 v = s.wx 0#5 w := by
  unfold State.wx
  split
  · rfl
  · simp only [Thread.wr_zero]

theorem State.rx_zero (s : State) : s.rx 0#5 = ⟨0#64, 255#8⟩ := by
  unfold State.rx
  split
  · rfl
  · exact Thread.rd_zero _

/-- A register after a write to it or to another, for a firmware core. -/
theorem State.fcore_rx_wx {s : State} {e c : Nat} (hc : s.cur = .fcore e c) {r : XReg} (nonzero : r ≠ 0#5) (v : Val) (q : XReg) :
    (s.wx r v).rx q = if q = r then ⟨v.v, 255#8⟩ else s.rx q := by
  have written : s.wx r v = s.updF e c (fun f => { f with x := f.x.set r.toNat v.v r.isLt }) := by simp [State.wx, hc, nonzero]
  rw [State.rx_of_fcore (s := s.wx r v) (by rw [State.wx_cur, hc]), written, State.rx_of_fcore hc, State.fcore_updF]
  by_cases zero : q = 0#5
  · simp [zero, nonzero.symm]
  · by_cases same : q = r
    · subst same
      simp [zero]
    · have apart : r.toNat ≠ q.toNat := fun h => same (BitVec.eq_of_toNat_eq h.symm)
      simp [zero, same, apart]

section
variable {s : State} (noCore : ∀ e c, s.cur ≠ .fcore e c)
include noCore

theorem State.rx_of_noCore (q : XReg) : s.rx q = s.thr.rd q := by
  unfold State.rx
  split
  · exact absurd ‹_› (noCore _ _)
  · rfl

theorem State.wx_of_noCore (r : XReg) (v : Val) : s.wx r v = s.updThr s.me s.meK (fun t => t.wr r v) := by
  unfold State.wx
  split
  · exact absurd ‹_› (noCore _ _)
  · rfl

theorem State.rx_wx_of_noCore (r : XReg) (v : Val) (q : XReg) : (s.wx r v).rx q = (s.thr.wr r v).rd q := by
  have agent : (s.wx r v).me = s.me ∧ (s.wx r v).meK = s.meK := by simp only [State.me, State.meK, State.wx_cur, and_self]
  have thr : (s.wx r v).thr = s.thr.wr r v := by
    rw [State.thr, agent.1, agent.2, State.wx_of_noCore noCore, State.updThr_pair_self, Pair.setThr_thr]
    rfl
  rw [State.rx_of_noCore (by rw [State.wx_cur]; exact noCore), thr]

end

/-- A write to x0 changes no register. -/
theorem State.rx_wx_zero (s : State) (v : Val) (q : XReg) : (s.wx 0#5 v).rx q = s.rx q := by
  by_cases core : ∃ e c, s.cur = .fcore e c
  · obtain ⟨e, c, hc⟩ := core
    simp [State.wx, hc]
  · have noCore : ∀ e c, s.cur ≠ .fcore e c := fun e c hc => core ⟨e, c, hc⟩
    rw [State.rx_wx_of_noCore noCore, Thread.wr_zero, State.rx_of_noCore noCore]

/-- A write leaves every other register. -/
theorem State.rx_wx_ne (s : State) {r q : XReg} (v : Val) (ne : q ≠ r) : (s.wx r v).rx q = s.rx q := by
  by_cases zero : r = 0#5
  · rw [zero, State.rx_wx_zero]
  · by_cases core : ∃ e c, s.cur = .fcore e c
    · obtain ⟨e, c, hc⟩ := core
      rw [State.fcore_rx_wx hc zero, if_neg ne]
    · have noCore : ∀ e c, s.cur ≠ .fcore e c := fun e c hc => core ⟨e, c, hc⟩
      rw [State.rx_wx_of_noCore noCore, Thread.rd_wr _ _ _ _ zero, if_neg ne, State.rx_of_noCore noCore]

theorem State.rx_wx_self (s : State) {r : XReg} (nonzero : r ≠ 0#5) (v : Val) :
    ((s.wx r v).rx r).v = v.v ∧ (s.kind ≠ some .F → (s.wx r v).rx r = v) := by
  by_cases core : ∃ e c, s.cur = .fcore e c
  · obtain ⟨e, c, hc⟩ := core
    rw [State.fcore_rx_wx hc nonzero, if_pos rfl]
    exact ⟨rfl, fun thread => absurd (by simp [State.kind, hc]) thread⟩
  · have noCore : ∀ e c, s.cur ≠ .fcore e c := fun e c hc => core ⟨e, c, hc⟩
    rw [State.rx_wx_of_noCore noCore, Thread.rd_wr _ _ _ _ nonzero, if_pos rfl]
    exact ⟨rfl, fun _ => rfl⟩

/-! ## What computing in registers leaves -/

/-- Of a thread, a word that computes in registers changes a register, the flags, and what retiring changes. -/
theorem Thread.computed_frame (t : Thread) (f : BitVec 5) (r : XReg) (v pc : Val) :
    { t.computed f r v pc with x := t.x, sh := t.sh, fflags := t.fflags } = { t.retireAt pc with fflags := t.fflags } := by
  unfold Thread.computed Thread.wr
  split
  · rfl
  · split <;> rfl

theorem Thread.computed_fflags (t : Thread) (f : BitVec 5) (r : XReg) (v pc : Val) : (t.computed f r v pc).fflags = t.fflags ||| f := by
  rw [Thread.computed, Thread.retireAt_fflags, Thread.wr_fflags]

theorem Thread.rd_computed (t : Thread) (f : BitVec 5) {r q : XReg} (v pc : Val) (ne : q ≠ r) : (t.computed f r v pc).rd q = t.rd q := by
  rw [Thread.computed, Thread.rd_retireAt]
  by_cases zero : r = 0#5
  · rw [zero, Thread.wr_zero]
    rfl
  · rw [Thread.rd_wr _ _ _ _ zero, if_neg ne]
    rfl

theorem FCore.computed_x_ne (t : FCore) (f : BitVec 5) {r q : XReg} (v pc : Word) (ne : q ≠ r) :
    (t.computed f r v pc).x[q.toNat]'q.isLt = t.x[q.toNat]'q.isLt := by
  have apart : r.toNat ≠ q.toNat := fun h => ne (BitVec.eq_of_toNat_eq h.symm)
  by_cases zero : r = 0#5 <;> simp [FCore.computed, zero, apart]

theorem Pair.thr_setThr_ne (q : Pair) {k k' : Kind} (t : Thread) (ne : k' ≠ k) (notF : k ≠ .F) (notF' : k' ≠ .F) :
    (q.setThr k t).thr k' = q.thr k' :=
  match k, k' with
  | .A, .X => rfl
  | .X, .A => rfl
  | .A, .A => absurd rfl ne
  | .X, .X => absurd rfl ne
  | .F, _ => absurd rfl notF
  | .A, .F => absurd rfl notF'
  | .X, .F => absurd rfl notF'

end Sys2Proof.Machine

namespace Sys2Proof.Claims

open Sys2Proof.Machine Sys2Proof.Safety

theorem zeroRegisterAndRegisterFile : ZeroRegisterAndRegisterFile := by
  intro s r v
  refine ⟨s.rx_zero, s.wx_zero_val _ _, s.rx_wx_zero v, fun nonzero _ => s.rx_wx_self nonzero v, fun q ne => s.rx_wx_ne v ne, fun d c hc => ?_⟩
  rw [State.rx_of_fcore hc]
  split <;> rfl

/-- A word that computes in registers raises flags f (none unless it divides), writes v and goes on. -/
def Computes (i : Instr) (s : State) (d : XReg) : Prop :=
  ∃ f v, exec i s = .next ((s.orFlags f).wx d v).retire ∧ (f = 0#5 ∨ ∃ a b, i = .div_ d a b ∨ i = .divu d a b)

/-- Which registers a word names does not depend on what they hold. -/
theorem alu2_fields {A B : Word} {i : Instr} {x : XReg × XReg × XReg × Word} (h : alu2 A B i = some x) (A' B' : Word) :
    ∃ v, alu2 A' B' i = some (x.1, x.2.1, x.2.2.1, v) := by
  unfold alu2 at h
  split at h <;> cases h <;> exact ⟨_, rfl⟩
theorem alu1_fields {A : Word} {i : Instr} {x : XReg × XReg × Word} (h : alu1 A i = some x) (A' : Word) :
    ∃ v, alu1 A' i = some (x.1, x.2.1, v) := by
  unfold alu1 at h
  split at h <;> cases h <;> exact ⟨_, rfl⟩
theorem aluI_fields {A : Word} {i : Instr} {x : XReg × XReg × Word} (h : aluI A i = some x) (A' : Word) :
    ∃ v, aluI A' i = some (x.1, x.2.1, v) := by
  unfold aluI at h
  split at h <;> cases h <;> exact ⟨_, rfl⟩
theorem mul2_fields {A B : Word} {i : Instr} {x : XReg × XReg × XReg × Word} (h : mul2 A B i = some x) (A' B' : Word) :
    (∃ v, mul2 A' B' i = some (x.1, x.2.1, x.2.2.1, v)) ∧ (mulFlags A' B' i = 0#5 ∨ ∃ a b, i = .div_ x.1 a b ∨ i = .divu x.1 a b) := by
  unfold mul2 at h
  split at h <;> cases h <;> refine ⟨⟨_, rfl⟩, ?_⟩
  · exact .inl rfl
  · exact .inl rfl
  · exact .inl rfl
  · exact .inl rfl
  · exact .inr ⟨_, _, .inl rfl⟩
  · exact .inr ⟨_, _, .inr rfl⟩
  · exact .inl rfl
  · exact .inl rfl

theorem computes_of_registerOnly {A B : Word} {i : Instr} {s : State} {d : XReg} (h : registerOnly A B i = some d) (issues : Issues i s) :
    Computes i s d := by
  have flagless {v : Val} (runs : exec i s = .next (s.wx d v).retire) : Computes i s d :=
    ⟨0#5, v, by rw [State.orFlags_zero_wx_retire _ _ (kind_isSome_of_issues issues), runs], .inl rfl⟩
  unfold registerOnly at h
  split at h <;> cases h
  · obtain ⟨v, named⟩ := alu2_fields ‹_› (s.rx _).v (s.rx _).v
    exact flagless (exec_alu2 issues named)
  · obtain ⟨v, named⟩ := alu1_fields ‹_› (s.rx _).v
    exact flagless (exec_alu1 issues named)
  · obtain ⟨v, named⟩ := aluI_fields ‹_› (s.rx _).v
    exact flagless (exec_aluI issues named)
  · obtain ⟨⟨v, named⟩, flags⟩ := mul2_fields ‹_› (s.rx _).v (s.rx _).v
    exact ⟨_, _, exec_mul2 issues named, flags⟩
  · exact flagless (exec_lui _ _ issues)
  · exact flagless (exec_luh _ _ issues)
  · exact flagless (exec_adpc _ _ issues)
  · exact flagless (exec_tagset _ _ _ issues)
  · exact flagless (exec_tagrd _ _ issues)
  · exact flagless (exec_rgnq _ _ _ issues)

theorem registerOnlyFrame : RegisterOnlyFrame := by
  intro i s t A B d h issues run
  obtain ⟨f, v, runs, flags⟩ := computes_of_registerOnly h issues
  obtain rfl : ((s.orFlags f).wx d v).retire = t := Host.Outcome.next.inj (runs.symm.trans run)
  match hc : s.cur with
  | .thr p k =>
    rw [State.computed_of_thr hc]
    refine ⟨fun r ne => ?_, fun _ => rfl, rfl, fun p' k' hc' => ?_, fun e c hc' => by cases hc'⟩
    · rw [State.rx_updThr hc, Thread.rd_computed _ _ _ _ ne, State.rx_of_cur hc]
    · cases hc'
      refine ⟨rfl, fun p' ne => State.updThr_pair_ne s _ _ ne, fun k' ne notF' notF => ?_, fun notF => ?_, fun notDiv notDivu => ?_⟩
      · rw [State.updThr_pair_self, Pair.thr_setThr_ne _ _ ne notF notF']
      · rw [State.updThr_pair_self, Pair.setThr_thr, State.thr_of_cur hc]
        exact Thread.computed_frame ..
      · obtain rfl : f = 0#5 := flags.resolve_right (by
          rintro ⟨a, b, rfl | rfl⟩
          · exact notDiv rfl
          · exact notDivu rfl)
        rw [State.updThr_pair_self, Pair.setThr_thr, Thread.computed_fflags, BitVec.or_zero, State.thr_of_cur hc]
  | .fcore e c =>
    rw [State.computed_of_fcore hc]
    refine ⟨fun r ne => ?_, fun _ => rfl, rfl, fun p k hc' => (by cases hc'), fun e' c' hc' => ?_⟩
    · rw [State.rx_of_fcore (s := s.updF ..) hc, State.fcore_updF, FCore.computed_x_ne _ _ _ _ ne, State.rx_of_fcore hc]
    · cases hc'
      exact ⟨rfl, fun e' ne => State.updF_die_ne s _ _ ne⟩
  | .lanes p => simpa [State.kind, hc] using kind_isSome_of_issues issues
  | .engine p => simpa [State.kind, hc] using kind_isSome_of_issues issues
  | .nobody => simpa [State.kind, hc] using kind_isSome_of_issues issues

/-- Settles O5, from what a word that computes in registers does to a thread and to a firmware core (`Computes`, `computed_of_thr`,
`computed_of_fcore`). -/
theorem registerFileAndFrame : Obligations.RegisterFileAndFrame := ⟨zeroRegisterAndRegisterFile, registerOnlyFrame⟩

end Sys2Proof.Claims
end
